-- ==== Sys2Proof/Word.lean ====
section
/-! DEFINITION. The word types of the KS412 and fixed-size tables. -/

namespace Sys2Proof

/-- One byte of a frame, a page or a field (10, R170). -/
abbrev Byte := BitVec 8

/-- A 32-bit count, counter value, threshold, delta or define stamp (10, R170). -/
abbrev Word32 := BitVec 32

/-- `f` applied to every place of a table of `n` places. -/
def mapTable {α β : Type} {n : Nat} (f : α → β) (v : Vector α n) : Vector β n :=
  ⟨⟨v.toList.map f⟩, by simp⟩

/-- The table that holds `f i` at each place `i`. -/
def tabulate {α : Type} (n : Nat) (f : Fin n → α) : Vector α n :=
  ⟨⟨(List.finRange n).map f⟩, by simp⟩

end Sys2Proof
end

