-- ==== Sys2Proof/Syntax.lean ====
section
/-! DEFINITION. The commands the KS412 takes: one constructor of `Instr` for each row of
spec/opcode_table.json, and the types of their operands. -/

namespace Sys2Proof

/-- The three ports (00, CONVENTIONS). -/
inductive Port where
  | p0
  | p1
  | p2
deriving DecidableEq, Repr

/-- A tag, 0 to 3 (07, R124). -/
abbrev Tag := Fin 4

/-- A record handle, 0 to 47 (01, R1). -/
abbrev Handle := Fin 48

/-- A lease entry: place n stands for entry number n + 1, of entries 1 to 6 (03, R43). -/
abbrev EntryNo := Fin 6

/-- The number of a watch table entry, 0 to 15 (06, R102). -/
abbrev WatchNo := Fin 16

/-- The strap pins, high = true: bus modes, I2C address and configuration port (07, R119; 00, PIN SUMMARY). -/
structure Straps where
  mode0 : Bool
  mode1 : Bool
  mode2 : Bool
  adrs : Bool
  cfg0 : Bool
  cfg1 : Bool
deriving DecidableEq, Repr

/-- What an I2C read transaction returns (07, R123). -/
inductive Selection where
  | fetchResponse
  | fetchNotice
  | status
deriving DecidableEq, Repr

/-- The commands. A request command names the port alone: the request it hands over is that port's
oldest placed request, and its fields are in the frame its tag slot holds (07, R125, R126). -/
inductive Instr where
  /-- POWER_UP, with the strap levels sampled. -/
  | powerUp (straps : Straps)
  | powerLoss
  | resetnAssert
  /-- RESETN_RELEASE, with the strap levels sampled. -/
  | resetnRelease (straps : Straps)
  | scanEnd
  /-- A transaction opened by `code`, followed by `extra` whole bytes. -/
  | unknownCodeByte (p : Port) (code : Byte) (extra : Nat)
  /-- A SUBMIT transaction; `frame` is every whole byte after the code byte. -/
  | submit (p : Port) (frame : List Byte)
  /-- A fetch in which `n` whole bytes are clocked after the code byte (SPI) or the address (I2C). -/
  | fetchResponse (p : Port) (n : Nat)
  | fetchNotice (p : Port) (n : Nat)
  | status (p : Port) (n : Nat)
  | readCommitted (p : Port)
  | readWithToken (p : Port)
  | acquire (p : Port)
  | stage (p : Port)
  | addWithToken (p : Port)
  | addWithoutToken (p : Port)
  | commit (p : Port)
  | release (p : Port)
  | renew (p : Port)
  | cancel (p : Port)
  | watch (p : Port)
  | unwatch (p : Port)
  | inquire (p : Port)
  | define (p : Port)
  | retire (p : Port)
  | setRights (p : Port)
  | freeze (p : Port)
  | deviceInfo (p : Port)
  | setAttention (p : Port)
  | portReset (p : Port)
  | unknownRequestKind (p : Port)
  | factoryClear (p : Port)
  | bulkEraseEnd
  /-- The hold timer of lease entry `e` runs out. -/
  | holdExpiry (e : EntryNo)
  /-- The wait timer of the ACQUIRE that waits in tag `t` of port `p` runs out. -/
  | waitExpiry (p : Port) (t : Tag)
  | pageMatch
  | pageMismatch
  | eraseEnd
  /-- An I2C write transaction that selects `sel`, followed by `extra` whole bytes. -/
  | readSelection (p : Port) (sel : Selection) (extra : Nat)
deriving DecidableEq, Repr

end Sys2Proof
end

