-- ==== Sys2Proof/Machine/Bytes.lean ====
section
/-! DEFINITION. Byte order, the CRC-8 and CRC-16 of 02 R30, slices of byte lists, and the saturating
counts and counter arithmetic. -/

namespace Sys2Proof.Machine

/-- Two bytes, most significant first (10, R170). -/
def be2 (w : BitVec 16) : List Byte := [w.extractLsb' 8 8, w.extractLsb' 0 8]

/-- Four bytes, most significant first (10, R170). -/
def be4 (w : Word32) : List Byte :=
  [w.extractLsb' 24 8, w.extractLsb' 16 8, w.extractLsb' 8 8, w.extractLsb' 0 8]

/-- The word that four bytes hold, most significant first. -/
def word32 (b0 b1 b2 b3 : Byte) : Word32 := b0 ++ b1 ++ b2 ++ b3

/-- Byte `i` of a list, 00h past its end. -/
def byteAt (l : List Byte) (i : Nat) : Byte := l.getD i 0#8

/-- The word that bytes `i` to `i + 3` hold, most significant first. -/
def word32At (l : List Byte) (i : Nat) : Word32 :=
  word32 (byteAt l i) (byteAt l (i + 1)) (byteAt l (i + 2)) (byteAt l (i + 3))

/-- The 16-bit word that bytes `i` and `i + 1` hold, most significant first. -/
def word16At (l : List Byte) (i : Nat) : BitVec 16 := byteAt l i ++ byteAt l (i + 1)

/-- Bytes `off` to `off + n - 1`. -/
def slice (l : List Byte) (off n : Nat) : List Byte := (l.drop off).take n

/-- `l` with `data` in place of its bytes from `off` on (04, R74). -/
def overwrite (l : List Byte) (off : Nat) (data : List Byte) : List Byte :=
  l.take off ++ data ++ l.drop (off + data.length)

/-- The first `n` bytes of `l`, filled up with `fill`. -/
def padTo (fill : Byte) (n : Nat) (l : List Byte) : List Byte :=
  l.take n ++ List.replicate (n - l.length) fill

/-- One bit of the CRC-8: polynomial 07h, most significant bit first (02, R30). -/
def crc8Bit (c : Byte) : Byte := if c.msb then (c <<< 1) ^^^ 0x07#8 else c <<< 1

def crc8Step (c b : Byte) : Byte :=
  crc8Bit (crc8Bit (crc8Bit (crc8Bit (crc8Bit (crc8Bit (crc8Bit (crc8Bit (c ^^^ b))))))))

/-- The CRC-8: initial value FFh, no final inversion (02, R30; 10, R170). -/
def crc8 (l : List Byte) : Byte := l.foldl crc8Step 0xFF#8

/-- One bit of the CRC-16: polynomial 1021h, most significant bit first (02, R30). -/
def crc16Bit (c : BitVec 16) : BitVec 16 := if c.msb then (c <<< 1) ^^^ 0x1021#16 else c <<< 1

def crc16Step (c : BitVec 16) (b : Byte) : BitVec 16 :=
  crc16Bit (crc16Bit (crc16Bit (crc16Bit (crc16Bit (crc16Bit (crc16Bit (crc16Bit
    (c ^^^ (b ++ 0#8)))))))))

/-- The CRC-16: initial value FFFFh, no final inversion (02, R30). -/
def crc16 (l : List Byte) : BitVec 16 := l.foldl crc16Step 0xFFFF#16

/-- A count one higher that stays at 255 (01, R3; 06, R117). -/
def satInc (c : Byte) : Byte := if c = 0xFF#8 then c else c + 1#8

/-- A counter value changed by a signed delta, clamped at 0 and 4,294,967,295, and whether it was
clamped (04, R77). -/
def addDelta (value delta : Word32) : Word32 × Bool :=
  let sum : Int := (value.toNat : Int) + delta.toInt
  if sum < 0 then (0#32, true)
  else if sum > 4294967295 then (4294967295#32, true)
  else (BitVec.ofNat 32 sum.toNat, false)

/-- The generation that no commit passes: 4,294,967,295 (01, R10; 02, R38). -/
def genSpentMark : Word32 := 4294967295#32

end Sys2Proof.Machine
end

