-- ==== Sys2Proof/Config.lean ====
section
/-! DEFINITION. What the spec fixes for the part and the free values it leaves open. -/

namespace Sys2Proof

/-- A byte of a page that the spec calls indeterminate (02, R25, R26): nothing constrains it.
Each indeterminate byte takes the next index (log entry 6). -/
opaque Config.freeByte : Nat → Byte

/-- How many pages of its two sweeps a bulk erase had finished when a reset fell in it (09, R169):
nothing constrains it (log entry 7). -/
opaque Config.freeSweep : Nat → Nat

/-- The part code of the KS412 (08, R152). -/
def Config.partCode : BitVec 16 := 0x019C#16

/-- The revision of the parts the reference describes (08, R152). -/
def Config.revision : Byte := 1#8

end Sys2Proof
end

