-- ==== Sys2Proof/Machine/State.lean ====
section
/-! DEFINITION. The state of the KS412 as plain data, its faults and refusals, and `State.reset`. -/

namespace Sys2Proof.Machine

/-- One value for each of the three ports. -/
structure PerPort (α : Type) where
  p0 : α
  p1 : α
  p2 : α
deriving DecidableEq, Repr

/-- A rights set: any subset of READ, UPDATE and WATCH (01, R1). -/
structure Rights where
  read : Bool
  update : Bool
  watch : Bool
deriving DecidableEq, Repr

/-- PLAIN or COUNTER (01, R1). -/
inductive RecKind where
  | plain
  | counter
deriving DecidableEq, Repr

/-- One of the two copies of a record, or of the two directory regions. -/
inductive Copy where
  | a
  | b
deriving DecidableEq, Repr

/-- The persistent fields of a record entry (01, R1). The handle is the place of the entry. -/
structure RecEntry where
  label : Word32
  kind : RecKind
  size : Byte
  holdLimit : Byte
  rights : PerPort Rights
  frozen : Bool
  stamp : Word32
  pageA : Fin 2048
  pageB : Fin 2048
deriving DecidableEq, Repr

/-- The 23 status codes (08, R151). -/
inductive Status where
  | ok | unchanged | saturated | notReady | malformed | noRecord | denied | range | wrongKind
  | busy | timeout | cancelled | notFound | leaseGone | limit | frozen | inUse | existsAlready
  | noSpace | noRoom | storeFault | genSpent | cleared
deriving DecidableEq, Repr

/-- A completion: status code and response body (07, R128). -/
structure Response where
  code : Status
  body : List Byte
deriving DecidableEq, Repr

/-- A tag slot (07, R127). `serial` names this one placing of a request (R128, log entry 10). -/
inductive Slot where
  | free
  | pending (serial : Nat) (kind : Byte) (body : List Byte)
  | done (response : Response)
deriving DecidableEq, Repr

/-- The request that a completion answers: its port, its tag and the placing that put it there. -/
structure Ticket where
  port : Port
  tag : Tag
  serial : Nat
deriving DecidableEq, Repr

/-- A lease token: entry part and count part (03, R46). -/
structure Token where
  entry : Byte
  count : Byte
deriving DecidableEq, Repr

/-- The mode of a watch, with the threshold that RISE and FALL carry (06, R102). -/
inductive WatchMode where
  | any
  | rise (threshold : Word32)
  | fall (threshold : Word32)
deriving DecidableEq, Repr

/-- One watch (06, R102). -/
structure Watch where
  port : Port
  handle : Handle
  mode : WatchMode
  self : Bool
deriving DecidableEq, Repr

/-- STARTING, READY, DAMAGED or CLEARING (09, R154). -/
inductive DevState where
  | starting
  | ready
  | damaged
  | clearing
deriving DecidableEq, Repr

/-- The phase of a factory clear (09, R154). -/
inductive ClearPhase where
  | draining
  | erasing
deriving DecidableEq, Repr

/-- The clear slot when it is not empty (09, R154). -/
structure ClearSlot where
  ticket : Ticket
  phase : ClearPhase
deriving DecidableEq, Repr

/-- RISE or FALL, as a THRESHOLD notice carries it (10, R177). -/
inductive Crossing where
  | rise
  | fall
deriving DecidableEq, Repr

/-- What a STORE_FAULT notice names (05, R91). -/
inductive Subject where
  | record (h : Handle)
  | directory
deriving DecidableEq, Repr

/-- The eight notice kinds with their fields (06, R115). -/
inductive Notice where
  | changed (h : Handle) (gen : Word32) (by_ : Port)
  | threshold (h : Handle) (number : WatchNo) (mode : Crossing) (value gen : Word32)
  | retired (h : Handle)
  | leaseExpired (token : Token) (h : Handle)
  | leaseRevoked (token : Token) (h : Handle)
  | storeFault (subject : Subject) (page : Nat) (gen : Word32)
  | ready (dev : DevState)
  | lost (count : Byte)
deriving DecidableEq, Repr

/-- What a port drove on its bus in its last transaction: the bytes on MISO or SDA, and in I2C mode the
acknowledge bits it gave, the address's first (07, R121 to R123; log entry 12). -/
structure BusRecord where
  bytes : List Byte
  acks : List Bool
deriving DecidableEq, Repr

/-- What one Port Engine holds (07, R120). -/
structure PortState where
  slots : Vector Slot 4
  /-- The completion FIFO, oldest first (07, R129). -/
  fifo : List Tag
  /-- The tags of the placed requests not yet handed over, oldest first (07, R126). -/
  handOrder : List Tag
  /-- The notice queue, oldest first (06, R116). -/
  notices : List Notice
  lost : Byte
  frameError : Bool
  tagCollision : Bool
  maskResponses : Bool
  maskNotices : Bool
  selection : Selection
  bus : BusRecord
deriving DecidableEq, Repr

/-- A waiting request's type (03, R49): an ACQUIRE with the units its wait timer has left (R50), or an
ADD with its signed delta in two's complement. -/
inductive WaitType where
  | acquire (left : Nat)
  | add (delta : Word32)
deriving DecidableEq, Repr

/-- One entry of a wait queue (03, R49). -/
structure Waiter where
  ticket : Ticket
  type : WaitType
deriving DecidableEq, Repr

/-- All that the blocks hold for one handle: its entry, the Directory's volatile fields (01, R2), the
Store Array's two values (02, R32; none and 0 before the end of the scan, log entry 24) and the Lease
Controller's wait queue (03, R49). -/
structure RecState where
  entry : Option RecEntry
  freezePending : Bool
  retirePending : Bool
  faultCount : Byte
  active : Option Copy
  gen : Word32
  waiters : List Waiter
deriving DecidableEq, Repr

/-- HELD or COMMITTING (03, R43). -/
inductive LeasePhase where
  | held
  | committing
deriving DecidableEq, Repr

/-- EXPLICIT or IMPLICIT (03, R43). -/
inductive LeaseForm where
  | explicit
  | implicit
deriving DecidableEq, Repr

/-- The fields of a lease entry that is not FREE (03, R43), with its grant rights (08, R146).
`timer` is the units the hold timer has left, or none when it is stopped. -/
structure Lease where
  phase : LeasePhase
  handle : Handle
  holder : Port
  form : LeaseForm
  timer : Option Nat
  renewals : Nat
  modified : Bool
  answer : Option Ticket
  grantRights : Rights
deriving DecidableEq, Repr

/-- A lease entry; `lease` is none in FREE (03, R43). -/
structure LeaseEntry where
  issue : Byte
  lease : Option Lease
deriving DecidableEq, Repr

/-- A staging buffer: 240 bytes and the clamp mark (04, R70). -/
structure Buffer where
  bytes : List Byte
  clamped : Bool
deriving DecidableEq, Repr

/-- DEFINE, RETIRE, SET-RIGHTS or FREEZE, as a directory job carries it (05, R83). -/
inductive DirKind where
  | define
  | retire
  | setRights
  | freeze
deriving DecidableEq, Repr

/-- A job of the commit queue (05, R83). `pages` is the number of pages per copy. -/
inductive Job where
  | record (entry : EntryNo) (handle : Handle) (target : Copy) (first : Nat) (pages : Nat) (gen : Word32)
  | directory (kind : DirKind) (target : Copy) (gen : Word32)
deriving DecidableEq, Repr

/-- The Commit Engine (05, R85). `pos` is the page position, 1 to the job's page count. -/
inductive Engine where
  | idle
  | programming (pos : Nat) (retry : Bool)
  /-- `failing` is the array number of the page that mismatched twice (05, R90). -/
  | erasing (pos : Nat) (failing : Nat)
deriving DecidableEq, Repr

/-- The operation and operands of the directory job slot (01, R11). DEFINE holds the entry to be made;
its define stamp is the job's generation and is set at the commit point. -/
inductive DirOp where
  | define (entry : RecEntry)
  | retire
  | setRights (rights : PerPort Rights)
  | freeze
deriving DecidableEq, Repr

/-- The directory job slot when it is occupied (01, R11). -/
structure DirJob where
  op : DirOp
  handle : Handle
  ticket : Ticket
deriving DecidableEq, Repr

/-- The condition of a record-area page (01, R7). -/
inductive PageCond where
  | free
  | reserved
  | inUse
deriving DecidableEq, Repr

/-- The whole state of the KS412. -/
structure State where
  /-- The commands that wait, first in, first out. -/
  pending : List Instr
  /-- The supply is within its operating range (09, R155, R156). -/
  supply : Bool
  /-- RESETn is at its low level (07, R120; 09, R156). -/
  resetLow : Bool
  straps : Straps
  dev : DevState
  clear : Option ClearSlot
  ports : PerPort PortState
  /-- The serial the next placed request takes (log entry 10). -/
  serial : Nat
  /-- The store: byte a of page n stands at address 32n + a; what is not listed reads as FFh (02, R23). -/
  store : List Host.Cell
  /-- The active directory copy (02, R41); none before the end of the scan and in DAMAGED (log entry 24). -/
  activeDir : Option Copy
  /-- The directory generation (01, R10); 0 before the end of the scan and in DAMAGED (log entry 24). -/
  dirGen : Word32
  dirSlot : Option DirJob
  /-- The page map: none when it is not built; a page not listed is FREE (01, R7). -/
  pageMap : Option (List (Nat × PageCond))
  records : Vector RecState 48
  leases : Vector LeaseEntry 6
  buffers : Vector Buffer 6
  /-- The allocation queue, oldest first (03, R51). -/
  allocQueue : List Handle
  /-- The commit queue, oldest first (05, R83). -/
  queue : List Job
  engine : Engine
  watches : Vector (Option Watch) 16
  /-- The index of the next free value (log entry 6). -/
  freeIndex : Nat
deriving DecidableEq, Repr

/-- Why the block stops. -/
inductive Fault where
  /-- Raised by PAGE_MATCH, PAGE_MISMATCH and ERASE_END when the page they would change is above 2047, which
  02, R23 says does not exist. Safe: no run from `State.reset` reaches such a state (log entry 15). -/
  | noSuchPage (page : Nat)
deriving DecidableEq, Repr

/-- Why a command is refused. -/
inductive Refusal where
  /-- Raised by `exec` for a command that has no meaning yet. Safe: the run stops there. No arm raises it. -/
  | notModelled (mnemonic : String)
deriving DecidableEq, Repr

/-- A Port Engine at the sampling of the straps (07, R120). -/
def PortState.start : PortState where
  slots := Vector.replicate 4 .free
  fifo := []
  handOrder := []
  notices := []
  lost := 0#8
  frameError := false
  tagCollision := false
  maskResponses := true
  maskNotices := true
  selection := .status
  bus := ⟨[], []⟩

/-- A handle with no entry (01, R4: UNDEFINED). -/
def RecState.blank : RecState where
  entry := none
  freezePending := false
  retirePending := false
  faultCount := 0#8
  active := none
  gen := 0#32
  waiters := []

/-- A lease entry after power-up and RESETn release (03, R45). -/
def LeaseEntry.start : LeaseEntry := ⟨0#8, none⟩

/-- An empty staging buffer (04, R70). -/
def Buffer.empty : Buffer := ⟨List.replicate 240 0#8, false⟩

/-- The state right after a RESETn release of a device as delivered (09, R156): STARTING, the scan
running, the store erased, every strap low (log entry 5). What 09, R156 calls not yet set until the scan ends
(directory generation, active directory copy, active copies, committed generations) stands at 0 and none: DESIGN
CHOICE, unsafe (log entry 24). -/
def State.reset : State where
  pending := []
  supply := true
  resetLow := false
  straps := ⟨false, false, false, false, false, false⟩
  dev := .starting
  clear := none
  ports := ⟨PortState.start, PortState.start, PortState.start⟩
  serial := 0
  store := []
  activeDir := none
  dirGen := 0#32
  dirSlot := none
  pageMap := none
  records := Vector.replicate 48 RecState.blank
  leases := Vector.replicate 6 LeaseEntry.start
  buffers := Vector.replicate 6 Buffer.empty
  allocQueue := []
  queue := []
  engine := .idle
  watches := Vector.replicate 16 none
  freeIndex := 0

end Sys2Proof.Machine
end

