-- ==== Sys2Proof/Machine/Operands.lean ====
section
/-! DEFINITION. The field encodings of every frame (10, R170), the transaction codes (R171), the request
kinds with their body layouts (R173, R174), and the judgement of a request frame (07, R124). -/

namespace Sys2Proof.Machine

/-- The value of a PerPort at a port. -/
def PerPort.get {α : Type} (x : PerPort α) : Port → α
  | .p0 => x.p0
  | .p1 => x.p1
  | .p2 => x.p2

/-- `x` with `v` at a port. -/
def PerPort.set {α : Type} (x : PerPort α) (p : Port) (v : α) : PerPort α :=
  match p with
  | .p0 => { x with p0 := v }
  | .p1 => { x with p1 := v }
  | .p2 => { x with p2 := v }

/-- The four transaction kinds: SUBMIT, and the three that return an item (07, R121). -/
inductive TransKind where
  | submit
  | item (sel : Selection)
deriving DecidableEq, Repr

/-- The transaction kind that a code byte selects, none for any other byte (10, R171). -/
def toTransKind (code : Byte) : Option TransKind :=
  if code = 0xC1#8 then some .submit
  else if code = 0xC2#8 then some (.item .fetchResponse)
  else if code = 0xC3#8 then some (.item .fetchNotice)
  else if code = 0xC4#8 then some (.item .status)
  else none

/-- A port as a field (10, R170). -/
def portByte : Port → Byte
  | .p0 => 0x00#8
  | .p1 => 0x01#8
  | .p2 => 0x02#8

/-- A port or none as a field (10, R170). -/
def portOrNoneByte : Option Port → Byte
  | some p => portByte p
  | none => 0xFE#8

/-- The port and rights value that says "not given" (10, R170, R176). -/
def notGivenByte : Byte := 0xFF#8

/-- A handle as a field (10, R170). -/
def handleByte (h : Handle) : Byte := BitVec.ofNat 8 h.val

/-- Whether a handle byte is 0 to 47 (08, R145). -/
def isHandle (b : Byte) : Bool := decide (b.toNat < 48)

/-- The handle that a byte names. It is used only once `isHandle` holds; a byte above 47 has been
answered NO_RECORD. -/
def toHandle (b : Byte) : Handle := ⟨b.toNat % 48, Nat.mod_lt _ (by decide)⟩

/-- The token 0 of READ and ADD (03, R46). -/
def Token.isZero (t : Token) : Bool := t.entry == 0#8 && t.count == 0#8

/-- A token as a field (10, R170). -/
def tokenBytes (t : Token) : List Byte := [t.entry, t.count]

/-- The entry that a token's entry part names, if any (03, R46). -/
def tokenEntry (t : Token) : Option EntryNo :=
  if h : 1 ≤ t.entry.toNat ∧ t.entry.toNat ≤ 6 then some ⟨t.entry.toNat - 1, by omega⟩ else none

/-- A rights set as a field: bit 0 READ, bit 1 UPDATE, bit 2 WATCH (10, R170). -/
def rightsByte (r : Rights) : Byte :=
  0#5 ++ BitVec.ofBool r.watch ++ BitVec.ofBool r.update ++ BitVec.ofBool r.read

/-- Whether a rights byte names nothing but READ, UPDATE and WATCH (10, R170). -/
def rightsInRange (b : Byte) : Bool := b &&& 0xF8#8 == 0#8

/-- The rights set that a byte in range names. -/
def toRights (b : Byte) : Rights := ⟨b.getLsbD 0, b.getLsbD 1, b.getLsbD 2⟩

/-- A rights set holds at least one right (01, R5). -/
def Rights.visible (r : Rights) : Bool := r.read || r.update || r.watch

/-- A record kind as a field (10, R170). -/
def kindByte : RecKind → Byte
  | .plain => 0x01#8
  | .counter => 0x02#8

/-- The record kind that a byte names. -/
def toKind (b : Byte) : Option RecKind :=
  if b = 0x01#8 then some .plain else if b = 0x02#8 then some .counter else none

/-- The watch mode that a mode byte and a threshold name (10, R170; 06, R104). -/
def toMode (b : Byte) (threshold : Word32) : Option WatchMode :=
  if b = 0x01#8 then some .any
  else if b = 0x02#8 then some (.rise threshold)
  else if b = 0x03#8 then some (.fall threshold)
  else none

/-- The self setting that a byte names (10, R170). -/
def toSelf (b : Byte) : Option Bool :=
  if b = 0x00#8 then some false else if b = 0x01#8 then some true else none

/-- The mode of a THRESHOLD notice as a field (10, R177). -/
def crossingByte : Crossing → Byte
  | .rise => 0x02#8
  | .fall => 0x03#8

/-- A device state as a field (10, R170). -/
def devStateByte : DevState → Byte
  | .starting => 0x00#8
  | .ready => 0x01#8
  | .damaged => 0x02#8
  | .clearing => 0x03#8

/-- A lease state as a field; none is FREE (10, R170). -/
def leaseStateByte : Option LeasePhase → Byte
  | none => 0x00#8
  | some .held => 0x01#8
  | some .committing => 0x02#8

/-- The code byte of each status code (10, R176). -/
def statusByte : Status → Byte
  | .ok => 0x00#8
  | .unchanged => 0x01#8
  | .saturated => 0x02#8
  | .notReady => 0x10#8
  | .malformed => 0x11#8
  | .noRecord => 0x12#8
  | .denied => 0x13#8
  | .range => 0x14#8
  | .wrongKind => 0x15#8
  | .busy => 0x16#8
  | .timeout => 0x17#8
  | .cancelled => 0x18#8
  | .notFound => 0x19#8
  | .leaseGone => 0x1A#8
  | .limit => 0x1B#8
  | .frozen => 0x1C#8
  | .inUse => 0x1D#8
  | .existsAlready => 0x1E#8
  | .noSpace => 0x1F#8
  | .noRoom => 0x20#8
  | .storeFault => 0x21#8
  | .genSpent => 0x22#8
  | .cleared => 0x23#8

/-- The 19 request kinds (08, R143). -/
inductive ReqKind where
  | read | acquire | stage | add | commit | release | renew | cancel
  | watch | unwatch | inquire
  | define | retire | setRights | freeze
  | deviceInfo | setAttention | portReset | factoryClear
deriving DecidableEq, Repr

/-- The kind that a kind code names (10, R174). -/
def toReqKind (b : Byte) : Option ReqKind :=
  if b = 0x10#8 then some .read
  else if b = 0x11#8 then some .acquire
  else if b = 0x12#8 then some .stage
  else if b = 0x13#8 then some .add
  else if b = 0x14#8 then some .commit
  else if b = 0x15#8 then some .release
  else if b = 0x16#8 then some .renew
  else if b = 0x17#8 then some .cancel
  else if b = 0x20#8 then some .watch
  else if b = 0x21#8 then some .unwatch
  else if b = 0x22#8 then some .inquire
  else if b = 0x30#8 then some .define
  else if b = 0x31#8 then some .retire
  else if b = 0x32#8 then some .setRights
  else if b = 0x33#8 then some .freeze
  else if b = 0x40#8 then some .deviceInfo
  else if b = 0x41#8 then some .setAttention
  else if b = 0x42#8 then some .portReset
  else if b = 0x43#8 then some .factoryClear
  else none

/-- Whether a body length is right for a kind (10, R174). -/
def lengthRight : ReqKind → Nat → Bool
  | .read, n => n == 5
  | .acquire, n => n == 2
  | .stage, n => decide (4 ≤ n) && decide (n ≤ 35)
  | .add, n => n == 7
  | .commit, n => n == 2
  | .release, n => n == 2
  | .renew, n => n == 2
  | .cancel, n => n == 1
  | .watch, n => n == 7
  | .unwatch, n => n == 1
  | .inquire, n => n == 1
  | .define, n => n == 11
  | .retire, n => n == 1
  | .setRights, n => n == 4
  | .freeze, n => n == 1
  | .deviceInfo, n => n == 0
  | .setAttention, n => n == 1
  | .portReset, n => n == 0
  | .factoryClear, n => n == 0

/-- The fields a DEFINE carries (01, R13; 10, R174). -/
structure DefineFields where
  handle : Byte
  label : Word32
  kind : Byte
  size : Byte
  holdLimit : Byte
  rights : PerPort Byte
deriving DecidableEq, Repr

/-- A well-formed request with its body fields, not yet judged against their ranges. -/
inductive Req where
  | read (handle : Byte) (token : Token) (offset length : Byte)
  | acquire (handle waitLimit : Byte)
  | stage (token : Token) (offset : Byte) (data : List Byte)
  | add (handle : Byte) (token : Token) (delta : Word32)
  | commit (token : Token)
  | release (token : Token)
  | renew (token : Token)
  | cancel (target : Byte)
  | watch (handle mode : Byte) (threshold : Word32) (self : Byte)
  | unwatch (number : Byte)
  | inquire (handle : Byte)
  | define (fields : DefineFields)
  | retire (handle : Byte)
  | setRights (handle : Byte) (rights : PerPort Byte)
  | freeze (handle : Byte)
  | deviceInfo
  | setAttention (mask : Byte)
  | portReset
  | factoryClear
deriving DecidableEq, Repr

/-- The token at bytes `i` and `i + 1` of a body. -/
def tokenAt (body : List Byte) (i : Nat) : Token := ⟨byteAt body i, byteAt body (i + 1)⟩

/-- The body fields of a request, in the order of 10, R174. -/
def bodyFields (body : List Byte) : ReqKind → Req
  | .read => .read (byteAt body 0) (tokenAt body 1) (byteAt body 3) (byteAt body 4)
  | .acquire => .acquire (byteAt body 0) (byteAt body 1)
  | .stage => .stage (tokenAt body 0) (byteAt body 2) (body.drop 3)
  | .add => .add (byteAt body 0) (tokenAt body 1) (word32At body 3)
  | .commit => .commit (tokenAt body 0)
  | .release => .release (tokenAt body 0)
  | .renew => .renew (tokenAt body 0)
  | .cancel => .cancel (byteAt body 0)
  | .watch => .watch (byteAt body 0) (byteAt body 1) (word32At body 2) (byteAt body 6)
  | .unwatch => .unwatch (byteAt body 0)
  | .inquire => .inquire (byteAt body 0)
  | .define => .define
      { handle := byteAt body 0, label := word32At body 1, kind := byteAt body 5, size := byteAt body 6,
        holdLimit := byteAt body 7, rights := ⟨byteAt body 8, byteAt body 9, byteAt body 10⟩ }
  | .retire => .retire (byteAt body 0)
  | .setRights => .setRights (byteAt body 0) ⟨byteAt body 1, byteAt body 2, byteAt body 3⟩
  | .freeze => .freeze (byteAt body 0)
  | .deviceInfo => .deviceInfo
  | .setAttention => .setAttention (byteAt body 0)
  | .portReset => .portReset
  | .factoryClear => .factoryClear

/-- The request that a kind code and a body form, when the kind is known and the length is right for it
(08, R143, admission step 2). -/
def parseReq (kind : Byte) (body : List Byte) : Option Req :=
  match toReqKind kind with
  | none => none
  | some k => if lengthRight k body.length then some (bodyFields body k) else none

/-- The kind of a well-formed request. -/
def Req.kind : Req → ReqKind
  | .read .. => .read
  | .acquire .. => .acquire
  | .stage .. => .stage
  | .add .. => .add
  | .commit .. => .commit
  | .release .. => .release
  | .renew .. => .renew
  | .cancel .. => .cancel
  | .watch .. => .watch
  | .unwatch .. => .unwatch
  | .inquire .. => .inquire
  | .define .. => .define
  | .retire .. => .retire
  | .setRights .. => .setRights
  | .freeze .. => .freeze
  | .deviceInfo => .deviceInfo
  | .setAttention .. => .setAttention
  | .portReset => .portReset
  | .factoryClear => .factoryClear

/-- A request frame that the Port Engine found good. -/
structure GoodFrame where
  tag : Tag
  kind : Byte
  body : List Byte
deriving DecidableEq, Repr

/-- The judgement of a request frame by its tag, its body length, its number of bytes and its frame check
(07, R124; 10, R173): none is a frame error. -/
def judgeFrame (frame : List Byte) : Option GoodFrame :=
  let n := (byteAt frame 2).toNat
  if h : (byteAt frame 0).toNat < 4 then
    if n ≤ 40 ∧ frame.length = 4 + n ∧ crc8 (frame.take (3 + n)) = byteAt frame (3 + n) then
      some ⟨⟨(byteAt frame 0).toNat, h⟩, byteAt frame 1, slice frame 3 n⟩
    else none
  else none

end Sys2Proof.Machine
end

