-- ==== Sys2Proof/Machine/Flags.lean ====
section
/-! DEFINITION. What is read from the straps and from a port's state: the configuration port, the bus
modes, the DONE count, the STATUS byte and the ATTN outputs. -/

namespace Sys2Proof.Machine

/-- The configuration port that the CFG straps name (00, PIN SUMMARY). -/
def Straps.configPort (x : Straps) : Option Port :=
  match x.cfg1, x.cfg0 with
  | false, false => some .p0
  | false, true => some .p1
  | true, false => some .p2
  | true, true => none

/-- Whether a port is strapped as an I2C target (07, R119). -/
def Straps.isI2C (x : Straps) : Port → Bool
  | .p0 => x.mode0
  | .p1 => x.mode1
  | .p2 => x.mode2

/-- The 7-bit address of every I2C port (07, R119). -/
def Straps.address (x : Straps) : BitVec 7 := if x.adrs then 0x37#7 else 0x36#7

/-- The address byte that opens a transaction on an I2C port: the address, then the direction, 1 for read
(10, R171 note 2). -/
def Straps.addressByte (x : Straps) (read : Bool) : Byte := Straps.address x ++ BitVec.ofBool read

/-- The configuration port as last sampled (08, R144). -/
def State.configPort (s : State) : Option Port := Straps.configPort s.straps

/-- Whether a port is in I2C mode. -/
def State.isI2C (s : State) (p : Port) : Bool := Straps.isI2C s.straps p

/-- The ports are active while the device is supplied and RESETn is high: from the sampling of the straps to the
next loss of power or assertion of RESETn (07, R120). -/
def State.active (s : State) : Bool := s.supply && !s.resetLow

/-- What the Port Engine of a port holds. -/
def State.port (s : State) (p : Port) : PortState := s.ports.get p

/-- The number of a port's tag slots in DONE (07, R127, R129). -/
def PortState.doneCount (x : PortState) : Nat := x.fifo.length

/-- The two bits of the device state in the STATUS byte (10, R172). -/
def devStateBits : DevState → BitVec 2
  | .starting => 0#2
  | .ready => 1#2
  | .damaged => 2#2
  | .clearing => 3#2

/-- The first STATUS byte (10, R172). -/
def State.statusFirst (s : State) (p : Port) : Byte :=
  devStateBits s.dev ++ BitVec.ofNat 3 (s.port p).doneCount
    ++ BitVec.ofBool (!(s.port p).notices.isEmpty)
    ++ BitVec.ofBool (s.port p).frameError ++ BitVec.ofBool (s.port p).tagCollision

/-- The two STATUS bytes: the second is the inverse of the first (07, R132; 10, R172). -/
def State.statusBytes (s : State) (p : Port) : List Byte := [s.statusFirst p, ~~~ s.statusFirst p]

/-- Whether the ATTN output of a port is driven low (07, R134, R120). -/
def State.attnLow (s : State) (p : Port) : Bool :=
  s.active &&
    ((decide (0 < (s.port p).doneCount) && (s.port p).maskResponses) ||
     (!(s.port p).notices.isEmpty && (s.port p).maskNotices))

end Sys2Proof.Machine
end

