-- ==== Sys2Proof/Machine/Memory.lean ====
section
/-! DEFINITION. The store as a sparse table in canonical form, and page operations on it (02, R23 to
R28). The page map uses the same table. A page above 2047 does not exist and is never written. -/

namespace Sys2Proof.Machine

/-- The value at key `a` of a sparse table whose unlisted keys hold `d`. -/
def sparseGet {α : Type} (d : α) : List (Nat × α) → Nat → α
  | [], _ => d
  | (k, v) :: rest, a => if a = k then v else sparseGet d rest a

/-- The table with `v` at key `a`, in canonical form again. -/
def sparsePut {α : Type} [DecidableEq α] (d : α) : List (Nat × α) → Nat → α → List (Nat × α)
  | [], a, v => if v = d then [] else [(a, v)]
  | (k, w) :: rest, a, v =>
    if a < k then (if v = d then (k, w) :: rest else (a, v) :: (k, w) :: rest)
    else if a = k then (if v = d then rest else (k, v) :: rest)
    else (k, w) :: sparsePut d rest a v

/-- The canonical form: keys strictly rising from `lo` on and below `hi`, no entry holding `d`. -/
def sparseWf {α : Type} [DecidableEq α] (d : α) (lo hi : Nat) : List (Nat × α) → Bool
  | [] => true
  | (k, v) :: rest => decide (lo ≤ k) && decide (k < hi) && decide (v ≠ d) && sparseWf d (k + 1) hi rest

/-- What an unlisted byte of the store reads as: FFh, an erased page (02, R23). -/
def erasedByte : Byte := 0xFF#8

/-- The byte at an address of the store. -/
def Memory.read (m : List (Nat × Byte)) (a : Nat) : Byte := sparseGet erasedByte m a

/-- The store with `v` at address `a`. -/
def Memory.write (m : List (Nat × Byte)) (a : Nat) (v : Byte) : List (Nat × Byte) :=
  sparsePut erasedByte m a v

/-- The canonical form of the store, all of its addresses among the 65,536 that exist (02, R23). -/
def Memory.wf (m : List (Nat × Byte)) : Bool := sparseWf erasedByte 0 65536 m

/-- `n` bytes from address `a` on. -/
def Memory.readBytes (m : List (Nat × Byte)) (a n : Nat) : List Byte :=
  (List.range n).map fun i => Memory.read m (a + i)

/-- The store with `bytes` from address `a` on. -/
def Memory.writeBytes (m : List (Nat × Byte)) : Nat → List Byte → List (Nat × Byte)
  | _, [] => m
  | a, b :: rest => Memory.writeBytes (Memory.write m a b) (a + 1) rest

/-- The address of the first byte of a page (02, R23). -/
def pageAddress (page : Nat) : Nat := 32 * page

/-- A page program: 32 given bytes replace whatever the page held (02, R23). -/
def Memory.writePage (m : List (Nat × Byte)) (page : Nat) (bytes : List Byte) : List (Nat × Byte) :=
  if page < 2048 then Memory.writeBytes m (pageAddress page) (bytes.take 32) else m

/-- 32 bytes of FFh (02, R23). -/
def erasedPage : List Byte := List.replicate 32 erasedByte

/-- A page erase (02, R23). -/
def Memory.erasePage (m : List (Nat × Byte)) (page : Nat) : List (Nat × Byte) :=
  Memory.writePage m page erasedPage

/-- The 32 bytes of a page. -/
def Memory.readPage (m : List (Nat × Byte)) (page : Nat) : List Byte :=
  Memory.readBytes m (pageAddress page) 32

/-- The page that is `n`th, from 0, in the two sweeps of a bulk erase: pages 64 to 2047 ascending, then
pages 0 to 63 ascending (09, R167). -/
def sweepPage (n : Nat) : Nat := (n + 64) % 2048

/-- Whether the two sweeps erase `page` within their first `n` pages. -/
def sweptWithin (n page : Nat) : Bool := decide ((page + 1984) % 2048 < n)

/-- The store after the first `n` pages of a bulk erase (09, R167). -/
def Memory.sweep (m : List (Nat × Byte)) (n : Nat) : List (Nat × Byte) :=
  m.filter fun cell => !sweptWithin n (cell.1 / 32)

end Sys2Proof.Machine
end

