-- ==== Sys2Proof/Machine/Ops.lean ====
section
/-! DEFINITION. The shared operations: access to the tables, completions (07, R128), notices (06, R116 to
R118), the lease state (03, R48), grants (03, R53 to R56), the page map (01, R7, R8) and the hand-over of
jobs (05, R84). -/

namespace Sys2Proof.Machine

/-! ### Tables -/

/-- The six lease entries in ascending entry number. -/
def allEntries : List EntryNo := List.finRange 6

/-- The 48 handles in ascending order. -/
def allHandles : List Handle := List.finRange 48

/-- The 16 watch numbers in ascending order. -/
def allWatches : List WatchNo := List.finRange 16

def State.setPort (s : State) (p : Port) (x : PortState) : State := { s with ports := s.ports.set p x }

/-- What the blocks hold for a handle. -/
def State.record (s : State) (h : Handle) : RecState := s.records.get h

def State.setRecord (s : State) (h : Handle) (x : RecState) : State :=
  { s with records := s.records.set h.val x h.isLt }

def State.lease (s : State) (e : EntryNo) : LeaseEntry := s.leases.get e

def State.setLease (s : State) (e : EntryNo) (x : LeaseEntry) : State :=
  { s with leases := s.leases.set e.val x e.isLt }

def State.buffer (s : State) (e : EntryNo) : Buffer := s.buffers.get e

def State.setBuffer (s : State) (e : EntryNo) (x : Buffer) : State :=
  { s with buffers := s.buffers.set e.val x e.isLt }

def State.watchAt (s : State) (n : WatchNo) : Option Watch := s.watches.get n

def State.setWatch (s : State) (n : WatchNo) (x : Option Watch) : State :=
  { s with watches := s.watches.set n.val x n.isLt }

def State.setWaiters (s : State) (h : Handle) (ws : List Waiter) : State :=
  s.setRecord h { s.record h with waiters := ws }

/-! ### Completions and notices -/

/-- A completion is placed in the slot of the request it answers, and its tag joins the tail of the
completion FIFO; when that request no longer holds its slot, the completion is dropped (07, R128). -/
def complete (tk : Ticket) (code : Status) (body : List Byte) (s : State) : State :=
  let x := s.port tk.port
  match x.slots.get tk.tag with
  | .pending serial _ _ =>
    if serial = tk.serial then
      s.setPort tk.port
        { x with slots := x.slots.set tk.tag.val (.done ⟨code, body⟩) tk.tag.isLt, fifo := x.fifo ++ [tk.tag] }
    else s
  | _ => s

/-- The completion of a request whose ticket may be absent. -/
def completeIf (tk : Option Ticket) (code : Status) (body : List Byte) (s : State) : State :=
  match tk with
  | some t => complete t code body s
  | none => s

/-- A notice posted to a port's queue: it joins the tail, or is dropped and counted when the queue holds 8
(06, R117). -/
def PortState.post (x : PortState) (n : Notice) : PortState :=
  if x.notices.length < 8 then { x with notices := x.notices ++ [n] } else { x with lost := satInc x.lost }

def postNotice (p : Port) (n : Notice) (s : State) : State := s.setPort p ((s.port p).post n)

/-- One notice to each port. -/
def postAll (n : Notice) (s : State) : State :=
  postNotice .p2 n (postNotice .p1 n (postNotice .p0 n s))

/-! ### Records, copies and the store -/

/-- An entry all of whose fields are zero: what a read of an absent entry's fields gives. -/
def RecEntry.blank : RecEntry where
  label := 0#32
  kind := .plain
  size := 0#8
  holdLimit := 0#8
  rights := ⟨⟨false, false, false⟩, ⟨false, false, false⟩, ⟨false, false, false⟩⟩
  frozen := false
  stamp := 0#32
  pageA := 0
  pageB := 0

/-- The record entry of a handle. -/
def State.entryOf (s : State) (h : Handle) : RecEntry := (s.record h).entry.getD RecEntry.blank

/-- The current rights set of a port on a record (01, R6). -/
def State.rightsOf (s : State) (h : Handle) (p : Port) : Rights := (s.entryOf h).rights.get p

/-- The handle has an entry (01, R4: DEFINED, RETIRE PENDING, FREEZE PENDING or FROZEN). -/
def State.isDefined (s : State) (h : Handle) : Bool := (s.record h).entry.isSome

/-- The first page of a copy (01, R1). -/
def RecEntry.firstPage (x : RecEntry) : Copy → Nat
  | .a => x.pageA.val
  | .b => x.pageB.val

/-- The pages of one copy of a record of a size (01, R8). -/
def pagesPerCopy (size : Nat) : Nat := (size + 16 + 31) / 32

/-- The address of data byte 0 of a copy: its header page's last 16 bytes and its data pages hold the data
in order, without a gap (02, R28). -/
def copyDataAddress (firstPage : Nat) : Nat := pageAddress firstPage + 16

/-- The data bytes that a copy holds. -/
def copyData (store : List Host.Cell) (firstPage size : Nat) : List Byte :=
  Memory.readBytes store (copyDataAddress firstPage) size

/-- The committed data of a record: that of its active copy, or bytes of 00h (02, R32). -/
def State.committedData (s : State) (h : Handle) : List Byte :=
  match (s.record h).active with
  | none => List.replicate (s.entryOf h).size.toNat 0#8
  | some c => copyData s.store ((s.entryOf h).firstPage c) (s.entryOf h).size.toNat

/-- The value of a COUNTER record's data (02, R28; 04, R77). -/
def counterValue (data : List Byte) : Word32 := word32At data 0

/-- The code of an ADD's answer: SATURATED when the result was clamped (04, R78; 03, R64). -/
def addStatus (clamped : Bool) : Status := if clamped then .saturated else .ok

/-! ### Lease state -/

/-- The lease entry in HELD or COMMITTING that has a handle, if any (03, R48). -/
def State.leaseOn (s : State) (h : Handle) : Option (EntryNo × Lease) :=
  allEntries.findSome? fun e =>
    match (s.lease e).lease with
    | some l => if l.handle = h then some (e, l) else none
    | none => none

/-- The record is FREE (03, R48). -/
def State.recordFree (s : State) (h : Handle) : Bool := (s.leaseOn h).isNone

/-- The record is HELD or COMMITTING and its holder port is `p` (03, R52). -/
def State.holds (s : State) (p : Port) (h : Handle) : Bool :=
  match s.leaseOn h with
  | some (_, l) => l.holder == p
  | none => false

/-- The lowest-numbered FREE lease entry (03, R52). -/
def State.lowestFree (s : State) : Option EntryNo := allEntries.find? fun e => (s.lease e).lease.isNone

/-- The token of a lease entry: entry number and issue count (03, R46). -/
def tokenOf (e : EntryNo) (x : LeaseEntry) : Token := ⟨BitVec.ofNat 8 (e.val + 1), x.issue⟩

/-- The lease entry that a token names when it is live for a port (08, R146; 03, R47 conditions 1 to 4). -/
def State.liveLease (s : State) (p : Port) (t : Token) : Option (EntryNo × Lease) :=
  match tokenEntry t with
  | none => none
  | some e =>
    match (s.lease e).lease with
    | none => none
    | some l => if l.holder = p ∧ (s.lease e).issue = t.count then some (e, l) else none

/-! ### Commit queue -/

/-- The copy that a job programs (02, R33, R41). -/
def targetCopy : Option Copy → Copy
  | none => .a
  | some .a => .b
  | some .b => .a

/-- The record job of a lease entry, its fixed fields set as it joins the queue (05, R83, R84). -/
def State.recordJob (s : State) (e : EntryNo) (h : Handle) : Job :=
  let target := targetCopy (s.record h).active
  .record e h target ((s.entryOf h).firstPage target) (pagesPerCopy (s.entryOf h).size.toNat)
    ((s.record h).gen + 1#32)

/-- A job joins the tail of the commit queue, and starts at once when the engine is IDLE (05, R84, R86).
While a job end is being reported the engine is not IDLE, so the job waits (R93). -/
def handJob (j : Job) (s : State) : State :=
  match s.engine with
  | .idle => { s with queue := s.queue ++ [j], engine := .programming 1 false }
  | _ => { s with queue := s.queue ++ [j] }

/-- After all the reports of a job end, the new head starts or the engine enters IDLE (05, R93). -/
def startNext (s : State) : State :=
  match s.queue with
  | [] => { s with engine := .idle }
  | _ :: _ => { s with engine := .programming 1 false }

/-- Whether a job is the record job of a lease entry. -/
def Job.isRecordOf (e : EntryNo) : Job → Bool
  | .record e' _ _ _ _ _ => e' == e
  | .directory .. => false

/-- Whether a job is the directory job. -/
def Job.isDirectory : Job → Bool
  | .record .. => false
  | .directory .. => true

/-- The jobs that have not started: those behind the head (05, R86). -/
def State.unstarted (s : State) : List Job := s.queue.drop 1

/-- The commit queue without those of its unstarted jobs that `drop` names (05, R96). -/
def removeUnstarted (drop : Job → Bool) (s : State) : State :=
  { s with queue := s.queue.take 1 ++ (s.queue.drop 1).filter fun j => !drop j }

/-! ### Grants -/

/-- The grant rights and the advanced issue count are common to both forms of grant (03, R46; 08, R146). -/
def grantLease (e : EntryNo) (h : Handle) (l : Lease) (b : Buffer) (s : State) : State :=
  (s.setLease e ⟨(s.lease e).issue + 1#8, some { l with handle := h, grantRights := s.rightsOf h l.holder }⟩).setBuffer e b

/-- The lease of an explicit grant (03, R53). -/
def explicitLease (h : Handle) (holder : Port) (holdLimit : Nat) : Lease where
  phase := .held
  handle := h
  holder := holder
  form := .explicit
  timer := some holdLimit
  renewals := 0
  modified := false
  answer := none
  grantRights := ⟨false, false, false⟩

/-- The lease of an implicit grant (03, R55). -/
def implicitLease (h : Handle) (tk : Ticket) : Lease where
  phase := .committing
  handle := h
  holder := tk.port
  form := .implicit
  timer := none
  renewals := 0
  modified := true
  answer := some tk
  grantRights := ⟨false, false, false⟩

/-- The response body of a granted ACQUIRE: token, committed generation, size (03, R53; 10, R176). -/
def acquireBody (t : Token) (gen : Word32) (size : Byte) : List Byte := tokenBytes t ++ be4 gen ++ [size]

/-- A grant to an ACQUIRE: the entry becomes HELD, its buffer is loaded with the committed data, and the
ACQUIRE is answered OK (03, R53; 04, R72). -/
def grantExplicit (e : EntryNo) (h : Handle) (tk : Ticket) (s : State) : State :=
  let s1 := grantLease e h (explicitLease h tk.port (s.entryOf h).holdLimit.toNat)
    ⟨padTo 0#8 240 (s.committedData h), false⟩ s
  complete tk .ok (acquireBody (tokenOf e (s1.lease e)) (s.record h).gen (s.entryOf h).size) s1

/-- A grant to an ADD whose record's generation is not spent: the entry goes to COMMITTING with the
implicit value in its buffer, and a record job is queued (03, R55; 04, R73). -/
def grantImplicit (e : EntryNo) (h : Handle) (tk : Ticket) (delta : Word32) (s : State) : State :=
  let v := addDelta (counterValue (s.committedData h)) delta
  let s1 := grantLease e h (implicitLease h tk) ⟨padTo 0#8 240 (be4 v.1), v.2⟩ s
  handJob (s1.recordJob e h) s1

/-- The waiters of a record are tried from the head for an entry: an ADD on a spent generation is answered
GEN_SPENT and passed over, and the first other waiter is granted (03, R55, R56). The flag says whether a
grant was made. -/
def grantFromQueue (e : EntryNo) (h : Handle) : List Waiter → State → State × Bool
  | [], s => (s.setWaiters h [], false)
  | w :: ws, s =>
    match w.type with
    | .acquire _ => (grantExplicit e h w.ticket (s.setWaiters h ws), true)
    | .add delta =>
      if (s.record h).gen = genSpentMark then grantFromQueue e h ws (complete w.ticket .genSpent [] s)
      else (grantImplicit e h w.ticket delta (s.setWaiters h ws), true)

/-- The records of the allocation queue are tried from the head for an entry; the granted record leaves the
queue, and so does a record whose waiters have all been refused (03, R56 step 1). -/
def grantFromAlloc (e : EntryNo) : List Handle → State → State × Bool
  | [], s => ({ s with allocQueue := [] }, false)
  | h :: hs, s =>
    match grantFromQueue e h (s.record h).waiters s with
    | (s1, true) => ({ s1 with allocQueue := hs }, true)
    | (s1, false) => grantFromAlloc e hs s1

/-- The record joins the tail of the allocation queue (03, R51). -/
def joinAlloc (h : Handle) (s : State) : State := { s with allocQueue := s.allocQueue ++ [h] }

/-- The record leaves the allocation queue (03, R51). -/
def leaveAlloc (h : Handle) (s : State) : State :=
  { s with allocQueue := s.allocQueue.filter fun x => x != h }

/-- The record leaves the allocation queue when its wait queue is empty (03, R51). -/
def leaveAllocIfEmpty (h : Handle) (s : State) : State :=
  if (s.record h).waiters = [] then leaveAlloc h s else s

/-- A freed entry is granted onward: to the allocation queue's head, else to the freed record's own head
waiter, else it stays FREE (03, R56). -/
def grantOnward (e : EntryNo) (freed : Handle) (s : State) : State :=
  match grantFromAlloc e s.allocQueue s with
  | (s1, true) =>
    if (s1.record freed).waiters ≠ [] ∧ (s1.record freed).freezePending = false then joinAlloc freed s1 else s1
  | (s1, false) =>
    if (s1.record freed).freezePending then s1
    else (grantFromQueue e freed (s1.record freed).waiters s1).1

/-- A lease entry becomes FREE and its staging buffer is discarded (03, R44; 04, R71). -/
def freeLease (e : EntryNo) (s : State) : State :=
  (s.setLease e { s.lease e with lease := none }).setBuffer e Buffer.empty

/-- A waiter joins the tail of a record's wait queue, and the record joins the allocation queue when it is
FREE and not already there (03, R52 case 6, R54 case 5). -/
def joinWaiters (h : Handle) (w : Waiter) (s : State) : State :=
  let s1 := s.setWaiters h ((s.record h).waiters ++ [w])
  if s.recordFree h ∧ h ∉ s.allocQueue then joinAlloc h s1 else s1

/-! ### Page map -/

/-- The condition of a page in a page map (01, R7). -/
def pageCond (m : List (Nat × PageCond)) (page : Nat) : PageCond := sparseGet .free m page

/-- The pages of a run set to a condition. -/
def markRun (cond : PageCond) : Nat → Nat → List (Nat × PageCond) → List (Nat × PageCond)
  | _, 0, m => m
  | first, len + 1, m => markRun cond (first + 1) len (sparsePut .free m first cond)

/-- Both copies of a record set to a condition. -/
def markCopies (cond : PageCond) (x : RecEntry) (m : List (Nat × PageCond)) : List (Nat × PageCond) :=
  markRun cond x.pageB.val (pagesPerCopy x.size.toNat) (markRun cond x.pageA.val (pagesPerCopy x.size.toNat) m)

def State.markCopies (s : State) (cond : PageCond) (x : RecEntry) : State :=
  { s with pageMap := s.pageMap.map (Machine.markCopies cond x) }

/-- The pages of the record area, 64 to 2047 (02, R24). -/
def recordArea : List Nat := List.range' 64 1984

/-- Whether `len` pages from `first` on are all FREE and lie within 2047 (01, R8). -/
def runFree (m : List (Nat × PageCond)) (first len : Nat) : Bool :=
  decide (first + len ≤ 2048) && (List.range' first len).all fun page => pageCond m page == .free

/-- The lowest-numbered run of `len` FREE pages (01, R8). -/
def findRun (m : List (Nat × PageCond)) (len : Nat) : Option Nat :=
  recordArea.find? fun first => runFree m first len

/-- The number of FREE pages; 0 when no page map is built (01, R7; 08, R153). -/
def State.freePages (s : State) : Nat :=
  match s.pageMap with
  | none => 0
  | some m => (recordArea.filter fun page => pageCond m page == .free).length

/-- The length of the run that ends before a page and the longest so far, carried over the record area. -/
def runStep (m : List (Nat × PageCond)) (acc : Nat × Nat) (page : Nat) : Nat × Nat :=
  if pageCond m page == .free then (acc.1 + 1, max acc.2 (acc.1 + 1)) else (0, acc.2)

/-- The length of the longest run of FREE pages; 0 when no page map is built (01, R7; 08, R153). -/
def State.largestRun (s : State) : Nat :=
  match s.pageMap with
  | none => 0
  | some m => (recordArea.foldl (runStep m) (0, 0)).2

/-- The number of handles with an entry (08, R152). -/
def State.recordsDefined (s : State) : Nat := (allHandles.filter fun h => s.isDefined h).length

/-- The number of lease entries in FREE (03, R43). -/
def State.freeEntries (s : State) : Nat := (allEntries.filter fun e => (s.lease e).lease.isNone).length

/-! ### Hand-over of placed requests -/

/-- The oldest placed request of a port that is not yet handed over: its ticket, kind byte and body
(07, R126). -/
def State.oldestPlaced (s : State) (p : Port) : Option (Ticket × Byte × List Byte) :=
  match (s.port p).handOrder with
  | [] => none
  | t :: _ =>
    match (s.port p).slots.get t with
    | .pending serial kind body => some (⟨p, t, serial⟩, kind, body)
    | _ => none

/-- The same, when it is well formed (08, R143). -/
def State.oldestRequest (s : State) (p : Port) : Option (Ticket × Req) :=
  match s.oldestPlaced p with
  | none => none
  | some (tk, kind, body) =>
    match parseReq kind body with
    | none => none
    | some r => some (tk, r)

/-- The oldest placed request of a port is handed over (07, R126). -/
def handOver (p : Port) (s : State) : State :=
  s.setPort p { s.port p with handOrder := (s.port p).handOrder.drop 1 }

end Sys2Proof.Machine
end

