-- ==== Sys2Proof/Machine/Images.lean ====
section
/-! DEFINITION. The byte images of record copies (02, R28, R29) and directory copies (R39), the validity
tests on them (R31, R40), and the pages a job programs (05, R87, R88, R94). -/

namespace Sys2Proof.Machine

/-! ### Record copies -/

/-- The 16 bytes of a copy header (02, R29). R29 gives the define stamp, the generation and the data check no byte
order; the most significant byte stands first: DESIGN CHOICE, unsafe (log entry 25). -/
def copyHeader (h : Handle) (size : Byte) (stamp gen : Word32) (data : List Byte) : List Byte :=
  let front := [handleByte h, size] ++ be4 stamp ++ be4 gen ++ be2 (crc16 data) ++ List.replicate 3 0x00#8
  front ++ [crc8 front]

/-- The bytes of a record copy, header page first, filled with FFh to whole pages (02, R28; 05, R87). -/
def copyImage (h : Handle) (size : Byte) (stamp gen : Word32) (pages : Nat) (data : List Byte) : List Byte :=
  padTo 0xFF#8 (32 * pages) (copyHeader h size stamp gen data ++ data)

/-- The generation in the header of a copy (02, R29). -/
def headerGen (header : List Byte) : Word32 := word32At header 6

/-- Whether the bytes found at a copy's run form a valid copy for an entry (02, R31). -/
def copyValid (store : List Host.Cell) (h : Handle) (x : RecEntry) (first : Nat) : Bool :=
  let header := Memory.readBytes store (pageAddress first) 16
  crc8 (header.take 15) == byteAt header 15
    && byteAt header 0 == handleByte h
    && word32At header 2 == x.stamp
    && byteAt header 1 == x.size
    && crc16 (copyData store first x.size.toNat) == word16At header 10

/-- The generation in the header that stands at a copy's first page. -/
def copyGen (store : List Host.Cell) (first : Nat) : Word32 :=
  headerGen (Memory.readBytes store (pageAddress first) 16)

/-! ### Directory copies -/

/-- The rights bits of a directory entry: WATCH in the most significant, then UPDATE, then READ (02, R39). -/
def rightsBits (r : Rights) : BitVec 3 :=
  BitVec.ofBool r.watch ++ BitVec.ofBool r.update ++ BitVec.ofBool r.read

/-- The 40-bit number that opens an entry in use (02, R39). -/
def entryBits (x : RecEntry) : BitVec 40 :=
  1#1 ++ BitVec.ofBool (x.kind == .counter) ++ BitVec.ofBool x.frozen
    ++ rightsBits x.rights.p0 ++ rightsBits x.rights.p1 ++ rightsBits x.rights.p2
    ++ BitVec.ofNat 11 x.pageA.val ++ BitVec.ofNat 11 x.pageB.val ++ 0#6

/-- The first 15 bytes of a directory entry (02, R39). -/
def entryFront : Option RecEntry → List Byte
  | none => List.replicate 15 0x00#8
  | some x =>
    let w := entryBits x
    [w.extractLsb' 32 8, w.extractLsb' 24 8, w.extractLsb' 16 8, w.extractLsb' 8 8, w.extractLsb' 0 8]
      ++ be4 x.label ++ [x.size, x.holdLimit] ++ be4 x.stamp

/-- The 16 bytes of a directory entry (02, R39). -/
def entryBytes (x : Option RecEntry) : List Byte := entryFront x ++ [crc8 (entryFront x)]

/-- The 16 bytes of a directory header (02, R39). R39 gives the directory generation and the entries check no byte
order; the most significant byte stands first: DESIGN CHOICE, unsafe (log entry 25). -/
def dirHeader (gen : Word32) (entries : List Byte) : List Byte :=
  let front := be4 gen ++ be2 (crc16 entries) ++ List.replicate 9 0x00#8
  front ++ [crc8 front]

/-- The 25 pages of a directory copy (02, R39). -/
def dirImage (gen : Word32) (entries : List (Option RecEntry)) : List Byte :=
  let bytes := entries.flatMap entryBytes
  padTo 0xFF#8 800 (dirHeader gen bytes ++ bytes)

/-- The entry that 16 bytes hold, none for an empty position (02, R39). -/
def readEntry (b : List Byte) : Option RecEntry :=
  let w : BitVec 40 := byteAt b 0 ++ byteAt b 1 ++ byteAt b 2 ++ byteAt b 3 ++ byteAt b 4
  let rightsAt (i : Nat) : Rights := ⟨w.getLsbD i, w.getLsbD (i + 1), w.getLsbD (i + 2)⟩
  if w.getLsbD 39 then
    some
      { label := word32At b 5
        kind := if w.getLsbD 38 then .counter else .plain
        size := byteAt b 9
        holdLimit := byteAt b 10
        rights := ⟨rightsAt 34, rightsAt 31, rightsAt 28⟩
        frozen := w.getLsbD 37
        stamp := word32At b 11
        pageA := (w.extractLsb' 17 11).toFin
        pageB := (w.extractLsb' 6 11).toFin }
  else none

/-- A label character is 20h to 7Eh (01, R1). -/
def labelChar (b : Byte) : Bool := decide (0x20 ≤ b.toNat) && decide (b.toNat ≤ 0x7E)

/-- The four characters of a label are in range (01, R1). -/
def labelInRange (label : Word32) : Bool := (be4 label).all labelChar

/-- A size is in range for a kind (01, R1). -/
def sizeInRange (kind : RecKind) (size : Byte) : Bool :=
  match kind with
  | .plain => decide (1 ≤ size.toNat) && decide (size.toNat ≤ 240)
  | .counter => size == 4#8

/-- A run of pages: first page and length. -/
abbrev Run := Nat × Nat

/-- The runs of the two copies of a record. -/
def entryRuns (x : RecEntry) : List Run :=
  [(x.pageA.val, pagesPerCopy x.size.toNat), (x.pageB.val, pagesPerCopy x.size.toNat)]

/-- A run lies within pages 64 to 2047 (02, R24, R40). -/
def runInArea (r : Run) : Bool := decide (64 ≤ r.1) && decide (r.1 + r.2 ≤ 2048)

/-- Two runs share no page. -/
def runsApart (r q : Run) : Bool := decide (r.1 + r.2 ≤ q.1) || decide (q.1 + q.2 ≤ r.1)

/-- Every two runs of a list share no page. -/
def allApart : List Run → Bool
  | [] => true
  | r :: rest => rest.all (runsApart r) && allApart rest

/-- The values of an entry in use are within the ranges of R1, its runs within the record area (02, R40
test 5). -/
def entryInRange (x : RecEntry) : Bool :=
  labelInRange x.label && sizeInRange x.kind x.size && x.holdLimit != 0#8 && x.stamp != 0#32
    && (entryRuns x).all runInArea

/-- The array page of a directory region's first page (02, R24). -/
def regionPage : Copy → Nat
  | .a => 0
  | .b => 32

/-- The 784 bytes of a directory region (02, R39). -/
def regionBytes (store : List Host.Cell) (c : Copy) : List Byte :=
  Memory.readBytes store (pageAddress (regionPage c)) 784

/-- The entry bytes of handle `i` in a region's 784 bytes. -/
def entrySlice (b : List Byte) (i : Nat) : List Byte := slice b (16 + 16 * i) 16

/-- The 48 entries in a region's 784 bytes. -/
def readEntries (b : List Byte) : List (Option RecEntry) :=
  (List.range 48).map fun i => readEntry (entrySlice b i)

/-- Whether a region's first page is erased (09, R157). -/
def regionErased (store : List Host.Cell) (c : Copy) : Bool :=
  Memory.readPage store (regionPage c) == erasedPage

/-- Whether a region holds a valid directory copy (02, R40). -/
def regionValid (store : List Host.Cell) (c : Copy) : Bool :=
  let b := regionBytes store c
  let entries := readEntries b
  !regionErased store c
    && crc8 (b.take 15) == byteAt b 15
    && crc16 (b.drop 16) == word16At b 4
    && (List.range 48).all (fun i => crc8 ((entrySlice b i).take 15) == byteAt (entrySlice b i) 15)
    && entries.all (fun x => x.all entryInRange)
    && allApart (entries.flatMap fun x => x.elim [] entryRuns)

/-- The directory generation in a region's header (02, R39). -/
def regionGen (store : List Host.Cell) (c : Copy) : Word32 := word32At (regionBytes store c) 0

/-- The choice between the two directory regions (09, R158). -/
inductive DirChoice where
  | region (c : Copy)
  | nothing
  | damaged
deriving DecidableEq, Repr

/-- The directory that the scan chooses (09, R157, R158). -/
def chooseDirectory (store : List Host.Cell) : DirChoice :=
  match regionValid store .a, regionValid store .b with
  | true, true => if (regionGen store .a).toNat < (regionGen store .b).toNat then .region .b else .region .a
  | true, false => .region .a
  | false, true => .region .b
  | false, false => if regionErased store .a && regionErased store .b then .nothing else .damaged

/-- The entries that the scan takes from a store: those of the region it chooses (09, R158). -/
def scannedEntries (store : List Host.Cell) : List (Option RecEntry) :=
  match chooseDirectory store with
  | .region c => readEntries (regionBytes store c)
  | .nothing => []
  | .damaged => []

/-! ### The pages of a job -/

/-- The entry that a directory job's change makes of the entry of its handle (05, R94). -/
def DirOp.apply (op : DirOp) (gen : Word32) (x : Option RecEntry) : Option RecEntry :=
  match op with
  | .define new => some { new with stamp := gen }
  | .retire => none
  | .setRights rights => x.map fun y => { y with rights := rights }
  | .freeze => x.map fun y => { y with frozen := true }

/-- The entries that a directory job writes: the current ones with the change of the job in the slot
applied (05, R94). -/
def State.jobEntries (s : State) (gen : Word32) : List (Option RecEntry) :=
  allHandles.map fun h =>
    match s.dirSlot with
    | some j => if h = j.handle then j.op.apply gen (s.record h).entry else (s.record h).entry
    | none => (s.record h).entry

/-- The page count of a job (05, R88, R94). -/
def Job.pages : Job → Nat
  | .record _ _ _ _ pages _ => pages
  | .directory .. => 25

/-- The array number of a job's header page (05, R87, R94). -/
def Job.headerPage : Job → Nat
  | .record _ _ _ first _ _ => first
  | .directory _ target _ => regionPage target

/-- The generation a job writes (05, R83). -/
def Job.gen : Job → Word32
  | .record _ _ _ _ _ gen => gen
  | .directory _ _ gen => gen

/-- The place in the copy of the page at a position of the program order: pages 1, 2, … in ascending
order, then the header page 0 (05, R88, R94). -/
def Job.offsetAt (j : Job) (pos : Nat) : Nat := if pos < j.pages then pos else 0

/-- The array number of the page at a position of the program order. -/
def Job.pageAt (j : Job) (pos : Nat) : Nat := j.headerPage + j.offsetAt pos

/-- All the bytes a job programs, its header page first (05, R87, R94). -/
def State.jobImage (s : State) : Job → List Byte
  | .record e h _ _ pages gen =>
    let x := s.entryOf h
    copyImage h x.size x.stamp gen pages ((s.buffer e).bytes.take x.size.toNat)
  | .directory _ _ gen => dirImage gen (s.jobEntries gen)

/-- The 32 bytes of the page at a position of the program order. -/
def State.jobPage (s : State) (j : Job) (pos : Nat) : List Byte := slice (s.jobImage j) (32 * j.offsetAt pos) 32

/-! ### Indeterminate pages -/

/-- 32 indeterminate bytes (02, R25, R26): each is a free value. -/
def State.freeBytes (s : State) : List Byte := (List.range 32).map fun i => Config.freeByte (s.freeIndex + i)

/-- The bytes of a record copy that its validity rests on: the header and the data behind it (02, R28, R31). -/
def coveredBytes (store : List Host.Cell) (first size : Nat) : List Byte :=
  Memory.readBytes store (pageAddress first) (16 + size)

/-- A record copy that the scan would find valid in `after` is one of the copies that stood in `before` or that the
finished operation leaves in `whole`: never a mixture, and never another generation (02, R35, R36, R38). -/
def copyAllowed (before whole after : List Host.Cell) (h : Handle) (x : RecEntry) (c : Copy) : Bool :=
  let bytes (store : List Host.Cell) := coveredBytes store (x.firstPage c) x.size.toNat
  !copyValid after h x (x.firstPage c) || bytes after == bytes before || bytes after == bytes whole

/-- The same of a directory region (02, R41; 09, R159). -/
def regionAllowed (before whole after : List Host.Cell) (c : Copy) : Bool :=
  !regionValid after c || regionBytes after c == regionBytes before c || regionBytes after c == regionBytes whole c

/-- An interrupted or mismatched page operation may leave `after`: every directory region and every copy of every
record that the scan would find valid is an old or a finished one (02, R35, R36, R38, R41; 09, R159, R169). -/
def outcomeAllowed (before whole after : List Host.Cell) : Bool :=
  regionAllowed before whole after .a && regionAllowed before whole after .b
    && allHandles.all fun h =>
        ((scannedEntries after).getD h.val none).all fun x =>
          copyAllowed before whole after h x .a && copyAllowed before whole after h x .b

/-- A page operation that would leave the bytes `whole` in a page leaves it indeterminate (02, R25, R26): with free
bytes, which are kept within the outcomes of 02, R35, R36 and R41. Free bytes outside them stand for the old page,
which is one of the outcomes. DESIGN CHOICE, safe (log entry 6): only a copy that a scan made at once would find valid
is judged so. A spoiled header page that is not valid then may turn valid later, at any generation, when a later job's
pages match its check or a DEFINE reuses the page; between R25 and R26 (any bytes) and R35 (never another
generation) the spec leaves that open. -/
def spoilPage (page : Nat) (whole : List Byte) (s : State) : State :=
  let after := Memory.writePage s.store page s.freeBytes
  { s with
    store := if outcomeAllowed s.store (Memory.writePage s.store page whole) after then after else s.store
    freeIndex := s.freeIndex + 32 }

end Sys2Proof.Machine
end

