-- ==== Sys2Proof/Machine/Admission.lean ====
section
/-! DEFINITION. The Admission Unit (08): the ordered checks that every handed-over request passes, and the
shape that every request command shares. -/

namespace Sys2Proof.Machine

/-- Step 1: whether a kind is allowed in a device state; none is an unknown kind (08, R142). -/
def kindAllowed (dev : DevState) (k : Option ReqKind) : Bool :=
  match dev with
  | .ready => true
  | .damaged => k == some .deviceInfo || k == some .setAttention || k == some .portReset || k == some .factoryClear
  | .starting | .clearing => k == some .deviceInfo || k == some .setAttention || k == some .portReset

/-- Step 3: the kinds that the configuration port alone may send (08, R144). -/
def configOnly : ReqKind → Bool
  | .define | .retire | .setRights | .freeze | .factoryClear => true
  | _ => false

/-- The rights against which steps 4 and 5 judge a READ or ADD: the grant rights when its token is live for
the port and its handle is the lease's record, else the current rights (08, R146). Token 0 names no entry. -/
def State.rightsFor (s : State) (p : Port) (h : Handle) (t : Token) : Rights :=
  match s.liveLease p t with
  | some (_, l) => if l.handle = h then l.grantRights else s.rightsOf h p
  | none => s.rightsOf h p

/-- Step 4 for a kind that needs a defined handle, visible under the rights given (08, R145). -/
def needVisible (s : State) (b : Byte) (rights : Handle → Rights) : Bool :=
  isHandle b && s.isDefined (toHandle b) && (rights (toHandle b)).visible

/-- Step 4: the handle is 0 to 47, defined and visible, as the kind needs (08, R145). -/
def handlePasses (s : State) (p : Port) : Req → Bool
  | .read b t _ _ => needVisible s b fun h => s.rightsFor p h t
  | .add b t _ => needVisible s b fun h => s.rightsFor p h t
  | .acquire b _ => needVisible s b fun h => s.rightsOf h p
  | .watch b _ _ _ => needVisible s b fun h => s.rightsOf h p
  | .inquire b =>
    isHandle b && s.isDefined (toHandle b)
      && (s.configPort == some p || (s.rightsOf (toHandle b) p).visible)
  | .define f => isHandle f.handle
  | .retire b => isHandle b && s.isDefined (toHandle b)
  | .setRights b _ => isHandle b && s.isDefined (toHandle b)
  | .freeze b => isHandle b && s.isDefined (toHandle b)
  | .stage .. | .commit _ | .release _ | .renew _ | .cancel _ | .unwatch _
  | .deviceInfo | .setAttention _ | .portReset | .factoryClear => true

/-- Step 5 for STAGE, COMMIT, RELEASE and RENEW: UPDATE in the grant rights when the token is live for the
port, else the step is passed (08, R146). -/
def tokenUpdate (s : State) (p : Port) (t : Token) : Bool :=
  match s.liveLease p t with
  | some (_, l) => l.grantRights.update
  | none => true

/-- Step 5: the port holds the right the kind needs (08, R147). -/
def rightPasses (s : State) (p : Port) : Req → Bool
  | .read b t _ _ => (s.rightsFor p (toHandle b) t).read
  | .acquire b _ => (s.rightsOf (toHandle b) p).update
  | .add b t _ => (s.rightsFor p (toHandle b) t).update
  | .stage t _ _ => tokenUpdate s p t
  | .commit t => tokenUpdate s p t
  | .release t => tokenUpdate s p t
  | .renew t => tokenUpdate s p t
  | .watch b _ _ _ => (s.rightsOf (toHandle b) p).watch
  | .cancel _ | .unwatch _ | .inquire _ | .define _ | .retire _ | .setRights _ _ | .freeze _
  | .deviceInfo | .setAttention _ | .portReset | .factoryClear => true

/-- Step 6: an ACQUIRE or ADD names no frozen record (08, R148). -/
def frozenPasses (s : State) : Req → Bool
  | .acquire b _ => !(s.entryOf (toHandle b)).frozen
  | .add b _ _ => !(s.entryOf (toHandle b)).frozen
  | _ => true

/-- The fields of a DEFINE are in range (01, R13; 08, R149). -/
def defineInRange (f : DefineFields) : Bool :=
  (match toKind f.kind with
   | some k => sizeInRange k f.size
   | none => false)
    && f.holdLimit != 0#8 && labelInRange f.label
    && rightsInRange f.rights.p0 && rightsInRange f.rights.p1 && rightsInRange f.rights.p2

/-- Step 7, first part: every field is within its range (08, R149). -/
def rangePasses (s : State) : Req → Bool
  | .read b _ offset length =>
    decide (1 ≤ length.toNat) && decide (length.toNat ≤ 32)
      && decide (offset.toNat + length.toNat ≤ (s.entryOf (toHandle b)).size.toNat)
  | .stage _ offset _ => decide (offset.toNat ≤ 239)
  | .cancel target => decide (target.toNat ≤ 3)
  | .watch _ mode threshold self => (toMode mode threshold).isSome && (toSelf self).isSome
  | .unwatch number => decide (number.toNat ≤ 15)
  | .define f => defineInRange f
  | .setRights _ r => rightsInRange r.p0 && rightsInRange r.p1 && rightsInRange r.p2
  | .setAttention mask => decide (mask.toNat ≤ 3)
  | .acquire .. | .add .. | .commit _ | .release _ | .renew _ | .inquire _ | .retire _ | .freeze _
  | .deviceInfo | .portReset | .factoryClear => true

/-- Step 7, second part: the record is of the kind the request needs (08, R149). -/
def kindPasses (s : State) : Req → Bool
  | .add b _ _ => (s.entryOf (toHandle b)).kind == .counter
  | .watch b mode threshold _ =>
    match toMode mode threshold with
    | some .any => true
    | _ => (s.entryOf (toHandle b)).kind == .counter
  | _ => true

/-- The admission of a well-formed request: none when every step passes, else the code of the first step
that fails (08, R141). Step 2 is `parseReq`, and step 1 comes before it. -/
def admission (s : State) (p : Port) (r : Req) : Option Status :=
  if !kindAllowed s.dev (some r.kind) then some .notReady
  else if configOnly r.kind && !(s.configPort == some p) then some .denied
  else if !handlePasses s p r then some .noRecord
  else if !rightPasses s p r then some .denied
  else if !frozenPasses s r then some .frozen
  else if !rangePasses s r then some .range
  else if !kindPasses s r then some .wrongKind
  else none

/-- A handed-over request is judged; a failed check completes it with no body, and a request that passes
every check is taken by its owner within the same event (08, R141). -/
def serve (p : Port) (tk : Ticket) (r : Req) (owner : State → State) (s : State) : State :=
  match admission s p r with
  | some code => complete tk code [] s
  | none => owner s

/-- The token check passes for the entry of a live token; otherwise the request is answered LEASE_GONE
(03, R47). -/
def withLease (p : Port) (tk : Ticket) (t : Token) (act : EntryNo → Lease → State → State) (s : State) : State :=
  match s.liveLease p t with
  | some (e, l) => act e l s
  | none => complete tk .leaseGone [] s

/-- The same for READ and ADD, which also name the lease's record (03, R47 condition 5). -/
def withLeaseOn (p : Port) (tk : Ticket) (t : Token) (h : Handle) (act : EntryNo → Lease → State → State)
    (s : State) : State :=
  match s.liveLease p t with
  | some (e, l) => if l.handle = h then act e l s else complete tk .leaseGone [] s
  | none => complete tk .leaseGone [] s

end Sys2Proof.Machine
end

