-- ==== Sys2Proof/Machine/Watches.lean ====
section
/-! DEFINITION. The Watch Unit (06): WATCH, UNWATCH, the evaluation at a commit point and the removals. -/

namespace Sys2Proof.Machine

/-- The lowest-numbered empty watch table entry (06, R103). -/
def State.emptyWatch (s : State) : Option WatchNo := allWatches.find? fun n => (s.watchAt n).isNone

/-- The table holds a watch with the same port, handle, mode and threshold; self takes no part (06, R104). -/
def State.hasWatch (s : State) (w : Watch) : Bool :=
  allWatches.any fun n =>
    match s.watchAt n with
    | some v => v.port == w.port && v.handle == w.handle && v.mode == w.mode
    | none => false

/-- A WATCH that admission has passed (06, R104). -/
def takeWatch (tk : Ticket) (w : Watch) (s : State) : State :=
  if s.hasWatch w then complete tk .existsAlready [] s
  else
    match s.emptyWatch with
    | none => complete tk .noRoom [] s
    | some n => complete tk .ok [BitVec.ofNat 8 n.val] (s.setWatch n (some w))

/-- WATCH (06, R104). -/
def execWatch (p : Port) (s : State) : Host.Outcome State Fault Refusal :=
  match s.oldestRequest p with
  | some (tk, .watch b m t f) =>
    .next (serve p tk (.watch b m t f)
      (takeWatch tk ⟨p, toHandle b, (toMode m t).getD .any, (toSelf f).getD false⟩) (handOver p s))
  | _ => .next s

/-- The watch number that a byte in range names. -/
def toWatchNo (b : Byte) : WatchNo := ⟨b.toNat % 16, Nat.mod_lt _ (by decide)⟩

/-- An UNWATCH that admission has passed (06, R106). -/
def takeUnwatch (tk : Ticket) (n : WatchNo) (s : State) : State :=
  match s.watchAt n with
  | some w => if w.port = tk.port then complete tk .ok [] (s.setWatch n none) else complete tk .notFound [] s
  | none => complete tk .notFound [] s

/-- UNWATCH (06, R106). -/
def execUnwatch (p : Port) (s : State) : Host.Outcome State Fault Refusal :=
  match s.oldestRequest p with
  | some (tk, .unwatch b) => .next (serve p tk (.unwatch b) (takeUnwatch tk (toWatchNo b)) (handOver p s))
  | _ => .next s

/-- Every watch that `drop` names is removed (06, R107 to R109). -/
def removeWatches (drop : Watch → Bool) (s : State) : State :=
  { s with watches := mapTable (fun x => x.filter fun w => !drop w) s.watches }

/-- A commit point as the Commit Engine hands it to the Watch Unit (06, R110). -/
structure CommitReport where
  handle : Handle
  port : Port
  gen : Word32
  old : List Byte
  new : List Byte
deriving DecidableEq, Repr

/-- The self test (06, R113). -/
def selfPasses (c : CommitReport) (w : Watch) : Bool := c.port != w.port || w.self

/-- The notice of a watch whose mode test passes (06, R111, R112). -/
def modeNotice (c : CommitReport) (n : WatchNo) (w : Watch) : Option Notice :=
  let old := counterValue c.old
  let new := counterValue c.new
  match w.mode with
  | .any => some (.changed c.handle c.gen c.port)
  | .rise t =>
    if old.toNat < t.toNat ∧ t.toNat ≤ new.toNat then some (.threshold c.handle n .rise new c.gen) else none
  | .fall t =>
    if t.toNat < old.toNat ∧ new.toNat ≤ t.toNat then some (.threshold c.handle n .fall new c.gen) else none

/-- The notice that a watch posts at a commit point, if any (06, R110). -/
def watchNotice (c : CommitReport) (n : WatchNo) (w : Watch) : Option Notice :=
  if w.handle = c.handle ∧ selfPasses c w then modeNotice c n w else none

/-- One watch table entry at a commit point (06, R110). -/
def evaluateWatch (c : CommitReport) (s : State) (n : WatchNo) : State :=
  match s.watchAt n with
  | none => s
  | some w =>
    match watchNotice c n w with
    | none => s
    | some x => postNotice w.port x s

/-- Every watch at a commit point, in ascending watch number (06, R110). -/
def evaluateWatches (c : CommitReport) (s : State) : State := allWatches.foldl (evaluateWatch c) s

/-- Whether a port has a watch on a handle (06, R107). -/
def State.watchesOn (s : State) (p : Port) (h : Handle) : Bool :=
  allWatches.any fun n =>
    match s.watchAt n with
    | some w => w.port == p && w.handle == h
    | none => false

/-- A notice to a port when a condition holds. -/
def postIf (c : Bool) (p : Port) (n : Notice) (s : State) : State := if c then postNotice p n s else s

/-- The RETIRE commit point at the Watch Unit: the handle's watches go, and each port that had one gets one
RETIRED notice (06, R107). -/
def retireWatches (h : Handle) (s : State) : State :=
  postIf (s.watchesOn .p2 h) .p2 (.retired h)
    (postIf (s.watchesOn .p1 h) .p1 (.retired h)
      (postIf (s.watchesOn .p0 h) .p0 (.retired h) (removeWatches (fun w => w.handle == h) s)))

end Sys2Proof.Machine
end

