-- ==== Sys2Proof/Machine/Directory.lean ====
section
/-! DEFINITION. The Directory's commands (01): DEFINE, RETIRE, SET-RIGHTS, FREEZE, INQUIRE; the commit points
of directory jobs, and the undoing of a job that fails or is removed. -/

namespace Sys2Proof.Machine

/-! ### The taking of a directory request -/

/-- A directory request is taken: the slot holds its job, and the directory job joins the commit queue
(01, R11; 05, R84). -/
def takeDirJob (kind : DirKind) (job : DirJob) (s : State) : State :=
  handJob (.directory kind (targetCopy s.activeDir) (s.dirGen + 1#32)) { s with dirSlot := some job }

/-- The slot check comes first and the GEN_SPENT check last; `refuse` is the operation's own refusal
(01, R11). -/
def judgeDir (s : State) (refuse : Option Status) : Option Status :=
  if s.dirSlot.isSome then some .busy
  else
    match refuse with
    | some c => some c
    | none => if s.dirGen = genSpentMark then some .genSpent else none

/-- The runs for both copies of a new record, copy A's found first and counted as not free for copy B
(01, R8). -/
def allocate (m : List (Nat × PageCond)) (len : Nat) : Option (Nat × Nat) :=
  match findRun m len with
  | none => none
  | some a =>
    match findRun (markRun .reserved a len m) len with
    | none => none
    | some b => some (a, b)

/-- The page map as a list; none is built outside READY and CLEARING. -/
def State.pageList (s : State) : List (Nat × PageCond) := s.pageMap.getD []

/-- The entry that a DEFINE makes, its copies at the runs found; its define stamp is set at its commit point
(01, R13, R14). -/
def DefineFields.entry (f : DefineFields) (a b : Nat) : RecEntry where
  label := f.label
  kind := (toKind f.kind).getD .plain
  size := f.size
  holdLimit := f.holdLimit
  rights := ⟨toRights f.rights.p0, toRights f.rights.p1, toRights f.rights.p2⟩
  frozen := false
  stamp := 0#32
  pageA := Fin.ofNat 2048 a
  pageB := Fin.ofNat 2048 b

/-- DEFINE's own refusals: EXISTS, then NO_SPACE (01, R13). -/
def defineRefusal (s : State) (h : Handle) (runs : Option (Nat × Nat)) : Option Status :=
  if s.isDefined h then some .existsAlready else if runs.isNone then some .noSpace else none

/-- A DEFINE that admission has passed (01, R13). -/
def takeDefine (tk : Ticket) (f : DefineFields) (s : State) : State :=
  let h := toHandle f.handle
  let runs := allocate s.pageList (pagesPerCopy f.size.toNat)
  match judgeDir s (defineRefusal s h runs) with
  | some c => complete tk c [] s
  | none =>
    let x := f.entry (runs.getD (0, 0)).1 (runs.getD (0, 0)).2
    takeDirJob .define ⟨.define x, h, tk⟩ (s.markCopies .reserved x)

/-- DEFINE (01, R13). -/
def execDefine (p : Port) (s : State) : Host.Outcome State Fault Refusal :=
  match s.oldestRequest p with
  | some (tk, .define f) => .next (serve p tk (.define f) (takeDefine tk f) (handOver p s))
  | _ => .next s

/-- RETIRE's own refusals: FROZEN, then IN_USE (01, R15). -/
def retireRefusal (s : State) (h : Handle) : Option Status :=
  if (s.entryOf h).frozen then some .frozen
  else if s.recordFree h ∧ (s.record h).waiters = [] then none else some .inUse

/-- A RETIRE that admission has passed (01, R15). -/
def takeRetire (tk : Ticket) (h : Handle) (s : State) : State :=
  match judgeDir s (retireRefusal s h) with
  | some c => complete tk c [] s
  | none => takeDirJob .retire ⟨.retire, h, tk⟩ (s.setRecord h { s.record h with retirePending := true })

/-- RETIRE (01, R15). -/
def execRetire (p : Port) (s : State) : Host.Outcome State Fault Refusal :=
  match s.oldestRequest p with
  | some (tk, .retire b) => .next (serve p tk (.retire b) (takeRetire tk (toHandle b)) (handOver p s))
  | _ => .next s

/-- A SET-RIGHTS that admission has passed (01, R17). -/
def takeSetRights (tk : Ticket) (h : Handle) (r : PerPort Rights) (s : State) : State :=
  match judgeDir s (if (s.entryOf h).rights = r then some .unchanged else none) with
  | some .unchanged => complete tk .unchanged (be4 s.dirGen) s
  | some c => complete tk c [] s
  | none => takeDirJob .setRights ⟨.setRights r, h, tk⟩ s

/-- SET_RIGHTS (01, R17). -/
def execSetRights (p : Port) (s : State) : Host.Outcome State Fault Refusal :=
  match s.oldestRequest p with
  | some (tk, .setRights b r) =>
    .next (serve p tk (.setRights b r)
      (takeSetRights tk (toHandle b) ⟨toRights r.p0, toRights r.p1, toRights r.p2⟩) (handOver p s))
  | _ => .next s

/-- FREEZE's own refusals: FROZEN, then IN_USE; waiters do not prevent it (01, R19). -/
def freezeRefusal (s : State) (h : Handle) : Option Status :=
  if (s.entryOf h).frozen then some .frozen else if s.recordFree h then none else some .inUse

/-- A FREEZE that admission has passed: the record leaves the allocation queue, its waiters stay (01, R19). -/
def takeFreeze (tk : Ticket) (h : Handle) (s : State) : State :=
  match judgeDir s (freezeRefusal s h) with
  | some c => complete tk c [] s
  | none =>
    takeDirJob .freeze ⟨.freeze, h, tk⟩
      (leaveAlloc h (s.setRecord h { s.record h with freezePending := true }))

/-- FREEZE (01, R19). -/
def execFreeze (p : Port) (s : State) : Host.Outcome State Fault Refusal :=
  match s.oldestRequest p with
  | some (tk, .freeze b) => .next (serve p tk (.freeze b) (takeFreeze tk (toHandle b)) (handOver p s))
  | _ => .next s

/-! ### INQUIRE -/

/-- One rights byte of an INQUIRE response: given to the configuration port and to the port itself
(01, R22; 10, R176). -/
def inquiredRights (s : State) (h : Handle) (asker p : Port) : Byte :=
  if s.configPort = some asker ∨ asker = p then rightsByte (s.rightsOf h p) else notGivenByte

/-- The holder port byte of an INQUIRE response (01, R22; 10, R176). -/
def inquiredHolder (s : State) (h : Handle) (asker : Port) : Byte :=
  if s.configPort = some asker then portOrNoneByte ((s.leaseOn h).map fun x => x.2.holder) else notGivenByte

/-- The lease state of a record, none for FREE (03, R48). -/
def State.leaseState (s : State) (h : Handle) : Option LeasePhase := (s.leaseOn h).map fun x => x.2.phase

/-- The 19 bytes of an INQUIRE response (10, R176). -/
def inquireBody (s : State) (asker : Port) (h : Handle) : List Byte :=
  let x := s.entryOf h
  be4 x.label ++ [kindByte x.kind, x.size, x.holdLimit,
      inquiredRights s h asker .p0, inquiredRights s h asker .p1, inquiredRights s h asker .p2,
      0#6 ++ BitVec.ofBool (s.record h).freezePending ++ BitVec.ofBool x.frozen]
    ++ be4 (s.record h).gen
    ++ [leaseStateByte (s.leaseState h), BitVec.ofNat 8 (s.record h).waiters.length,
      inquiredHolder s h asker, (s.record h).faultCount]

/-- INQUIRE (01, R22). -/
def execInquire (p : Port) (s : State) : Host.Outcome State Fault Refusal :=
  match s.oldestRequest p with
  | some (tk, .inquire b) =>
    .next (serve p tk (.inquire b) (fun s1 => complete tk .ok (inquireBody s1 p (toHandle b)) s1) (handOver p s))
  | _ => .next s

/-! ### The end of a directory job -/

/-- Waiters answered with one code, from the head. -/
def answerAll (code : Status) (ws : List Waiter) (s : State) : State :=
  ws.foldl (fun s1 w => complete w.ticket code [] s1) s

/-- The DEFINE commit point (01, R14). -/
def defineCommitted (j : DirJob) (x : RecEntry) (gen : Word32) (s : State) : State :=
  complete j.ticket .ok (be4 gen)
    ((s.setRecord j.handle { RecState.blank with entry := some { x with stamp := gen } }).markCopies .inUse x)

/-- The RETIRE commit point (01, R16). -/
def retireCommitted (j : DirJob) (gen : Word32) (s : State) : State :=
  complete j.ticket .ok (be4 gen)
    (retireWatches j.handle
      ((s.markCopies .free (s.entryOf j.handle)).setRecord j.handle RecState.blank))

/-- The SET-RIGHTS commit point: the watches of ports whose new set lacks WATCH go with no notice, and the
waiters of ports whose new set lacks UPDATE are answered DENIED (01, R18; 06, R108; 03, R66). -/
def setRightsCommitted (j : DirJob) (r : PerPort Rights) (gen : Word32) (s : State) : State :=
  let h := j.handle
  let s1 := s.setRecord h { s.record h with entry := (s.record h).entry.map fun x => { x with rights := r } }
  let s2 := removeWatches (fun w => w.handle == h && !(r.get w.port).watch) s1
  let lost := (s2.record h).waiters.filter fun w => !(r.get w.ticket.port).update
  let s3 := leaveAllocIfEmpty h
    (s2.setWaiters h ((s2.record h).waiters.filter fun w => (r.get w.ticket.port).update))
  complete j.ticket .ok (be4 gen) (answerAll .denied lost s3)

/-- The FREEZE commit point: every waiter is answered FROZEN (01, R20). -/
def freezeCommitted (j : DirJob) (gen : Word32) (s : State) : State :=
  let h := j.handle
  let x := s.record h
  let s1 := s.setRecord h
    { x with entry := x.entry.map fun y => { y with frozen := true }, freezePending := false, waiters := [] }
  complete j.ticket .ok (be4 gen) (answerAll .frozen x.waiters s1)

/-- The directory commit point, after the job has left the queue (05, R95). -/
def dirCommitPoint (target : Copy) (gen : Word32) (s : State) : State :=
  let s1 := { s with activeDir := some target, dirGen := gen, dirSlot := none }
  match s.dirSlot with
  | none => s1
  | some j =>
    match j.op with
    | .define x => defineCommitted j x gen s1
    | .retire => retireCommitted j gen s1
    | .setRights r => setRightsCommitted j r gen s1
    | .freeze => freezeCommitted j gen s1

/-- The slot is emptied and the changes made at the taking are undone: a DEFINE's RESERVED pages become FREE,
a RETIRE's or FREEZE's flag is cleared (01, R9, R12, R16, R21). -/
def undoTaking (j : DirJob) (s : State) : State :=
  let s1 := { s with dirSlot := none }
  match j.op with
  | .define x => s1.markCopies .free x
  | .retire => s1.setRecord j.handle { s1.record j.handle with retirePending := false }
  | .setRights _ => s1
  | .freeze => s1.setRecord j.handle { s1.record j.handle with freezePending := false }

/-- After a FREEZE fails or is removed, its record's waiters are eligible again: the lowest-numbered FREE entry
goes to the head waiter, or the record joins the allocation queue (01, R21; 03, R66). -/
def freezeReturn (j : DirJob) (s : State) : State :=
  match j.op with
  | .freeze =>
    if (s.record j.handle).waiters = [] then s
    else
      match s.lowestFree with
      | some e => (grantFromQueue e j.handle (s.record j.handle).waiters s).1
      | none => joinAlloc j.handle s
  | _ => s

/-- The failure of a directory job at the Directory (05, R90; 01, R14, R16, R18, R21). -/
def dirFault (s : State) : State :=
  match s.dirSlot with
  | none => s
  | some j => complete j.ticket .storeFault [] (freezeReturn j (undoTaking j s))

end Sys2Proof.Machine
end

