-- ==== Sys2Proof/Machine/Startup.lean ====
section
/-! DEFINITION. Power, RESETn, the start-up scan and the end of a factory clear (09). -/

namespace Sys2Proof.Machine

/-! ### Loss of power and reset -/

/-- The page that a page program or the fault erase is changing, if one is in progress, and the bytes that the
operation would leave in it (05, R85). -/
def State.pageInProgress (s : State) : Option (Nat × List Byte) :=
  match s.queue with
  | [] => none
  | j :: _ =>
    match s.engine with
    | .idle => none
    | .programming pos _ => some (j.pageAt pos, s.jobPage j pos)
    | .erasing _ _ => some (j.headerPage, erasedPage)

/-- A page operation abandoned leaves its page indeterminate, within the outcomes of 02, R35, R36 and R41
(02, R26). -/
def abandonPage (s : State) : State :=
  match s.pageInProgress with
  | none => s
  | some (page, whole) => spoilPage page whole s

/-- A bulk erase abandoned leaves the pages its sweeps had passed erased, one page indeterminate, and the
rest as they were; how far it had come is a free value (09, R167, R169; log entry 7). -/
def abandonErase (s : State) : State :=
  match s.clear with
  | some ⟨_, .erasing⟩ =>
    let n := Config.freeSweep s.freeIndex % 2049
    let s1 := { s with store := Memory.sweep s.store n, freeIndex := s.freeIndex + 1 }
    if n < 2048 then spoilPage (sweepPage n) erasedPage s1 else s1
  | _ => s

/-- Every operation in progress is abandoned, and every block takes its start values; the store stays
(09, R156). What R156 calls not yet set until the scan ends is left at 0 and none: DESIGN CHOICE, unsafe (log
entry 24). -/
def startValues (s : State) : State :=
  { abandonErase (abandonPage s) with
    dev := .starting
    clear := none
    ports := ⟨PortState.start, PortState.start, PortState.start⟩
    activeDir := none
    dirGen := 0#32
    dirSlot := none
    pageMap := none
    records := Vector.replicate 48 RecState.blank
    leases := Vector.replicate 6 LeaseEntry.start
    buffers := Vector.replicate 6 Buffer.empty
    allocQueue := []
    queue := []
    engine := .idle
    watches := Vector.replicate 16 none }

/-- The straps are sampled when the device is supplied and RESETn is high; until then they stay as last sampled
(09, R156; 07, R119, R120). -/
def sampleStraps (straps : Straps) (s : State) : State := if s.active then { s with straps := straps } else s

/-- POWER_UP: the supply is there, and the device starts unless RESETn is still low (09, R155, R156; 07, R120;
log entry 9). -/
def execPowerUp (straps : Straps) (s : State) : Host.Outcome State Fault Refusal :=
  .next (sampleStraps straps { startValues s with supply := true })

/-- RESETN_RELEASE: RESETn is high, and the device starts unless it has no supply (09, R155, R156; 07, R120; log
entry 9). -/
def execResetnRelease (straps : Straps) (s : State) : Host.Outcome State Fault Refusal :=
  .next (sampleStraps straps { startValues s with resetLow := false })

/-- POWER_LOSS: everything in progress is abandoned and the ports are inactive; the level of RESETn stays
(09, R156; 07, R120). -/
def execPowerLoss (s : State) : Host.Outcome State Fault Refusal := .next { startValues s with supply := false }

/-- RESETN_ASSERT: the same with RESETn low; the supply stays (09, R156; 07, R120). -/
def execResetnAssert (s : State) : Host.Outcome State Fault Refusal := .next { startValues s with resetLow := true }

/-! ### The start-up scan -/

/-- The active copy that the scan chooses for a record (09, R161). -/
def chooseCopy (store : List Host.Cell) (h : Handle) (x : RecEntry) : Option Copy :=
  match copyValid store h x x.pageA.val, copyValid store h x x.pageB.val with
  | true, true =>
    if (copyGen store x.pageA.val).toNat < (copyGen store x.pageB.val).toNat then some .b else some .a
  | true, false => some .a
  | false, true => some .b
  | false, false => none

/-- What the blocks hold for a handle after the scan (09, R160, R161). -/
def scanRecord (store : List Host.Cell) (h : Handle) : Option RecEntry → RecState
  | none => RecState.blank
  | some x =>
    let active := chooseCopy store h x
    { RecState.blank with
      entry := some x
      active := active
      gen := active.elim 0#32 fun c => copyGen store (x.firstPage c) }

/-- The page map of a directory: each copy's run IN USE, every other page FREE (01, R7). -/
def mapOfEntries (entries : List (Option RecEntry)) : List (Nat × PageCond) :=
  entries.foldl (fun m x => x.elim m fun y => markCopies .inUse y m) []

/-- The scan takes a chosen region: its generation, its entries, the page map and the copies of each record
(09, R158, R160, R161). -/
def takeRegion (c : Copy) (s : State) : State :=
  let entries := readEntries (regionBytes s.store c)
  { s with
    activeDir := some c
    dirGen := regionGen s.store c
    pageMap := some (mapOfEntries entries)
    records := tabulate 48 fun h => scanRecord s.store h (entries.getD h.val none) }

/-- The scan finds an empty directory (09, R158, R160). -/
def takeEmpty (s : State) : State :=
  { s with activeDir := none, dirGen := 0#32, pageMap := some [], records := Vector.replicate 48 RecState.blank }

/-- SCAN_END (09, R158, R162, R163). In DAMAGED the directory, the page map and the store state of each record
stay at their start values: DESIGN CHOICE, unsafe (log entry 24). -/
def execScanEnd (s : State) : Host.Outcome State Fault Refusal :=
  if s.active ∧ s.dev = .starting then
    match chooseDirectory s.store with
    | .region c => .next (postAll (.ready .ready) { takeRegion c s with dev := .ready })
    | .nothing => .next (postAll (.ready .ready) { takeEmpty s with dev := .ready })
    | .damaged => .next (postAll (.ready .damaged) { s with dev := .damaged })
  else .next s

/-! ### The end of a factory clear -/

/-- The drained report: watches, directory, page map and store state are cleared, and the bulk erase is
issued (09, R166). -/
def drained (tk : Ticket) (s : State) : State :=
  { s with
    watches := Vector.replicate 16 none
    records := Vector.replicate 48 RecState.blank
    dirGen := 0#32
    pageMap := some []
    clear := some ⟨tk, .erasing⟩ }

/-- The Commit Engine reports drained at the event its queue first stands empty in CLEARING (05, R97). -/
def reportDrained (s : State) : State :=
  match s.clear with
  | some ⟨tk, .draining⟩ => if s.queue = [] then drained tk s else s
  | _ => s

/-- BULK_ERASE_END (09, R167). -/
def execBulkEraseEnd (s : State) : Host.Outcome State Fault Refusal :=
  match s.clear with
  | some ⟨tk, .erasing⟩ =>
    .next (complete tk .ok []
      (postAll (.ready .ready) { s with store := [], activeDir := none, dev := .ready, clear := none }))
  | _ => .next s

end Sys2Proof.Machine
end

