-- ==== Sys2Proof/Machine/CommitEngine.lean ====
section
/-! DEFINITION. The Commit Engine's commands (05): PAGE_MATCH, PAGE_MISMATCH and ERASE_END. -/

namespace Sys2Proof.Machine

/-! ### Record jobs -/

/-- The response to the answer tag of a record job at its commit point (03, R64; 04, R79). -/
def commitAnswer (l : Lease) (b : Buffer) (gen : Word32) : Status × List Byte :=
  match l.form with
  | .explicit => (.ok, be4 gen)
  | .implicit => (addStatus b.clamped, be4 (counterValue b.bytes) ++ be4 gen)

/-- The end of a record job at the Lease Controller: the answer, the freeing and the grant onward (03, R64,
R65). -/
def endLease (e : EntryNo) (l : Lease) (answer : Status × List Byte) (s : State) : State :=
  grantOnward e l.handle (completeIf l.answer answer.1 answer.2 (freeLease e s))

/-- The commit point of a record job, after the job has left the queue: Store Array, Watch Unit, Lease
Controller (05, R92). -/
def recordCommitPoint (e : EntryNo) (h : Handle) (target : Copy) (gen : Word32) (s : State) : State :=
  let s1 := s.setRecord h { s.record h with active := some target, gen := gen }
  match (s.lease e).lease with
  | none => s1
  | some l =>
    let report : CommitReport :=
      { handle := h, port := l.holder, gen := gen, old := s.committedData h,
        new := (s.buffer e).bytes.take (s.entryOf h).size.toNat }
    endLease e l (commitAnswer l (s.buffer e) gen) (evaluateWatches report s1)

/-- The failure of a record job at the Directory and the Lease Controller (05, R90; 01, R3; 03, R65). The
notice is posted between the two. -/
def raiseFaultCount (h : Handle) (s : State) : State :=
  s.setRecord h { s.record h with faultCount := satInc (s.record h).faultCount }

def recordFault (e : EntryNo) (s : State) : State :=
  match (s.lease e).lease with
  | none => s
  | some l => endLease e l (.storeFault, []) s

/-! ### Job ends -/

/-- A job's commit point is reported, the new head starts, and an empty queue in CLEARING is reported drained
(05, R92, R93, R95, R97). The job has left the queue. -/
def commitPoint (j : Job) (s : State) : State :=
  reportDrained (startNext
    (match j with
     | .record e h target _ _ gen => recordCommitPoint e h target gen s
     | .directory _ target gen => dirCommitPoint target gen s))

/-- What a STORE_FAULT notice names (05, R91). -/
def Job.subject : Job → Subject
  | .record _ h _ _ _ _ => .record h
  | .directory .. => .directory

/-- The STORE_FAULT notice, to the configuration port when the straps name one (05, R91). -/
def postFault (j : Job) (failing : Nat) (s : State) : State :=
  match s.configPort with
  | some p => postNotice p (.storeFault j.subject failing j.gen) s
  | none => s

/-- The end of a failed job (05, R90). The job has left the queue. -/
def jobFault (j : Job) (failing : Nat) (s : State) : State :=
  reportDrained (startNext
    (match j with
     | .record e h _ _ _ _ => recordFault e (postFault j failing (raiseFaultCount h s))
     | .directory .. => dirFault (postFault j failing s)))

/-- PAGE_MATCH: the page holds the given bytes; the next page is programmed, or the job has reached its
commit point (05, R89; 02, R25). -/
def execPageMatch (s : State) : Host.Outcome State Fault Refusal :=
  match s.engine, s.queue with
  | .programming pos _, j :: rest =>
    if j.pageAt pos < 2048 then
      let s1 := { s with store := Memory.writePage s.store (j.pageAt pos) (s.jobPage j pos) }
      if pos < j.pages then .next { s1 with engine := .programming (pos + 1) false }
      else .next (commitPoint j { s1 with queue := rest })
    else .fault (.noSuchPage (j.pageAt pos))
  | _, _ => .next s

/-- PAGE_MISMATCH: the page is indeterminate; it is programmed again, or the job has failed and the erase of
its header page is issued (05, R89, R90; 02, R25). -/
def execPageMismatch (s : State) : Host.Outcome State Fault Refusal :=
  match s.engine, s.queue with
  | .programming pos retry, j :: _ =>
    if j.pageAt pos < 2048 then
      let s1 := spoilPage (j.pageAt pos) (s.jobPage j pos) s
      if retry then .next { s1 with engine := .erasing pos (j.pageAt pos) }
      else .next { s1 with engine := .programming pos true }
    else .fault (.noSuchPage (j.pageAt pos))
  | _, _ => .next s

/-- ERASE_END: the header page is erased and the failed job ends (05, R90; 02, R36). -/
def execEraseEnd (s : State) : Host.Outcome State Fault Refusal :=
  match s.engine, s.queue with
  | .erasing _ failing, j :: rest =>
    if j.headerPage < 2048 then
      .next (jobFault j failing { s with store := Memory.erasePage s.store j.headerPage, queue := rest })
    else .fault (.noSuchPage j.headerPage)
  | _, _ => .next s

end Sys2Proof.Machine
end

