-- ==== Sys2Proof/Machine/Control.lean ====
section
/-! DEFINITION. DEVICE-INFO (08, R152), SET-ATTENTION (07, R135), PORT-RESET (07, R136), a request of an
unknown kind (08, R143), and FACTORY-CLEAR (09, R165). -/

namespace Sys2Proof.Machine

/-! ### DEVICE-INFO and SET-ATTENTION -/

/-- The figures of DEVICE-INFO that depend on the device state (08, R152, R153). -/
structure InfoFigures where
  dirGen : Word32
  records : Nat
  freePages : Nat
  largestRun : Nat
  freeEntries : Nat
  queueLength : Nat
deriving DecidableEq, Repr

/-- The figures as the tables stand (08, R152). -/
def State.standingFigures (s : State) : InfoFigures :=
  ⟨s.dirGen, s.recordsDefined, s.freePages, s.largestRun, s.freeEntries, s.queue.length⟩

/-- The figures reported in each device state (08, R153). -/
def State.infoFigures (s : State) : InfoFigures :=
  match s.dev with
  | .starting | .damaged => ⟨0#32, 0, 0, 0, 6, 0⟩
  | .ready => s.standingFigures
  | .clearing =>
    match s.clear with
    | some ⟨_, .erasing⟩ => ⟨0#32, 0, 1984, 1984, 6, 0⟩
    | _ => s.standingFigures

/-- The 16 bytes of a DEVICE-INFO response (10, R176). -/
def infoBody (s : State) : List Byte :=
  let f := s.infoFigures
  [devStateByte s.dev] ++ be2 Config.partCode ++ [Config.revision, portOrNoneByte s.configPort]
    ++ be4 f.dirGen ++ [BitVec.ofNat 8 f.records] ++ be2 (BitVec.ofNat 16 f.freePages)
    ++ be2 (BitVec.ofNat 16 f.largestRun) ++ [BitVec.ofNat 8 f.freeEntries, BitVec.ofNat 8 f.queueLength]

/-- DEVICE_INFO (08, R152). -/
def execDeviceInfo (p : Port) (s : State) : Host.Outcome State Fault Refusal :=
  match s.oldestRequest p with
  | some (tk, .deviceInfo) =>
    .next (serve p tk .deviceInfo (fun s1 => complete tk .ok (infoBody s1) s1) (handOver p s))
  | _ => .next s

/-- A SET-ATTENTION that admission has passed (07, R135; 10, R170: bit 0 responses, bit 1 notices). -/
def takeMask (tk : Ticket) (mask : Byte) (s : State) : State :=
  complete tk .ok []
    (s.setPort tk.port
      { s.port tk.port with maskResponses := mask.getLsbD 0, maskNotices := mask.getLsbD 1 })

/-- SET_ATTENTION (07, R135). -/
def execSetAttention (p : Port) (s : State) : Host.Outcome State Fault Refusal :=
  match s.oldestRequest p with
  | some (tk, .setAttention m) => .next (serve p tk (.setAttention m) (takeMask tk m) (handOver p s))
  | _ => .next s

/-- UNKNOWN_REQUEST_KIND: a placed request of an unknown kind or a wrong body length is answered NOT_READY
where step 1 refuses its kind, else MALFORMED (08, R142, R143). -/
def execUnknownRequestKind (p : Port) (s : State) : Host.Outcome State Fault Refusal :=
  match s.oldestPlaced p with
  | some (tk, kind, body) =>
    if (parseReq kind body).isSome then .next s
    else if kindAllowed s.dev (toReqKind kind) then .next (complete tk .malformed [] (handOver p s))
    else .next (complete tk .notReady [] (handOver p s))
  | none => .next s

/-! ### PORT-RESET -/

/-- The acts of a PORT-RESET on the port's own state: its own slot alone stays (07, R136). -/
def PortState.reset (x : PortState) (own : Tag) : PortState :=
  { PortState.start with
    slots := (Vector.replicate 4 Slot.free).set own.val (x.slots.get own) own.isLt
    bus := x.bus }

/-- The port's waiters leave every wait queue with no response, and a record whose queue becomes empty leaves
the allocation queue (03, R67 step 1). -/
def removePortWaiters (p : Port) (s : State) : State :=
  let keep (x : RecState) : RecState := { x with waiters := x.waiters.filter fun w => w.ticket.port != p }
  let s1 := { s with records := mapTable keep s.records }
  { s1 with allocQueue := s1.allocQueue.filter fun h => !(s1.record h).waiters.isEmpty }

/-- One entry of a reset port: HELD is freed, COMMITTING is freed when its job has not started and is removed,
and each freed entry is granted onward (03, R67 step 2; 05, R96). -/
def resetEntry (p : Port) (s : State) (e : EntryNo) : State :=
  match (s.lease e).lease with
  | none => s
  | some l =>
    if l.holder = p then
      match l.phase with
      | .held => grantOnward e l.handle (freeLease e s)
      | .committing =>
        if s.unstarted.any (Job.isRecordOf e) then
          grantOnward e l.handle (freeLease e (removeUnstarted (Job.isRecordOf e) s))
        else s
    else s

/-- The port's entries in ascending entry number (03, R67 step 2). -/
def resetEntries (p : Port) (s : State) : State := allEntries.foldl (resetEntry p) s

/-- A directory job that has not started is removed when the configuration port is reset (01, R12). -/
def resetDirJob (p : Port) (s : State) : State :=
  match s.dirSlot with
  | none => s
  | some j =>
    if s.configPort = some p ∧ s.unstarted.any Job.isDirectory then
      freezeReturn j (undoTaking j (removeUnstarted Job.isDirectory s))
    else s

/-- A PORT-RESET that admission has passed: the Port Engine, the Lease Controller with the Commit Engine, the
Watch Unit, the Directory, and then its own OK (07, R136, R137). -/
def takePortReset (tk : Ticket) (s : State) : State :=
  let p := tk.port
  let s1 := s.setPort p ((s.port p).reset tk.tag)
  let s2 := resetEntries p (removePortWaiters p s1)
  let s3 := removeWatches (fun w => w.port == p) s2
  complete tk .ok [] (resetDirJob p s3)

/-- PORT_RESET (07, R136). -/
def execPortReset (p : Port) (s : State) : Host.Outcome State Fault Refusal :=
  match s.oldestRequest p with
  | some (tk, .portReset) => .next (serve p tk .portReset (takePortReset tk) (handOver p s))
  | _ => .next s

/-! ### FACTORY-CLEAR -/

/-- The waiters of one record are answered CLEARED, from the head (03, R69 step 1). -/
def clearWaiters (s : State) (h : Handle) : State :=
  answerAll .cleared (s.record h).waiters (s.setWaiters h [])

/-- Every waiter of every record, in ascending handle, is answered CLEARED (03, R69 step 1). -/
def clearAllWaiters (s : State) : State := { allHandles.foldl clearWaiters s with allocQueue := [] }

/-- A HELD entry is freed, and LEASE_REVOKED is posted to its holder (03, R69 step 2). -/
def revokeEntry (s : State) (e : EntryNo) : State :=
  match (s.lease e).lease with
  | none => s
  | some l =>
    match l.phase with
    | .committing => s
    | .held => postNotice l.holder (.leaseRevoked (tokenOf e (s.lease e)) l.handle) (freeLease e s)

/-- A job that has not started is handed to its owner as it is removed: its request is answered CLEARED
(03, R69 step 3; 01, R12; 05, R97). No grant follows. -/
def clearJob (s : State) (j : Job) : State :=
  match j with
  | .record e _ _ _ _ _ =>
    match (s.lease e).lease with
    | none => s
    | some l => completeIf l.answer .cleared [] (freeLease e s)
  | .directory .. =>
    match s.dirSlot with
    | none => s
    | some d => complete d.ticket .cleared [] (undoTaking d s)

/-- Every job that has not started leaves the commit queue, in queue order (05, R97). -/
def clearJobs (s : State) : State := s.unstarted.foldl clearJob { s with queue := s.queue.take 1 }

/-- A FACTORY-CLEAR that admission has passed (09, R165). -/
def takeFactoryClear (tk : Ticket) (s : State) : State :=
  let s1 := { s with dev := .clearing, clear := some ⟨tk, .draining⟩ }
  reportDrained (clearJobs (allEntries.foldl revokeEntry (clearAllWaiters s1)))

/-- FACTORY_CLEAR (09, R165). -/
def execFactoryClear (p : Port) (s : State) : Host.Outcome State Fault Refusal :=
  match s.oldestRequest p with
  | some (tk, .factoryClear) => .next (serve p tk .factoryClear (takeFactoryClear tk) (handOver p s))
  | _ => .next s

end Sys2Proof.Machine
end

