-- ==== Sys2Proof/Machine/Leases.lean ====
section
/-! DEFINITION. The Lease Controller's commands (03): ACQUIRE, ADD without a token, COMMIT, RELEASE, RENEW,
CANCEL, and the two expiries. -/

namespace Sys2Proof.Machine

/-! ### ACQUIRE -/

/-- The lowest-numbered FREE entry, when the record is FREE with an empty wait queue: what is granted at
once (03, R52 case 4, R54 case 4). -/
def State.entryAtOnce (s : State) (h : Handle) : Option EntryNo :=
  if s.recordFree h ∧ (s.record h).waiters = [] then s.lowestFree else none

/-- An ACQUIRE that admission has passed (03, R52). -/
def takeAcquire (tk : Ticket) (h : Handle) (waitLimit : Byte) (s : State) : State :=
  if (s.record h).retirePending then complete tk .inUse [] s
  else if (s.record h).freezePending then complete tk .frozen [] s
  else if s.holds tk.port h then complete tk .inUse [] s
  else
    match s.entryAtOnce h with
    | some e => grantExplicit e h tk s
    | none =>
      if waitLimit = 0#8 then complete tk .busy [] s
      else joinWaiters h ⟨tk, .acquire waitLimit.toNat⟩ s

/-- ACQUIRE (03, R52). -/
def execAcquire (p : Port) (s : State) : Host.Outcome State Fault Refusal :=
  match s.oldestRequest p with
  | some (tk, .acquire b w) =>
    .next (serve p tk (.acquire b w) (takeAcquire tk (toHandle b) w) (handOver p s))
  | _ => .next s

/-! ### ADD without a token -/

/-- A tokenless ADD that admission has passed (03, R54). -/
def takeFreeAdd (tk : Ticket) (h : Handle) (delta : Word32) (s : State) : State :=
  if (s.record h).retirePending then complete tk .inUse [] s
  else if (s.record h).freezePending then complete tk .frozen [] s
  else if s.holds tk.port h then complete tk .inUse [] s
  else
    match s.entryAtOnce h with
    | some e =>
      if (s.record h).gen = genSpentMark then complete tk .genSpent [] s else grantImplicit e h tk delta s
    | none => joinWaiters h ⟨tk, .add delta⟩ s

/-- ADD_WITHOUT_TOKEN (03, R54; 04, R79). -/
def execAddWithoutToken (p : Port) (s : State) : Host.Outcome State Fault Refusal :=
  match s.oldestRequest p with
  | some (tk, .add b t d) =>
    if t.isZero then .next (serve p tk (.add b t d) (takeFreeAdd tk (toHandle b) d) (handOver p s)) else .next s
  | _ => .next s

/-! ### COMMIT -/

/-- The lease goes to COMMITTING with the COMMIT's tag as answer tag, and its record job is queued (03, R63
case 3). -/
def beginCommit (tk : Ticket) (e : EntryNo) (l : Lease) (s : State) : State :=
  let s1 := s.setLease e
    { s.lease e with lease := some { l with phase := .committing, timer := none, answer := some tk } }
  handJob (s1.recordJob e l.handle) s1

/-- A COMMIT whose token check has passed (03, R63). -/
def takeCommit (tk : Ticket) (e : EntryNo) (l : Lease) (s : State) : State :=
  match l.phase with
  | .committing => complete tk .busy [] s
  | .held =>
    if l.modified = false then
      grantOnward e l.handle (complete tk .unchanged (be4 (s.record l.handle).gen) (freeLease e s))
    else if (s.record l.handle).gen = genSpentMark then
      grantOnward e l.handle (complete tk .genSpent [] (freeLease e s))
    else beginCommit tk e l s

/-- COMMIT (03, R63). -/
def execCommit (p : Port) (s : State) : Host.Outcome State Fault Refusal :=
  match s.oldestRequest p with
  | some (tk, .commit t) => .next (serve p tk (.commit t) (withLease p tk t (takeCommit tk)) (handOver p s))
  | _ => .next s

/-! ### RELEASE and RENEW -/

/-- A RELEASE whose token check has passed (03, R61). -/
def takeRelease (tk : Ticket) (e : EntryNo) (l : Lease) (s : State) : State :=
  match l.phase with
  | .committing => complete tk .busy [] s
  | .held => grantOnward e l.handle (complete tk .ok [] (freeLease e s))

/-- RELEASE (03, R61). -/
def execRelease (p : Port) (s : State) : Host.Outcome State Fault Refusal :=
  match s.oldestRequest p with
  | some (tk, .release t) => .next (serve p tk (.release t) (withLease p tk t (takeRelease tk)) (handOver p s))
  | _ => .next s

/-- A RENEW whose token check has passed (03, R60). -/
def takeRenew (tk : Ticket) (e : EntryNo) (l : Lease) (s : State) : State :=
  match l.phase with
  | .committing => complete tk .busy [] s
  | .held =>
    if l.renewals < 4 then
      complete tk .ok [BitVec.ofNat 8 (4 - (l.renewals + 1))]
        (s.setLease e
          { s.lease e with
            lease := some
              { l with renewals := l.renewals + 1, timer := some (s.entryOf l.handle).holdLimit.toNat } })
    else complete tk .limit [] s

/-- RENEW (03, R60). -/
def execRenew (p : Port) (s : State) : Host.Outcome State Fault Refusal :=
  match s.oldestRequest p with
  | some (tk, .renew t) => .next (serve p tk (.renew t) (withLease p tk t (takeRenew tk)) (handOver p s))
  | _ => .next s

/-! ### CANCEL -/

/-- A waiting request's port and tag. -/
def Waiter.isOf (p : Port) (t : Tag) (w : Waiter) : Bool := w.ticket.port == p && w.ticket.tag == t

/-- The record in whose wait queue a port's tag waits, with its wait entry (03, R62). -/
def State.findWaiter (s : State) (p : Port) (t : Tag) : Option (Handle × Waiter) :=
  allHandles.findSome? fun h =>
    match (s.record h).waiters.find? (Waiter.isOf p t) with
    | some w => some (h, w)
    | none => none

/-- A port's tag leaves a record's wait queue, and the record leaves the allocation queue when its wait
queue is then empty (03, R59, R62). -/
def dropWaiter (h : Handle) (p : Port) (t : Tag) (s : State) : State :=
  leaveAllocIfEmpty h (s.setWaiters h ((s.record h).waiters.filter fun w => !w.isOf p t))

/-- A CANCEL that admission has passed (03, R62). -/
def takeCancel (tk : Ticket) (target : Tag) (s : State) : State :=
  if target = tk.tag then complete tk .malformed [] s
  else
    match s.findWaiter tk.port target with
    | some (h, w) => complete tk .ok [] (complete w.ticket .cancelled [] (dropWaiter h tk.port target s))
    | none => complete tk .notFound [] s

/-- The tag that a target tag byte in range names. -/
def toTag (b : Byte) : Tag := ⟨b.toNat % 4, Nat.mod_lt _ (by decide)⟩

/-- CANCEL (03, R62). -/
def execCancel (p : Port) (s : State) : Host.Outcome State Fault Refusal :=
  match s.oldestRequest p with
  | some (tk, .cancel b) => .next (serve p tk (.cancel b) (takeCancel tk (toTag b)) (handOver p s))
  | _ => .next s

/-! ### Expiries -/

/-- HOLD_EXPIRY: a HELD entry whose timer has run out is freed, LEASE_EXPIRED is posted to its holder, and the
entry is granted onward (03, R58). While the timer has units left it is not taken (03, R57). -/
def execHoldExpiry (e : EntryNo) (s : State) : Host.Outcome State Fault Refusal :=
  match (s.lease e).lease with
  | some l =>
    if l.phase = .held ∧ l.timer = some 0 then
      .next (grantOnward e l.handle
        (postNotice l.holder (.leaseExpired (tokenOf e (s.lease e)) l.handle) (freeLease e s)))
    else .next s
  | none => .next s

/-- The waiting entry is an ACQUIRE whose wait timer has run out; ADD has no wait timer (03, R50). -/
def WaitType.hasRunOut : WaitType → Bool
  | .acquire left => left == 0
  | .add _ => false

/-- WAIT_EXPIRY: a waiting ACQUIRE whose wait timer has run out leaves its wait queue and is answered TIMEOUT
(03, R59). While the timer has units left it is not taken (03, R50). -/
def execWaitExpiry (p : Port) (t : Tag) (s : State) : Host.Outcome State Fault Refusal :=
  match s.findWaiter p t with
  | some (h, w) =>
    if w.type.hasRunOut then .next (complete w.ticket .timeout [] (dropWaiter h p t s)) else .next s
  | none => .next s

/-! ### Timer units -/

/-- One unit of 10 ms passes for a timer: it runs down to 0 and stays there until its expiry is taken. -/
def tickLease (x : LeaseEntry) : LeaseEntry :=
  { x with lease := x.lease.map fun l => { l with timer := l.timer.map fun n => n - 1 } }

def tickWaiter (w : Waiter) : Waiter :=
  match w.type with
  | .acquire left => { w with type := .acquire (left - 1) }
  | .add _ => w

/-- One unit of 10 ms passes for every hold timer and wait timer (03, R50, R57; log entry 2). -/
def tick (s : State) : State :=
  { s with
    leases := mapTable tickLease s.leases
    records := mapTable (fun x => { x with waiters := x.waiters.map tickWaiter }) s.records }

end Sys2Proof.Machine
end

