-- ==== Sys2Proof/Machine/Staging.lean ====
section
/-! DEFINITION. READ of committed data (02, R37) and the Staging Unit's commands (04): STAGE, READ with a
token and ADD with a token. -/

namespace Sys2Proof.Machine

/-- A READ with token 0 that admission has passed: the committed generation and the bytes (02, R37). -/
def takeRead (tk : Ticket) (h : Handle) (offset length : Byte) (s : State) : State :=
  complete tk .ok (be4 (s.record h).gen ++ slice (s.committedData h) offset.toNat length.toNat) s

/-- READ_COMMITTED (02, R37). -/
def execReadCommitted (p : Port) (s : State) : Host.Outcome State Fault Refusal :=
  match s.oldestRequest p with
  | some (tk, .read b t o n) =>
    if t.isZero then .next (serve p tk (.read b t o n) (takeRead tk (toHandle b) o n) (handOver p s)) else .next s
  | _ => .next s

/-- A READ whose token check has passed: the staged bytes, in HELD and COMMITTING alike (04, R76). -/
def takeTokenRead (tk : Ticket) (offset length : Byte) (e : EntryNo) (_l : Lease) (s : State) : State :=
  complete tk .ok (slice (s.buffer e).bytes offset.toNat length.toNat) s

/-- READ_WITH_TOKEN (04, R75, R76). -/
def execReadWithToken (p : Port) (s : State) : Host.Outcome State Fault Refusal :=
  match s.oldestRequest p with
  | some (tk, .read b t o n) =>
    if t.isZero then .next s
    else .next (serve p tk (.read b t o n) (withLeaseOn p tk t (toHandle b) (takeTokenRead tk o n)) (handOver p s))
  | _ => .next s

/-- The buffer contents of a lease are changed and modified is set (04, R74, R78). -/
def writeBuffer (e : EntryNo) (l : Lease) (offset : Nat) (data : List Byte) (s : State) : State :=
  (s.setLease e { s.lease e with lease := some { l with modified := true } }).setBuffer e
    { s.buffer e with bytes := overwrite (s.buffer e).bytes offset data }

/-- A STAGE whose token check has passed (04, R74). -/
def takeStage (tk : Ticket) (offset : Byte) (data : List Byte) (e : EntryNo) (l : Lease) (s : State) : State :=
  match l.phase with
  | .committing => complete tk .busy [] s
  | .held =>
    if (s.entryOf l.handle).size.toNat < offset.toNat + data.length then complete tk .range [] s
    else complete tk .ok [] (writeBuffer e l offset.toNat data s)

/-- STAGE (04, R74). -/
def execStage (p : Port) (s : State) : Host.Outcome State Fault Refusal :=
  match s.oldestRequest p with
  | some (tk, .stage t o d) => .next (serve p tk (.stage t o d) (withLease p tk t (takeStage tk o d)) (handOver p s))
  | _ => .next s

/-- An ADD whose token check has passed (04, R78). -/
def takeTokenAdd (tk : Ticket) (delta : Word32) (e : EntryNo) (l : Lease) (s : State) : State :=
  match l.phase with
  | .committing => complete tk .busy [] s
  | .held =>
    let v := addDelta (counterValue (s.buffer e).bytes) delta
    complete tk (addStatus v.2) (be4 v.1 ++ be4 (s.record l.handle).gen) (writeBuffer e l 0 (be4 v.1) s)

/-- ADD_WITH_TOKEN (04, R78). -/
def execAddWithToken (p : Port) (s : State) : Host.Outcome State Fault Refusal :=
  match s.oldestRequest p with
  | some (tk, .add b t d) =>
    if t.isZero then .next s
    else .next (serve p tk (.add b t d) (withLeaseOn p tk t (toHandle b) (takeTokenAdd tk d)) (handOver p s))
  | _ => .next s

end Sys2Proof.Machine
end

