-- ==== Sys2Proof/Machine/Transactions.lean ====
section
/-! DEFINITION. The bus transactions of the Port Engines (07; 10, R171 to R177): SUBMIT, FETCH-RESPONSE,
FETCH-NOTICE, STATUS, an unknown code byte, and the I2C read selection. -/

namespace Sys2Proof.Machine

/-! ### Fetched frames -/

/-- A frame with its frame check (10, R170). -/
def withCheck (front : List Byte) : List Byte := front ++ [crc8 front]

/-- The response frame of a tag (10, R175). -/
def responseFrame (t : Tag) (r : Response) : List Byte :=
  withCheck ([0x80#8 + BitVec.ofNat 8 t.val, BitVec.ofNat 8 r.body.length, statusByte r.code] ++ r.body)

/-- The subject of a STORE_FAULT notice as a field (10, R177). -/
def subjectByte : Subject → Byte
  | .record h => handleByte h
  | .directory => 0xFF#8

/-- The kind code of a notice (10, R177). -/
def noticeCode : Notice → Byte
  | .changed .. => 0x01#8
  | .threshold .. => 0x02#8
  | .retired .. => 0x03#8
  | .leaseExpired .. => 0x04#8
  | .leaseRevoked .. => 0x05#8
  | .storeFault .. => 0x06#8
  | .ready .. => 0x07#8
  | .lost .. => 0x08#8

/-- The body of a notice (10, R177). -/
def noticeBody : Notice → List Byte
  | .changed h gen by_ => [handleByte h] ++ be4 gen ++ [portByte by_]
  | .threshold h number mode value gen =>
    [handleByte h, BitVec.ofNat 8 number.val, crossingByte mode] ++ be4 value ++ be4 gen
  | .retired h => [handleByte h]
  | .leaseExpired token h => tokenBytes token ++ [handleByte h]
  | .leaseRevoked token h => tokenBytes token ++ [handleByte h]
  | .storeFault subject page gen => [subjectByte subject] ++ be2 (BitVec.ofNat 16 page) ++ be4 gen
  | .ready dev => [devStateByte dev]
  | .lost count => [count]

/-- The notice frame of a notice (10, R175). -/
def noticeFrame (n : Notice) : List Byte :=
  withCheck ([noticeCode n, BitVec.ofNat 8 (noticeBody n).length] ++ noticeBody n)

/-- The EMPTY answer (10, R175). -/
def emptyAnswer : List Byte := withCheck [0x00#8, 0x00#8]

/-! ### The commands that bytes on a bus spell -/

/-- The command of a transaction that returns an item over `n` bytes. -/
def itemCommand (p : Port) (sel : Selection) (n : Nat) : Instr :=
  match sel with
  | .fetchResponse => .fetchResponse p n
  | .fetchNotice => .fetchNotice p n
  | .status => .status p n

/-- The command of one CSn-low period on an SPI port, from the whole bytes on MOSI: the code byte selects it, and
a period without a whole code byte is none (10, R171; 07, R121, R122). -/
def spiCommand (p : Port) : List Byte → Option Instr
  | [] => none
  | code :: rest =>
    match toTransKind code with
    | some .submit => some (.submit p rest)
    | some (.item sel) => some (itemCommand p sel rest.length)
    | none => some (.unknownCodeByte p code rest.length)

/-- The command of one I2C write transaction, from the whole bytes after the address (10, R171; 07, R123). -/
def i2cWriteCommand (p : Port) : List Byte → Option Instr
  | [] => none
  | code :: rest =>
    match toTransKind code with
    | some .submit => some (.submit p rest)
    | some (.item sel) => some (.readSelection p sel rest.length)
    | none => some (.unknownCodeByte p code rest.length)

/-- The command that one transaction on a port's bus brings: `sent` are the host's whole bytes, on I2C the address
byte first, and `n` is the number of whole bytes read in an I2C read transaction. On I2C a port answers to its own
address alone, and a read returns the item of the present selection (10, R171; 07, R119, R123). -/
def State.busCommand (s : State) (p : Port) (sent : List Byte) (n : Nat) : Option Instr :=
  if s.isI2C p then
    match sent with
    | [] => none
    | address :: rest =>
      if address = Straps.addressByte s.straps false then i2cWriteCommand p rest
      else if address = Straps.addressByte s.straps true then some (itemCommand p (s.port p).selection n)
      else none
  else spiCommand p sent

/-! ### The bus record -/

def setBus (p : Port) (b : BusRecord) (s : State) : State := s.setPort p { s.port p with bus := b }

/-- A transaction on an inactive port: MISO stays at high impedance, and no I2C address is acknowledged
(07, R120). -/
def driveInactive (p : Port) (s : State) : State := setBus p ⟨[], if s.isI2C p then [false] else []⟩ s

/-- An item returned over `n` whole bytes, with FFh after its last byte; in SPI mode FFh stands at the code
byte's position before it (07, R122, R123; 10, R171). -/
def driveItem (p : Port) (item : List Byte) (n : Nat) (s : State) : State :=
  if s.isI2C p then setBus p ⟨padTo 0xFF#8 n item, [true]⟩ s
  else setBus p ⟨0xFF#8 :: padTo 0xFF#8 n item, []⟩ s

/-- A transaction that only writes: in SPI mode MISO carries FFh at each of its `n + 1` byte positions; in
I2C mode the address, the code byte and `n` further bytes are acknowledged (07, R122, R123). -/
def driveWritten (p : Port) (n : Nat) (s : State) : State :=
  if s.isI2C p then setBus p ⟨[], List.replicate (n + 2) true⟩ s
  else setBus p ⟨List.replicate (n + 1) 0xFF#8, []⟩ s

/-- Whether a fetch or STATUS of a kind can come: in I2C mode a read transaction returns the item of the
present read selection (07, R123). -/
def readDue (s : State) (p : Port) (sel : Selection) : Bool := !s.isI2C p || (s.port p).selection == sel

/-! ### SUBMIT -/

def setFrameError (p : Port) (s : State) : State := s.setPort p { s.port p with frameError := true }

def setTagCollision (p : Port) (s : State) : State := s.setPort p { s.port p with tagCollision := true }

/-- A request is placed: its slot becomes PENDING, and it is the last of its port's to be handed over. An
earlier request of the slot leaves the completion FIFO and the hand-over order (07, R125, R126). -/
def placeRequest (p : Port) (g : GoodFrame) (s : State) : State :=
  let x := s.port p
  { s with serial := s.serial + 1 }.setPort p
    { x with
      slots := x.slots.set g.tag.val (.pending s.serial g.kind g.body) g.tag.isLt
      fifo := x.fifo.filter fun t => t != g.tag
      handOrder := (x.handOrder.filter fun t => t != g.tag) ++ [g.tag] }

/-- A PORT-RESET of body length 0 is placed whatever the state of its slot (07, R125). -/
def isPortReset (g : GoodFrame) : Bool := g.kind == 0x42#8 && g.body.isEmpty

/-- The tag check (07, R125). -/
def tagCheck (p : Port) (g : GoodFrame) (s : State) : State :=
  if (s.port p).slots.get g.tag = .free ∨ isPortReset g then placeRequest p g s else setTagCollision p s

/-- SUBMIT: at the end of the transaction the frame is judged; a bad frame sets FRAME_ERROR, a good one goes
to the tag check (07, R124, R125). -/
def execSubmit (p : Port) (frame : List Byte) (s : State) : Host.Outcome State Fault Refusal :=
  if s.active then
    let s1 := driveWritten p frame.length s
    match judgeFrame frame with
    | none => .next (setFrameError p s1)
    | some g => .next (tagCheck p g s1)
  else .next (driveInactive p s)

/-- UNKNOWN_CODE_BYTE: FRAME_ERROR is set and the rest of the transaction is ignored; in I2C mode the code
byte is not acknowledged (07, R121), nor is what follows it (log entry 12). -/
def execUnknownCodeByte (p : Port) (code : Byte) (extra : Nat) (s : State) : Host.Outcome State Fault Refusal :=
  if s.active then
    if (toTransKind code).isSome then .next s
    else
      let s1 := if s.isI2C p then setBus p ⟨[], true :: List.replicate (extra + 1) false⟩ s
        else setBus p ⟨List.replicate (extra + 1) 0xFF#8, []⟩ s
      .next (setFrameError p s1)
  else .next (driveInactive p s)

/-! ### Fetches and STATUS -/

/-- The response at the head of the completion FIFO, with its tag (07, R130). -/
def PortState.headResponse (x : PortState) : Option (Tag × Response) :=
  match x.fifo with
  | [] => none
  | t :: _ =>
    match x.slots.get t with
    | .done r => some (t, r)
    | _ => none

/-- A response returned in full leaves the FIFO, and its slot becomes FREE (07, R130). -/
def removeResponse (p : Port) (t : Tag) (s : State) : State :=
  let x := s.port p
  s.setPort p { x with slots := x.slots.set t.val .free t.isLt, fifo := x.fifo.drop 1 }

/-- FETCH_RESPONSE (07, R130). -/
def execFetchResponse (p : Port) (n : Nat) (s : State) : Host.Outcome State Fault Refusal :=
  if s.active then
    if readDue s p .fetchResponse then
      match (s.port p).headResponse with
      | none => .next (driveItem p emptyAnswer n s)
      | some (t, r) =>
        let s1 := driveItem p (responseFrame t r) n s
        if (responseFrame t r).length ≤ n then .next (removeResponse p t s1) else .next s1
    else .next s
  else .next (driveInactive p s)

/-- A notice leaves the head of the queue; when the lost count is above 0, a LOST notice carrying it is
appended and the count returns to 0 (06, R118). -/
def PortState.removeNotice (x : PortState) : PortState :=
  if x.lost = 0#8 then { x with notices := x.notices.drop 1 }
  else { x with notices := x.notices.drop 1 ++ [.lost x.lost], lost := 0#8 }

/-- FETCH_NOTICE (07, R131). -/
def execFetchNotice (p : Port) (n : Nat) (s : State) : Host.Outcome State Fault Refusal :=
  if s.active then
    if readDue s p .fetchNotice then
      match (s.port p).notices with
      | [] => .next (driveItem p emptyAnswer n s)
      | c :: _ =>
        let s1 := driveItem p (noticeFrame c) n s
        if (noticeFrame c).length ≤ n then .next (s1.setPort p (s1.port p).removeNotice) else .next s1
    else .next s
  else .next (driveInactive p s)

/-- The flags that the first STATUS byte reported set are cleared (07, R133). Within one command none can be
set after the selection, so both are clear afterwards. -/
def clearFlags (p : Port) (s : State) : State :=
  s.setPort p { s.port p with frameError := false, tagCollision := false }

/-- STATUS (07, R132, R133). -/
def execStatus (p : Port) (n : Nat) (s : State) : Host.Outcome State Fault Refusal :=
  if s.active then
    if readDue s p .status then
      let s1 := driveItem p (s.statusBytes p) n s
      if 2 ≤ n then .next (clearFlags p s1) else .next s1
    else .next s
  else .next (driveInactive p s)

/-- READ_SELECTION: on an I2C port the selection is set, and bytes after the code set FRAME_ERROR
(07, R123). -/
def execReadSelection (p : Port) (sel : Selection) (extra : Nat) (s : State) : Host.Outcome State Fault Refusal :=
  if s.active then
    if s.isI2C p then
      let s1 := driveWritten p extra s
      let s2 := s1.setPort p { s1.port p with selection := sel }
      if extra = 0 then .next s2 else .next (setFrameError p s2)
    else .next s
  else .next (driveInactive p s)

end Sys2Proof.Machine
end

