-- ==== Sys2Proof/Machine/Dispatch.lean ====
section
/-! DEFINITION. One arm for each command. -/

namespace Sys2Proof.Machine

def exec (i : Instr) (s : State) : Host.Outcome State Fault Refusal :=
  match i with
  | .powerUp straps => Sys2Proof.Machine.execPowerUp straps s
  | .powerLoss => Sys2Proof.Machine.execPowerLoss s
  | .resetnAssert => Sys2Proof.Machine.execResetnAssert s
  | .resetnRelease straps => Sys2Proof.Machine.execResetnRelease straps s
  | .scanEnd => Sys2Proof.Machine.execScanEnd s
  | .unknownCodeByte p code extra => Sys2Proof.Machine.execUnknownCodeByte p code extra s
  | .submit p frame => Sys2Proof.Machine.execSubmit p frame s
  | .fetchResponse p n => Sys2Proof.Machine.execFetchResponse p n s
  | .fetchNotice p n => Sys2Proof.Machine.execFetchNotice p n s
  | .status p n => Sys2Proof.Machine.execStatus p n s
  | .readCommitted p => Sys2Proof.Machine.execReadCommitted p s
  | .readWithToken p => Sys2Proof.Machine.execReadWithToken p s
  | .acquire p => Sys2Proof.Machine.execAcquire p s
  | .stage p => Sys2Proof.Machine.execStage p s
  | .addWithToken p => Sys2Proof.Machine.execAddWithToken p s
  | .addWithoutToken p => Sys2Proof.Machine.execAddWithoutToken p s
  | .commit p => Sys2Proof.Machine.execCommit p s
  | .release p => Sys2Proof.Machine.execRelease p s
  | .renew p => Sys2Proof.Machine.execRenew p s
  | .cancel p => Sys2Proof.Machine.execCancel p s
  | .watch p => Sys2Proof.Machine.execWatch p s
  | .unwatch p => Sys2Proof.Machine.execUnwatch p s
  | .inquire p => Sys2Proof.Machine.execInquire p s
  | .define p => Sys2Proof.Machine.execDefine p s
  | .retire p => Sys2Proof.Machine.execRetire p s
  | .setRights p => Sys2Proof.Machine.execSetRights p s
  | .freeze p => Sys2Proof.Machine.execFreeze p s
  | .deviceInfo p => Sys2Proof.Machine.execDeviceInfo p s
  | .setAttention p => Sys2Proof.Machine.execSetAttention p s
  | .portReset p => Sys2Proof.Machine.execPortReset p s
  | .unknownRequestKind p => Sys2Proof.Machine.execUnknownRequestKind p s
  | .factoryClear p => Sys2Proof.Machine.execFactoryClear p s
  | .bulkEraseEnd => Sys2Proof.Machine.execBulkEraseEnd s
  | .holdExpiry e => Sys2Proof.Machine.execHoldExpiry e s
  | .waitExpiry p t => Sys2Proof.Machine.execWaitExpiry p t s
  | .pageMatch => Sys2Proof.Machine.execPageMatch s
  | .pageMismatch => Sys2Proof.Machine.execPageMismatch s
  | .eraseEnd => Sys2Proof.Machine.execEraseEnd s
  | .readSelection p sel extra => Sys2Proof.Machine.execReadSelection p sel extra s

end Sys2Proof.Machine
end

