-- ==== Sys2Proof/Machine/Views.lean ====
section
/-! DEFINITION. What the spec derives from the tables and the model does not store (log entry 13): the six
handle states (01, R4) and the three conditions of a directory region (09, R157). -/

namespace Sys2Proof.Machine

/-- The states of a handle (01, R4). -/
inductive HandleState where
  | undefined
  | definePending
  | defined
  | retirePending
  | freezePending
  | frozen
deriving DecidableEq, Repr

/-- The directory job slot holds a DEFINE of a handle (01, R11). -/
def State.definePending (s : State) (h : Handle) : Bool :=
  match s.dirSlot with
  | some ⟨.define _, h', _⟩ => h' == h
  | _ => false

/-- The state of a handle, from the directory, the flags of R2 and the directory job slot (01, R4). -/
def State.handleState (s : State) (h : Handle) : HandleState :=
  match (s.record h).entry with
  | none => if s.definePending h then .definePending else .undefined
  | some x =>
    if x.frozen then .frozen
    else if (s.record h).retirePending then .retirePending
    else if (s.record h).freezePending then .freezePending
    else .defined

/-- The conditions of a directory region (09, R157). -/
inductive RegionCond where
  | erased
  | valid
  | spoiled
deriving DecidableEq, Repr

/-- The condition of a directory region (09, R157). -/
def regionCond (store : List Host.Cell) (c : Copy) : RegionCond :=
  if regionErased store c then .erased else if regionValid store c then .valid else .spoiled

end Sys2Proof.Machine
end

