-- ==== Sys2Proof/Safety.lean ====
section
/-! DEFINITION. The terms in which the statements about the KS412 are made: requests as they stand in their
slots, leases and tokens, kinds of command, and the invariants that every step keeps. -/

namespace Sys2Proof.Safety

open Sys2Proof.Machine

/-! ### Requests and their answers -/

/-- The oldest placed request of port `p` that is not yet handed over stands in tag `t`, with this serial,
kind code and body (07, R125, R126; log entry 10). -/
abbrev Placed (s : State) (p : Port) (t : Tag) (serial : Nat) (kind : Byte) (body : List Byte) : Prop :=
  (s.port p).handOrder.head? = some t ∧ (s.port p).slots.get t = .pending serial kind body

/-- The same, whatever its serial. -/
def Asks (s : State) (p : Port) (t : Tag) (kind : Byte) (body : List Byte) : Prop :=
  ∃ serial, Placed s p t serial kind body

/-- The oldest placed request of port `p` has been handed over, and nothing else differs from `s`
(07, R126). -/
def handed (s : State) (p : Port) : State :=
  s.setPort p { s.port p with handOrder := (s.port p).handOrder.tail }

/-- Tag `t` of port `p` is DONE with this response and is the last of the completion FIFO, and nothing else
differs from `s` (07, R128, R129). -/
def completed (s : State) (p : Port) (t : Tag) (code : Status) (body : List Byte) : State :=
  s.setPort p
    { s.port p with
      slots := (s.port p).slots.set t.val (.done ⟨code, body⟩) t.isLt
      fifo := (s.port p).fifo ++ [t] }

/-- The oldest placed request of port `p`, in tag `t`, has been handed over and answered, and nothing else
differs from `s`. -/
def answered (s : State) (p : Port) (t : Tag) (code : Status) (body : List Byte) : State :=
  completed (handed s p) p t code body

/-- The request that a ticket names has been answered when it still holds its slot; otherwise the completion is
dropped (07, R128). -/
def answeredIf (s : State) (tk : Ticket) (code : Status) (body : List Byte) : State :=
  match (s.port tk.port).slots.get tk.tag with
  | .pending serial _ _ => if serial = tk.serial then completed s tk.port tk.tag code body else s
  | _ => s

/-- The requests that the tickets name have been answered with one code, in this order (07, R129). -/
def answeredAll (s : State) (code : Status) (tickets : List Ticket) : State :=
  tickets.foldl (fun y tk => answeredIf y tk code []) s

/-- The request frame of a tag, a kind code and a body (10, R173). -/
def requestFrame (t : Tag) (kind : Byte) (body : List Byte) : List Byte :=
  let front := [BitVec.ofNat 8 t.val, kind, BitVec.ofNat 8 body.length] ++ body
  front ++ [crc8 front]

/-- What a port drives in a transaction that only writes `n` bytes after the code byte (10, R171; 07, R123). -/
def busWritten (s : State) (p : Port) (n : Nat) : BusRecord :=
  if s.isI2C p then ⟨[], List.replicate (n + 2) true⟩ else ⟨List.replicate (n + 1) 0xFF#8, []⟩

/-- What a port drives when it returns an item over `n` bytes: the item's first `n` bytes, and FFh after its
last (10, R171). -/
def busReturned (s : State) (p : Port) (item : List Byte) (n : Nat) : BusRecord :=
  let bytes := item.take n ++ List.replicate (n - item.length) 0xFF#8
  if s.isI2C p then ⟨bytes, [true]⟩ else ⟨0xFF#8 :: bytes, []⟩

/-- A read on port `p` returns the item of kind `sel`: always in SPI mode, under the read selection in I2C
mode (07, R122, R123). -/
abbrev Selected (s : State) (p : Port) (sel : Selection) : Prop :=
  s.isI2C p = false ∨ (s.port p).selection = sel

/-- The request command that hands over a well-formed request: READ and ADD divide by their token, and every
other kind has one command (spec/opcode_table.json). -/
def commandOf (p : Port) : Req → Instr
  | .read _ t _ _ => if t.isZero then .readCommitted p else .readWithToken p
  | .acquire .. => .acquire p
  | .stage .. => .stage p
  | .add _ t _ => if t.isZero then .addWithoutToken p else .addWithToken p
  | .commit _ => .commit p
  | .release _ => .release p
  | .renew _ => .renew p
  | .cancel _ => .cancel p
  | .watch .. => .watch p
  | .unwatch _ => .unwatch p
  | .inquire _ => .inquire p
  | .define _ => .define p
  | .retire _ => .retire p
  | .setRights .. => .setRights p
  | .freeze _ => .freeze p
  | .deviceInfo => .deviceInfo p
  | .setAttention _ => .setAttention p
  | .portReset => .portReset p
  | .factoryClear => .factoryClear p

/-- A RETIRE, SET-RIGHTS or FREEZE that names the handle byte `b` (08, R145). -/
def changesEntry (b : Byte) : Req → Prop
  | .retire h => h = b
  | .setRights h _ => h = b
  | .freeze h => h = b
  | _ => False

/-- The kinds that the device takes in STARTING, DAMAGED or CLEARING (08, R142). -/
abbrev KindServed (dev : DevState) (k : ReqKind) : Prop :=
  dev = .ready ∨ k = .deviceInfo ∨ k = .setAttention ∨ k = .portReset ∨ (dev = .damaged ∧ k = .factoryClear)

/-! ### Records, leases and tokens -/

/-- Handle `h` is defined with entry `x` (01, R1). -/
abbrev Defined (s : State) (h : Handle) (x : RecEntry) : Prop := (s.record h).entry = some x

/-- The handle that a lease entry has, none in FREE (03, R43). -/
def leasedHandle (s : State) (e : EntryNo) : Option Handle := (s.lease e).lease.map fun l => l.handle

/-- Handle `h` is FREE: no lease entry in HELD or COMMITTING has it (03, R48). -/
abbrev Unleased (s : State) (h : Handle) : Prop := ∀ e : EntryNo, leasedHandle s e ≠ some h

/-- Lease entry `e` is the lowest-numbered FREE one (03, R52). -/
abbrev FirstFree (s : State) (e : EntryNo) : Prop :=
  (s.lease e).lease = none ∧ ∀ e' : EntryNo, e' < e → (s.lease e').lease ≠ none

/-- The two token bytes name lease entry `e`, which is live for port `p` (08, R146; 03, R47). -/
abbrev Live (s : State) (p : Port) (entry count : Byte) (e : EntryNo) (l : Lease) : Prop :=
  entry.toNat = e.val + 1 ∧ (s.lease e).lease = some l ∧ l.holder = p ∧ (s.lease e).issue = count

/-- The request of port `p` names the handle byte `b` and is judged against the current rights: an ACQUIRE, a WATCH, and
a READ or ADD whose token is not live for the port or is live for a lease on another record, token 0 among them (08,
R145, R146). -/
def JudgedByCurrent (s : State) (p : Port) (b : Byte) : Req → Prop
  | .read h t _ _ => h = b ∧ ∀ e l, Live s p t.entry t.count e l → l.handle.val ≠ b.toNat
  | .add h t _ => h = b ∧ ∀ e l, Live s p t.entry t.count e l → l.handle.val ≠ b.toNat
  | .acquire h _ => h = b
  | .watch h _ _ _ => h = b
  | _ => False

/-- No request waits anywhere for a lease entry that had `h`: the allocation queue is empty, and so is the
wait queue of `h` (03, R56). -/
abbrev NoneWaits (s : State) (h : Handle) : Prop := s.allocQueue = [] ∧ (s.record h).waiters = []

/-- Port `p` does not hold the record `h` (03, R52). -/
abbrev NotHeldBy (s : State) (p : Port) (h : Handle) : Prop :=
  ∀ e : EntryNo, (s.lease e).lease.all (fun l => l.handle != h || l.holder != p) = true

/-- Lease entry `e` has been freed and its buffer discarded, and nothing else differs from `s`
(03, R44; 04, R71). -/
def freed (s : State) (e : EntryNo) : State :=
  (s.setLease e { s.lease e with lease := none }).setBuffer e ⟨List.replicate 240 0x00#8, false⟩

/-- A job has joined the tail of the commit queue, and the engine has started it when it was IDLE
(05, R84, R86). -/
def withJob (s : State) (j : Job) : State :=
  { s with
    queue := s.queue ++ [j]
    engine := if s.engine = .idle then .programming 1 false else s.engine }

/-- The copy that a job targets when `active` is the copy in force (02, R33, R41). -/
def target : Option Copy → Copy
  | some .a => .b
  | _ => .a

/-- The engine's state when the jobs `rest` are left at the end of a job (05, R93). -/
def engineFor (rest : List Job) : Engine := if rest = [] then .idle else .programming 1 false

/-- The value of a counter changed by an exact sum, which is clamped to 0 and 4,294,967,295 (04, R77). -/
def clampedValue (value delta : Word32) : Word32 :=
  BitVec.ofInt 32 (max 0 (min ((value.toNat : Int) + delta.toInt) 4294967295))

/-- The exact sum falls outside the counter's range (04, R77). -/
abbrev Clamps (value delta : Word32) : Prop :=
  (value.toNat : Int) + delta.toInt < 0 ∨ 4294967295 < (value.toNat : Int) + delta.toInt

/-! ### Grants to waiters -/

/-- A waiting ADD. -/
def isAdd (w : Waiter) : Bool :=
  match w.type with
  | .add _ => true
  | .acquire _ => false

/-- A grant of record `h` to this waiter is refused GEN_SPENT (03, R55). -/
abbrev Spent (s : State) (h : Handle) (w : Waiter) : Prop := (s.record h).gen = 0xFFFFFFFF#32 ∧ isAdd w = true

/-- Every waiter of record `h` is one whose grant is refused GEN_SPENT. -/
abbrev AllSpent (s : State) (h : Handle) : Prop := ∀ w ∈ (s.record h).waiters, Spent s h w

/-- Record `h` is left with the waiters `rest`, and the waiters `ws` ahead of them have been answered GEN_SPENT
(03, R55, R56). -/
def refused (s : State) (h : Handle) (ws rest : List Waiter) : State :=
  answeredAll (s.setWaiters h rest) .genSpent (ws.map fun w => w.ticket)

/-- The wait queues of these records have been emptied, every waiter answered GEN_SPENT (03, R56 step 1). -/
def emptied (s : State) (hs : List Handle) : State :=
  hs.foldl (fun y h => refused y h (y.record h).waiters []) s

/-- Lease entry `e` has been granted on record `h`, whose entry is `x`, to the waiter `w`: to an ACQUIRE as 03, R53
says, to an ADD as R55 says. -/
def grantedTo (s : State) (e : EntryNo) (h : Handle) (x : RecEntry) (w : Waiter) : State :=
  let issue := (s.lease e).issue + 1#8
  match w.type with
  | .acquire _ =>
    answeredIf
      ((s.setLease e
        ⟨issue,
          some { phase := .held, handle := h, holder := w.ticket.port, form := .explicit,
                 timer := some x.holdLimit.toNat, renewals := 0, modified := false, answer := none,
                 grantRights := x.rights.get w.ticket.port }⟩).setBuffer e
        ⟨padTo 0x00#8 240 (s.committedData h), false⟩)
      w.ticket .ok ([BitVec.ofNat 8 (e.val + 1), issue] ++ be4 (s.record h).gen ++ [x.size])
  | .add delta =>
    withJob
      ((s.setLease e
        ⟨issue,
          some { phase := .committing, handle := h, holder := w.ticket.port, form := .implicit, timer := none,
                 renewals := 0, modified := true, answer := some w.ticket,
                 grantRights := x.rights.get w.ticket.port }⟩).setBuffer e
        ⟨padTo 0x00#8 240 (be4 (clampedValue (counterValue (s.committedData h)) delta)),
          decide (Clamps (counterValue (s.committedData h)) delta)⟩)
      (.record e h (target (s.record h).active) (x.firstPage (target (s.record h).active))
        ((x.size.toNat + 16 + 31) / 32) ((s.record h).gen + 1#32))

/-- `t` is what becomes of `s`, in which lease entry `e` has just been freed from record `h` (03, R56): the entry goes
to the first waiter of the allocation queue that a grant does not refuse, else to the first such waiter of `h`
itself, else it stays FREE. -/
structure GrantedOnward (s : State) (e : EntryNo) (h : Handle) (t : State) : Prop where
  /-- Step 1 makes a grant, on record `k`. -/
  queued : ∀ spents k hs before w after x, s.allocQueue = spents ++ k :: hs → h ∉ s.allocQueue → k ∉ spents →
    (∀ j ∈ spents, AllSpent s j) → (s.record k).waiters = before ++ w :: after →
    (∀ v ∈ before, Spent s k v) → ¬ Spent s k w → Defined s k x →
    t = { grantedTo (refused (emptied s spents) k before after) e k x w with
            allocQueue :=
              if (s.record h).waiters ≠ [] ∧ (s.record h).freezePending = false then hs ++ [h] else hs }
  /-- Step 2 makes a grant, on record `h`. -/
  own : ∀ before w after x, h ∉ s.allocQueue → (∀ j ∈ s.allocQueue, AllSpent s j) →
    (s.record h).freezePending = false → (s.record h).waiters = before ++ w :: after →
    (∀ v ∈ before, Spent s h v) → ¬ Spent s h w → Defined s h x →
    t = grantedTo (refused { emptied s s.allocQueue with allocQueue := [] } h before after) e h x w
  /-- Step 3: no grant is made. -/
  none : h ∉ s.allocQueue → (∀ j ∈ s.allocQueue, AllSpent s j) →
    ((s.record h).freezePending = true → t = { emptied s s.allocQueue with allocQueue := [] })
    ∧ ((s.record h).freezePending = false → AllSpent s h →
        t = refused { emptied s s.allocQueue with allocQueue := [] } h (s.record h).waiters [])

/-! ### Directory jobs -/

/-- What a handle's flags are when the taking of the directory job `j` is undone (01, R2). -/
def undoneRecord (j : DirJob) (h : Handle) (r : RecState) : RecState :=
  { r with
    freezePending := if j.op = .freeze ∧ h = j.handle then false else r.freezePending
    retirePending := if j.op = .retire ∧ h = j.handle then false else r.retirePending }

/-- The changes made at the taking of the directory job `j` are undone in `t` (01, R9, R12, R16, R21): the slot is
empty, the flag is cleared, and the RESERVED runs of a DEFINE are FREE. -/
structure TakingUndone (s : State) (j : DirJob) (t : State) : Prop where
  slot : t.dirSlot = none
  flags : ∀ h, (t.record h).freezePending = (undoneRecord j h (s.record h)).freezePending
    ∧ (t.record h).retirePending = (undoneRecord j h (s.record h)).retirePending
  map : (∀ x, j.op ≠ .define x) → t.pageMap = s.pageMap
  define : ∀ x m, j.op = .define x → s.pageMap = some m → sparseWf .free 0 4096 m = true →
    ∃ m', t.pageMap = some m' ∧ ∀ page, pageCond m' page =
      if (x.pageA.val ≤ page ∧ page < x.pageA.val + (x.size.toNat + 16 + 31) / 32)
        ∨ (x.pageB.val ≤ page ∧ page < x.pageB.val + (x.size.toNat + 16 + 31) / 32)
      then .free else pageCond m page

/-- `t` is what becomes of `s`, in which the taking of the directory job `j` has been undone: the waiters of a FREEZE's
record are eligible again (01, R21; 03, R66). -/
structure WaitersEligible (s : State) (j : DirJob) (t : State) : Prop where
  other : j.op ≠ .freeze ∨ (s.record j.handle).waiters = [] → t = s
  granted : ∀ e before w after x, j.op = .freeze → FirstFree s e →
    (s.record j.handle).waiters = before ++ w :: after → (∀ v ∈ before, Spent s j.handle v) →
    ¬ Spent s j.handle w → Defined s j.handle x →
    t = grantedTo (refused s j.handle before after) e j.handle x w
  refusedAll : ∀ e, j.op = .freeze → FirstFree s e → AllSpent s j.handle →
    t = refused s j.handle (s.record j.handle).waiters []
  queued : j.op = .freeze → (s.record j.handle).waiters ≠ [] → (∀ e, (s.lease e).lease ≠ none) →
    t = { s with allocQueue := s.allocQueue ++ [j.handle] }

/-- The entry that the change of a directory job makes of the entry of its handle (05, R94). -/
def changedEntry (op : DirOp) (gen : Word32) (x : Option RecEntry) : Option RecEntry :=
  match op with
  | .define new => some { new with stamp := gen }
  | .retire => none
  | .setRights r => x.map fun y => { y with rights := r }
  | .freeze => x.map fun y => { y with frozen := true }

/-- A rights set as three bits: WATCH 4, UPDATE 2, READ 1 (02, R39). -/
def rightsNumber (r : Rights) : Nat :=
  (if r.watch then 4 else 0) + (if r.update then 2 else 0) + (if r.read then 1 else 0)

/-- The 40-bit number of a directory entry in use (02, R39): in use, kind, frozen, the three rights sets, the two
first pages and six bits of fill, from the most significant bit down. -/
def entryNumber (x : RecEntry) : Nat :=
  2 ^ 39 + (if x.kind = .counter then 2 ^ 38 else 0) + (if x.frozen then 2 ^ 37 else 0)
    + rightsNumber x.rights.p0 * 2 ^ 34 + rightsNumber x.rights.p1 * 2 ^ 31 + rightsNumber x.rights.p2 * 2 ^ 28
    + x.pageA.val * 2 ^ 17 + x.pageB.val * 2 ^ 6

/-- The 16 bytes of a directory entry (02, R39). -/
def entryImage (x : Option RecEntry) : List Byte :=
  let front : List Byte :=
    match x with
    | none => List.replicate 15 0x00#8
    | some y =>
      [BitVec.ofNat 8 (entryNumber y / 2 ^ 32), BitVec.ofNat 8 (entryNumber y / 2 ^ 24),
        BitVec.ofNat 8 (entryNumber y / 2 ^ 16), BitVec.ofNat 8 (entryNumber y / 2 ^ 8), BitVec.ofNat 8 (entryNumber y)]
        ++ be4 y.label ++ [y.size, y.holdLimit] ++ be4 y.stamp
  front ++ [crc8 front]

/-- The 800 bytes of a directory copy of this generation and these 48 entries (02, R39; the byte order of the header
is log entry 25). -/
def directoryImage (gen : Word32) (entries : List (Option RecEntry)) : List Byte :=
  let body := entries.flatMap entryImage
  let front := be4 gen ++ be2 (crc16 body) ++ List.replicate 9 0x00#8
  front ++ [crc8 front] ++ body ++ List.replicate 16 0xFF#8

/-- The 48 entries that a directory job writes: the current ones with the change of the job in the slot (05, R94). -/
def entriesWritten (s : State) (gen : Word32) : List (Option RecEntry) :=
  (List.finRange 48).map fun h =>
    match s.dirSlot with
    | some j => if h = j.handle then changedEntry j.op gen (s.record h).entry else (s.record h).entry
    | none => (s.record h).entry

/-- The bytes of a record copy, header page first, FFh past the data (02, R28, R29; the byte order of the header is log
entry 25). -/
def recordImage (h : Handle) (x : RecEntry) (gen : Word32) (data : List Byte) : List Byte :=
  let front := [handleByte h, x.size] ++ be4 x.stamp ++ be4 gen ++ be2 (crc16 data) ++ [0x00#8, 0x00#8, 0x00#8]
  let bytes := front ++ [crc8 front] ++ data
  bytes ++ List.replicate (32 * ((x.size.toNat + 16 + 31) / 32) - bytes.length) 0xFF#8

/-! ### Pages -/

/-- Pages `q` to `q + len - 1` lie in the record area and are all FREE (01, R8). -/
abbrev FreeRun (cond : Nat → PageCond) (len q : Nat) : Prop :=
  64 ≤ q ∧ q + len ≤ 2048 ∧ ∀ i, i < len → cond (q + i) = .free

/-- `q` is the lowest page at which a run of `len` FREE pages starts (01, R8). -/
def LowestRun (cond : Nat → PageCond) (len q : Nat) : Prop :=
  FreeRun cond len q ∧ ∀ q', q' < q → ¬ FreeRun cond len q'

/-- Page `page` is among the `len` pages from `q` on. -/
abbrev InRun (len q page : Nat) : Prop := q ≤ page ∧ page < q + len

/-- The other of the two copies or regions. -/
def other : Copy → Copy
  | .a => .b
  | .b => .a

/-- Every record's entry in `s` is the one that region `c` of `store` holds for its handle (02, R39; 09, R160). -/
abbrev EntriesRead (s : State) (store : List Host.Cell) (c : Copy) : Prop :=
  ∀ h : Handle, (s.record h).entry = readEntry (slice (regionBytes store c) (16 + 16 * h.val) 16)

/-- The notices that a commit point posts to port `q`, in ascending watch number: those of the watches of `q`
on the record that pass the self test and the mode test (06, R110 to R113). -/
def dueNotices (s : State) (h : Handle) (committer : Port) (gen old new : Word32) (q : Port) : List Notice :=
  allWatches.filterMap fun n =>
    match s.watchAt n with
    | none => none
    | some w =>
      if w.port = q ∧ w.handle = h ∧ (committer ≠ q ∨ w.self = true) then
        match w.mode with
        | .any => some (.changed h gen committer)
        | .rise th => if old < th ∧ th ≤ new then some (.threshold h n .rise new gen) else none
        | .fall th => if th < old ∧ new ≤ th then some (.threshold h n .fall new gen) else none
      else none

/-- Notices posted one after another to a port (06, R117): each joins the tail of a queue that holds fewer
than 8, and is dropped and counted, up to 255, by a full one. -/
def posted (x : PortState) (ns : List Notice) : PortState :=
  ns.foldl (fun y n =>
    if y.notices.length < 8 then { y with notices := y.notices ++ [n] }
    else { y with lost := if y.lost = 255#8 then 255#8 else y.lost + 1#8 }) x

/-- The LEASE_REVOKED notices that a factory clear posts to port `q`, in ascending entry number (03, R69 step 2). -/
def revocations (s : State) (q : Port) : List Notice :=
  (List.finRange 6).filterMap fun e =>
    match (s.lease e).lease with
    | none => none
    | some l =>
      if l.phase = .held ∧ l.holder = q then
        some (.leaseRevoked ⟨BitVec.ofNat 8 (e.val + 1), (s.lease e).issue⟩ l.handle)
      else none

/-- The requests that a factory clear answers CLEARED, in this order: every waiter, in ascending handle and from the
head of each queue, then the request of every job behind the head of the commit queue (03, R69; 01, R12; 05, R97). -/
def clearedTickets (s : State) : List Ticket :=
  ((List.finRange 48).flatMap fun h => (s.record h).waiters.map fun w => w.ticket)
    ++ (s.queue.drop 1).filterMap fun j =>
      match j with
      | .record e _ _ _ _ _ =>
        match (s.lease e).lease with
        | none => none
        | some l => if l.phase = .committing then l.answer else none
      | .directory .. => s.dirSlot.map fun d => d.ticket

/-- A job that a PORT-RESET of port `p` removes when it has not started: the record job of a COMMITTING lease of `p`,
and, at the configuration port, the job of the directory job slot (05, R96; 01, R12). -/
def resetRemoves (s : State) (p : Port) (j : Job) : Bool :=
  match j with
  | .record e _ _ _ _ _ =>
    match (s.lease e).lease with
    | none => false
    | some l => l.holder == p && l.phase == .committing
  | .directory .. => s.configPort == some p && s.dirSlot.isSome

/-- A PORT-RESET of port `p` removes the directory job (01, R12). -/
abbrev ResetRemovesDirectory (s : State) (p : Port) : Prop :=
  s.configPort = some p ∧ (s.queue.drop 1).any Job.isDirectory = true

/-- The configuration port as DEVICE-INFO reports it (10, R176). -/
def configByte (s : State) : Byte :=
  match s.configPort with
  | none => 0xFE#8
  | some .p0 => 0x00#8
  | some .p1 => 0x01#8
  | some .p2 => 0x02#8

/-- The port's rights set lets the port see the record (01, R5). -/
abbrev Sees (x : RecEntry) (p : Port) : Prop :=
  (x.rights.get p).read = true ∨ (x.rights.get p).update = true ∨ (x.rights.get p).watch = true

/-- Port `p` is left with its own completed PORT-RESET in tag `t` alone (07, R136). -/
def resetPort (x : PortState) (t : Tag) : PortState where
  slots := (Vector.replicate 4 Slot.free).set t.val (.done ⟨.ok, []⟩) t.isLt
  fifo := [t]
  handOrder := []
  notices := []
  lost := 0#8
  frameError := false
  tagCollision := false
  maskResponses := true
  maskNotices := true
  selection := .status
  bus := x.bus

/-- A PORT-RESET of port `p` frees lease entry `e` from record `h` (03, R67 step 2). -/
abbrev ResetFrees (s : State) (p : Port) (e : EntryNo) (h : Handle) : Prop :=
  ∃ l, (s.lease e).lease = some l ∧ l.handle = h ∧ l.holder = p
    ∧ (l.phase = .held ∨ (s.queue.drop 1).any (Job.isRecordOf e) = true)

/-- `t'` is what a PORT-RESET of port `p` in tag `t` makes of `s` but for the directory job (07, R136; 03, R67; 06,
R109): the port is reset, its waiters and watches are gone, and its entries are freed in ascending order, a COMMITTING
one with the removal of its unstarted job, each granted onward before the next. `f e` is the state at entry `e + 1`. -/
def LeasesReset (s : State) (p : Port) (t : Tag) (t' : State) : Prop :=
  ∃ f : Nat → State,
    f 0 = { s with
              ports := (s.setPort p (resetPort (s.port p) t)).ports, records := (f 0).records
              watches := (f 0).watches
              allocQueue := s.allocQueue.filter fun h => (s.record h).waiters.any fun w => w.ticket.port != p }
    ∧ (∀ h, (f 0).record h = { s.record h with waiters := (s.record h).waiters.filter fun w => w.ticket.port != p })
    ∧ (∀ n, (f 0).watchAt n = (s.watchAt n).filter fun w => w.port != p)
    ∧ (∀ e : EntryNo,
        (∀ h, ResetFrees s p e h →
          GrantedOnward
            { freed (f e.val) e with
                queue :=
                  if (s.lease e).lease.any (fun l => l.phase == .held) then (f e.val).queue
                  else (f e.val).queue.take 1 ++ ((f e.val).queue.drop 1).filter fun j => !Job.isRecordOf e j }
            e h (f (e.val + 1)))
        ∧ ((∀ h, ¬ ResetFrees s p e h) → f (e.val + 1) = f e.val))
    ∧ t' = f 6

/-! ### Kinds of command -/

/-- POWER_UP, POWER_LOSS, RESETN_ASSERT and RESETN_RELEASE. -/
def isDeviceReset : Instr → Bool
  | .powerUp _ | .powerLoss | .resetnAssert | .resetnRelease _ => true
  | _ => false

/-- The port on whose bus a transaction command comes, none for every other command. -/
def transactionPort : Instr → Option Port
  | .unknownCodeByte p _ _ | .submit p _ | .fetchResponse p _ | .fetchNotice p _ | .status p _
  | .readSelection p _ _ => some p
  | _ => none

/-- The commands at which a page of the store may change (02, R23, R26, R27). -/
def changesPages : Instr → Bool
  | .pageMatch | .pageMismatch | .eraseEnd | .bulkEraseEnd => true
  | c => isDeviceReset c

/-- The commands at which a record's active copy or committed generation may change (02, R32). -/
def changesStoreState : Instr → Bool
  | .pageMatch | .scanEnd | .eraseEnd | .factoryClear _ => true
  | c => isDeviceReset c

/-! ### Invariants of a port -/

/-- The slot holds a response. -/
def isDone : Slot → Bool
  | .done _ => true
  | _ => false

/-- The completion FIFO holds the tags of the DONE slots, each once (07, R129). -/
def FifoMatches (x : PortState) : Prop := x.fifo.Nodup ∧ ∀ t : Tag, t ∈ x.fifo ↔ isDone (x.slots.get t) = true

/-- The notice queue holds at most 8 notices, and it is full while the lost count is above 0 (06, R116 to
R118). -/
def NoticesBounded (x : PortState) : Prop :=
  x.notices.length ≤ 8 ∧ (x.lost ≠ 0#8 → x.notices.length = 8)

/-- The same of every port. -/
def FifosMatch (s : State) : Prop := ∀ p : Port, FifoMatches (s.port p)

def AllNoticesBounded (s : State) : Prop := ∀ p : Port, NoticesBounded (s.port p)

/-! ### The invariant of the store -/

/-- The store is in canonical form, its addresses among the 65,536 that exist (02, R23). -/
def StoreCanonical (s : State) : Prop := Memory.wf s.store = true

/-! ### The invariant of the page runs -/

/-- The runs of the DEFINE in the directory job slot, if there is one (01, R11). -/
def pendingRuns (s : State) : List Run :=
  match s.dirSlot with
  | some ⟨.define x, _, _⟩ => entryRuns x
  | _ => []

/-- All the page runs that belong to a copy or are reserved for one (02, R24). -/
def allRuns (s : State) : List Run :=
  (allHandles.flatMap fun h => (s.record h).entry.elim [] entryRuns) ++ pendingRuns s

/-- The commit queue holds one directory job when the directory job slot is occupied, and none when it is
empty (01, R11; 05, R83). -/
def SlotMatchesQueue (s : State) : Prop :=
  (s.queue.filter Job.isDirectory).length = if s.dirSlot.isSome then 1 else 0

/-- The copies of all defined records and the pending reservation are runs of at least one page, pairwise
disjoint and within pages 64 to 2047 (02, R24), with what keeps them so (01, R7, R9, R13). -/
structure RunsDisjoint (s : State) : Prop where
  apart : allApart (allRuns s) = true
  inArea : ∀ r ∈ allRuns s, 1 ≤ r.2 ∧ runInArea r = true
  /-- No page of a run is FREE in the page map. -/
  taken : ∀ m, s.pageMap = some m → ∀ r ∈ allRuns s, ∀ page, r.1 ≤ page → page < r.1 + r.2 →
    pageCond m page ≠ .free
  /-- A DEFINE in the slot names a handle that has no entry. -/
  fresh : ∀ h, s.definePending h = true → (s.record h).entry = none
  slot : SlotMatchesQueue s
  starting : s.dev = .starting → s.dirSlot = none
  ready : s.dev = .ready → s.pageMap ≠ none
  erasing : ∀ c, s.clear = some c → c.phase = .erasing → s.pageMap ≠ none

/-! ### The invariant of the lease table -/

/-- A record is leased by at most one entry, and the wait queues, the allocation queue, the pending flags and
the commit queue agree with the lease table (03, R48, R51; 01, R2, R11, R15, R19; 05, R83). -/
structure LeasesConsistent (s : State) : Prop where
  /-- A record is referenced by at most one lease entry (03, R48). -/
  unique : ∀ (h : Handle) (e e' : EntryNo), leasedHandle s e = some h → leasedHandle s e' = some h → e = e'
  /-- Each handle appears in the allocation queue at most once (03, R51). -/
  once : s.allocQueue.Nodup
  /-- A record is in the allocation queue while it is FREE, has waiters and is not freeze pending, and out of
  it otherwise (03, R51). -/
  queued : ∀ h : Handle, h ∈ s.allocQueue ↔
    Unleased s h ∧ (s.record h).waiters ≠ [] ∧ (s.record h).freezePending = false
  /-- While a lease entry is FREE the allocation queue is empty (03, R51). -/
  empty : ∀ e : EntryNo, (s.lease e).lease = none → s.allocQueue = []
  freezing : ∀ h : Handle, (s.record h).freezePending = true →
    Unleased s h ∧ ∃ tk, s.dirSlot = some ⟨.freeze, h, tk⟩
  retiring : ∀ h : Handle, (s.record h).retirePending = true →
    Unleased s h ∧ (s.record h).waiters = [] ∧ ∃ tk, s.dirSlot = some ⟨.retire, h, tk⟩
  freezeSlot : ∀ h tk, s.dirSlot = some ⟨.freeze, h, tk⟩ → (s.record h).freezePending = true
  retireSlot : ∀ h tk, s.dirSlot = some ⟨.retire, h, tk⟩ → (s.record h).retirePending = true
  undefined : ∀ h : Handle, (s.record h).entry = none → Unleased s h ∧ (s.record h).waiters = []
  fresh : ∀ h, s.definePending h = true → (s.record h).entry = none
  /-- A COMMITTING entry has its record job in the commit queue (03, R43). -/
  committing : ∀ e l, (s.lease e).lease = some l → l.phase = .committing →
    ∃ j ∈ s.queue, Job.isRecordOf e j = true
  slot : SlotMatchesQueue s
  /-- While a factory clear is carried out nothing is HELD and nothing waits (03, R69). -/
  clearing : s.clear ≠ none → s.dev = .clearing ∧ (∀ h : Handle, (s.record h).waiters = []) ∧
    ∀ e l, (s.lease e).lease = some l → l.phase = .committing
  /-- During the start-up scan the tables are empty (03, R45; 09, R154). -/
  starting : s.dev = .starting → (∀ e, (s.lease e).lease = none) ∧ (∀ h : Handle, (s.record h).waiters = []) ∧
    s.queue = [] ∧ s.dirSlot = none

end Sys2Proof.Safety
end

