-- ==== Sys2Proof/Certificates/Slice0/Obligations.lean ====
section
/-! DEFINITION. The statements about the KS412 for the provers. -/

open Sys2Proof Sys2Proof.Machine Sys2Proof.Safety

/-! ### The step and the reset -/

/-- A step takes the command at the front of the queue and executes it with the queue's rest. -/
def Obligations.StepRunsFrontCommand : Prop :=
  ∀ (c : Instr) (rest : List Instr) (s : State),
    s.pending = c :: rest → step s = exec c { s with pending := rest }

/-- A step on an empty queue is one 10 ms unit of the hold and wait timers (03, R50, R57). That it is one is
the model's choice, log entry 2. -/
def Obligations.EmptyQueueIsOneTimerUnit : Prop :=
  ∀ s : State, s.pending = [] →
    ∃ t, step s = .next t
      ∧ (∀ e, (s.lease e).lease = none → t.lease e = s.lease e)
      ∧ (∀ e l, (s.lease e).lease = some l →
          t.lease e = { s.lease e with lease := some { l with timer := l.timer.map fun n => n - 1 } })
      ∧ (∀ h, { t.record h with waiters := (s.record h).waiters } = s.record h)
      ∧ (∀ h, (t.record h).waiters = (s.record h).waiters.map fun w =>
          match w.type with
          | .acquire left => { w with type := .acquire (left - 1) }
          | .add delta => { w with type := .add delta })
      ∧ { t with leases := s.leases, records := s.records } = s

/-- `State.reset` holds the start values of a device as delivered, its scan running. The model's choice: that it
stands just after the release, with an erased store, is log entry 5 (09, R156; 07, R120; 03, R45; 04, R70; 05, R83,
R85; 06, R102; 01, R2, R11; 02, R23). -/
def Obligations.ResetLeavesStartValues : Prop :=
  State.reset.dev = .starting ∧ State.reset.supply = true ∧ State.reset.resetLow = false ∧ State.reset.clear = none
    ∧ (∀ p t, (State.reset.port p).slots.get t = .free)
    ∧ (∀ p, (State.reset.port p).fifo = [] ∧ (State.reset.port p).notices = [] ∧ (State.reset.port p).lost = 0#8
        ∧ (State.reset.port p).frameError = false ∧ (State.reset.port p).tagCollision = false
        ∧ (State.reset.port p).maskResponses = true ∧ (State.reset.port p).maskNotices = true
        ∧ (State.reset.port p).selection = .status)
    ∧ (∀ e, State.reset.lease e = ⟨0#8, none⟩ ∧ State.reset.buffer e = ⟨List.replicate 240 0#8, false⟩)
    ∧ (∀ h, (State.reset.record h).waiters = [] ∧ (State.reset.record h).freezePending = false
        ∧ (State.reset.record h).retirePending = false ∧ (State.reset.record h).faultCount = 0#8)
    ∧ State.reset.allocQueue = [] ∧ State.reset.queue = [] ∧ State.reset.engine = .idle
    ∧ State.reset.dirSlot = none ∧ (∀ n, State.reset.watchAt n = none)
    ∧ (∀ a, Memory.read State.reset.store a = 0xFF#8)

/-- The invariants hold at `State.reset`. -/
def Obligations.ResetMeetsInvariants : Prop :=
  StoreCanonical State.reset ∧ FifosMatch State.reset ∧ AllNoticesBounded State.reset
    ∧ RunsDisjoint State.reset ∧ LeasesConsistent State.reset

/-- POWER_UP, RESETN_RELEASE, POWER_LOSS and RESETN_ASSERT abandon everything in progress, a bulk erase among it, and
leave every block at its start values. Of the store, only the page of a page operation in progress may change. When
the bulk erase runs, its two sweeps, pages 64 to 2047 and then 0 to 63, have passed n pages, which are erased; the
next page, if any, is indeterminate, and every other page is as it was (09, R156, R167, R169; 02, R26, R27; 05, R98). The
model's choices: how far the sweeps had come is the free value n (log entry 7); the start values stand from the
assertion on (log entry 8); POWER_UP starts the device unless RESETn is low, RESETN_RELEASE unless there is no supply,
from any state (log entry 9); the waiting commands, the serial and the free index are kept and the bus records emptied
(log entry 22); the directory and the store states stand at none and 0 until the scan ends (log entry 24). -/
def Obligations.DeviceResetStartsAfresh : Prop :=
  ∀ (c : Instr) (s : State), isDeviceReset c = true →
    ∃ t, exec c s = .next t
      ∧ t = { State.reset with
                pending := s.pending, serial := s.serial, store := t.store, freeIndex := t.freeIndex
                straps := (match c with
                  | .powerUp x => if s.resetLow then s.straps else x
                  | .resetnRelease x => if s.supply then x else s.straps
                  | _ => s.straps)
                supply := (match c with
                  | .powerUp _ => true
                  | .powerLoss => false
                  | _ => s.supply)
                resetLow := (match c with
                  | .resetnAssert => true
                  | .resetnRelease _ => false
                  | _ => s.resetLow) }
      ∧ ((∀ x, s.clear = some x → x.phase = .draining) → s.queue = [] ∨ s.engine = .idle → t.store = s.store)
      ∧ ((∀ x, s.clear = some x → x.phase = .draining) → ∀ j rest, s.queue = j :: rest → ∀ a,
          a / 32 ≠ (match s.engine with
            | .programming pos _ => j.pageAt pos
            | _ => j.headerPage) → Memory.read t.store a = Memory.read s.store a)
      ∧ (∀ tk n, s.clear = some ⟨tk, .erasing⟩ → s.queue = [] ∨ s.engine = .idle →
          n = Config.freeSweep s.freeIndex % 2049 →
          ∀ a, sweptWithin n (a / 32) = true ∨ a / 32 ≠ sweepPage n →
            Memory.read t.store a = if sweptWithin n (a / 32) = true then 0xFF#8 else Memory.read s.store a)

/-- A reset during the bulk erase, wherever it falls (log entry 7): once any byte of the system area has changed, the
whole record area is erased, so no scan can take both directory regions for erased while an old record copy remains
(09, R167, R169). -/
def Obligations.RecordAreaIsErasedFirst : Prop :=
  ∀ (c : Instr) (s : State) (tk : Ticket), isDeviceReset c = true → s.clear = some ⟨tk, .erasing⟩ → s.queue = [] →
    ∃ t, exec c s = .next t
      ∧ ((∃ a, a < 2048 ∧ Memory.read t.store a ≠ Memory.read s.store a) →
          ∀ a, 2048 ≤ a → a < 65536 → Memory.read t.store a = 0xFF#8)

/-! ### The start-up scan -/

/-- The end of the scan: the directory is chosen by the conditions of the two regions, the copies of each
record by their validity and generations, both flags of every entry are no and every fault count is 0, and each port
gets a READY notice; nothing else changes, and in DAMAGED nothing but the device state and the ports (09, R158, R160,
R161, R162, R163). That the directory then stays at none and 0 is the model's choice, log entry 24. -/
def Obligations.ScanChoosesDirectoryAndCopies : Prop :=
  ∀ s : State, s.active = true → s.dev = .starting →
    ∃ t, exec .scanEnd s = .next t
      ∧ t = { s with
                dev := t.dev, activeDir := t.activeDir, dirGen := t.dirGen, pageMap := t.pageMap
                records := t.records, ports := t.ports }
      ∧ (∀ p, t.port p = posted (s.port p) [.ready t.dev])
      ∧ (∀ c, regionCond s.store c = .valid →
          (regionCond s.store (other c) ≠ .valid ∨ regionGen s.store (other c) < regionGen s.store c
            ∨ (regionGen s.store (other c) = regionGen s.store c ∧ c = .a)) →
          t.dev = .ready ∧ t.activeDir = some c ∧ t.dirGen = regionGen s.store c
            ∧ ∀ h : Handle, (t.record h).entry = readEntry (slice (regionBytes s.store c) (16 + 16 * h.val) 16)
              ∧ ∀ x, (t.record h).entry = some x → ∀ k,
                  copyValid s.store h x (x.firstPage k) = true →
                  (copyValid s.store h x (x.firstPage (other k)) = false
                    ∨ copyGen s.store (x.firstPage (other k)) < copyGen s.store (x.firstPage k)
                    ∨ (copyGen s.store (x.firstPage (other k)) = copyGen s.store (x.firstPage k) ∧ k = .a)) →
                  (t.record h).active = some k ∧ (t.record h).gen = copyGen s.store (x.firstPage k))
      ∧ (∀ h x, t.dev = .ready → (t.record h).entry = some x → (∀ k, copyValid s.store h x (x.firstPage k) = false) →
          (t.record h).active = none ∧ (t.record h).gen = 0#32)
      ∧ (t.dev = .ready → ∀ h,
          t.record h = { RecState.blank with
                           entry := (t.record h).entry, active := (t.record h).active, gen := (t.record h).gen }
            ∧ ((t.record h).entry = none → t.record h = RecState.blank))
      ∧ ((∀ c, regionCond s.store c = .erased) →
          t.dev = .ready ∧ t.activeDir = none ∧ t.dirGen = 0#32 ∧ ∀ h, (t.record h).entry = none)
      ∧ ((∀ c, regionCond s.store c ≠ .valid) → (∃ c, regionCond s.store c = .spoiled) →
          t.dev = .damaged ∧ t = { s with dev := t.dev, ports := t.ports })

/-- The page map that the scan leaves in READY: a page of the record area is IN USE when it is in the run of
a copy of a defined record, and FREE otherwise (01, R7; 09, R160). -/
def Obligations.ScanRebuildsPageMap : Prop :=
  ∀ (s t : State), s.active = true → s.dev = .starting → exec .scanEnd s = .next t → t.dev = .ready →
    ∃ m, t.pageMap = some m ∧ ∀ page,
      ((∃ h x, (t.record h).entry = some x ∧ ∃ k, InRun (pagesPerCopy x.size.toNat) (x.firstPage k) page) →
        pageCond m page = .inUse)
      ∧ ((¬ ∃ h x, (t.record h).entry = some x ∧ ∃ k, InRun (pagesPerCopy x.size.toNat) (x.firstPage k) page) →
        pageCond m page = .free)

/-! ### Transactions -/

/-- A SUBMIT whose bytes form no request frame sets FRAME_ERROR and changes nothing else of the port but
what it drives. One of a good frame is placed in a FREE slot, and a PORT-RESET without a body in any slot, as the
last of the port's requests to be handed over; the request that held the slot leaves the completion FIFO and
the hand-over order. Otherwise TAG_COLLISION is set and the frame is discarded (07, R122 to R125; 10, R173). The
model's choices: an I2C port acknowledges every byte of a bad, overlong or colliding frame (log entry 12), and each
placing has a serial of its own (log entry 10). -/
def Obligations.SubmitPlacesAGoodFrame : Prop :=
  (∀ (s : State) (p : Port) (frame : List Byte), s.active = true →
     (∀ t kind body, body.length ≤ 40 → frame ≠ requestFrame t kind body) →
     exec (.submit p frame) s = .next
       (s.setPort p { s.port p with frameError := true, bus := busWritten s p frame.length }))
  ∧ (∀ (s : State) (p : Port) (t : Tag) (kind : Byte) (body : List Byte), s.active = true → body.length ≤ 40 →
     ((s.port p).slots.get t = .free ∨ (kind = 0x42#8 ∧ body = []) →
       exec (.submit p (requestFrame t kind body)) s = .next
         ({ s with serial := s.serial + 1 }.setPort p
           { s.port p with
             slots := (s.port p).slots.set t.val (.pending s.serial kind body) t.isLt
             fifo := (s.port p).fifo.filter fun u => u != t
             handOrder := (s.port p).handOrder.filter (fun u => u != t) ++ [t]
             bus := busWritten s p (4 + body.length) }))
     ∧ ((s.port p).slots.get t ≠ .free → ¬ (kind = 0x42#8 ∧ body = []) →
       exec (.submit p (requestFrame t kind body)) s = .next
         (s.setPort p { s.port p with tagCollision := true, bus := busWritten s p (4 + body.length) })))

/-- FETCH-RESPONSE returns the response at the head of the completion FIFO. Returned in full it leaves the
FIFO and its slot becomes FREE; ended earlier it stays. With an empty FIFO the EMPTY answer is returned and
nothing changes (07, R130; 10, R171, R175). -/
def Obligations.FetchResponseReturnsOldest : Prop :=
  ∀ (s : State) (p : Port) (n : Nat), s.active = true → Selected s p .fetchResponse →
    ((s.port p).fifo = [] →
      exec (.fetchResponse p n) s = .next
        (s.setPort p { s.port p with bus := busReturned s p [0x00#8, 0x00#8, 0xD7#8] n }))
    ∧ ∀ t rest r, (s.port p).fifo = t :: rest → (s.port p).slots.get t = .done r →
      ∃ item, item = [0x80#8 + BitVec.ofNat 8 t.val, BitVec.ofNat 8 r.body.length, statusByte r.code] ++ r.body
          ++ [crc8 ([0x80#8 + BitVec.ofNat 8 t.val, BitVec.ofNat 8 r.body.length, statusByte r.code] ++ r.body)]
        ∧ exec (.fetchResponse p n) s = .next
          (if 4 + r.body.length ≤ n then
            s.setPort p
              { s.port p with
                slots := (s.port p).slots.set t.val .free t.isLt
                fifo := rest
                bus := busReturned s p item n }
          else s.setPort p { s.port p with bus := busReturned s p item n })

/-- FETCH-NOTICE returns the notice at the head of the queue as the frame of its kind. Returned in full it leaves the
queue, and a LOST notice with the lost count follows at the tail when the count is above 0, which returns to 0; ended
earlier it stays. With an empty queue the EMPTY answer is returned and nothing changes (07, R131; 06,
R118; 10, R171, R175, R177). -/
def Obligations.FetchNoticeReturnsOldest : Prop :=
  ∀ (s : State) (p : Port) (n : Nat), s.active = true → Selected s p .fetchNotice →
    ((s.port p).notices = [] →
      exec (.fetchNotice p n) s = .next
        (s.setPort p { s.port p with bus := busReturned s p [0x00#8, 0x00#8, 0xD7#8] n }))
    ∧ ∀ c rest, (s.port p).notices = c :: rest →
      ∃ front item, item = front ++ [crc8 front]
        ∧ front = (match c with
          | .changed h gen q =>
            [0x01#8, 6#8, handleByte h] ++ be4 gen
              ++ [match q with | .p0 => 0x00#8 | .p1 => 0x01#8 | .p2 => 0x02#8]
          | .threshold h number mode value gen =>
            [0x02#8, 11#8, handleByte h, BitVec.ofNat 8 number.val, match mode with | .rise => 0x02#8 | .fall => 0x03#8]
              ++ be4 value ++ be4 gen
          | .retired h => [0x03#8, 1#8, handleByte h]
          | .leaseExpired token h => [0x04#8, 3#8, token.entry, token.count, handleByte h]
          | .leaseRevoked token h => [0x05#8, 3#8, token.entry, token.count, handleByte h]
          | .storeFault subject page gen =>
            [0x06#8, 7#8, match subject with | .record h => handleByte h | .directory => 0xFF#8]
              ++ be2 (BitVec.ofNat 16 page) ++ be4 gen
          | .ready dev =>
            [0x07#8, 1#8,
              match dev with | .starting => 0x00#8 | .ready => 0x01#8 | .damaged => 0x02#8 | .clearing => 0x03#8]
          | .lost count => [0x08#8, 1#8, count])
        ∧ exec (.fetchNotice p n) s = .next
          (if item.length ≤ n then
            s.setPort p
              { s.port p with
                notices := if (s.port p).lost = 0#8 then rest else rest ++ [.lost (s.port p).lost]
                lost := 0#8
                bus := busReturned s p item n }
          else s.setPort p { s.port p with bus := busReturned s p item n })

/-- STATUS returns the first byte, with the device state in bits 7 and 6, the DONE count in bits 5 to 3,
notices waiting in bit 2, FRAME_ERROR in bit 1 and TAG_COLLISION in bit 0, and then its inverse; both flags are
clear once both bytes have been returned, and nothing else changes (07, R132, R133; 10, R172). -/
def Obligations.StatusReportsAndClearsFlags : Prop :=
  ∀ (s : State) (p : Port) (n : Nat), s.active = true → Selected s p .status → (s.port p).fifo.length ≤ 4 →
    ∃ b : Byte,
      b.toNat = 64 * (match s.dev with | .starting => 0 | .ready => 1 | .damaged => 2 | .clearing => 3)
          + 8 * (s.port p).fifo.length + (if (s.port p).notices = [] then 0 else 4)
          + (if (s.port p).frameError then 2 else 0) + (if (s.port p).tagCollision then 1 else 0)
        ∧ exec (.status p n) s = .next
          (s.setPort p
            { s.port p with
              frameError := if 2 ≤ n then false else (s.port p).frameError
              tagCollision := if 2 ≤ n then false else (s.port p).tagCollision
              bus := busReturned s p [b, ~~~ b] n })

/-- The code byte selects the transaction. C1h is SUBMIT, C2h, C3h and C4h are FETCH-RESPONSE, FETCH-NOTICE and
STATUS on SPI; in an I2C write transaction they set the read selection, and a read transaction returns the item
selected, at address bytes 6Ch and 6Dh with ADRS low, 6Eh and 6Fh with ADRS high, and at no other address. A code
byte that names none of the four kinds sets FRAME_ERROR and changes nothing else of the port but what it drives: FFh
in SPI mode, and no acknowledge of the code byte in I2C mode. Bytes after a code that sets the read selection set
FRAME_ERROR (07, R119, R121 to R123; 10, R171). That the bytes after an unknown code are not acknowledged either is
the model's choice, log entry 12. -/
def Obligations.CodeByteSelectsTheTransaction : Prop :=
  (∀ (s : State) (p : Port) (code : Byte) (extra : Nat), s.active = true →
     code ≠ 0xC1#8 → code ≠ 0xC2#8 → code ≠ 0xC3#8 → code ≠ 0xC4#8 →
     exec (.unknownCodeByte p code extra) s = .next
       (s.setPort p
         { s.port p with
           frameError := true
           bus := if s.isI2C p then ⟨[], true :: List.replicate (extra + 1) false⟩
             else ⟨List.replicate (extra + 1) 0xFF#8, []⟩ }))
  ∧ (∀ (s : State) (p : Port) (sel : Selection) (extra : Nat), s.active = true → s.isI2C p = true →
     exec (.readSelection p sel extra) s = .next
       (s.setPort p
         { s.port p with
           selection := sel
           frameError := if extra = 0 then (s.port p).frameError else true
           bus := ⟨[], List.replicate (extra + 2) true⟩ }))
  ∧ (∀ (s : State) (p : Port) (rest : List Byte) (n : Nat), s.isI2C p = false →
     s.busCommand p [] n = none
     ∧ s.busCommand p (0xC1#8 :: rest) n = some (.submit p rest)
     ∧ s.busCommand p (0xC2#8 :: rest) n = some (.fetchResponse p rest.length)
     ∧ s.busCommand p (0xC3#8 :: rest) n = some (.fetchNotice p rest.length)
     ∧ s.busCommand p (0xC4#8 :: rest) n = some (.status p rest.length)
     ∧ ∀ code, code ≠ 0xC1#8 → code ≠ 0xC2#8 → code ≠ 0xC3#8 → code ≠ 0xC4#8 →
         s.busCommand p (code :: rest) n = some (.unknownCodeByte p code rest.length))
  ∧ (∀ (s : State) (p : Port) (write read : Byte) (rest : List Byte) (n : Nat), s.isI2C p = true →
     (s.straps.adrs = false ∧ write = 0x6C#8 ∧ read = 0x6D#8)
       ∨ (s.straps.adrs = true ∧ write = 0x6E#8 ∧ read = 0x6F#8) →
     s.busCommand p [write] n = none
     ∧ s.busCommand p (write :: 0xC1#8 :: rest) n = some (.submit p rest)
     ∧ s.busCommand p (write :: 0xC2#8 :: rest) n = some (.readSelection p .fetchResponse rest.length)
     ∧ s.busCommand p (write :: 0xC3#8 :: rest) n = some (.readSelection p .fetchNotice rest.length)
     ∧ s.busCommand p (write :: 0xC4#8 :: rest) n = some (.readSelection p .status rest.length)
     ∧ (∀ code, code ≠ 0xC1#8 → code ≠ 0xC2#8 → code ≠ 0xC3#8 → code ≠ 0xC4#8 →
         s.busCommand p (write :: code :: rest) n = some (.unknownCodeByte p code rest.length))
     ∧ s.busCommand p (read :: rest) n = some
         (match (s.port p).selection with
           | .fetchResponse => .fetchResponse p n
           | .fetchNotice => .fetchNotice p n
           | .status => .status p n)
     ∧ ∀ address, address ≠ write → address ≠ read → s.busCommand p (address :: rest) n = none)

/-- While RESETn is low or power is lost, a transaction returns no byte, is not acknowledged, and changes nothing but
the record of what the port drove, and every ATTN output is released (07, R120). -/
def Obligations.InactivePortsTakeNothing : Prop :=
  ∀ (c : Instr) (s : State) (p : Port), s.active = false → transactionPort c = some p →
    ∃ t, exec c s = .next t
      ∧ t = s.setPort p { s.port p with bus := ⟨[], if s.isI2C p then [false] else []⟩ }
      ∧ ∀ q, t.attnLow q = false

/-- ATTN is driven low exactly while the device runs and a response waits with responses enabled, or a notice
waits with notices enabled. The READY notice that ends the scan pulls it low unless notices are disabled
(07, R134). -/
def Obligations.AttentionFollowsTheQueues : Prop :=
  (∀ (s : State) (p : Port), FifoMatches (s.port p) →
    (s.attnLow p = true ↔
      s.active = true ∧
        (((∃ t r, (s.port p).slots.get t = .done r) ∧ (s.port p).maskResponses = true)
          ∨ ((s.port p).notices ≠ [] ∧ (s.port p).maskNotices = true))))
  ∧ ∀ (s t : State) (p : Port), s.active = true → s.dev = .starting → exec .scanEnd s = .next t →
      (s.port p).maskNotices = true → t.attnLow p = true

/-! ### Reading and leases -/

/-- READ with token 0: the committed generation and the bytes of the active copy, or bytes of 00h when there
is none. READ with a live token on the lease's record: the staged bytes, in HELD and COMMITTING alike, judged
against the grant rights. Nothing else changes (02, R37; 04, R75, R76; 08, R146). -/
def Obligations.ReadReturnsCommittedOrStagedData : Prop :=
  (∀ (s : State) (p : Port) (t : Tag) (h : Handle) (x : RecEntry) (offset length : Byte),
     Asks s p t 0x10#8 [handleByte h, 0x00#8, 0x00#8, offset, length] → s.dev = .ready → Defined s h x →
     (x.rights.get p).read = true → 1 ≤ length.toNat → length.toNat ≤ 32 →
     offset.toNat + length.toNat ≤ x.size.toNat →
     exec (.readCommitted p) s = .next
       (answered s p t .ok
         (be4 (s.record h).gen ++ (List.range length.toNat).map fun i =>
           match (s.record h).active with
           | none => 0x00#8
           | some c => Memory.read s.store (32 * x.firstPage c + 16 + offset.toNat + i))))
  ∧ (∀ (s : State) (p : Port) (t : Tag) (h : Handle) (x : RecEntry) (entry count offset length : Byte)
     (e : EntryNo) (l : Lease),
     Asks s p t 0x10#8 [handleByte h, entry, count, offset, length] → s.dev = .ready → Defined s h x →
     Live s p entry count e l → l.handle = h → l.grantRights.read = true →
     1 ≤ length.toNat → length.toNat ≤ 32 → offset.toNat + length.toNat ≤ x.size.toNat →
     exec (.readWithToken p) s = .next
       (answered s p t .ok (((s.buffer e).bytes.drop offset.toNat).take length.toNat)))

/-- An ACQUIRE of a FREE record without waiters takes the lowest-numbered FREE lease entry at once: its issue
count advances, it is HELD with the hold timer at the hold limit and the port's rights as grant rights, its
buffer holds the committed data, and the answer is the token, the committed generation and the size
(03, R46, R52, R53; 04, R72). -/
def Obligations.AcquireIsGrantedAtOnce : Prop :=
  ∀ (s : State) (p : Port) (t : Tag) (h : Handle) (x : RecEntry) (wait : Byte) (e : EntryNo),
    Asks s p t 0x11#8 [handleByte h, wait] → s.dev = .ready → Defined s h x →
    (x.rights.get p).update = true → x.frozen = false →
    (s.record h).retirePending = false → (s.record h).freezePending = false →
    Unleased s h → (s.record h).waiters = [] → FirstFree s e →
    exec (.acquire p) s = .next
      (answered
        ((s.setLease e
          ⟨(s.lease e).issue + 1#8,
            some { phase := .held, handle := h, holder := p, form := .explicit, timer := some x.holdLimit.toNat,
                   renewals := 0, modified := false, answer := none, grantRights := x.rights.get p }⟩).setBuffer e
          ⟨padTo 0x00#8 240 (s.committedData h), false⟩)
        p t .ok
        ([BitVec.ofNat 8 (e.val + 1), (s.lease e).issue + 1#8] ++ be4 (s.record h).gen ++ [x.size]))

/-- An ACQUIRE, or an ADD with token 0, that is not granted at once: IN_USE while retire pending, FROZEN while freeze
pending, IN_USE when the port itself holds the record; an ACQUIRE with a wait limit of 0 BUSY. Otherwise it joins the
tail of the wait queue, an ACQUIRE with its wait timer and an ADD with its delta and no timer, and the record the tail
of the allocation queue when it is FREE and not there (03, R50, R52, R54). -/
def Obligations.AcquireOrAddWaitsOrIsRefused : Prop :=
  (∀ (s : State) (p : Port) (t : Tag) (serial : Nat) (h : Handle) (x : RecEntry) (wait : Byte),
     Placed s p t serial 0x11#8 [handleByte h, wait] → s.dev = .ready → Defined s h x →
     (x.rights.get p).update = true → x.frozen = false →
     ((s.record h).retirePending = true → exec (.acquire p) s = .next (answered s p t .inUse []))
     ∧ ((s.record h).retirePending = false → (s.record h).freezePending = true →
         exec (.acquire p) s = .next (answered s p t .frozen []))
     ∧ ((s.record h).retirePending = false → (s.record h).freezePending = false →
         (∀ e l, (s.lease e).lease = some l → l.handle = h → l.holder = p) → ¬ Unleased s h →
         exec (.acquire p) s = .next (answered s p t .inUse []))
     ∧ ((s.record h).retirePending = false → (s.record h).freezePending = false → NotHeldBy s p h →
         (¬ Unleased s h ∨ (s.record h).waiters ≠ [] ∨ ∀ e, (s.lease e).lease ≠ none) →
         (wait = 0x00#8 → exec (.acquire p) s = .next (answered s p t .busy []))
         ∧ (wait ≠ 0x00#8 → exec (.acquire p) s = .next
             { (handed s p).setWaiters h ((s.record h).waiters ++ [⟨⟨p, t, serial⟩, .acquire wait.toNat⟩]) with
               allocQueue := if Unleased s h ∧ h ∉ s.allocQueue then s.allocQueue ++ [h] else s.allocQueue })))
  ∧ (∀ (s : State) (p : Port) (t : Tag) (serial : Nat) (h : Handle) (x : RecEntry) (delta : Word32),
     Placed s p t serial 0x13#8 ([handleByte h, 0x00#8, 0x00#8] ++ be4 delta) → s.dev = .ready → Defined s h x →
     x.kind = .counter → (x.rights.get p).update = true → x.frozen = false →
     ((s.record h).retirePending = true → exec (.addWithoutToken p) s = .next (answered s p t .inUse []))
     ∧ ((s.record h).retirePending = false → (s.record h).freezePending = true →
         exec (.addWithoutToken p) s = .next (answered s p t .frozen []))
     ∧ ((s.record h).retirePending = false → (s.record h).freezePending = false →
         (∀ e l, (s.lease e).lease = some l → l.handle = h → l.holder = p) → ¬ Unleased s h →
         exec (.addWithoutToken p) s = .next (answered s p t .inUse []))
     ∧ ((s.record h).retirePending = false → (s.record h).freezePending = false → NotHeldBy s p h →
         (¬ Unleased s h ∨ (s.record h).waiters ≠ [] ∨ ∀ e, (s.lease e).lease ≠ none) →
         exec (.addWithoutToken p) s = .next
           { (handed s p).setWaiters h ((s.record h).waiters ++ [⟨⟨p, t, serial⟩, .add delta⟩]) with
             allocQueue := if Unleased s h ∧ h ∉ s.allocQueue then s.allocQueue ++ [h] else s.allocQueue }))

/-- STAGE on a HELD lease writes the data into the buffer at the offset, sets modified and is answered OK; one
that runs past the record's size writes nothing and is answered RANGE (04, R74). -/
def Obligations.StageWritesTheBuffer : Prop :=
  ∀ (s : State) (p : Port) (t : Tag) (entry count offset : Byte) (data : List Byte) (e : EntryNo) (l : Lease)
    (x : RecEntry),
    Asks s p t 0x12#8 ([entry, count, offset] ++ data) → s.dev = .ready →
    1 ≤ data.length → data.length ≤ 32 → offset.toNat ≤ 239 →
    Live s p entry count e l → l.grantRights.update = true → l.phase = .held → Defined s l.handle x →
    (offset.toNat + data.length ≤ x.size.toNat →
      exec (.stage p) s = .next
        (answered
          ((s.setLease e { s.lease e with lease := some { l with modified := true } }).setBuffer e
            { s.buffer e with
              bytes := (s.buffer e).bytes.take offset.toNat ++ data
                ++ (s.buffer e).bytes.drop (offset.toNat + data.length) })
          p t .ok []))
    ∧ (x.size.toNat < offset.toNat + data.length →
      exec (.stage p) s = .next (answered s p t .range []))

/-- ADD with a token on a HELD lease changes the staged value by the delta, clamped, sets modified and is
answered at once with the new value and the committed generation, SATURATED when it was clamped
(04, R77, R78). -/
def Obligations.AddWithTokenChangesStagedValue : Prop :=
  ∀ (s : State) (p : Port) (t : Tag) (h : Handle) (x : RecEntry) (entry count : Byte) (delta : Word32)
    (e : EntryNo) (l : Lease) (b0 b1 b2 b3 : Byte) (rest : List Byte),
    Asks s p t 0x13#8 ([handleByte h, entry, count] ++ be4 delta) → s.dev = .ready → Defined s h x →
    x.kind = .counter → x.frozen = false → Live s p entry count e l → l.handle = h →
    l.grantRights.update = true → l.phase = .held → (s.buffer e).bytes = b0 :: b1 :: b2 :: b3 :: rest →
    exec (.addWithToken p) s = .next
      (answered
        ((s.setLease e { s.lease e with lease := some { l with modified := true } }).setBuffer e
          { s.buffer e with bytes := be4 (clampedValue (b0 ++ b1 ++ b2 ++ b3) delta) ++ rest })
        p t (if Clamps (b0 ++ b1 ++ b2 ++ b3) delta then .saturated else .ok)
        (be4 (clampedValue (b0 ++ b1 ++ b2 ++ b3) delta) ++ be4 (s.record h).gen))

/-- An ADD with token 0 on a FREE record without waiters takes the lowest-numbered FREE lease entry: the entry
goes to COMMITTING with the saturated value in its buffer, and a record job for the copy not in force, at the
next generation, joins the commit queue. On a spent generation it is answered GEN_SPENT and no entry is taken
(03, R54, R55; 04, R73; 02, R33; 05, R84). -/
def Obligations.AddIsGrantedImplicitly : Prop :=
  ∀ (s : State) (p : Port) (t : Tag) (serial : Nat) (h : Handle) (x : RecEntry) (delta : Word32) (e : EntryNo),
    Placed s p t serial 0x13#8 ([handleByte h, 0x00#8, 0x00#8] ++ be4 delta) → s.dev = .ready → Defined s h x →
    x.kind = .counter → x.frozen = false → (x.rights.get p).update = true →
    (s.record h).retirePending = false → (s.record h).freezePending = false →
    Unleased s h → (s.record h).waiters = [] → FirstFree s e →
    ((s.record h).gen = 0xFFFFFFFF#32 → exec (.addWithoutToken p) s = .next (answered s p t .genSpent []))
    ∧ ((s.record h).gen ≠ 0xFFFFFFFF#32 →
        exec (.addWithoutToken p) s = .next
          (withJob
            (((handed s p).setLease e
              ⟨(s.lease e).issue + 1#8,
                some { phase := .committing, handle := h, holder := p, form := .implicit, timer := none,
                       renewals := 0, modified := true, answer := some ⟨p, t, serial⟩,
                       grantRights := x.rights.get p }⟩).setBuffer e
              ⟨padTo 0x00#8 240 (be4 (clampedValue (counterValue (s.committedData h)) delta)),
                decide (Clamps (counterValue (s.committedData h)) delta)⟩)
            (.record e h (target (s.record h).active) (x.firstPage (target (s.record h).active))
              ((x.size.toNat + 16 + 31) / 32) ((s.record h).gen + 1#32))))

/-- COMMIT of a modified HELD lease stops its hold timer, makes it COMMITTING with the COMMIT's tag as answer
tag, and queues a record job for the copy not in force, at the next generation (03, R63 case 3; 02, R33; 05,
R84). -/
def Obligations.CommitQueuesARecordJob : Prop :=
  ∀ (s : State) (p : Port) (t : Tag) (serial : Nat) (entry count : Byte) (e : EntryNo) (l : Lease) (x : RecEntry),
    Placed s p t serial 0x14#8 [entry, count] → s.dev = .ready → Live s p entry count e l →
    l.grantRights.update = true → l.phase = .held → l.modified = true → Defined s l.handle x →
    (s.record l.handle).gen ≠ 0xFFFFFFFF#32 →
    exec (.commit p) s = .next
      (withJob
        ((handed s p).setLease e
          { s.lease e with
            lease := some { l with phase := .committing, timer := none, answer := some ⟨p, t, serial⟩ } })
        (.record e l.handle (target (s.record l.handle).active)
          (x.firstPage (target (s.record l.handle).active)) ((x.size.toNat + 16 + 31) / 32)
          ((s.record l.handle).gen + 1#32)))

/-- RELEASE of a HELD lease, and a COMMIT of one that makes no job, free the entry and discard its buffer, and
nothing else changes when nothing waits for the entry. RELEASE is answered OK; COMMIT of an unmodified lease
UNCHANGED with the committed generation; COMMIT of a modified one on a spent generation GEN_SPENT (03, R61, R63
cases 1 and 2; 04, R71). -/
def Obligations.ReleaseAndJoblessCommitFreeTheLease : Prop :=
  ∀ (s : State) (p : Port) (t : Tag) (entry count : Byte) (e : EntryNo) (l : Lease),
    s.dev = .ready → Live s p entry count e l → l.grantRights.update = true → l.phase = .held →
    NoneWaits s l.handle →
    (Asks s p t 0x15#8 [entry, count] → exec (.release p) s = .next (answered (freed s e) p t .ok []))
    ∧ (Asks s p t 0x14#8 [entry, count] → l.modified = false →
      exec (.commit p) s = .next (answered (freed s e) p t .unchanged (be4 (s.record l.handle).gen)))
    ∧ (Asks s p t 0x14#8 [entry, count] → l.modified = true → (s.record l.handle).gen = 0xFFFFFFFF#32 →
      exec (.commit p) s = .next (answered (freed s e) p t .genSpent []))

/-- Every freeing of a lease entry that R44 says is followed by a grant hands the entry on in the same event, as
`GrantedOnward` says: RELEASE, a COMMIT without a job and a hold expiry; the commit point and the store fault of its
record job, where the answer comes before the grant; and a PORT-RESET, which frees the port's entries one after another,
as `LeasesReset` says (03, R44, R55, R56, R58, R61, R63 to R65, R67). -/
def Obligations.FreedEntryIsGrantedOnward : Prop :=
  ∀ (s : State) (e : EntryNo) (l : Lease), (s.lease e).lease = some l →
    (∀ p t entry count, s.dev = .ready → Live s p entry count e l → l.grantRights.update = true → l.phase = .held →
      (Asks s p t 0x15#8 [entry, count] →
        ∃ t', GrantedOnward (answered (freed s e) p t .ok []) e l.handle t' ∧ exec (.release p) s = .next t')
      ∧ (Asks s p t 0x14#8 [entry, count] → l.modified = false →
        ∃ t', GrantedOnward (answered (freed s e) p t .unchanged (be4 (s.record l.handle).gen)) e l.handle t'
          ∧ exec (.commit p) s = .next t')
      ∧ (Asks s p t 0x14#8 [entry, count] → l.modified = true → (s.record l.handle).gen = 0xFFFFFFFF#32 →
        ∃ t', GrantedOnward (answered (freed s e) p t .genSpent []) e l.handle t' ∧ exec (.commit p) s = .next t'))
    ∧ (l.phase = .held → l.timer = some 0 →
      ∃ t', GrantedOnward
          ((freed s e).setPort l.holder
            (posted (s.port l.holder) [.leaseExpired ⟨BitVec.ofNat 8 (e.val + 1), (s.lease e).issue⟩ l.handle]))
          e l.handle t'
        ∧ exec (.holdExpiry e) s = .next t')
    ∧ (∀ c first pages gen retry rest, s.engine = .programming pages retry →
      s.queue = .record e l.handle c first pages gen :: rest → 1 ≤ pages → first < 2048 → s.clear = none →
      ∃ s0 t', s0 = { s.setRecord l.handle { s.record l.handle with active := some c, gen := gen } with
                        store := s0.store, ports := s0.ports, queue := rest
                        leases := (freed s e).leases, buffers := (freed s e).buffers }
        ∧ (∀ a, a / 32 ≠ first → Memory.read s0.store a = Memory.read s.store a)
        ∧ (∀ q u serial kind body, l.answer = some ⟨q, u, serial⟩ →
            (s.port q).slots.get u = .pending serial kind body →
            (s0.port q).fifo = (s.port q).fifo ++ [u]
            ∧ (s0.port q).slots.get u = .done
                (match l.form with
                  | .explicit => ⟨.ok, be4 gen⟩
                  | .implicit =>
                    ⟨if (s.buffer e).clamped then .saturated else .ok,
                      be4 (counterValue (s.buffer e).bytes) ++ be4 gen⟩))
        ∧ GrantedOnward s0 e l.handle t'
        ∧ exec .pageMatch s = .next { t' with engine := engineFor t'.queue })
    ∧ (∀ c first pages pos failing gen rest, s.engine = .erasing pos failing →
      s.queue = .record e l.handle c first pages gen :: rest → first < 2048 → s.clear = none →
      ∃ s0 t', s0 = { s.setRecord l.handle
                        { s.record l.handle with
                          faultCount :=
                            if (s.record l.handle).faultCount = 255#8 then 255#8
                            else (s.record l.handle).faultCount + 1#8 } with
                        store := s0.store, ports := s0.ports, queue := rest
                        leases := (freed s e).leases, buffers := (freed s e).buffers }
        ∧ (∀ a, a / 32 ≠ first → Memory.read s0.store a = Memory.read s.store a)
        ∧ (∀ q u serial kind body, l.answer = some ⟨q, u, serial⟩ →
            (s.port q).slots.get u = .pending serial kind body →
            (s0.port q).fifo = (s.port q).fifo ++ [u] ∧ (s0.port q).slots.get u = .done ⟨.storeFault, []⟩)
        ∧ GrantedOnward s0 e l.handle t'
        ∧ exec .eraseEnd s = .next { t' with engine := engineFor t'.queue })
    ∧ (∀ p t, Asks s p t 0x42#8 [] → ¬ ResetRemovesDirectory s p →
      ∃ t', LeasesReset s p t t' ∧ exec (.portReset p) s = .next t')

/-- RENEW of a HELD lease restarts the hold timer with the full hold limit, at most four times, and is answered
OK with the renewals left; a fifth is answered LIMIT and changes nothing (03, R60). -/
def Obligations.RenewRestartsTheHoldTimer : Prop :=
  ∀ (s : State) (p : Port) (t : Tag) (entry count : Byte) (e : EntryNo) (l : Lease) (x : RecEntry),
    Asks s p t 0x16#8 [entry, count] → s.dev = .ready → Live s p entry count e l →
    l.grantRights.update = true → l.phase = .held → Defined s l.handle x →
    (l.renewals < 4 →
      exec (.renew p) s = .next
        (answered
          (s.setLease e
            { s.lease e with
              lease := some { l with renewals := l.renewals + 1, timer := some x.holdLimit.toNat } })
          p t .ok [BitVec.ofNat 8 (3 - l.renewals)]))
    ∧ (4 ≤ l.renewals → exec (.renew p) s = .next (answered s p t .limit []))

/-- CANCEL withdraws the waiting request of the port in the target tag: the request is answered CANCELLED and
then the CANCEL OK, the other waiters keep their order, and a record left without waiters leaves the
allocation queue. A CANCEL of its own tag is MALFORMED, and one that finds no waiter NOT_FOUND (03, R62). -/
def Obligations.CancelWithdrawsTheWaiter : Prop :=
  ∀ (s : State) (p : Port) (t u : Tag),
    Asks s p t 0x17#8 [BitVec.ofNat 8 u.val] → s.dev = .ready →
    (u = t → exec (.cancel p) s = .next (answered s p t .malformed []))
    ∧ (u ≠ t → (∀ h w, w ∈ (s.record h).waiters → ¬ (w.ticket.port = p ∧ w.ticket.tag = u)) →
        exec (.cancel p) s = .next (answered s p t .notFound []))
    ∧ (u ≠ t → ∀ h before after serial type kind body,
        (s.record h).waiters = before ++ ⟨⟨p, u, serial⟩, type⟩ :: after →
        (∀ w, w ∈ before ++ after → ¬ (w.ticket.port = p ∧ w.ticket.tag = u)) →
        (∀ h', h' ≠ h → ∀ w, w ∈ (s.record h').waiters → ¬ (w.ticket.port = p ∧ w.ticket.tag = u)) →
        (s.port p).slots.get u = .pending serial kind body →
        exec (.cancel p) s = .next
          (completed
            (completed
              { (handed s p).setWaiters h (before ++ after) with
                allocQueue := if before ++ after = [] then s.allocQueue.filter (fun k => k != h) else s.allocQueue }
              p u .cancelled [])
            p t .ok []))

/-! ### Watches -/

/-- WATCH fills the lowest-numbered empty entry and is answered with its number; a watch with the same port,
record, mode and threshold is answered EXISTS, and a full table NO_ROOM (06, R103, R104). -/
def Obligations.WatchFillsLowestEntry : Prop :=
  ∀ (s : State) (p : Port) (t : Tag) (h : Handle) (x : RecEntry) (m f : Byte) (threshold : Word32)
    (mode : WatchMode) (self : Bool),
    Asks s p t 0x20#8 ([handleByte h, m] ++ be4 threshold ++ [f]) → s.dev = .ready → Defined s h x →
    (x.rights.get p).watch = true →
    ((m = 0x01#8 ∧ mode = .any) ∨ (m = 0x02#8 ∧ mode = .rise threshold ∧ x.kind = .counter)
      ∨ (m = 0x03#8 ∧ mode = .fall threshold ∧ x.kind = .counter)) →
    ((f = 0x00#8 ∧ self = false) ∨ (f = 0x01#8 ∧ self = true)) →
    ((∃ n w, s.watchAt n = some w ∧ w.port = p ∧ w.handle = h ∧ w.mode = mode) →
      exec (.watch p) s = .next (answered s p t .existsAlready []))
    ∧ ((∀ n w, s.watchAt n = some w → ¬ (w.port = p ∧ w.handle = h ∧ w.mode = mode)) →
        ((∀ n, s.watchAt n ≠ none) → exec (.watch p) s = .next (answered s p t .noRoom []))
        ∧ ∀ n, s.watchAt n = none → (∀ n', n' < n → s.watchAt n' ≠ none) →
          exec (.watch p) s = .next
            (answered (s.setWatch n (some ⟨p, h, mode, self⟩)) p t .ok [BitVec.ofNat 8 n.val]))

/-- UNWATCH in READY: RANGE for a number above 15; an entry that holds a watch of the port is emptied and the
answer is OK; an empty entry or another port's watch is answered NOT_FOUND. Nothing else changes: no notice
is posted, none is withdrawn, and the record plays no part (06, R106). -/
def Obligations.UnwatchEmptiesOwnEntry : Prop :=
  ∀ (s : State) (p : Port) (t : Tag) (number : Byte),
    Asks s p t 0x21#8 [number] → s.dev = .ready →
    (15 < number.toNat → exec (.unwatch p) s = .next (answered s p t .range []))
    ∧ ∀ n : WatchNo, number.toNat = n.val →
      (∀ w, s.watchAt n = some w → w.port = p →
        exec (.unwatch p) s = .next (answered (s.setWatch n none) p t .ok []))
      ∧ ((∀ w, s.watchAt n = some w → w.port ≠ p) →
        exec (.unwatch p) s = .next (answered s p t .notFound []))

/-! ### The Directory -/

/-- INQUIRE of a defined record: its entry, flags, generation, lease state, waiter count and fault count; the
other ports' rights and the holder port are given to the configuration port alone (01, R22; 10, R176). -/
def Obligations.InquireReportsTheRecord : Prop :=
  ∀ (s : State) (p : Port) (t : Tag) (h : Handle) (x : RecEntry) (l : Option Lease),
    Asks s p t 0x22#8 [handleByte h] → s.dev = .ready → Defined s h x →
    (s.configPort = some p ∨ (x.rights.get p).read = true ∨ (x.rights.get p).update = true
      ∨ (x.rights.get p).watch = true) →
    ((l = none ∧ Unleased s h) ∨
      ∃ e, (s.lease e).lease = l ∧ leasedHandle s e = some h ∧ ∀ e', leasedHandle s e' = some h → e' = e) →
    exec (.inquire p) s = .next
      (answered s p t .ok
        (be4 x.label ++
          [match x.kind with | .plain => 0x01#8 | .counter => 0x02#8, x.size, x.holdLimit,
            if s.configPort = some p ∨ p = .p0 then rightsByte x.rights.p0 else 0xFF#8,
            if s.configPort = some p ∨ p = .p1 then rightsByte x.rights.p1 else 0xFF#8,
            if s.configPort = some p ∨ p = .p2 then rightsByte x.rights.p2 else 0xFF#8,
            (if x.frozen then 0x01#8 else 0x00#8) ||| (if (s.record h).freezePending then 0x02#8 else 0x00#8)]
          ++ be4 (s.record h).gen ++
          [match l with
            | none => 0x00#8
            | some y => match y.phase with | .held => 0x01#8 | .committing => 0x02#8,
            BitVec.ofNat 8 (s.record h).waiters.length,
            if s.configPort = some p then
              (match l with
                | none => 0xFE#8
                | some y => match y.holder with | .p0 => 0x00#8 | .p1 => 0x01#8 | .p2 => 0x02#8)
            else 0xFF#8,
            (s.record h).faultCount]))

/-- DEFINE is answered at once BUSY while the slot is occupied, EXISTS for a defined handle, NO_SPACE when no run
is left for copy A or for copy B, GEN_SPENT on a spent directory generation, and then nothing else changes. Otherwise
it is taken: copy A is at the lowest run of FREE pages, copy B at the lowest run with copy A's counted
as not free, both become RESERVED, the slot holds the job, and a directory job for the region not in force, at
the next directory generation, joins the commit queue; the handle has no entry yet (01, R8, R10, R11, R13; 05,
R84). -/
def Obligations.DefineIsTakenOrRefused : Prop :=
  (∀ (s : State) (p : Port) (t : Tag) (serial : Nat) (h : Handle) (label : Word32) (kind : RecKind)
     (k size hold r0 r1 r2 : Byte) (m : List (Nat × PageCond)) (a b : Fin 2048),
     Placed s p t serial 0x30#8 ([handleByte h] ++ be4 label ++ [k, size, hold, r0, r1, r2]) → s.dev = .ready →
     s.configPort = some p → s.dirSlot = none → (s.record h).entry = none → s.dirGen ≠ 0xFFFFFFFF#32 →
     ((k = 0x01#8 ∧ kind = .plain ∧ 1 ≤ size.toNat ∧ size.toNat ≤ 240)
       ∨ (k = 0x02#8 ∧ kind = .counter ∧ size = 0x04#8)) →
     hold ≠ 0x00#8 → (∀ c ∈ be4 label, 0x20 ≤ c.toNat ∧ c.toNat ≤ 0x7E) →
     r0.toNat < 8 → r1.toNat < 8 → r2.toNat < 8 → s.pageMap = some m →
     LowestRun (pageCond m) ((size.toNat + 16 + 31) / 32) a.val →
     LowestRun (fun page => if InRun ((size.toNat + 16 + 31) / 32) a.val page then .reserved else pageCond m page)
       ((size.toNat + 16 + 31) / 32) b.val →
     ∃ m', exec (.define p) s = .next
         (withJob
           { handed s p with
             pageMap := some m'
             dirSlot := some
               ⟨.define
                 { label := label, kind := kind, size := size, holdLimit := hold,
                   rights := ⟨⟨r0.getLsbD 0, r0.getLsbD 1, r0.getLsbD 2⟩, ⟨r1.getLsbD 0, r1.getLsbD 1, r1.getLsbD 2⟩,
                     ⟨r2.getLsbD 0, r2.getLsbD 1, r2.getLsbD 2⟩⟩,
                   frozen := false, stamp := 0#32, pageA := a, pageB := b }, h, ⟨p, t, serial⟩⟩ }
           (.directory .define (target s.activeDir) (s.dirGen + 1#32)))
       ∧ ∀ page, pageCond m' page =
           if InRun ((size.toNat + 16 + 31) / 32) a.val page ∨ InRun ((size.toNat + 16 + 31) / 32) b.val page
           then .reserved else pageCond m page)
  ∧ (∀ (s : State) (p : Port) (t : Tag) (h : Handle) (label : Word32) (k size hold r0 r1 r2 : Byte)
     (m : List (Nat × PageCond)),
     Asks s p t 0x30#8 ([handleByte h] ++ be4 label ++ [k, size, hold, r0, r1, r2]) → s.dev = .ready →
     s.configPort = some p →
     ((k = 0x01#8 ∧ 1 ≤ size.toNat ∧ size.toNat ≤ 240) ∨ (k = 0x02#8 ∧ size = 0x04#8)) → hold ≠ 0x00#8 →
     (∀ c ∈ be4 label, 0x20 ≤ c.toNat ∧ c.toNat ≤ 0x7E) →
     r0.toNat < 8 → r1.toNat < 8 → r2.toNat < 8 → s.pageMap = some m →
     (s.dirSlot ≠ none → exec (.define p) s = .next (answered s p t .busy []))
     ∧ (s.dirSlot = none → (s.record h).entry ≠ none →
         exec (.define p) s = .next (answered s p t .existsAlready []))
     ∧ (s.dirSlot = none → (s.record h).entry = none →
         ((∀ a, ¬ FreeRun (pageCond m) ((size.toNat + 16 + 31) / 32) a)
           ∨ ∃ a, LowestRun (pageCond m) ((size.toNat + 16 + 31) / 32) a ∧
               ∀ b, ¬ FreeRun
                 (fun page => if InRun ((size.toNat + 16 + 31) / 32) a page then .reserved else pageCond m page)
                 ((size.toNat + 16 + 31) / 32) b) →
         exec (.define p) s = .next (answered s p t .noSpace []))
     ∧ (∀ a b, s.dirSlot = none → (s.record h).entry = none → s.dirGen = 0xFFFFFFFF#32 →
         LowestRun (pageCond m) ((size.toNat + 16 + 31) / 32) a →
         LowestRun (fun page => if InRun ((size.toNat + 16 + 31) / 32) a page then .reserved else pageCond m page)
           ((size.toNat + 16 + 31) / 32) b →
         exec (.define p) s = .next (answered s p t .genSpent [])))

/-- RETIRE and FREEZE: BUSY while the slot is occupied, FROZEN for a frozen record, IN_USE for a record that is
leased (and for RETIRE one that is waited on), GEN_SPENT on a spent directory generation. Otherwise the pending
flag is set, the slot holds the job, and a directory job joins the commit queue; a FREEZE takes the record out
of the allocation queue and leaves its waiters (01, R11, R15, R19). -/
def Obligations.RetireAndFreezeAreTaken : Prop :=
  ∀ (s : State) (p : Port) (t : Tag) (serial : Nat) (h : Handle) (x : RecEntry) (retire : Bool),
    Placed s p t serial (if retire then 0x31#8 else 0x33#8) [handleByte h] → s.dev = .ready →
    s.configPort = some p → Defined s h x →
    (s.dirSlot ≠ none →
      exec (if retire then .retire p else .freeze p) s = .next (answered s p t .busy []))
    ∧ (s.dirSlot = none → x.frozen = true →
      exec (if retire then .retire p else .freeze p) s = .next (answered s p t .frozen []))
    ∧ (s.dirSlot = none → x.frozen = false →
      (¬ Unleased s h ∨ (retire = true ∧ (s.record h).waiters ≠ [])) →
      exec (if retire then .retire p else .freeze p) s = .next (answered s p t .inUse []))
    ∧ (s.dirSlot = none → x.frozen = false → Unleased s h → (retire = true → (s.record h).waiters = []) →
      (s.dirGen = 0xFFFFFFFF#32 →
        exec (if retire then .retire p else .freeze p) s = .next (answered s p t .genSpent []))
      ∧ (s.dirGen ≠ 0xFFFFFFFF#32 →
        (retire = true →
          exec (.retire p) s = .next
            (withJob
              { (handed s p).setRecord h { s.record h with retirePending := true } with
                dirSlot := some ⟨.retire, h, ⟨p, t, serial⟩⟩ }
              (.directory .retire (target s.activeDir) (s.dirGen + 1#32))))
        ∧ (retire = false →
          exec (.freeze p) s = .next
            (withJob
              { (handed s p).setRecord h { s.record h with freezePending := true } with
                allocQueue := s.allocQueue.filter fun k => k != h
                dirSlot := some ⟨.freeze, h, ⟨p, t, serial⟩⟩ }
              (.directory .freeze (target s.activeDir) (s.dirGen + 1#32))))))

/-- SET-RIGHTS with the sets already in force is answered UNCHANGED with the directory generation; otherwise,
unless that generation is spent, the slot holds the three sets and a directory job joins the commit queue; the
old rights stand (01, R11, R17). -/
def Obligations.SetRightsIsTaken : Prop :=
  ∀ (s : State) (p : Port) (t : Tag) (serial : Nat) (h : Handle) (x : RecEntry) (r0 r1 r2 : Byte)
    (r : PerPort Rights),
    Placed s p t serial 0x32#8 [handleByte h, r0, r1, r2] → s.dev = .ready → s.configPort = some p →
    Defined s h x → r0.toNat < 8 → r1.toNat < 8 → r2.toNat < 8 →
    r = ⟨⟨r0.getLsbD 0, r0.getLsbD 1, r0.getLsbD 2⟩, ⟨r1.getLsbD 0, r1.getLsbD 1, r1.getLsbD 2⟩,
      ⟨r2.getLsbD 0, r2.getLsbD 1, r2.getLsbD 2⟩⟩ →
    (s.dirSlot ≠ none → exec (.setRights p) s = .next (answered s p t .busy []))
    ∧ (s.dirSlot = none → x.rights = r →
        exec (.setRights p) s = .next (answered s p t .unchanged (be4 s.dirGen)))
    ∧ (s.dirSlot = none → x.rights ≠ r → s.dirGen = 0xFFFFFFFF#32 →
        exec (.setRights p) s = .next (answered s p t .genSpent []))
    ∧ (s.dirSlot = none → x.rights ≠ r → s.dirGen ≠ 0xFFFFFFFF#32 →
        exec (.setRights p) s = .next
          (withJob { handed s p with dirSlot := some ⟨.setRights r, h, ⟨p, t, serial⟩⟩ }
            (.directory .setRights (target s.activeDir) (s.dirGen + 1#32))))

/-! ### Control -/

/-- DEVICE-INFO in every device state. In READY, and in CLEARING before the bulk erase: the part, the
configuration port and the figures of the tables as they stand, the longest run of free pages among them. In
STARTING and DAMAGED: zeros, 6 FREE lease entries and an empty queue; during the bulk erase the same, with 1984
free pages in one run (08, R142, R152, R153; 10, R176). -/
def Obligations.DeviceInfoReportsTheDevice : Prop :=
  ∀ (s : State) (p : Port) (t : Tag), Asks s p t 0x40#8 [] →
    (∀ m longest, (s.dev = .ready ∨ (s.dev = .clearing ∧ ∀ x, s.clear = some x → x.phase = .draining)) →
      s.pageMap = some m →
      (longest = 0 ∨ ∃ q, FreeRun (pageCond m) longest q) → (∀ q, ¬ FreeRun (pageCond m) (longest + 1) q) →
      exec (.deviceInfo p) s = .next
        (answered s p t .ok
          ([if s.dev = .ready then 0x01#8 else 0x03#8, 0x01#8, 0x9C#8, 0x01#8, configByte s] ++ be4 s.dirGen ++
            [BitVec.ofNat 8 ((List.finRange 48).filter fun h => (s.record h).entry.isSome).length] ++
            be2 (BitVec.ofNat 16 ((List.range 2048).filter fun page =>
              decide (64 ≤ page) && (pageCond m page == .free)).length) ++
            be2 (BitVec.ofNat 16 longest) ++
            [BitVec.ofNat 8 ((List.finRange 6).filter fun e => (s.lease e).lease.isNone).length,
              BitVec.ofNat 8 s.queue.length])))
    ∧ (s.dev = .starting → exec (.deviceInfo p) s = .next
      (answered s p t .ok
        [0x00#8, 0x01#8, 0x9C#8, 0x01#8, configByte s, 0#8, 0#8, 0#8, 0#8, 0#8, 0#8, 0#8, 0#8, 0#8, 6#8, 0#8]))
    ∧ (s.dev = .damaged → exec (.deviceInfo p) s = .next
      (answered s p t .ok
        [0x02#8, 0x01#8, 0x9C#8, 0x01#8, configByte s, 0#8, 0#8, 0#8, 0#8, 0#8, 0#8, 0#8, 0#8, 0#8, 6#8, 0#8]))
    ∧ (∀ tk, s.dev = .clearing → s.clear = some ⟨tk, .erasing⟩ → exec (.deviceInfo p) s = .next
      (answered s p t .ok
        [0x03#8, 0x01#8, 0x9C#8, 0x01#8, configByte s, 0#8, 0#8, 0#8, 0#8, 0#8, 0x07#8, 0xC0#8, 0x07#8, 0xC0#8,
          6#8, 0#8]))

/-- SET-ATTENTION, in every device state, sets the two enables of the port's mask and is answered OK; a mask
above 3 is answered RANGE and changes nothing (07, R135; 08, R142, R149; 10, R170). -/
def Obligations.SetAttentionSetsTheMask : Prop :=
  ∀ (s : State) (p : Port) (t : Tag) (mask : Byte), Asks s p t 0x41#8 [mask] →
    (mask.toNat ≤ 3 → exec (.setAttention p) s = .next
      (answered
        (s.setPort p { s.port p with maskResponses := mask.getLsbD 0, maskNotices := mask.getLsbD 1 }) p t .ok []))
    ∧ (3 < mask.toNat → exec (.setAttention p) s = .next (answered s p t .range []))

/-- PORT-RESET, in every device state, completes: the port is left with its own OK alone, and no waiter, watch, HELD
lease or unstarted record job of it remains. The other ports keep their leases, notices, flags, masks, selections and
responses, and their waiters in order, but that waiters at the head of a queue may be granted; their PENDING slots
stay unless such a grant answers them. Of the commit queue the job in programming and the other ports' jobs stay, in
order, the port's unstarted record jobs go, and at the configuration port the unstarted directory job, whose taking
is undone; behind them stand the jobs of implicit grants. When the port held no lease and no directory job is
removed, nothing of another port changes. The store, the device state and a job in programming are unchanged (07,
R136 to R138; 03, R67, R68; 05, R96; 01, R12; 06, R109). -/
def Obligations.PortResetClearsThePort : Prop :=
  ∀ (s : State) (p : Port) (t : Tag), Asks s p t 0x42#8 [] →
    ∃ t', exec (.portReset p) s = .next t'
      ∧ t'.port p = resetPort (s.port p) t
      ∧ (∀ n, t'.watchAt n = match s.watchAt n with
          | some w => if w.port = p then none else some w
          | none => none)
      ∧ (∀ h, ∃ n, (t'.record h).waiters =
          ((s.record h).waiters.filter fun w => w.ticket.port != p).drop n)
      ∧ (∀ q, q ≠ p →
          { t'.port q with slots := (s.port q).slots, fifo := (s.port q).fifo } = s.port q
          ∧ (∃ more, (t'.port q).fifo = (s.port q).fifo ++ more)
          ∧ ∀ u, (t'.port q).slots.get u = (s.port q).slots.get u
            ∨ ∃ h w kind body code answer, w ∈ (s.record h).waiters ∧ w.ticket.port = q ∧ w.ticket.tag = u
                ∧ (s.port q).slots.get u = .pending w.ticket.serial kind body
                ∧ (code = .ok ∨ code = .genSpent) ∧ (t'.port q).slots.get u = .done ⟨code, answer⟩)
      ∧ (∀ e l, (t'.lease e).lease = some l → l.holder = p →
          l.phase = .committing ∧ t'.lease e = s.lease e ∧ t'.buffer e = s.buffer e
            ∧ (s.queue.drop 1).any (Job.isRecordOf e) = false)
      ∧ (∀ e l, (s.lease e).lease = some l → l.holder ≠ p → t'.lease e = s.lease e ∧ t'.buffer e = s.buffer e)
      ∧ (∀ h, { t'.record h with
                  waiters := (s.record h).waiters, freezePending := (s.record h).freezePending,
                  retirePending := (s.record h).retirePending } = s.record h)
      ∧ (s.engine ≠ .idle → t'.engine = s.engine)
      ∧ (∃ granted, t'.queue =
            s.queue.take 1 ++ (s.queue.drop 1).filter (fun j => !resetRemoves s p j) ++ granted
          ∧ ∀ j ∈ granted, ∃ e l h c first pages gen, j = .record e h c first pages gen
              ∧ (t'.lease e).lease = some l ∧ l.handle = h ∧ l.form = .implicit ∧ l.phase = .committing
              ∧ l.holder ≠ p)
      ∧ (¬ ResetRemovesDirectory s p ∨ s.dirSlot = none → t'.dirSlot = s.dirSlot ∧ t'.pageMap = s.pageMap
          ∧ ∀ h, (t'.record h).freezePending = (s.record h).freezePending
            ∧ (t'.record h).retirePending = (s.record h).retirePending)
      ∧ (∀ j, ResetRemovesDirectory s p → s.dirSlot = some j → TakingUndone s j t')
      ∧ ((∀ e l, (s.lease e).lease = some l → l.holder ≠ p) →
          ¬ ResetRemovesDirectory s p ∨ s.dirSlot = none →
          (∀ q, q ≠ p → t'.port q = s.port q)
          ∧ (∀ h, t'.record h =
              { s.record h with waiters := (s.record h).waiters.filter fun w => w.ticket.port != p })
          ∧ t' = { s with
                     ports := t'.ports, records := t'.records, watches := t'.watches
                     allocQueue := s.allocQueue.filter fun h =>
                       (s.record h).waiters.any fun w => w.ticket.port != p })
      ∧ t' = { s with
                 ports := t'.ports, records := t'.records, leases := t'.leases, buffers := t'.buffers
                 allocQueue := t'.allocQueue, queue := t'.queue, engine := t'.engine, dirSlot := t'.dirSlot
                 pageMap := t'.pageMap, watches := t'.watches }

/-- A placed request of an unknown kind, or with a body length other than its kind's, is answered MALFORMED in
READY; one of an unknown kind is answered NOT_READY in every other state (08, R142, R143). -/
def Obligations.UnknownRequestKindIsRefused : Prop :=
  ∀ (s : State) (p : Port) (t : Tag) (kind : Byte) (body : List Byte), Asks s p t kind body →
    (∀ k, toReqKind kind = some k → lengthRight k body.length = false) →
    (s.dev = .ready → exec (.unknownRequestKind p) s = .next (answered s p t .malformed []))
    ∧ (∀ k, toReqKind kind = some k → KindServed s.dev k →
        exec (.unknownRequestKind p) s = .next (answered s p t .malformed []))
    ∧ (s.dev ≠ .ready → (∀ k, toReqKind kind = some k → ¬ KindServed s.dev k) →
        exec (.unknownRequestKind p) s = .next (answered s p t .notReady []))

/-- FACTORY-CLEAR from the configuration port in READY or DAMAGED enters CLEARING with its own tag in the clear
slot. Every waiter and then the request of every unstarted job is answered CLEARED, in the order of `clearedTickets`;
the holder of every HELD lease gets LEASE_REVOKED, in ascending entry number; nothing waits, no lease is HELD, and of
the commit queue only the job in programming is left, with its lease. The taking of an unstarted directory job is
undone. When no job is in programming, drained is reported at once: watches, entries, generations and page map are
cleared and the bulk erase is issued (09, R165, R166; 03, R69; 05, R97; 01, R12). -/
def Obligations.FactoryClearEmptiesTheTables : Prop :=
  ∀ (s : State) (p : Port) (t : Tag) (serial : Nat), Placed s p t serial 0x43#8 [] → s.configPort = some p →
    s.dev = .ready ∨ s.dev = .damaged →
    ∃ t', exec (.factoryClear p) s = .next t' ∧ t'.dev = .clearing
      ∧ (∀ q, t'.port q =
          { posted ((handed s p).port q) (revocations s q) with
            slots := ((answeredAll (handed s p) .cleared (clearedTickets s)).port q).slots
            fifo := ((answeredAll (handed s p) .cleared (clearedTickets s)).port q).fifo })
      ∧ (∀ h, (t'.record h).waiters = []) ∧ t'.allocQueue = []
      ∧ (∀ e, (t'.lease e).issue = (s.lease e).issue)
      ∧ (∀ e, (s.lease e).lease = none → t'.lease e = s.lease e ∧ t'.buffer e = s.buffer e)
      ∧ (∀ e l, (s.lease e).lease = some l →
          (l.phase = .committing ∧ (s.queue.drop 1).any (Job.isRecordOf e) = false →
            t'.lease e = s.lease e ∧ t'.buffer e = s.buffer e)
          ∧ (l.phase = .held ∨ (s.queue.drop 1).any (Job.isRecordOf e) = true →
            (t'.lease e).lease = none ∧ t'.buffer e = ⟨List.replicate 240 0x00#8, false⟩))
      ∧ t'.queue = s.queue.take 1
      ∧ t' = { s with
                 dev := t'.dev, clear := t'.clear, ports := t'.ports, records := t'.records, leases := t'.leases
                 buffers := t'.buffers, allocQueue := t'.allocQueue, queue := t'.queue, dirSlot := t'.dirSlot
                 pageMap := t'.pageMap, watches := t'.watches, dirGen := t'.dirGen }
      ∧ (s.queue ≠ [] → t'.clear = some ⟨⟨p, t, serial⟩, .draining⟩ ∧ t'.watches = s.watches ∧ t'.dirGen = s.dirGen
          ∧ (∀ h, { t'.record h with
                      waiters := (s.record h).waiters, freezePending := (s.record h).freezePending,
                      retirePending := (s.record h).retirePending } = s.record h)
          ∧ (∀ j, (s.queue.drop 1).any Job.isDirectory = true → s.dirSlot = some j → TakingUndone s j t')
          ∧ ((s.queue.drop 1).any Job.isDirectory = false ∨ s.dirSlot = none →
              t'.dirSlot = s.dirSlot ∧ t'.pageMap = s.pageMap
              ∧ ∀ h, (t'.record h).freezePending = (s.record h).freezePending
                ∧ (t'.record h).retirePending = (s.record h).retirePending))
      ∧ (s.queue = [] → t'.clear = some ⟨⟨p, t, serial⟩, .erasing⟩ ∧ (∀ n, t'.watchAt n = none)
          ∧ (∀ h, t'.record h = RecState.blank) ∧ t'.dirGen = 0#32 ∧ t'.pageMap = some []
          ∧ t'.dirSlot = s.dirSlot)

/-- The job in programming runs to its end in CLEARING as at any time, and when its end leaves the commit queue empty
the drained report follows in the same event: watches, entries, generations and page map are cleared and the bulk
erase is issued. A record job at its commit point: its watches' notices are posted, its answer tag is answered, its
lease is freed and granted to nobody. A failed record job: STORE_FAULT is notified and answered (09, R166; 03, R69;
05, R90 to R92, R97). -/
def Obligations.JobEndInClearingReportsDrained : Prop :=
  (∀ (c : Instr) (s t : State) (tk : Ticket), c = .pageMatch ∨ c = .eraseEnd → s.clear = some ⟨tk, .draining⟩ →
    s.queue ≠ [] → exec c { s with clear := none } = .next t → t.queue = [] →
    exec c s = .next
      { t with
        clear := some ⟨tk, .erasing⟩, watches := Vector.replicate 16 none
        records := Vector.replicate 48 RecState.blank, dirGen := 0#32, pageMap := some [] })
  ∧ ∀ (s : State) (tk : Ticket) (e : EntryNo) (l : Lease) (h : Handle) (x : RecEntry) (c : Copy) (first pages : Nat)
      (gen : Word32) (q : Port) (u : Tag) (serial : Nat) (kind : Byte) (body : List Byte),
    s.clear = some ⟨tk, .draining⟩ → s.queue = [.record e h c first pages gen] → first < 2048 → Defined s h x →
    (s.lease e).lease = some l → l.handle = h → l.answer = some ⟨q, u, serial⟩ → NoneWaits s h →
    (s.port q).slots.get u = .pending serial kind body →
    (∀ retry, s.engine = .programming pages retry → 1 ≤ pages →
      (∀ y, (s.record h).active = some y → ¬ InRun ((x.size.toNat + 16 + 31) / 32) (x.firstPage y) first) →
      ∃ t, exec .pageMatch s = .next t
        ∧ t = { s with
                  store := t.store, ports := t.ports, queue := [], engine := .idle
                  leases := (freed s e).leases, buffers := (freed s e).buffers
                  clear := some ⟨tk, .erasing⟩, watches := Vector.replicate 16 none
                  records := Vector.replicate 48 RecState.blank, dirGen := 0#32, pageMap := some [] }
        ∧ ∀ r, t.port r =
            let y := posted (s.port r)
              (dueNotices s h l.holder gen (counterValue (s.committedData h))
                (counterValue ((s.buffer e).bytes.take x.size.toNat)) r)
            if r = q then
              { y with
                slots := y.slots.set u.val
                  (.done
                    (match l.form with
                      | .explicit => ⟨.ok, be4 gen⟩
                      | .implicit =>
                        ⟨if (s.buffer e).clamped then .saturated else .ok,
                          be4 (counterValue (s.buffer e).bytes) ++ be4 gen⟩)) u.isLt
                fifo := y.fifo ++ [u] }
            else y)
    ∧ (∀ pos failing, s.engine = .erasing pos failing →
      ∃ t, exec .eraseEnd s = .next t
        ∧ t = { s with
                  store := t.store, ports := t.ports, queue := [], engine := .idle
                  leases := (freed s e).leases, buffers := (freed s e).buffers
                  clear := some ⟨tk, .erasing⟩, watches := Vector.replicate 16 none
                  records := Vector.replicate 48 RecState.blank, dirGen := 0#32, pageMap := some [] }
        ∧ ∀ r, t.port r =
            let y := if s.configPort = some r then posted (s.port r) [.storeFault (.record h) failing gen] else s.port r
            if r = q then
              { y with slots := y.slots.set u.val (.done ⟨.storeFault, []⟩) u.isLt, fifo := y.fifo ++ [u] }
            else y)

/-- The end of the bulk erase: every byte of the store is FFh, no directory copy is active, the device is READY
with an empty clear slot, each port gets a READY notice, and the FACTORY-CLEAR is answered OK when its request
still holds its slot; nothing else changes (09, R167; 02, R27; 07, R128). -/
def Obligations.BulkEraseEndsTheClear : Prop :=
  ∀ (s : State) (p : Port) (t : Tag) (serial : Nat), s.clear = some ⟨⟨p, t, serial⟩, .erasing⟩ →
    ∃ t', exec .bulkEraseEnd s = .next t'
      ∧ (∀ a, Memory.read t'.store a = 0xFF#8)
      ∧ t' = { s with store := t'.store, activeDir := none, dev := .ready, clear := none, ports := t'.ports }
      ∧ (∀ q, q ≠ p → t'.port q = posted (s.port q) [.ready .ready])
      ∧ ((∃ kind body, (s.port p).slots.get t = .pending serial kind body) →
          t'.port p =
            { posted (s.port p) [.ready .ready] with
              slots := (s.port p).slots.set t.val (.done ⟨.ok, []⟩) t.isLt
              fifo := (s.port p).fifo ++ [t] })
      ∧ ((∀ kind body, (s.port p).slots.get t ≠ .pending serial kind body) →
          t'.port p = posted (s.port p) [.ready .ready])

/-! ### Expiries -/

/-- HOLD_EXPIRY of a HELD lease whose timer has run out frees it, discards its buffer and posts LEASE_EXPIRED with its
token and handle to its holder; nothing else changes when nothing waits for the entry. WAIT_EXPIRY of a waiting
ACQUIRE whose timer has run out takes it out of its wait queue, the others keeping their order, and
answers it TIMEOUT; a record left without waiters leaves the allocation queue, and nothing is granted. Neither is
taken while its timer has units left (03, R50, R57 to R59). That nothing then changes is log entry 4, and that the
sender chooses the moment after the timer has run out is log entry 3. -/
def Obligations.ExpiriesEndTheHoldOrTheWait : Prop :=
  (∀ (s : State) (e : EntryNo) (l : Lease), (s.lease e).lease = some l → l.phase = .held →
     l.timer = some 0 → NoneWaits s l.handle →
     exec (.holdExpiry e) s = .next
       ((freed s e).setPort l.holder
         (posted (s.port l.holder)
           [.leaseExpired ⟨BitVec.ofNat 8 (e.val + 1), (s.lease e).issue⟩ l.handle])))
  ∧ (∀ (s : State) (p : Port) (u : Tag) (h : Handle) (before after : List Waiter) (serial : Nat) (kind : Byte)
     (body : List Byte),
     (s.record h).waiters = before ++ ⟨⟨p, u, serial⟩, .acquire 0⟩ :: after →
     (∀ w, w ∈ before ++ after → ¬ (w.ticket.port = p ∧ w.ticket.tag = u)) →
     (∀ h', h' ≠ h → ∀ w, w ∈ (s.record h').waiters → ¬ (w.ticket.port = p ∧ w.ticket.tag = u)) →
     (s.port p).slots.get u = .pending serial kind body →
     exec (.waitExpiry p u) s = .next
       (completed
         { s.setWaiters h (before ++ after) with
           allocQueue := if before ++ after = [] then s.allocQueue.filter (fun k => k != h) else s.allocQueue }
         p u .timeout []))
  ∧ (∀ (s : State) (e : EntryNo) (l : Lease) (left : Nat), (s.lease e).lease = some l → l.timer = some (left + 1) →
     exec (.holdExpiry e) s = .next s)
  ∧ (∀ (s : State) (p : Port) (u : Tag), (∀ h w, w ∈ (s.record h).waiters →
       ¬ (w.ticket.port = p ∧ w.ticket.tag = u ∧ w.type = .acquire 0)) →
     exec (.waitExpiry p u) s = .next s)

/-! ### The Commit Engine -/

/-- A match of a data page of a record job: the page holds the buffer bytes that stand at its place, FFh past
the record's size, every other byte of the store is as before, and the next page is programmed (05, R87, R88,
R89; 02, R25, R28). -/
def Obligations.DataPageIsProgrammed : Prop :=
  ∀ (s : State) (e : EntryNo) (h : Handle) (x : RecEntry) (c : Copy) (first pages pos : Nat) (gen : Word32)
    (retry : Bool) (rest : List Job),
    s.engine = .programming pos retry → s.queue = .record e h c first pages gen :: rest → 1 ≤ pos → pos < pages →
    first + pos < 2048 → StoreCanonical s → Defined s h x → (s.buffer e).bytes.length = 240 → x.size.toNat ≤ 240 →
    ∃ t, exec .pageMatch s = .next t
      ∧ t = { s with store := t.store, engine := .programming (pos + 1) false }
      ∧ (∀ i, i < 32 → Memory.read t.store (32 * (first + pos) + i) =
          if 32 * pos - 16 + i < x.size.toNat then (s.buffer e).bytes.getD (32 * pos - 16 + i) 0x00#8 else 0xFF#8)
      ∧ (∀ a, a / 32 ≠ first + pos → Memory.read t.store a = Memory.read s.store a)

/-- A mismatch leaves its page indeterminate and every other byte of the store as it was: the first is followed
by a second program of the same page, the second by the erase of the target's header page, with the failing
page kept (05, R89, R90; 02, R25). -/
def Obligations.MismatchRetriesOnceThenFails : Prop :=
  ∀ (s : State) (j : Job) (rest : List Job) (pos : Nat) (retry : Bool),
    s.engine = .programming pos retry → s.queue = j :: rest → j.pageAt pos < 2048 →
    ∃ t, exec .pageMismatch s = .next t
      ∧ t = { s with
                store := t.store
                freeIndex := t.freeIndex
                engine := if retry then .erasing pos (j.pageAt pos) else .programming pos true }
      ∧ ∀ a, a / 32 ≠ j.pageAt pos → Memory.read t.store a = Memory.read s.store a

/-- A match of a page of a directory job: the page holds its 32 bytes of the directory copy of R39, made of the
current entries with the job's change applied, every other byte of the store is as before, and while pages are left
the next one is programmed. An entry read from the 16 bytes of its image is that entry (02, R39; 05, R89, R94). The
byte order of the directory header is the model's choice, log entry 25. -/
def Obligations.DirectoryPagesHoldTheDirectory : Prop :=
  (∀ x : Option RecEntry, readEntry (entryImage x) = x)
  ∧ ∀ (s : State) (k : DirKind) (c : Copy) (gen : Word32) (pos : Nat) (retry : Bool) (rest : List Job),
    s.engine = .programming pos retry → s.queue = .directory k c gen :: rest → 1 ≤ pos → pos ≤ 25 →
    StoreCanonical s →
    ∃ t, exec .pageMatch s = .next t
      ∧ (pos < 25 → t = { s with store := t.store, engine := .programming (pos + 1) false })
      ∧ (∀ i, i < 32 →
          Memory.read t.store (32 * ((match c with | .a => 0 | .b => 32) + pos % 25) + i) =
            (directoryImage gen (entriesWritten s gen)).getD (32 * (pos % 25) + i) 0xFF#8)
      ∧ (∀ a, a / 32 ≠ (match c with | .a => 0 | .b => 32) + pos % 25 →
          Memory.read t.store a = Memory.read s.store a)

/-- A copy whose last page, its header page, has matched is valid. After a record job the target copy holds the image
of R28 and R29, is valid for the record's entry, and its header carries the job's generation. After a directory job
whose entries are in range with runs apart the target region is VALID, at the job's generation, and its entries read
as they were written (02, R28 to R31, R34, R39 to R41). The byte order of the headers is the model's choice, log
entry 25. -/
def Obligations.FinishedCopyIsValid : Prop :=
  (∀ (s : State) (e : EntryNo) (h : Handle) (x : RecEntry) (c : Copy) (first pages : Nat) (gen : Word32) (retry : Bool)
      (rest : List Job) (data : List Byte),
    s.engine = .programming pages retry → s.queue = .record e h c first pages gen :: rest →
    pages = (x.size.toNat + 16 + 31) / 32 → first + pages ≤ 2048 → StoreCanonical s → Defined s h x →
    (s.buffer e).bytes.length = 240 → 1 ≤ x.size.toNat → x.size.toNat ≤ 240 →
    data = (s.buffer e).bytes.take x.size.toNat →
    (∀ i, 32 ≤ i → i < 32 * pages →
      Memory.read s.store (32 * first + i) = (recordImage h x gen data).getD i 0xFF#8) →
    ∃ t, exec .pageMatch s = .next t
      ∧ (∀ i, i < 32 * pages → Memory.read t.store (32 * first + i) = (recordImage h x gen data).getD i 0xFF#8)
      ∧ copyValid t.store h x first = true ∧ copyGen t.store first = gen
      ∧ Memory.readBytes t.store (32 * first + 16) x.size.toNat = data)
  ∧ ∀ (s : State) (k : DirKind) (c : Copy) (gen : Word32) (retry : Bool) (rest : List Job),
    s.engine = .programming 25 retry → s.queue = .directory k c gen :: rest → StoreCanonical s →
    (∀ x, some x ∈ entriesWritten s gen → entryInRange x = true) →
    allApart ((entriesWritten s gen).flatMap fun y => y.elim [] entryRuns) = true →
    (∀ i, 32 ≤ i → i < 784 →
      Memory.read s.store (32 * (match c with | .a => 0 | .b => 32) + i) =
        (directoryImage gen (entriesWritten s gen)).getD i 0xFF#8) →
    ∃ t, exec .pageMatch s = .next t ∧ regionCond t.store c = .valid ∧ regionGen t.store c = gen
      ∧ ∀ h : Handle, readEntry (slice (regionBytes t.store c) (16 + 16 * h.val) 16) =
          (entriesWritten s gen).getD h.val none

/-- A device reset during the job in programming, in a page program or in the fault erase, leaves the old contents or
the new ones, never a mixture and never another generation. A record job: the scan brings the record up with the copy
that was in force, or with the target copy at the job's generation. A directory job: the scan brings up the directory
that was in force, its entries as they stood, or the job's, its entries as they stood in its region or as the finished
page leaves them; while the first directory copy after an empty directory is programmed, the empty
directory, the job's, or DAMAGED (02, R26, R35, R36, R38, R41; 09, R159, R169). The hypotheses say that the copies in
the store, before the operation and with it finished, carry no other generation; the model allows another where an
earlier spoiled header page has turned valid, its choice of log entry 6. -/
def Obligations.InterruptedJobLeavesOldOrNew : Prop :=
  (∀ (c : Instr) (s : State) (e : EntryNo) (h : Handle) (x : RecEntry) (k r : Copy) (pages : Nat) (g gen : Word32)
      (rest : List Job) (page : Nat) (whole : List Byte),
    isDeviceReset c = true → (∀ y, s.clear = some y → y.phase = .draining) →
    s.queue = .record e h k (x.firstPage k) pages gen :: rest → s.pageInProgress = some (page, whole) →
    64 ≤ page → InRun pages (x.firstPage k) page → pages = (x.size.toNat + 16 + 31) / 32 →
    ¬ InRun pages (x.firstPage (other k)) page → g < gen →
    regionCond s.store r = .valid →
    (regionCond s.store (other r) ≠ .valid ∨ regionGen s.store (other r) < regionGen s.store r
      ∨ (regionGen s.store (other r) = regionGen s.store r ∧ r = .a)) →
    readEntry (slice (regionBytes s.store r) (16 + 16 * h.val) 16) = some x →
    ((copyValid s.store h x (x.firstPage (other k)) = true ∧ copyGen s.store (x.firstPage (other k)) = g)
      ∨ (copyValid s.store h x (x.firstPage (other k)) = false ∧ g = 0#32)) →
    (∀ m, m = s.store ∨ m = Memory.writePage s.store page whole → copyValid m h x (x.firstPage k) = true →
      copyGen m (x.firstPage k) < g ∨ copyGen m (x.firstPage k) = gen) →
    ∃ t, exec c s = .next t ∧ ∀ u, u.store = t.store → u.active = true → u.dev = .starting →
      ∃ v, exec .scanEnd u = .next v ∧ v.dev = .ready ∧ Defined v h x
        ∧ (((v.record h).gen = g
              ∧ (v.record h).active =
                  (if copyValid s.store h x (x.firstPage (other k)) = true then some (other k) else none)
              ∧ v.committedData h =
                  (if copyValid s.store h x (x.firstPage (other k)) = true
                  then Memory.readBytes s.store (32 * x.firstPage (other k) + 16) x.size.toNat
                  else List.replicate x.size.toNat 0x00#8))
          ∨ ((v.record h).gen = gen ∧ (v.record h).active = some k
              ∧ ∃ m, (m = s.store ∨ m = Memory.writePage s.store page whole)
                  ∧ v.committedData h = Memory.readBytes m (32 * x.firstPage k + 16) x.size.toNat)))
  ∧ (∀ (c : Instr) (s : State) (d : DirKind) (k : Copy) (g gen : Word32) (rest : List Job) (page : Nat)
      (whole : List Byte),
    isDeviceReset c = true → (∀ y, s.clear = some y → y.phase = .draining) →
    s.queue = .directory d k gen :: rest → s.pageInProgress = some (page, whole) →
    InRun 25 (match k with | .a => 0 | .b => 32) page → g < gen →
    (∀ m, m = s.store ∨ m = Memory.writePage s.store page whole → regionCond m k = .valid →
      regionGen m k < g ∨ regionGen m k = gen) →
    (regionCond s.store (other k) = .valid → regionGen s.store (other k) = g →
      ∃ t, exec c s = .next t ∧ ∀ u, u.store = t.store → u.active = true → u.dev = .starting →
        ∃ v, exec .scanEnd u = .next v ∧ v.dev = .ready
          ∧ ((v.activeDir = some (other k) ∧ v.dirGen = g ∧ EntriesRead v s.store (other k))
            ∨ (v.activeDir = some k ∧ v.dirGen = gen
                ∧ ∃ m, (m = s.store ∨ m = Memory.writePage s.store page whole) ∧ EntriesRead v m k)))
    ∧ (regionCond s.store (other k) = .erased → g = 0#32 →
      ∃ t, exec c s = .next t ∧ ∀ u, u.store = t.store → u.active = true → u.dev = .starting →
        ∃ v, exec .scanEnd u = .next v
          ∧ ((v.dev = .ready ∧ v.activeDir = none ∧ v.dirGen = 0#32 ∧ ∀ h, (v.record h).entry = none)
            ∨ (v.dev = .ready ∧ v.activeDir = some k ∧ v.dirGen = gen
                ∧ ∃ m, (m = s.store ∨ m = Memory.writePage s.store page whole) ∧ EntriesRead v m k)
            ∨ v.dev = .damaged)))

/-- The commit point of a record job with nothing waiting for its entry, outside CLEARING: the target copy is
active at the job's generation and its header page holds the copy header of R29 and data bytes 0 to 15; the
entry is freed; its answer tag is answered OK with the generation, or, for an ADD, with the new value and the
generation, SATURATED when the buffer is marked clamped; the next job starts (05, R92, R93; 02, R29, R34; 03,
R64). R29 gives the header's define stamp, generation and data check no byte order: that the most significant byte
of each stands first is the model's choice, log entry 25. -/
def Obligations.RecordCommitPointTakesEffect : Prop :=
  ∀ (s : State) (e : EntryNo) (l : Lease) (h : Handle) (x : RecEntry) (c : Copy) (first pages : Nat) (gen : Word32)
    (retry : Bool) (rest : List Job) (q : Port) (u : Tag) (serial : Nat) (kind : Byte) (body : List Byte),
    s.engine = .programming pages retry → s.queue = .record e h c first pages gen :: rest → 1 ≤ pages →
    first < 2048 → StoreCanonical s → Defined s h x → (s.buffer e).bytes.length = 240 → 1 ≤ x.size.toNat →
    x.size.toNat ≤ 240 →
    (s.lease e).lease = some l → l.handle = h → l.answer = some ⟨q, u, serial⟩ → NoneWaits s h →
    s.clear = none → (s.port q).slots.get u = .pending serial kind body →
    ∃ t, exec .pageMatch s = .next t
      ∧ t = { s.setRecord h { s.record h with active := some c, gen := gen } with
                store := t.store, ports := t.ports, queue := rest, engine := engineFor rest
                leases := (freed s e).leases, buffers := (freed s e).buffers }
      ∧ Memory.readBytes t.store (32 * first) 16 =
          ([handleByte h, x.size] ++ be4 x.stamp ++ be4 gen ++ be2 (crc16 ((s.buffer e).bytes.take x.size.toNat))
            ++ [0x00#8, 0x00#8, 0x00#8])
          ++ [crc8 ([handleByte h, x.size] ++ be4 x.stamp ++ be4 gen
                ++ be2 (crc16 ((s.buffer e).bytes.take x.size.toNat)) ++ [0x00#8, 0x00#8, 0x00#8])]
      ∧ (∀ i, i < 16 → Memory.read t.store (32 * first + 16 + i) =
          if i < x.size.toNat then (s.buffer e).bytes.getD i 0x00#8 else 0xFF#8)
      ∧ (∀ a, a / 32 ≠ first → Memory.read t.store a = Memory.read s.store a)
      ∧ (∀ r, (t.port r).fifo = if r = q then (s.port q).fifo ++ [u] else (s.port r).fifo)
      ∧ (∀ r v, (t.port r).slots.get v =
          if r = q ∧ v = u then
            .done
              (match l.form with
                | .explicit => ⟨.ok, be4 gen⟩
                | .implicit =>
                  ⟨if (s.buffer e).clamped then .saturated else .ok, (s.buffer e).bytes.take 4 ++ be4 gen⟩)
          else (s.port r).slots.get v)

/-- The watches of a record at its commit point: each port gets, in ascending watch number, the CHANGED and
THRESHOLD notices of its watches that pass the self test and the mode test, and no other notice; the old value
is that of the copy that was active, the new one that of the staging buffer (06, R110 to R113, R117). -/
def Obligations.CommitPointPostsWatchNotices : Prop :=
  ∀ (s : State) (e : EntryNo) (l : Lease) (h : Handle) (x : RecEntry) (c : Copy) (first pages : Nat) (gen : Word32)
    (retry : Bool) (rest : List Job),
    s.engine = .programming pages retry → s.queue = .record e h c first pages gen :: rest → first < 2048 →
    1 ≤ pages → Defined s h x → (s.lease e).lease = some l → l.handle = h →
    (∀ y, (s.record h).active = some y → ¬ InRun ((x.size.toNat + 16 + 31) / 32) (x.firstPage y) first) →
    ∃ t, exec .pageMatch s = .next t
      ∧ ∀ q, (t.port q).notices =
            (posted (s.port q)
              (dueNotices s h l.holder gen (counterValue (s.committedData h))
                (counterValue ((s.buffer e).bytes.take x.size.toNat)) q)).notices
          ∧ (t.port q).lost =
            (posted (s.port q)
              (dueNotices s h l.holder gen (counterValue (s.committedData h))
                (counterValue ((s.buffer e).bytes.take x.size.toNat)) q)).lost

/-- The end of the fault erase of a record job with nothing waiting for its entry, outside CLEARING: the header
page of the target is erased, the fault count rises by 1 up to 255, the configuration port gets a STORE_FAULT
notice, the entry is freed and its answer tag answered STORE_FAULT; the active copy and the committed
generation stand, and the next job starts (01, R3; 02, R36; 03, R65; 05, R90, R91, R93). -/
def Obligations.RecordStoreFaultKeepsOldData : Prop :=
  ∀ (s : State) (e : EntryNo) (l : Lease) (h : Handle) (c : Copy) (first pages pos failing : Nat) (gen : Word32)
    (rest : List Job) (q : Port) (u : Tag) (serial : Nat) (kind : Byte) (body : List Byte),
    s.engine = .erasing pos failing → s.queue = .record e h c first pages gen :: rest → first < 2048 →
    StoreCanonical s → (s.lease e).lease = some l → l.handle = h → l.answer = some ⟨q, u, serial⟩ →
    NoneWaits s h → s.clear = none → (s.port q).slots.get u = .pending serial kind body →
    ∃ t, exec .eraseEnd s = .next t
      ∧ t = { s.setRecord h
                { s.record h with
                  faultCount := if (s.record h).faultCount = 255#8 then 255#8 else (s.record h).faultCount + 1#8 } with
                store := t.store, ports := t.ports, queue := rest, engine := engineFor rest
                leases := (freed s e).leases, buffers := (freed s e).buffers }
      ∧ (∀ a, Memory.read t.store a = if a / 32 = first then 0xFF#8 else Memory.read s.store a)
      ∧ (∀ r, t.port r =
          let x := if s.configPort = some r then posted (s.port r) [.storeFault (.record h) failing gen] else s.port r
          if r = q then
            { x with slots := x.slots.set u.val (.done ⟨.storeFault, []⟩) u.isLt, fifo := x.fifo ++ [u] }
          else x)

/-- A directory job that ends without its commit point: what its taking changed is undone, and the waiters of a
FREEZE's record are eligible again, as `WaitersEligible` says. At a store fault the target's header page is erased,
the configuration port gets a STORE_FAULT notice, the request is answered STORE_FAULT after the response of a grant,
and the next job starts; directory, entries and watches stand. At a PORT-RESET of the configuration port, after the
port's leases, the unstarted job leaves the commit queue with no response (01, R9, R12, R14, R16, R18, R21; 02, R41;
03, R66, R67; 05, R90, R91, R93, R96). -/
def Obligations.DirectoryJobWithoutCommitIsUndone : Prop :=
  ∀ (s : State) (j : DirJob), s.dirSlot = some j →
    (∀ k c gen pos failing rest, s.engine = .erasing pos failing → s.queue = .directory k c gen :: rest →
      s.clear = none → StoreCanonical s →
      ∃ s0 t', s0 = { s with
                        store := s0.store, ports := s0.ports, queue := rest, dirSlot := none
                        records := s0.records, pageMap := s0.pageMap }
        ∧ (∀ a, Memory.read s0.store a =
            if a / 32 = (match c with | .a => 0 | .b => 32) then 0xFF#8 else Memory.read s.store a)
        ∧ (∀ r, s0.port r =
            if s.configPort = some r then posted (s.port r) [.storeFault .directory failing gen] else s.port r)
        ∧ (∀ h, s0.record h = undoneRecord j h (s.record h)) ∧ TakingUndone s j s0 ∧ WaitersEligible s0 j t'
        ∧ exec .eraseEnd s = .next { answeredIf t' j.ticket .storeFault [] with engine := engineFor t'.queue })
    ∧ (∀ p t, Asks s p t 0x42#8 [] → ResetRemovesDirectory s p →
      ∃ s1 s0 t', LeasesReset s p t s1
        ∧ s0 = { s1 with
                   records := s0.records, dirSlot := none, pageMap := s0.pageMap
                   queue := s1.queue.take 1 ++ (s1.queue.drop 1).filter fun y => !Job.isDirectory y }
        ∧ (∀ h, s0.record h = undoneRecord j h (s1.record h))
        ∧ TakingUndone s1 j s0 ∧ WaitersEligible s0 j t' ∧ exec (.portReset p) s = .next t')

/-- The commit point of a directory job outside CLEARING: its region is active and the directory generation is the
job's, the slot is empty, and the operation takes effect: DEFINE makes the entry with the new generation as its
define stamp, no active copy and generation 0, its pages IN USE; RETIRE removes the entry, frees its pages, removes
its watches and posts one RETIRED notice to each port that had one, counted as lost by a full queue. The request is
answered OK with the new generation (01, R14, R16; 02, R41; 05, R95; 06, R107, R117). -/
def Obligations.DefineAndRetireCommitPoints : Prop :=
  ∀ (s : State) (j : DirJob) (k : DirKind) (c : Copy) (gen : Word32) (retry : Bool) (rest : List Job)
    (m : List (Nat × PageCond)) (x : RecEntry) (kind : Byte) (body : List Byte),
    s.engine = .programming 25 retry → s.queue = .directory k c gen :: rest → s.dirSlot = some j →
    s.clear = none → s.pageMap = some m → sparseWf .free 0 4096 m = true →
    (s.port j.ticket.port).slots.get j.ticket.tag = .pending j.ticket.serial kind body →
    (j.op = .define x ∨ (j.op = .retire ∧ Defined s j.handle x)) →
    ∃ t, exec .pageMatch s = .next t
      ∧ t.activeDir = some c ∧ t.dirGen = gen ∧ t.dirSlot = none ∧ t.queue = rest ∧ t.engine = engineFor rest
      ∧ t.record j.handle =
          (if j.op = .retire then RecState.blank
          else { entry := some { x with stamp := gen }, freezePending := false, retirePending := false,
                 faultCount := 0#8, active := none, gen := 0#32, waiters := [] })
      ∧ (∀ h, h ≠ j.handle → t.record h = s.record h)
      ∧ (∃ m', t.pageMap = some m' ∧ ∀ page, pageCond m' page =
          if InRun (pagesPerCopy x.size.toNat) x.pageA.val page
            ∨ InRun (pagesPerCopy x.size.toNat) x.pageB.val page then
            (if j.op = .retire then .free else .inUse)
          else pageCond m page)
      ∧ (t.port j.ticket.port).slots.get j.ticket.tag = .done ⟨.ok, be4 gen⟩
      ∧ (∀ n, t.watchAt n =
          match s.watchAt n with
          | some w => if j.op = .retire ∧ w.handle = j.handle then none else some w
          | none => none)
      ∧ (∀ q, ∃ ns,
          ((j.op = .retire ∧ ∃ n w, s.watchAt n = some w ∧ w.port = q ∧ w.handle = j.handle) →
            ns = [.retired j.handle])
          ∧ (¬ (j.op = .retire ∧ ∃ n w, s.watchAt n = some w ∧ w.port = q ∧ w.handle = j.handle) → ns = [])
          ∧ t.port q = posted ((answeredIf s j.ticket .ok (be4 gen)).port q) ns)
      ∧ t.leases = s.leases ∧ t.buffers = s.buffers ∧ t.allocQueue = s.allocQueue

/-- The commit points of SET-RIGHTS and FREEZE outside CLEARING. SET-RIGHTS: the new rights stand, the watches of
ports without WATCH go with no notice, the waiters of ports without UPDATE are answered DENIED, from the head, and
are gone, a record left without waiters leaves the allocation queue, and the leases run on. FREEZE: frozen is yes,
freeze pending no, and every waiter is answered FROZEN, from the head. In both no other field of the entry changes,
the generation and the active copy stand, and the request is answered OK with the directory generation after those
answers (01, R18, R20; 06, R108; 03, R66; 07, R129). -/
def Obligations.SetRightsAndFreezeCommitPoints : Prop :=
  ∀ (s : State) (j : DirJob) (k : DirKind) (c : Copy) (gen : Word32) (retry : Bool) (rest : List Job)
    (x : RecEntry) (r : PerPort Rights) (kind : Byte) (body : List Byte),
    s.engine = .programming 25 retry → s.queue = .directory k c gen :: rest → s.dirSlot = some j →
    s.clear = none → Defined s j.handle x → j.op = .setRights r ∨ j.op = .freeze →
    (s.port j.ticket.port).slots.get j.ticket.tag = .pending j.ticket.serial kind body →
    (∀ w, w ∈ (s.record j.handle).waiters → ¬ (w.ticket.port = j.ticket.port ∧ w.ticket.tag = j.ticket.tag)) →
    ∃ t, exec .pageMatch s = .next t
      ∧ t.activeDir = some c ∧ t.dirGen = gen ∧ t.dirSlot = none ∧ t.queue = rest ∧ t.engine = engineFor rest
      ∧ t.record j.handle =
          (if j.op = .freeze then
            { s.record j.handle with entry := some { x with frozen := true }, freezePending := false, waiters := [] }
          else
            { s.record j.handle with
              entry := some { x with rights := r }
              waiters := (s.record j.handle).waiters.filter fun w => (r.get w.ticket.port).update })
      ∧ (∀ h, h ≠ j.handle → t.record h = s.record h)
      ∧ (∀ n, t.watchAt n =
          match s.watchAt n with
          | some w =>
            if j.op = .setRights r ∧ w.handle = j.handle ∧ (r.get w.port).watch = false then none else some w
          | none => none)
      ∧ (t.port j.ticket.port).slots.get j.ticket.tag = .done ⟨.ok, be4 gen⟩
      ∧ t.ports =
          (answeredIf
            (answeredAll s (if j.op = .freeze then .frozen else .denied)
              (((s.record j.handle).waiters.filter fun w => j.op = .freeze || !(r.get w.ticket.port).update).map
                fun w => w.ticket))
            j.ticket .ok (be4 gen)).ports
      ∧ t.allocQueue =
          (if j.op ≠ .freeze ∧ ∀ w ∈ (s.record j.handle).waiters, (r.get w.ticket.port).update = false
          then s.allocQueue.filter fun h => h != j.handle else s.allocQueue)
      ∧ t.leases = s.leases ∧ t.buffers = s.buffers ∧ t.pageMap = s.pageMap

/-! ### Admission -/

/-- The first check that fails answers a request, and a refused request changes nothing but its own slot: NOT_READY
for a kind that the device state does not serve; DENIED for a configuration kind from another port; in READY,
NO_RECORD alike for a handle above 47, an undefined handle and a record that the port cannot see, for INQUIRE and the
directory kinds of the configuration port for the first two, and for DEFINE for the first alone; DENIED for a missing
right; FROZEN for an ACQUIRE or ADD of a frozen record, with or without a token; RANGE for a field out of range, and
then WRONG_KIND for an ADD or a RISE or FALL watch of a PLAIN record. A READ or ADD whose token is not live for the
port, or is live for a lease on another record, is judged against the current rights as with token 0. The clause for an
ADD with a live token on a frozen record is for states that no run reaches (R146) (08, R141 to R149; 01, R5, R13; 10,
R170). -/
def Obligations.AdmissionRefusesInOrder : Prop :=
  ∀ (s : State) (p : Port) (tk : Ticket) (r : Req), s.oldestRequest p = some (tk, r) →
    (¬ KindServed s.dev r.kind →
      exec (commandOf p r) s = .next (answered s p tk.tag .notReady []))
    ∧ (KindServed s.dev r.kind → s.configPort ≠ some p →
        r.kind ∈ [ReqKind.define, .retire, .setRights, .freeze, .factoryClear] →
        exec (commandOf p r) s = .next (answered s p tk.tag .denied []))
    ∧ (s.dev = .ready → ∀ b, JudgedByCurrent s p b r →
        (48 ≤ b.toNat ∨ ∀ h : Handle, h.val = b.toNat → ∀ x, Defined s h x → ¬ Sees x p) →
        exec (commandOf p r) s = .next (answered s p tk.tag .noRecord []))
    ∧ (s.dev = .ready → ∀ b (h : Handle) x, JudgedByCurrent s p b r → h.val = b.toNat → Defined s h x → Sees x p →
        ((∃ k o n, r = .read b k o n ∧ (x.rights.get p).read = false)
          ∨ (∃ w, r = .acquire b w ∧ (x.rights.get p).update = false)
          ∨ (∃ k d, r = .add b k d ∧ (x.rights.get p).update = false)
          ∨ (∃ m th f, r = .watch b m th f ∧ (x.rights.get p).watch = false)) →
        exec (commandOf p r) s = .next (answered s p tk.tag .denied []))
    ∧ (s.dev = .ready → ∀ b (h : Handle) x, JudgedByCurrent s p b r → h.val = b.toNat → Defined s h x →
        x.frozen = true → (x.rights.get p).update = true →
        ((∃ w, r = .acquire b w) ∨ ∃ k d, r = .add b k d) →
        exec (commandOf p r) s = .next (answered s p tk.tag .frozen []))
    ∧ (s.dev = .ready → ∀ b, r = .inquire b →
        (48 ≤ b.toNat ∨ ∀ h : Handle, h.val = b.toNat → ∀ x, Defined s h x → s.configPort ≠ some p ∧ ¬ Sees x p) →
        exec (.inquire p) s = .next (answered s p tk.tag .noRecord []))
    ∧ (s.dev = .ready → s.configPort = some p → ∀ f, r = .define f → 48 ≤ f.handle.toNat →
        exec (.define p) s = .next (answered s p tk.tag .noRecord []))
    ∧ (s.dev = .ready → s.configPort = some p → ∀ b, changesEntry b r →
        (48 ≤ b.toNat ∨ ∀ h : Handle, h.val = b.toNat → (s.record h).entry = none) →
        exec (commandOf p r) s = .next (answered s p tk.tag .noRecord []))
    ∧ (s.dev = .ready → ∀ b entry count d e l x, r = .add b ⟨entry, count⟩ d → Live s p entry count e l →
        l.handle.val = b.toNat → l.grantRights.update = true → Defined s l.handle x → x.frozen = true →
        exec (.addWithToken p) s = .next (answered s p tk.tag .frozen []))
    ∧ (s.dev = .ready → ∀ b entry count o n (h : Handle) x, r = .read b ⟨entry, count⟩ o n → h.val = b.toNat →
        Defined s h x →
        ((∀ e l, Live s p entry count e l → l.handle ≠ h) ∧ (x.rights.get p).read = true
          ∨ ∃ e l, Live s p entry count e l ∧ l.handle = h ∧ l.grantRights.read = true) →
        (n.toNat = 0 ∨ 32 < n.toNat ∨ x.size.toNat < o.toNat + n.toNat) →
        exec (commandOf p r) s = .next (answered s p tk.tag .range []))
    ∧ (s.dev = .ready → ∀ entry count o d, r = .stage ⟨entry, count⟩ o d → 239 < o.toNat →
        (∀ e l, Live s p entry count e l → l.grantRights.update = true) →
        exec (.stage p) s = .next (answered s p tk.tag .range []))
    ∧ (s.dev = .ready → ∀ b, r = .cancel b → 3 < b.toNat →
        exec (.cancel p) s = .next (answered s p tk.tag .range []))
    ∧ (s.dev = .ready → ∀ b m th f (h : Handle) x, r = .watch b m th f → h.val = b.toNat → Defined s h x →
        (x.rights.get p).watch = true →
        ((m = 0x00#8 ∨ 3 < m.toNat ∨ 1 < f.toNat →
          exec (.watch p) s = .next (answered s p tk.tag .range []))
        ∧ (m = 0x02#8 ∨ m = 0x03#8 → f.toNat ≤ 1 → x.kind = .plain →
          exec (.watch p) s = .next (answered s p tk.tag .wrongKind []))))
    ∧ (s.dev = .ready → s.configPort = some p → ∀ f, r = .define f → f.handle.toNat < 48 →
        (¬ ((f.kind = 0x01#8 ∧ 1 ≤ f.size.toNat ∧ f.size.toNat ≤ 240) ∨ (f.kind = 0x02#8 ∧ f.size = 0x04#8))
          ∨ f.holdLimit = 0x00#8 ∨ (∃ c ∈ be4 f.label, c.toNat < 0x20 ∨ 0x7E < c.toNat)
          ∨ ∃ q, 8 ≤ (f.rights.get q).toNat) →
        exec (.define p) s = .next (answered s p tk.tag .range []))
    ∧ (s.dev = .ready → s.configPort = some p → ∀ b rs (h : Handle) x, r = .setRights b rs → h.val = b.toNat →
        Defined s h x → (∃ q, 8 ≤ (rs.get q).toNat) →
        exec (.setRights p) s = .next (answered s p tk.tag .range []))
    ∧ (s.dev = .ready → ∀ b entry count d (h : Handle) x, r = .add b ⟨entry, count⟩ d → h.val = b.toNat →
        Defined s h x → x.frozen = false → x.kind = .plain →
        ((∀ e l, Live s p entry count e l → l.handle ≠ h) ∧ (x.rights.get p).update = true
          ∨ ∃ e l, Live s p entry count e l ∧ l.handle = h ∧ l.grantRights.update = true) →
        exec (commandOf p r) s = .next (answered s p tk.tag .wrongKind []))

/-- In READY a STAGE, COMMIT, RELEASE or RENEW whose token is not live for the port is answered LEASE_GONE, and so is
a READ or ADD that passes admission with a token other than token 0 that is not live for the port or names a lease on
another record.
STAGE, COMMIT, RELEASE, RENEW and ADD on a lease that is COMMITTING are answered BUSY; a READ with a token on a lease
whose grant rights lack READ is answered DENIED. Nothing else changes (03, R44, R47; 04, R74, R75, R78; 08, R146,
R147). -/
def Obligations.TokenCheckGuardsTheLease : Prop :=
  (∀ (s : State) (p : Port) (tk : Ticket) (r : Req) (entry count : Byte), s.oldestRequest p = some (tk, r) →
     s.dev = .ready →
     ((∃ o d, r = .stage ⟨entry, count⟩ o d ∧ o.toNat ≤ 239) ∨ r = .commit ⟨entry, count⟩
       ∨ r = .release ⟨entry, count⟩ ∨ r = .renew ⟨entry, count⟩) →
     ((∀ e l, ¬ Live s p entry count e l) →
       exec (commandOf p r) s = .next (answered s p tk.tag .leaseGone []))
     ∧ (∀ e l, Live s p entry count e l → l.grantRights.update = true → l.phase = .committing →
       exec (commandOf p r) s = .next (answered s p tk.tag .busy [])))
  ∧ (∀ (s : State) (p : Port) (tk : Ticket) (r : Req) (b entry count : Byte) (h : Handle) (x : RecEntry),
     s.oldestRequest p = some (tk, r) → s.dev = .ready → h.val = b.toNat → Defined s h x →
     ¬ (entry = 0x00#8 ∧ count = 0x00#8) →
     (∀ o n, r = .read b ⟨entry, count⟩ o n →
       ((∀ e l, Live s p entry count e l → l.handle ≠ h) → (x.rights.get p).read = true → 1 ≤ n.toNat →
         n.toNat ≤ 32 → o.toNat + n.toNat ≤ x.size.toNat →
         exec (.readWithToken p) s = .next (answered s p tk.tag .leaseGone []))
       ∧ (∀ e l, Live s p entry count e l → l.handle = h → l.grantRights.update = true →
         l.grantRights.read = false →
         exec (.readWithToken p) s = .next (answered s p tk.tag .denied [])))
     ∧ (∀ d, r = .add b ⟨entry, count⟩ d → x.kind = .counter → x.frozen = false →
       ((∀ e l, Live s p entry count e l → l.handle ≠ h) → (x.rights.get p).update = true →
         exec (.addWithToken p) s = .next (answered s p tk.tag .leaseGone []))
       ∧ (∀ e l, Live s p entry count e l → l.handle = h → l.grantRights.update = true → l.phase = .committing →
         exec (.addWithToken p) s = .next (answered s p tk.tag .busy []))))

/-! ### Rules of the whole machine -/

/-- Counter arithmetic: the four data bytes are an unsigned number, most significant byte first; the exact sum
with the signed delta is clamped at 0 and at 4,294,967,295, and only then is it clamped; ADD with a token applies
it to the staged value, the implicit load to the committed value (04, R77). -/
def Obligations.CounterArithmeticIsExactAndClamped : Prop :=
  (∀ (b0 b1 b2 b3 : Byte) (rest : List Byte),
    (counterValue (b0 :: b1 :: b2 :: b3 :: rest)).toNat =
      b0.toNat * 16777216 + b1.toNat * 65536 + b2.toNat * 256 + b3.toNat)
  ∧ (∀ value delta : Word32,
      let sum : Int := (value.toNat : Int) + delta.toInt
      (sum < 0 → addDelta value delta = (0#32, true))
      ∧ (0 ≤ sum → sum ≤ 4294967295 →
          ((addDelta value delta).1.toNat : Int) = sum ∧ (addDelta value delta).2 = false)
      ∧ (4294967295 < sum → addDelta value delta = (4294967295#32, true)))
  ∧ (∀ (s : State) (tk : Ticket) (delta : Word32) (e : EntryNo) (l : Lease), l.phase = .held →
      ((takeTokenAdd tk delta e l s).buffer e).bytes =
        be4 (addDelta (counterValue (s.buffer e).bytes) delta).1 ++ (s.buffer e).bytes.drop 4)
  ∧ (∀ (s : State) (tk : Ticket) (delta : Word32) (e : EntryNo) (h : Handle),
      (grantImplicit e h tk delta s).buffer e =
        ⟨be4 (addDelta (counterValue (s.committedData h)) delta).1 ++ List.replicate 236 0x00#8,
          (addDelta (counterValue (s.committedData h)) delta).2⟩)

/-- The store changes at page programs, page erases, the bulk erase and the device resets that interrupt them,
and at no other command; a record's active copy and committed generation change at commit points, at the scan,
at factory clear and at device reset, and at no other command (02, R23, R32, R38). The model's choices: a page changes
at the outcome of its operation, so a command that starts a page program leaves the store (log entry 19), and none of
these commands stops (log entry 15). -/
def Obligations.StoreChangesOnlyAtItsEvents : Prop :=
  (∀ (c : Instr) (s : State), changesPages c = false → ∃ t, exec c s = .next t ∧ t.store = s.store)
  ∧ ∀ (c : Instr) (s t : State), changesStoreState c = false → exec c s = .next t →
    ∀ h, (t.record h).active = (s.record h).active ∧ (t.record h).gen = (s.record h).gen

/-- The device state changes at the events of R155 and at no others, and the straps at power-up and RESETn release
alone (09, R155; 07, R119). That STARTING stands already at the loss of power and at the assertion of RESETn is the
model's choice, log entry 8. -/
def Obligations.DeviceStateAndStrapsChangeAtTheirEvents : Prop :=
  ∀ (c : Instr) (s t : State), exec c s = .next t →
    (t.dev ≠ s.dev →
      (isDeviceReset c = true ∧ t.dev = .starting)
        ∨ (c = .scanEnd ∧ s.dev = .starting ∧ (t.dev = .ready ∨ t.dev = .damaged))
        ∨ ((∃ p, c = .factoryClear p) ∧ (s.dev = .ready ∨ s.dev = .damaged) ∧ t.dev = .clearing)
        ∨ (c = .bulkEraseEnd ∧ t.dev = .ready ∧ s.clear ≠ none))
    ∧ (t.straps ≠ s.straps → (∃ x, c = .powerUp x ∧ t.straps = x) ∨ ∃ x, c = .resetnRelease x ∧ t.straps = x)

/-! ### Invariants that every step keeps -/

/-- Every step keeps the store in canonical form. -/
def Obligations.EveryStepKeepsStoreCanonical : Prop :=
  ∀ s t : State, StoreCanonical s → step s = .next t → StoreCanonical t

/-- Every step keeps, at every port, the completion FIFO equal to the DONE slots, each tag once (07, R127, R129),
and the notice queue at 8 notices or fewer, full while the lost count is above 0 (06, R116 to R118). -/
def Obligations.EveryStepKeepsPortQueues : Prop :=
  ∀ s t : State, FifosMatch s → AllNoticesBounded s → step s = .next t → FifosMatch t ∧ AllNoticesBounded t

/-- Every step keeps the page runs of all copies and of a pending DEFINE pairwise disjoint and within pages 64
to 2047 (02, R24; 01, R7). -/
def Obligations.EveryStepKeepsRunsDisjoint : Prop :=
  ∀ s t : State, RunsDisjoint s → step s = .next t → RunsDisjoint t

/-- Every step keeps at most one lease on a record, and the queues in agreement with the lease table (03, R48,
R51). -/
def Obligations.EveryStepKeepsLeasesConsistent : Prop :=
  ∀ s t : State, LeasesConsistent s → step s = .next t → LeasesConsistent t
end

