-- ==== Sys2Proof/Laws/Memory.lean ====
section
/-! SUPPORT. The laws of the sparse table and of the store: a read after a write, and the canonical form that
every memory operation keeps. -/

namespace Sys2Proof.Machine

/-! ### The sparse table -/

section Sparse

variable {α : Type} [DecidableEq α] {d : α}

/-- A write leaves every other key alone, whatever the form of the table. -/
theorem sparseGet_put_ne (m : List (Nat × α)) {a b : Nat} (v : α) (h : b ≠ a) :
    sparseGet d (sparsePut d m a v) b = sparseGet d m b := by
  induction m with
  | nil => simp only [sparsePut]; split <;> simp [sparseGet, h]
  | cons c rest ih =>
    obtain ⟨k, w⟩ := c
    simp only [sparsePut]
    split
    · split <;> simp [sparseGet, h]
    · split
      · rename_i hk
        subst hk
        split <;> simp [sparseGet, h]
      · simp [sparseGet, ih]

/-- A key below every listed key reads as the default. -/
theorem sparseGet_below (m : List (Nat × α)) {lo hi a : Nat} (hm : sparseWf d lo hi m = true) (h : a < lo) :
    sparseGet d m a = d := by
  induction m generalizing lo with
  | nil => rfl
  | cons c rest ih =>
    obtain ⟨k, w⟩ := c
    simp only [sparseWf, Bool.and_eq_true, decide_eq_true_eq] at hm
    have hk : a ≠ k := by omega
    simp only [sparseGet, if_neg hk]
    exact ih hm.2 (by omega)

/-- A read of the key just written gives the value written, on a table in canonical form. -/
theorem sparseGet_put_same (m : List (Nat × α)) {lo hi : Nat} (a : Nat) (v : α) (hm : sparseWf d lo hi m = true) :
    sparseGet d (sparsePut d m a v) a = v := by
  induction m generalizing lo with
  | nil => simp only [sparsePut]; split <;> simp_all [sparseGet]
  | cons c rest ih =>
    obtain ⟨k, w⟩ := c
    have hw := hm
    simp only [sparseWf, Bool.and_eq_true, decide_eq_true_eq] at hm
    simp only [sparsePut]
    split
    · rename_i hk
      have hbelow : sparseGet d rest a = d := sparseGet_below rest hm.2 (by omega)
      split
      · simp_all [sparseGet, Nat.ne_of_lt hk]
      · simp [sparseGet]
    · split
      · rename_i hk
        split
        · rename_i hv
          rw [hv, hk]
          exact sparseGet_below rest hm.2 (by omega)
        · simp [sparseGet, hk]
      · rename_i hk
        simp only [sparseGet, if_neg hk]
        exact ih hm.2

/-- A read after a write on a table in canonical form. -/
theorem sparseGet_put (m : List (Nat × α)) {lo hi : Nat} (a b : Nat) (v : α) (hm : sparseWf d lo hi m = true) :
    sparseGet d (sparsePut d m a v) b = if b = a then v else sparseGet d m b := by
  split
  · rename_i h
    rw [h]
    exact sparseGet_put_same m a v hm
  · rename_i h
    exact sparseGet_put_ne m v h

/-- The bound below may be lowered. -/
theorem sparseWf_mono (m : List (Nat × α)) {lo lo' hi : Nat} (h : lo' ≤ lo) (hm : sparseWf d lo hi m = true) :
    sparseWf d lo' hi m = true := by
  cases m with
  | nil => rfl
  | cons c rest =>
    obtain ⟨k, w⟩ := c
    simp only [sparseWf, Bool.and_eq_true, decide_eq_true_eq] at hm ⊢
    exact ⟨⟨⟨by omega, hm.1.1.2⟩, hm.1.2⟩, hm.2⟩

/-- A write keeps the canonical form. -/
theorem sparsePut_wf (m : List (Nat × α)) {lo hi : Nat} (a : Nat) (v : α) (hlo : lo ≤ a) (hhi : a < hi)
    (hm : sparseWf d lo hi m = true) : sparseWf d lo hi (sparsePut d m a v) = true := by
  induction m generalizing lo with
  | nil => simp only [sparsePut]; split <;> simp_all [sparseWf]
  | cons c rest ih =>
    obtain ⟨k, w⟩ := c
    have hw := hm
    simp only [sparseWf, Bool.and_eq_true, decide_eq_true_eq] at hm
    simp only [sparsePut]
    split
    · split
      · exact hw
      · simp only [sparseWf, Bool.and_eq_true, decide_eq_true_eq]
        exact ⟨⟨⟨hlo, hhi⟩, by assumption⟩, ⟨⟨by omega, hm.1.1.2⟩, hm.1.2⟩, hm.2⟩
    · split
      · split
        · exact sparseWf_mono rest (by omega) hm.2
        · simp only [sparseWf, Bool.and_eq_true, decide_eq_true_eq]
          exact ⟨⟨hm.1.1, by assumption⟩, hm.2⟩
      · simp only [sparseWf, Bool.and_eq_true, decide_eq_true_eq]
        exact ⟨hm.1, ih (by omega) hm.2⟩

/-- Leaving entries out keeps the canonical form. -/
theorem sparseWf_filter (m : List (Nat × α)) {lo hi : Nat} (f : Nat × α → Bool) (hm : sparseWf d lo hi m = true) :
    sparseWf d lo hi (m.filter f) = true := by
  induction m generalizing lo with
  | nil => rfl
  | cons c rest ih =>
    obtain ⟨k, w⟩ := c
    simp only [sparseWf, Bool.and_eq_true, decide_eq_true_eq] at hm
    simp only [List.filter_cons]
    split
    · simp only [sparseWf, Bool.and_eq_true, decide_eq_true_eq]
      exact ⟨hm.1, ih hm.2⟩
    · exact sparseWf_mono _ (by omega) (ih hm.2)

omit [DecidableEq α] in
/-- A key that is left out reads as the default; a key that is kept reads as before. -/
theorem sparseGet_filter (m : List (Nat × α)) (f : Nat → Bool) (a : Nat) :
    sparseGet d (m.filter fun c => f c.1) a = if f a then sparseGet d m a else d := by
  induction m with
  | nil => simp [sparseGet]
  | cons c rest ih =>
    obtain ⟨k, w⟩ := c
    simp only [List.filter_cons]
    by_cases h : a = k
    · subst h
      cases hf : f a <;> simp_all [sparseGet]
    · cases hf : f k <;> simp_all [sparseGet]

/-- Two tables in canonical form that read alike at every key are one table. -/
theorem sparse_ext (m n : List (Nat × α)) {lo hi : Nat} (hm : sparseWf d lo hi m = true)
    (hn : sparseWf d lo hi n = true) (h : ∀ a, sparseGet d m a = sparseGet d n a) : m = n := by
  induction m generalizing lo n with
  | nil =>
    cases n with
    | nil => rfl
    | cons c rest =>
      obtain ⟨k, w⟩ := c
      simp only [sparseWf, Bool.and_eq_true, decide_eq_true_eq] at hn
      have := h k
      simp [sparseGet] at this
      exact absurd this.symm hn.1.2
  | cons c rest ih =>
    obtain ⟨k, w⟩ := c
    simp only [sparseWf, Bool.and_eq_true, decide_eq_true_eq] at hm
    cases n with
    | nil =>
      have := h k
      simp [sparseGet] at this
      exact absurd this hm.1.2
    | cons e rest' =>
      obtain ⟨k', w'⟩ := e
      have hn' := hn
      simp only [sparseWf, Bool.and_eq_true, decide_eq_true_eq] at hn
      have hk : k = k' := by
        by_contra hne
        have h1 := h k
        have h2 := h k'
        simp only [sparseGet, if_true, if_neg hne, if_neg (Ne.symm hne)] at h1 h2
        rcases Nat.lt_or_gt_of_ne hne with hlt | hgt
        · rw [sparseGet_below rest' hn.2 (by omega)] at h1
          exact hm.1.2 h1
        · rw [sparseGet_below rest hm.2 (by omega)] at h2
          exact hn.1.2 h2.symm
      subst hk
      have hw : w = w' := by simpa [sparseGet] using h k
      subst hw
      have : rest = rest' := by
        refine ih rest' hm.2 hn.2 fun a => ?_
        by_cases ha : a = k
        · subst ha
          rw [sparseGet_below rest hm.2 (by omega), sparseGet_below rest' hn.2 (by omega)]
        · simpa [sparseGet, ha] using h a
      rw [this]

end Sparse

/-! ### The store -/

/-- A read after a write. -/
theorem Memory.read_write (m : List (Nat × Byte)) (a b : Nat) (v : Byte) (hm : Memory.wf m = true) :
    Memory.read (Memory.write m a v) b = if b = a then v else Memory.read m b :=
  sparseGet_put m a b v hm

theorem Memory.read_write_ne (m : List (Nat × Byte)) {a b : Nat} (v : Byte) (h : b ≠ a) :
    Memory.read (Memory.write m a v) b = Memory.read m b :=
  sparseGet_put_ne m v h

theorem Memory.write_wf (m : List (Nat × Byte)) {a : Nat} (v : Byte) (ha : a < 65536) (hm : Memory.wf m = true) :
    Memory.wf (Memory.write m a v) = true :=
  sparsePut_wf m a v (Nat.zero_le a) ha hm

theorem Memory.writeBytes_wf (m : List (Nat × Byte)) (a : Nat) (bytes : List Byte) (ha : a + bytes.length ≤ 65536)
    (hm : Memory.wf m = true) : Memory.wf (Memory.writeBytes m a bytes) = true := by
  induction bytes generalizing m a with
  | nil => exact hm
  | cons b rest ih =>
    simp only [List.length_cons] at ha
    exact ih _ _ (by omega) (Memory.write_wf m b (by omega) hm)

/-- Bytes written in a row leave every address outside them alone. -/
theorem Memory.read_writeBytes_outside (m : List (Nat × Byte)) (a b : Nat) (bytes : List Byte)
    (h : b < a ∨ a + bytes.length ≤ b) : Memory.read (Memory.writeBytes m a bytes) b = Memory.read m b := by
  induction bytes generalizing m a with
  | nil => rfl
  | cons c rest ih =>
    simp only [List.length_cons] at h
    simp only [Memory.writeBytes]
    rw [ih _ _ (by omega), Memory.read_write_ne _ _ (by omega)]

/-- Bytes written in a row are read back. -/
theorem Memory.read_writeBytes_inside (m : List (Nat × Byte)) (a i : Nat) (bytes : List Byte)
    (hi : i < bytes.length) (ha : a + bytes.length ≤ 65536) (hm : Memory.wf m = true) :
    Memory.read (Memory.writeBytes m a bytes) (a + i) = bytes.getD i 0x00#8 := by
  induction bytes generalizing m a i with
  | nil => simp at hi
  | cons c rest ih =>
    simp only [List.length_cons] at hi ha
    simp only [Memory.writeBytes]
    cases i with
    | zero =>
      rw [Nat.add_zero, Memory.read_writeBytes_outside _ _ _ _ (by omega), Memory.read_write _ _ _ _ hm]
      simp
    | succ j =>
      have := ih (Memory.write m a c) (a + 1) j (by omega) (by omega) (Memory.write_wf m c (by omega) hm)
      rw [show a + (j + 1) = a + 1 + j by omega, this]
      simp

/-- Bytes written in a row are read back as a whole. -/
theorem Memory.readBytes_writeBytes (m : List (Nat × Byte)) (a : Nat) (bytes : List Byte)
    (ha : a + bytes.length ≤ 65536) (hm : Memory.wf m = true) :
    Memory.readBytes (Memory.writeBytes m a bytes) a bytes.length = bytes := by
  refine List.ext_getElem (by simp [Memory.readBytes]) fun i h1 h2 => ?_
  simp only [Memory.readBytes, List.getElem_map, List.getElem_range]
  rw [Memory.read_writeBytes_inside m a i bytes h2 ha hm, List.getD_eq_getElem _ _ h2]

/-- Bytes written in a row leave a stretch outside them alone. -/
theorem Memory.readBytes_writeBytes_outside (m : List (Nat × Byte)) (a b n : Nat) (bytes : List Byte)
    (h : b + n ≤ a ∨ a + bytes.length ≤ b) :
    Memory.readBytes (Memory.writeBytes m a bytes) b n = Memory.readBytes m b n := by
  refine List.map_congr_left fun i hi => ?_
  have := List.mem_range.mp hi
  exact Memory.read_writeBytes_outside m a (b + i) bytes (by omega)

/-- A page program keeps the canonical form. -/
theorem Memory.writePage_wf (m : List (Nat × Byte)) (page : Nat) (bytes : List Byte) (hm : Memory.wf m = true) :
    Memory.wf (Memory.writePage m page bytes) = true := by
  unfold Memory.writePage
  split
  · refine Memory.writeBytes_wf m _ _ ?_ hm
    simp only [pageAddress, List.length_take]
    omega
  · exact hm

theorem Memory.erasePage_wf (m : List (Nat × Byte)) (page : Nat) (hm : Memory.wf m = true) :
    Memory.wf (Memory.erasePage m page) = true :=
  Memory.writePage_wf m page _ hm

theorem Memory.sweep_wf (m : List (Nat × Byte)) (n : Nat) (hm : Memory.wf m = true) :
    Memory.wf (Memory.sweep m n) = true :=
  sparseWf_filter m _ hm

/-- A page program leaves every other page alone. -/
theorem Memory.read_writePage_outside (m : List (Nat × Byte)) (page a : Nat) (bytes : List Byte) (h : a / 32 ≠ page) :
    Memory.read (Memory.writePage m page bytes) a = Memory.read m a := by
  unfold Memory.writePage
  split
  · refine Memory.read_writeBytes_outside m _ _ _ ?_
    simp only [pageAddress, List.length_take]
    omega
  · rfl

/-- A page program of 32 bytes is read back. -/
theorem Memory.read_writePage_inside (m : List (Nat × Byte)) (page i : Nat) (bytes : List Byte) (hp : page < 2048)
    (hi : i < 32) (hb : bytes.length = 32) (hm : Memory.wf m = true) :
    Memory.read (Memory.writePage m page bytes) (32 * page + i) = bytes.getD i 0x00#8 := by
  unfold Memory.writePage
  rw [if_pos hp, List.take_of_length_le (by omega)]
  exact Memory.read_writeBytes_inside m _ i bytes (by omega) (by simp only [pageAddress]; omega) hm

/-- A page erase leaves FFh in its page. -/
theorem Memory.read_erasePage_inside (m : List (Nat × Byte)) (page i : Nat) (hp : page < 2048) (hi : i < 32)
    (hm : Memory.wf m = true) : Memory.read (Memory.erasePage m page) (32 * page + i) = 0xFF#8 := by
  unfold Memory.erasePage
  rw [Memory.read_writePage_inside m page i _ hp hi (by simp [erasedPage]) hm]
  rw [List.getD_eq_getElem _ _ (by simpa [erasedPage] using hi)]
  exact List.getElem_replicate ..

/-- A bulk erase that has passed `n` pages: the passed pages are erased, the rest as before. -/
theorem Memory.read_sweep (m : List (Nat × Byte)) (n a : Nat) :
    Memory.read (Memory.sweep m n) a = if sweptWithin n (a / 32) then 0xFF#8 else Memory.read m a := by
  have := sparseGet_filter (d := erasedByte) m (fun k => !sweptWithin n (k / 32)) a
  simp only [Memory.read, Memory.sweep, this]
  cases sweptWithin n (a / 32) <;> simp [erasedByte]

/-- The store after reset is in canonical form. -/
theorem State.reset_store_wf : Memory.wf State.reset.store = true := rfl

end Sys2Proof.Machine
end

