-- ==== Sys2Proof/Laws/State.lean ====
section
/-! SUPPORT. What each update of a table leaves in every field of the state and in every table, and the laws of
the tables themselves. -/

namespace Sys2Proof.Machine

/-! ### Tables -/

section Tables

variable {α β : Type}

@[simp] theorem PerPort.get_set_same (x : PerPort α) (p : Port) (v : α) : (x.set p v).get p = v := by
  cases p <;> rfl

theorem PerPort.get_set (x : PerPort α) (p q : Port) (v : α) :
    (x.set p v).get q = if p = q then v else x.get q := by
  cases p <;> cases q <;> rfl

@[simp] theorem PerPort.set_get (x : PerPort α) (p : Port) : x.set p (x.get p) = x := by
  cases p <;> rfl

@[simp] theorem PerPort.set_set (x : PerPort α) (p : Port) (v w : α) : (x.set p v).set p w = x.set p w := by
  cases p <;> rfl

/-- Two tables of ports are equal when they are equal at each port. -/
theorem PerPort.eq_of_get {x y : PerPort α} (h : ∀ p, x.get p = y.get p) : x = y := by
  have h0 := h .p0
  have h1 := h .p1
  have h2 := h .p2
  cases x
  cases y
  simp_all [PerPort.get]

theorem vector_get_eq {n : Nat} (v : Vector α n) (i : Fin n) : v.get i = v[i.val] := rfl

theorem vector_get_set {n : Nat} (v : Vector α n) (i j : Fin n) (x : α) :
    (v.set i.val x i.isLt).get j = if i = j then x else v.get j := by
  simp only [vector_get_eq, Vector.getElem_set, Fin.ext_iff]

@[simp] theorem vector_set_get {n : Nat} (v : Vector α n) (i : Fin n) : v.set i.val (v.get i) i.isLt = v := by
  simp [vector_get_eq]

@[simp] theorem vector_get_replicate {n : Nat} (x : α) (i : Fin n) : (Vector.replicate n x).get i = x := by
  simp [vector_get_eq]

@[simp] theorem mapTable_get {n : Nat} (f : α → β) (v : Vector α n) (i : Fin n) :
    (mapTable f v).get i = f (v.get i) := by
  simp [mapTable, vector_get_eq]

@[simp] theorem tabulate_get {n : Nat} (f : Fin n → α) (i : Fin n) : (tabulate n f).get i = f i := by
  simp [tabulate, vector_get_eq]

end Tables

/-! ### Fields -/

@[simp] theorem State.setPort_pending (s : State) (p : Port) (x : PortState) : (s.setPort p x).pending = s.pending := rfl
@[simp] theorem State.setPort_supply (s : State) (p : Port) (x : PortState) : (s.setPort p x).supply = s.supply := rfl
@[simp] theorem State.setPort_resetLow (s : State) (p : Port) (x : PortState) : (s.setPort p x).resetLow = s.resetLow := rfl
@[simp] theorem State.setPort_straps (s : State) (p : Port) (x : PortState) : (s.setPort p x).straps = s.straps := rfl
@[simp] theorem State.setPort_dev (s : State) (p : Port) (x : PortState) : (s.setPort p x).dev = s.dev := rfl
@[simp] theorem State.setPort_clear (s : State) (p : Port) (x : PortState) : (s.setPort p x).clear = s.clear := rfl
@[simp] theorem State.setPort_serial (s : State) (p : Port) (x : PortState) : (s.setPort p x).serial = s.serial := rfl
@[simp] theorem State.setPort_store (s : State) (p : Port) (x : PortState) : (s.setPort p x).store = s.store := rfl
@[simp] theorem State.setPort_activeDir (s : State) (p : Port) (x : PortState) : (s.setPort p x).activeDir = s.activeDir := rfl
@[simp] theorem State.setPort_dirGen (s : State) (p : Port) (x : PortState) : (s.setPort p x).dirGen = s.dirGen := rfl
@[simp] theorem State.setPort_dirSlot (s : State) (p : Port) (x : PortState) : (s.setPort p x).dirSlot = s.dirSlot := rfl
@[simp] theorem State.setPort_pageMap (s : State) (p : Port) (x : PortState) : (s.setPort p x).pageMap = s.pageMap := rfl
@[simp] theorem State.setPort_records (s : State) (p : Port) (x : PortState) : (s.setPort p x).records = s.records := rfl
@[simp] theorem State.setPort_leases (s : State) (p : Port) (x : PortState) : (s.setPort p x).leases = s.leases := rfl
@[simp] theorem State.setPort_buffers (s : State) (p : Port) (x : PortState) : (s.setPort p x).buffers = s.buffers := rfl
@[simp] theorem State.setPort_allocQueue (s : State) (p : Port) (x : PortState) : (s.setPort p x).allocQueue = s.allocQueue := rfl
@[simp] theorem State.setPort_queue (s : State) (p : Port) (x : PortState) : (s.setPort p x).queue = s.queue := rfl
@[simp] theorem State.setPort_engine (s : State) (p : Port) (x : PortState) : (s.setPort p x).engine = s.engine := rfl
@[simp] theorem State.setPort_watches (s : State) (p : Port) (x : PortState) : (s.setPort p x).watches = s.watches := rfl
@[simp] theorem State.setPort_freeIndex (s : State) (p : Port) (x : PortState) : (s.setPort p x).freeIndex = s.freeIndex := rfl

@[simp] theorem State.setRecord_pending (s : State) (h : Handle) (x : RecState) : (s.setRecord h x).pending = s.pending := rfl
@[simp] theorem State.setRecord_supply (s : State) (h : Handle) (x : RecState) : (s.setRecord h x).supply = s.supply := rfl
@[simp] theorem State.setRecord_resetLow (s : State) (h : Handle) (x : RecState) : (s.setRecord h x).resetLow = s.resetLow := rfl
@[simp] theorem State.setRecord_straps (s : State) (h : Handle) (x : RecState) : (s.setRecord h x).straps = s.straps := rfl
@[simp] theorem State.setRecord_dev (s : State) (h : Handle) (x : RecState) : (s.setRecord h x).dev = s.dev := rfl
@[simp] theorem State.setRecord_clear (s : State) (h : Handle) (x : RecState) : (s.setRecord h x).clear = s.clear := rfl
@[simp] theorem State.setRecord_ports (s : State) (h : Handle) (x : RecState) : (s.setRecord h x).ports = s.ports := rfl
@[simp] theorem State.setRecord_serial (s : State) (h : Handle) (x : RecState) : (s.setRecord h x).serial = s.serial := rfl
@[simp] theorem State.setRecord_store (s : State) (h : Handle) (x : RecState) : (s.setRecord h x).store = s.store := rfl
@[simp] theorem State.setRecord_activeDir (s : State) (h : Handle) (x : RecState) : (s.setRecord h x).activeDir = s.activeDir := rfl
@[simp] theorem State.setRecord_dirGen (s : State) (h : Handle) (x : RecState) : (s.setRecord h x).dirGen = s.dirGen := rfl
@[simp] theorem State.setRecord_dirSlot (s : State) (h : Handle) (x : RecState) : (s.setRecord h x).dirSlot = s.dirSlot := rfl
@[simp] theorem State.setRecord_pageMap (s : State) (h : Handle) (x : RecState) : (s.setRecord h x).pageMap = s.pageMap := rfl
@[simp] theorem State.setRecord_leases (s : State) (h : Handle) (x : RecState) : (s.setRecord h x).leases = s.leases := rfl
@[simp] theorem State.setRecord_buffers (s : State) (h : Handle) (x : RecState) : (s.setRecord h x).buffers = s.buffers := rfl
@[simp] theorem State.setRecord_allocQueue (s : State) (h : Handle) (x : RecState) : (s.setRecord h x).allocQueue = s.allocQueue := rfl
@[simp] theorem State.setRecord_queue (s : State) (h : Handle) (x : RecState) : (s.setRecord h x).queue = s.queue := rfl
@[simp] theorem State.setRecord_engine (s : State) (h : Handle) (x : RecState) : (s.setRecord h x).engine = s.engine := rfl
@[simp] theorem State.setRecord_watches (s : State) (h : Handle) (x : RecState) : (s.setRecord h x).watches = s.watches := rfl
@[simp] theorem State.setRecord_freeIndex (s : State) (h : Handle) (x : RecState) : (s.setRecord h x).freeIndex = s.freeIndex := rfl

@[simp] theorem State.setLease_pending (s : State) (e : EntryNo) (x : LeaseEntry) : (s.setLease e x).pending = s.pending := rfl
@[simp] theorem State.setLease_supply (s : State) (e : EntryNo) (x : LeaseEntry) : (s.setLease e x).supply = s.supply := rfl
@[simp] theorem State.setLease_resetLow (s : State) (e : EntryNo) (x : LeaseEntry) : (s.setLease e x).resetLow = s.resetLow := rfl
@[simp] theorem State.setLease_straps (s : State) (e : EntryNo) (x : LeaseEntry) : (s.setLease e x).straps = s.straps := rfl
@[simp] theorem State.setLease_dev (s : State) (e : EntryNo) (x : LeaseEntry) : (s.setLease e x).dev = s.dev := rfl
@[simp] theorem State.setLease_clear (s : State) (e : EntryNo) (x : LeaseEntry) : (s.setLease e x).clear = s.clear := rfl
@[simp] theorem State.setLease_ports (s : State) (e : EntryNo) (x : LeaseEntry) : (s.setLease e x).ports = s.ports := rfl
@[simp] theorem State.setLease_serial (s : State) (e : EntryNo) (x : LeaseEntry) : (s.setLease e x).serial = s.serial := rfl
@[simp] theorem State.setLease_store (s : State) (e : EntryNo) (x : LeaseEntry) : (s.setLease e x).store = s.store := rfl
@[simp] theorem State.setLease_activeDir (s : State) (e : EntryNo) (x : LeaseEntry) : (s.setLease e x).activeDir = s.activeDir := rfl
@[simp] theorem State.setLease_dirGen (s : State) (e : EntryNo) (x : LeaseEntry) : (s.setLease e x).dirGen = s.dirGen := rfl
@[simp] theorem State.setLease_dirSlot (s : State) (e : EntryNo) (x : LeaseEntry) : (s.setLease e x).dirSlot = s.dirSlot := rfl
@[simp] theorem State.setLease_pageMap (s : State) (e : EntryNo) (x : LeaseEntry) : (s.setLease e x).pageMap = s.pageMap := rfl
@[simp] theorem State.setLease_records (s : State) (e : EntryNo) (x : LeaseEntry) : (s.setLease e x).records = s.records := rfl
@[simp] theorem State.setLease_buffers (s : State) (e : EntryNo) (x : LeaseEntry) : (s.setLease e x).buffers = s.buffers := rfl
@[simp] theorem State.setLease_allocQueue (s : State) (e : EntryNo) (x : LeaseEntry) : (s.setLease e x).allocQueue = s.allocQueue := rfl
@[simp] theorem State.setLease_queue (s : State) (e : EntryNo) (x : LeaseEntry) : (s.setLease e x).queue = s.queue := rfl
@[simp] theorem State.setLease_engine (s : State) (e : EntryNo) (x : LeaseEntry) : (s.setLease e x).engine = s.engine := rfl
@[simp] theorem State.setLease_watches (s : State) (e : EntryNo) (x : LeaseEntry) : (s.setLease e x).watches = s.watches := rfl
@[simp] theorem State.setLease_freeIndex (s : State) (e : EntryNo) (x : LeaseEntry) : (s.setLease e x).freeIndex = s.freeIndex := rfl

@[simp] theorem State.setBuffer_pending (s : State) (e : EntryNo) (x : Buffer) : (s.setBuffer e x).pending = s.pending := rfl
@[simp] theorem State.setBuffer_supply (s : State) (e : EntryNo) (x : Buffer) : (s.setBuffer e x).supply = s.supply := rfl
@[simp] theorem State.setBuffer_resetLow (s : State) (e : EntryNo) (x : Buffer) : (s.setBuffer e x).resetLow = s.resetLow := rfl
@[simp] theorem State.setBuffer_straps (s : State) (e : EntryNo) (x : Buffer) : (s.setBuffer e x).straps = s.straps := rfl
@[simp] theorem State.setBuffer_dev (s : State) (e : EntryNo) (x : Buffer) : (s.setBuffer e x).dev = s.dev := rfl
@[simp] theorem State.setBuffer_clear (s : State) (e : EntryNo) (x : Buffer) : (s.setBuffer e x).clear = s.clear := rfl
@[simp] theorem State.setBuffer_ports (s : State) (e : EntryNo) (x : Buffer) : (s.setBuffer e x).ports = s.ports := rfl
@[simp] theorem State.setBuffer_serial (s : State) (e : EntryNo) (x : Buffer) : (s.setBuffer e x).serial = s.serial := rfl
@[simp] theorem State.setBuffer_store (s : State) (e : EntryNo) (x : Buffer) : (s.setBuffer e x).store = s.store := rfl
@[simp] theorem State.setBuffer_activeDir (s : State) (e : EntryNo) (x : Buffer) : (s.setBuffer e x).activeDir = s.activeDir := rfl
@[simp] theorem State.setBuffer_dirGen (s : State) (e : EntryNo) (x : Buffer) : (s.setBuffer e x).dirGen = s.dirGen := rfl
@[simp] theorem State.setBuffer_dirSlot (s : State) (e : EntryNo) (x : Buffer) : (s.setBuffer e x).dirSlot = s.dirSlot := rfl
@[simp] theorem State.setBuffer_pageMap (s : State) (e : EntryNo) (x : Buffer) : (s.setBuffer e x).pageMap = s.pageMap := rfl
@[simp] theorem State.setBuffer_records (s : State) (e : EntryNo) (x : Buffer) : (s.setBuffer e x).records = s.records := rfl
@[simp] theorem State.setBuffer_leases (s : State) (e : EntryNo) (x : Buffer) : (s.setBuffer e x).leases = s.leases := rfl
@[simp] theorem State.setBuffer_allocQueue (s : State) (e : EntryNo) (x : Buffer) : (s.setBuffer e x).allocQueue = s.allocQueue := rfl
@[simp] theorem State.setBuffer_queue (s : State) (e : EntryNo) (x : Buffer) : (s.setBuffer e x).queue = s.queue := rfl
@[simp] theorem State.setBuffer_engine (s : State) (e : EntryNo) (x : Buffer) : (s.setBuffer e x).engine = s.engine := rfl
@[simp] theorem State.setBuffer_watches (s : State) (e : EntryNo) (x : Buffer) : (s.setBuffer e x).watches = s.watches := rfl
@[simp] theorem State.setBuffer_freeIndex (s : State) (e : EntryNo) (x : Buffer) : (s.setBuffer e x).freeIndex = s.freeIndex := rfl

@[simp] theorem State.setWatch_pending (s : State) (n : WatchNo) (x : Option Watch) : (s.setWatch n x).pending = s.pending := rfl
@[simp] theorem State.setWatch_supply (s : State) (n : WatchNo) (x : Option Watch) : (s.setWatch n x).supply = s.supply := rfl
@[simp] theorem State.setWatch_resetLow (s : State) (n : WatchNo) (x : Option Watch) : (s.setWatch n x).resetLow = s.resetLow := rfl
@[simp] theorem State.setWatch_straps (s : State) (n : WatchNo) (x : Option Watch) : (s.setWatch n x).straps = s.straps := rfl
@[simp] theorem State.setWatch_dev (s : State) (n : WatchNo) (x : Option Watch) : (s.setWatch n x).dev = s.dev := rfl
@[simp] theorem State.setWatch_clear (s : State) (n : WatchNo) (x : Option Watch) : (s.setWatch n x).clear = s.clear := rfl
@[simp] theorem State.setWatch_ports (s : State) (n : WatchNo) (x : Option Watch) : (s.setWatch n x).ports = s.ports := rfl
@[simp] theorem State.setWatch_serial (s : State) (n : WatchNo) (x : Option Watch) : (s.setWatch n x).serial = s.serial := rfl
@[simp] theorem State.setWatch_store (s : State) (n : WatchNo) (x : Option Watch) : (s.setWatch n x).store = s.store := rfl
@[simp] theorem State.setWatch_activeDir (s : State) (n : WatchNo) (x : Option Watch) : (s.setWatch n x).activeDir = s.activeDir := rfl
@[simp] theorem State.setWatch_dirGen (s : State) (n : WatchNo) (x : Option Watch) : (s.setWatch n x).dirGen = s.dirGen := rfl
@[simp] theorem State.setWatch_dirSlot (s : State) (n : WatchNo) (x : Option Watch) : (s.setWatch n x).dirSlot = s.dirSlot := rfl
@[simp] theorem State.setWatch_pageMap (s : State) (n : WatchNo) (x : Option Watch) : (s.setWatch n x).pageMap = s.pageMap := rfl
@[simp] theorem State.setWatch_records (s : State) (n : WatchNo) (x : Option Watch) : (s.setWatch n x).records = s.records := rfl
@[simp] theorem State.setWatch_leases (s : State) (n : WatchNo) (x : Option Watch) : (s.setWatch n x).leases = s.leases := rfl
@[simp] theorem State.setWatch_buffers (s : State) (n : WatchNo) (x : Option Watch) : (s.setWatch n x).buffers = s.buffers := rfl
@[simp] theorem State.setWatch_allocQueue (s : State) (n : WatchNo) (x : Option Watch) : (s.setWatch n x).allocQueue = s.allocQueue := rfl
@[simp] theorem State.setWatch_queue (s : State) (n : WatchNo) (x : Option Watch) : (s.setWatch n x).queue = s.queue := rfl
@[simp] theorem State.setWatch_engine (s : State) (n : WatchNo) (x : Option Watch) : (s.setWatch n x).engine = s.engine := rfl
@[simp] theorem State.setWatch_freeIndex (s : State) (n : WatchNo) (x : Option Watch) : (s.setWatch n x).freeIndex = s.freeIndex := rfl

@[simp] theorem State.setWaiters_pending (s : State) (h : Handle) (x : List Waiter) : (s.setWaiters h x).pending = s.pending := rfl
@[simp] theorem State.setWaiters_supply (s : State) (h : Handle) (x : List Waiter) : (s.setWaiters h x).supply = s.supply := rfl
@[simp] theorem State.setWaiters_resetLow (s : State) (h : Handle) (x : List Waiter) : (s.setWaiters h x).resetLow = s.resetLow := rfl
@[simp] theorem State.setWaiters_straps (s : State) (h : Handle) (x : List Waiter) : (s.setWaiters h x).straps = s.straps := rfl
@[simp] theorem State.setWaiters_dev (s : State) (h : Handle) (x : List Waiter) : (s.setWaiters h x).dev = s.dev := rfl
@[simp] theorem State.setWaiters_clear (s : State) (h : Handle) (x : List Waiter) : (s.setWaiters h x).clear = s.clear := rfl
@[simp] theorem State.setWaiters_ports (s : State) (h : Handle) (x : List Waiter) : (s.setWaiters h x).ports = s.ports := rfl
@[simp] theorem State.setWaiters_serial (s : State) (h : Handle) (x : List Waiter) : (s.setWaiters h x).serial = s.serial := rfl
@[simp] theorem State.setWaiters_store (s : State) (h : Handle) (x : List Waiter) : (s.setWaiters h x).store = s.store := rfl
@[simp] theorem State.setWaiters_activeDir (s : State) (h : Handle) (x : List Waiter) : (s.setWaiters h x).activeDir = s.activeDir := rfl
@[simp] theorem State.setWaiters_dirGen (s : State) (h : Handle) (x : List Waiter) : (s.setWaiters h x).dirGen = s.dirGen := rfl
@[simp] theorem State.setWaiters_dirSlot (s : State) (h : Handle) (x : List Waiter) : (s.setWaiters h x).dirSlot = s.dirSlot := rfl
@[simp] theorem State.setWaiters_pageMap (s : State) (h : Handle) (x : List Waiter) : (s.setWaiters h x).pageMap = s.pageMap := rfl
@[simp] theorem State.setWaiters_leases (s : State) (h : Handle) (x : List Waiter) : (s.setWaiters h x).leases = s.leases := rfl
@[simp] theorem State.setWaiters_buffers (s : State) (h : Handle) (x : List Waiter) : (s.setWaiters h x).buffers = s.buffers := rfl
@[simp] theorem State.setWaiters_allocQueue (s : State) (h : Handle) (x : List Waiter) : (s.setWaiters h x).allocQueue = s.allocQueue := rfl
@[simp] theorem State.setWaiters_queue (s : State) (h : Handle) (x : List Waiter) : (s.setWaiters h x).queue = s.queue := rfl
@[simp] theorem State.setWaiters_engine (s : State) (h : Handle) (x : List Waiter) : (s.setWaiters h x).engine = s.engine := rfl
@[simp] theorem State.setWaiters_watches (s : State) (h : Handle) (x : List Waiter) : (s.setWaiters h x).watches = s.watches := rfl
@[simp] theorem State.setWaiters_freeIndex (s : State) (h : Handle) (x : List Waiter) : (s.setWaiters h x).freeIndex = s.freeIndex := rfl

/-! ### Accessors -/

@[simp] theorem State.setPort_record (s : State) (p : Port) (x : PortState) (k : Handle) : (s.setPort p x).record k = s.record k := rfl
@[simp] theorem State.setPort_lease (s : State) (p : Port) (x : PortState) (d : EntryNo) : (s.setPort p x).lease d = s.lease d := rfl
@[simp] theorem State.setPort_buffer (s : State) (p : Port) (x : PortState) (d : EntryNo) : (s.setPort p x).buffer d = s.buffer d := rfl
@[simp] theorem State.setPort_watchAt (s : State) (p : Port) (x : PortState) (m : WatchNo) : (s.setPort p x).watchAt m = s.watchAt m := rfl
@[simp] theorem State.setPort_configPort (s : State) (p : Port) (x : PortState) : (s.setPort p x).configPort = s.configPort := rfl
@[simp] theorem State.setPort_isI2C (s : State) (p : Port) (x : PortState) (q : Port) : (s.setPort p x).isI2C q = s.isI2C q := rfl
@[simp] theorem State.setPort_active (s : State) (p : Port) (x : PortState) : (s.setPort p x).active = s.active := rfl

@[simp] theorem State.setRecord_port (s : State) (h : Handle) (x : RecState) (q : Port) : (s.setRecord h x).port q = s.port q := rfl
@[simp] theorem State.setRecord_lease (s : State) (h : Handle) (x : RecState) (d : EntryNo) : (s.setRecord h x).lease d = s.lease d := rfl
@[simp] theorem State.setRecord_buffer (s : State) (h : Handle) (x : RecState) (d : EntryNo) : (s.setRecord h x).buffer d = s.buffer d := rfl
@[simp] theorem State.setRecord_watchAt (s : State) (h : Handle) (x : RecState) (m : WatchNo) : (s.setRecord h x).watchAt m = s.watchAt m := rfl
@[simp] theorem State.setRecord_configPort (s : State) (h : Handle) (x : RecState) : (s.setRecord h x).configPort = s.configPort := rfl
@[simp] theorem State.setRecord_isI2C (s : State) (h : Handle) (x : RecState) (q : Port) : (s.setRecord h x).isI2C q = s.isI2C q := rfl
@[simp] theorem State.setRecord_active (s : State) (h : Handle) (x : RecState) : (s.setRecord h x).active = s.active := rfl

@[simp] theorem State.setLease_port (s : State) (e : EntryNo) (x : LeaseEntry) (q : Port) : (s.setLease e x).port q = s.port q := rfl
@[simp] theorem State.setLease_record (s : State) (e : EntryNo) (x : LeaseEntry) (k : Handle) : (s.setLease e x).record k = s.record k := rfl
@[simp] theorem State.setLease_buffer (s : State) (e : EntryNo) (x : LeaseEntry) (d : EntryNo) : (s.setLease e x).buffer d = s.buffer d := rfl
@[simp] theorem State.setLease_watchAt (s : State) (e : EntryNo) (x : LeaseEntry) (m : WatchNo) : (s.setLease e x).watchAt m = s.watchAt m := rfl
@[simp] theorem State.setLease_configPort (s : State) (e : EntryNo) (x : LeaseEntry) : (s.setLease e x).configPort = s.configPort := rfl
@[simp] theorem State.setLease_isI2C (s : State) (e : EntryNo) (x : LeaseEntry) (q : Port) : (s.setLease e x).isI2C q = s.isI2C q := rfl
@[simp] theorem State.setLease_active (s : State) (e : EntryNo) (x : LeaseEntry) : (s.setLease e x).active = s.active := rfl

@[simp] theorem State.setBuffer_port (s : State) (e : EntryNo) (x : Buffer) (q : Port) : (s.setBuffer e x).port q = s.port q := rfl
@[simp] theorem State.setBuffer_record (s : State) (e : EntryNo) (x : Buffer) (k : Handle) : (s.setBuffer e x).record k = s.record k := rfl
@[simp] theorem State.setBuffer_lease (s : State) (e : EntryNo) (x : Buffer) (d : EntryNo) : (s.setBuffer e x).lease d = s.lease d := rfl
@[simp] theorem State.setBuffer_watchAt (s : State) (e : EntryNo) (x : Buffer) (m : WatchNo) : (s.setBuffer e x).watchAt m = s.watchAt m := rfl
@[simp] theorem State.setBuffer_configPort (s : State) (e : EntryNo) (x : Buffer) : (s.setBuffer e x).configPort = s.configPort := rfl
@[simp] theorem State.setBuffer_isI2C (s : State) (e : EntryNo) (x : Buffer) (q : Port) : (s.setBuffer e x).isI2C q = s.isI2C q := rfl
@[simp] theorem State.setBuffer_active (s : State) (e : EntryNo) (x : Buffer) : (s.setBuffer e x).active = s.active := rfl

@[simp] theorem State.setWatch_port (s : State) (n : WatchNo) (x : Option Watch) (q : Port) : (s.setWatch n x).port q = s.port q := rfl
@[simp] theorem State.setWatch_record (s : State) (n : WatchNo) (x : Option Watch) (k : Handle) : (s.setWatch n x).record k = s.record k := rfl
@[simp] theorem State.setWatch_lease (s : State) (n : WatchNo) (x : Option Watch) (d : EntryNo) : (s.setWatch n x).lease d = s.lease d := rfl
@[simp] theorem State.setWatch_buffer (s : State) (n : WatchNo) (x : Option Watch) (d : EntryNo) : (s.setWatch n x).buffer d = s.buffer d := rfl
@[simp] theorem State.setWatch_configPort (s : State) (n : WatchNo) (x : Option Watch) : (s.setWatch n x).configPort = s.configPort := rfl
@[simp] theorem State.setWatch_isI2C (s : State) (n : WatchNo) (x : Option Watch) (q : Port) : (s.setWatch n x).isI2C q = s.isI2C q := rfl
@[simp] theorem State.setWatch_active (s : State) (n : WatchNo) (x : Option Watch) : (s.setWatch n x).active = s.active := rfl

@[simp] theorem State.setWaiters_port (s : State) (h : Handle) (x : List Waiter) (q : Port) : (s.setWaiters h x).port q = s.port q := rfl
@[simp] theorem State.setWaiters_lease (s : State) (h : Handle) (x : List Waiter) (d : EntryNo) : (s.setWaiters h x).lease d = s.lease d := rfl
@[simp] theorem State.setWaiters_buffer (s : State) (h : Handle) (x : List Waiter) (d : EntryNo) : (s.setWaiters h x).buffer d = s.buffer d := rfl
@[simp] theorem State.setWaiters_watchAt (s : State) (h : Handle) (x : List Waiter) (m : WatchNo) : (s.setWaiters h x).watchAt m = s.watchAt m := rfl
@[simp] theorem State.setWaiters_configPort (s : State) (h : Handle) (x : List Waiter) : (s.setWaiters h x).configPort = s.configPort := rfl
@[simp] theorem State.setWaiters_isI2C (s : State) (h : Handle) (x : List Waiter) (q : Port) : (s.setWaiters h x).isI2C q = s.isI2C q := rfl
@[simp] theorem State.setWaiters_active (s : State) (h : Handle) (x : List Waiter) : (s.setWaiters h x).active = s.active := rfl

theorem State.setPort_port (s : State) (p q : Port) (x : PortState) :
    (s.setPort p x).port q = if p = q then x else s.port q :=
  PerPort.get_set _ _ _ _

@[simp] theorem State.setPort_port_same (s : State) (p : Port) (x : PortState) : (s.setPort p x).port p = x := by
  simp [State.setPort_port]

@[simp] theorem State.setPort_self (s : State) (p : Port) : s.setPort p (s.port p) = s := by
  simp [State.setPort, State.port]

theorem State.setRecord_record (s : State) (h k : Handle) (x : RecState) :
    (s.setRecord h x).record k = if h = k then x else s.record k :=
  vector_get_set _ _ _ _

@[simp] theorem State.setRecord_record_same (s : State) (h : Handle) (x : RecState) : (s.setRecord h x).record h = x := by
  simp [State.setRecord_record]

@[simp] theorem State.setRecord_self (s : State) (h : Handle) : s.setRecord h (s.record h) = s := by
  simp [State.setRecord, State.record]

theorem State.setLease_lease (s : State) (e d : EntryNo) (x : LeaseEntry) :
    (s.setLease e x).lease d = if e = d then x else s.lease d :=
  vector_get_set _ _ _ _

@[simp] theorem State.setLease_lease_same (s : State) (e : EntryNo) (x : LeaseEntry) : (s.setLease e x).lease e = x := by
  simp [State.setLease_lease]

@[simp] theorem State.setLease_self (s : State) (e : EntryNo) : s.setLease e (s.lease e) = s := by
  simp [State.setLease, State.lease]

theorem State.setBuffer_buffer (s : State) (e d : EntryNo) (x : Buffer) :
    (s.setBuffer e x).buffer d = if e = d then x else s.buffer d :=
  vector_get_set _ _ _ _

@[simp] theorem State.setBuffer_buffer_same (s : State) (e : EntryNo) (x : Buffer) : (s.setBuffer e x).buffer e = x := by
  simp [State.setBuffer_buffer]

@[simp] theorem State.setBuffer_self (s : State) (e : EntryNo) : s.setBuffer e (s.buffer e) = s := by
  simp [State.setBuffer, State.buffer]

theorem State.setWatch_watchAt (s : State) (n m : WatchNo) (x : Option Watch) :
    (s.setWatch n x).watchAt m = if n = m then x else s.watchAt m :=
  vector_get_set _ _ _ _

@[simp] theorem State.setWatch_watchAt_same (s : State) (n : WatchNo) (x : Option Watch) : (s.setWatch n x).watchAt n = x := by
  simp [State.setWatch_watchAt]

@[simp] theorem State.setWatch_self (s : State) (n : WatchNo) : s.setWatch n (s.watchAt n) = s := by
  simp [State.setWatch, State.watchAt]

theorem State.setWaiters_record (s : State) (h k : Handle) (x : List Waiter) :
    (s.setWaiters h x).record k = if h = k then { s.record h with waiters := x } else s.record k :=
  vector_get_set _ _ _ _

/-- Setting a record's wait queue leaves its other fields, and those of every other record. -/
@[simp] theorem State.setWaiters_record_entry (s : State) (h k : Handle) (x : List Waiter) :
    ((s.setWaiters h x).record k).entry = (s.record k).entry := by
  rw [State.setWaiters_record]
  split <;> simp_all

@[simp] theorem State.setWaiters_record_active (s : State) (h k : Handle) (x : List Waiter) :
    ((s.setWaiters h x).record k).active = (s.record k).active := by
  rw [State.setWaiters_record]
  split <;> simp_all

@[simp] theorem State.setWaiters_record_gen (s : State) (h k : Handle) (x : List Waiter) :
    ((s.setWaiters h x).record k).gen = (s.record k).gen := by
  rw [State.setWaiters_record]
  split <;> simp_all

@[simp] theorem State.setWaiters_self (s : State) (h : Handle) : s.setWaiters h (s.record h).waiters = s := by
  exact State.setRecord_self s h

end Sys2Proof.Machine
end

