-- ==== Sys2Proof/Laws/Lookup.lean ====
section
/-! SUPPORT. What each lookup in a table finds: the lease on a record, the lowest FREE entry, the entry of a
token, the lowest empty watch entry, and the conditions of marked pages. -/

namespace Sys2Proof.Machine

/-! ### Fields that are read back -/

theorem toHandle_handleByte (h : Handle) : toHandle (handleByte h) = h := by
  apply Fin.ext
  simp only [toHandle, handleByte, BitVec.toNat_ofNat]
  omega

theorem isHandle_handleByte (h : Handle) : isHandle (handleByte h) = true := by
  simp only [isHandle, handleByte, BitVec.toNat_ofNat, decide_eq_true_eq]
  omega

/-! ### The lowest of a table that passes a test -/

section Lowest

variable {n : Nat}

/-- The list of all places is ascending. -/
theorem finRange_find_eq (p : Fin n → Bool) (i : Fin n) (hi : p i = true) (hlow : ∀ j, j < i → p j = false) :
    (List.finRange n).find? p = some i := by
  rw [List.find?_eq_some_iff_append]
  refine ⟨hi, (List.finRange n).take i.val, (List.finRange n).drop (i.val + 1), ?_, ?_⟩
  · have h : i.val < (List.finRange n).length := by simp
    conv_lhs => rw [← List.take_append_drop i.val (List.finRange n)]
    rw [List.drop_eq_getElem_cons h]
    simp
  · intro j hj
    obtain ⟨k, hk, rfl⟩ := List.mem_take_iff_getElem.mp hj
    simp only [List.getElem_finRange]
    rw [hlow]
    · rfl
    · rw [Fin.lt_def]
      simp at hk ⊢
      omega

theorem finRange_find_none (p : Fin n → Bool) (h : ∀ j, p j = false) : (List.finRange n).find? p = none := by
  rw [List.find?_eq_none]
  intro j _
  simp [h j]

theorem finRange_find_spec {p : Fin n → Bool} {i : Fin n} (h : (List.finRange n).find? p = some i) : p i = true :=
  List.find?_some h

end Lowest

/-- The lowest-numbered FREE lease entry. -/
theorem State.lowestFree_eq {s : State} {e : EntryNo} (h : (s.lease e).lease = none)
    (hlow : ∀ e', e' < e → (s.lease e').lease ≠ none) : s.lowestFree = some e :=
  finRange_find_eq _ e (by simp [h]) fun j hj => by simp [Option.isNone_eq_false_iff, Option.isSome_iff_ne_none, hlow j hj]

theorem State.lowestFree_none {s : State} (h : ∀ e, (s.lease e).lease ≠ none) : s.lowestFree = none :=
  finRange_find_none _ fun j => by simp [Option.isNone_eq_false_iff, Option.isSome_iff_ne_none, h j]

theorem State.lowestFree_spec {s : State} {e : EntryNo} (h : s.lowestFree = some e) : (s.lease e).lease = none := by
  have := finRange_find_spec h
  simpa using this

/-- The lowest-numbered empty watch entry. -/
theorem State.emptyWatch_find {s : State} {n : WatchNo} (h : s.watchAt n = none)
    (hlow : ∀ m, m < n → s.watchAt m ≠ none) :
    allWatches.find? (fun m => (s.watchAt m).isNone) = some n :=
  finRange_find_eq _ n (by simp [h]) fun j hj => by simp [Option.isNone_eq_false_iff, Option.isSome_iff_ne_none, hlow j hj]

/-! ### The lease on a record -/

/-- What `leaseOn` finds is a lease on the record. -/
theorem State.leaseOn_spec {s : State} {h : Handle} {e : EntryNo} {l : Lease} (hl : s.leaseOn h = some (e, l)) :
    (s.lease e).lease = some l ∧ l.handle = h := by
  obtain ⟨d, _, hd⟩ := List.exists_of_findSome?_eq_some hl
  cases hx : (s.lease d).lease with
  | none => simp [hx] at hd
  | some y =>
    by_cases hy : y.handle = h
    · simp only [hx, hy, if_true, Option.some.injEq, Prod.mk.injEq] at hd
      obtain ⟨rfl, rfl⟩ := hd
      exact ⟨hx, hy⟩
    · simp [hx, hy] at hd

/-- No lease is on the record exactly when no entry has it. -/
theorem State.leaseOn_none {s : State} {h : Handle} :
    s.leaseOn h = none ↔ ∀ e l, (s.lease e).lease = some l → l.handle ≠ h := by
  unfold State.leaseOn
  rw [List.findSome?_eq_none_iff]
  constructor
  · intro hn e l hl heq
    have := hn e (List.mem_finRange e)
    simp [hl, heq] at this
  · intro hn e _
    cases hx : (s.lease e).lease with
    | none => rfl
    | some l => simp [hn e l hx]

/-- A record with a lease is found leased. -/
theorem State.leaseOn_isSome {s : State} {h : Handle} {e : EntryNo} {l : Lease} (hl : (s.lease e).lease = some l)
    (hh : l.handle = h) : (s.leaseOn h).isSome = true := by
  cases hx : s.leaseOn h with
  | none => exact absurd hh (State.leaseOn_none.mp hx e l hl)
  | some _ => rfl

/-! ### Tokens -/

/-- A token names the entry that its entry part counts from 1. -/
theorem tokenEntry_eq {entry count : Byte} {e : EntryNo} (h : entry.toNat = e.val + 1) :
    tokenEntry ⟨entry, count⟩ = some e := by
  unfold tokenEntry
  have : 1 ≤ entry.toNat ∧ entry.toNat ≤ 6 := by omega
  simp only [this, and_self, dif_pos, Option.some.injEq]
  apply Fin.ext
  simp only
  omega

theorem tokenEntry_spec {t : Token} {e : EntryNo} (h : tokenEntry t = some e) : t.entry.toNat = e.val + 1 := by
  unfold tokenEntry at h
  split at h
  · simp only [Option.some.injEq] at h
    subst h
    simp only
    omega
  · simp at h

/-- The lease that a live token names. -/
theorem State.liveLease_eq {s : State} {p : Port} {entry count : Byte} {e : EntryNo} {l : Lease}
    (he : entry.toNat = e.val + 1) (hl : (s.lease e).lease = some l) (hp : l.holder = p)
    (hc : (s.lease e).issue = count) : s.liveLease p ⟨entry, count⟩ = some (e, l) := by
  simp only [State.liveLease, tokenEntry_eq he, hl, hp, hc, and_self, if_true]

/-- A token that names a lease is live. -/
theorem State.liveLease_spec {s : State} {p : Port} {t : Token} {e : EntryNo} {l : Lease}
    (h : s.liveLease p t = some (e, l)) :
    t.entry.toNat = e.val + 1 ∧ (s.lease e).lease = some l ∧ l.holder = p ∧ (s.lease e).issue = t.count := by
  unfold State.liveLease at h
  cases hd : tokenEntry t with
  | none => simp [hd] at h
  | some d =>
    cases hx : (s.lease d).lease with
    | none => simp [hd, hx] at h
    | some y =>
      by_cases hy : y.holder = p ∧ (s.lease d).issue = t.count
      · simp only [hd, hx, hy, and_self, if_true, Option.some.injEq, Prod.mk.injEq] at h
        obtain ⟨rfl, rfl⟩ := h
        exact ⟨tokenEntry_spec hd, hx, hy.1, hy.2⟩
      · simp [hd, hx, hy] at h

/-- A READ or ADD whose token is not live for the port on the record is judged against the current rights (08, R146). -/
theorem State.rightsFor_other {s : State} {p : Port} {h : Handle} {t : Token}
    (ho : ∀ e l, s.liveLease p t = some (e, l) → l.handle ≠ h) : s.rightsFor p h t = s.rightsOf h p := by
  unfold State.rightsFor
  split
  · rename_i e l hl
    rw [if_neg (ho e l hl)]
  · rfl

/-- Token 0 is live for no port. -/
theorem State.liveLease_zero (s : State) (p : Port) : s.liveLease p ⟨0x00#8, 0x00#8⟩ = none := rfl

/-! ### Page maps -/

/-- Marking a run keeps the canonical form. -/
theorem markRun_wf (cond : PageCond) (first len : Nat) (m : List (Nat × PageCond)) {hi : Nat} (h : first + len ≤ hi)
    (hm : sparseWf .free 0 hi m = true) : sparseWf .free 0 hi (markRun cond first len m) = true := by
  induction len generalizing first m with
  | zero => exact hm
  | succ n ih => exact ih _ _ (by omega) (sparsePut_wf m first cond (by omega) (by omega) hm)

/-- The condition of a page after a run has been marked. -/
theorem pageCond_markRun (cond : PageCond) (first len : Nat) (m : List (Nat × PageCond)) {hi : Nat}
    (h : first + len ≤ hi) (hm : sparseWf .free 0 hi m = true) (page : Nat) :
    pageCond (markRun cond first len m) page =
      if first ≤ page ∧ page < first + len then cond else pageCond m page := by
  induction len generalizing first m with
  | zero =>
    have : ¬ (first ≤ page ∧ page < first + 0) := by omega
    simp only [markRun, if_neg this]
  | succ n ih =>
    simp only [markRun]
    rw [ih _ _ (by omega) (sparsePut_wf m first cond (by omega) (by omega) hm)]
    have hput : pageCond (sparsePut .free m first cond) page = if page = first then cond else pageCond m page :=
      sparseGet_put m first page cond hm
    rw [hput]
    split_ifs <;> first | rfl | (exfalso; omega)

end Sys2Proof.Machine
end

