-- ==== Sys2Proof/Laws/Ops.lean ====
section
/-! SUPPORT. What each shared operation can do: completions, notices, jobs, the freeing of an entry and the
grants that follow it. -/

namespace Sys2Proof.Machine

/-! ### Completions -/

/-- A completion lands in the slot of its own request, or it is dropped. -/
theorem complete_cases (tk : Ticket) (code : Status) (body : List Byte) (s : State) :
    (∃ kind b, (s.port tk.port).slots.get tk.tag = .pending tk.serial kind b
      ∧ complete tk code body s = s.setPort tk.port
          { s.port tk.port with
            slots := (s.port tk.port).slots.set tk.tag.val (.done ⟨code, body⟩) tk.tag.isLt
            fifo := (s.port tk.port).fifo ++ [tk.tag] })
    ∨ ((∀ kind b, (s.port tk.port).slots.get tk.tag ≠ .pending tk.serial kind b)
      ∧ complete tk code body s = s) := by
  cases hslot : (s.port tk.port).slots.get tk.tag with
  | free => exact .inr ⟨by simp, by simp [complete, hslot]⟩
  | done r => exact .inr ⟨by simp, by simp [complete, hslot]⟩
  | pending serial kind b =>
    by_cases hserial : serial = tk.serial
    · subst hserial
      exact .inl ⟨kind, b, rfl, by simp [complete, hslot]⟩
    · exact .inr ⟨by simp [hserial], by simp [complete, hslot, hserial]⟩

/-- A completion of a request that holds its slot. -/
theorem complete_of_pending {tk : Ticket} {s : State} {kind : Byte} {b : List Byte} (code : Status) (body : List Byte)
    (h : (s.port tk.port).slots.get tk.tag = .pending tk.serial kind b) :
    complete tk code body s = s.setPort tk.port
      { s.port tk.port with
        slots := (s.port tk.port).slots.set tk.tag.val (.done ⟨code, body⟩) tk.tag.isLt
        fifo := (s.port tk.port).fifo ++ [tk.tag] } := by
  obtain ⟨_, _, _, h'⟩ | ⟨hn, _⟩ := complete_cases tk code body s
  · exact h'
  · exact absurd h (hn _ _)

/-- A completion changes nothing but one port. -/
theorem complete_frame (tk : Ticket) (code : Status) (body : List Byte) (s : State) :
    complete tk code body s = { s with ports := (complete tk code body s).ports } := by
  obtain ⟨_, _, _, h⟩ | ⟨_, h⟩ := complete_cases tk code body s
  · rw [h]
    rfl
  · rw [h]

@[simp] theorem complete_pending (tk : Ticket) (code : Status) (body : List Byte) (s : State) :
    (complete tk code body s).pending = s.pending := by rw [complete_frame]

@[simp] theorem complete_supply (tk : Ticket) (code : Status) (body : List Byte) (s : State) :
    (complete tk code body s).supply = s.supply := by rw [complete_frame]
@[simp] theorem complete_resetLow (tk : Ticket) (code : Status) (body : List Byte) (s : State) :
    (complete tk code body s).resetLow = s.resetLow := by rw [complete_frame]

@[simp] theorem complete_straps (tk : Ticket) (code : Status) (body : List Byte) (s : State) :
    (complete tk code body s).straps = s.straps := by rw [complete_frame]

@[simp] theorem complete_dev (tk : Ticket) (code : Status) (body : List Byte) (s : State) :
    (complete tk code body s).dev = s.dev := by rw [complete_frame]

@[simp] theorem complete_clear (tk : Ticket) (code : Status) (body : List Byte) (s : State) :
    (complete tk code body s).clear = s.clear := by rw [complete_frame]

@[simp] theorem complete_serial (tk : Ticket) (code : Status) (body : List Byte) (s : State) :
    (complete tk code body s).serial = s.serial := by rw [complete_frame]

@[simp] theorem complete_store (tk : Ticket) (code : Status) (body : List Byte) (s : State) :
    (complete tk code body s).store = s.store := by rw [complete_frame]

@[simp] theorem complete_activeDir (tk : Ticket) (code : Status) (body : List Byte) (s : State) :
    (complete tk code body s).activeDir = s.activeDir := by rw [complete_frame]

@[simp] theorem complete_dirGen (tk : Ticket) (code : Status) (body : List Byte) (s : State) :
    (complete tk code body s).dirGen = s.dirGen := by rw [complete_frame]

@[simp] theorem complete_dirSlot (tk : Ticket) (code : Status) (body : List Byte) (s : State) :
    (complete tk code body s).dirSlot = s.dirSlot := by rw [complete_frame]

@[simp] theorem complete_pageMap (tk : Ticket) (code : Status) (body : List Byte) (s : State) :
    (complete tk code body s).pageMap = s.pageMap := by rw [complete_frame]

@[simp] theorem complete_records (tk : Ticket) (code : Status) (body : List Byte) (s : State) :
    (complete tk code body s).records = s.records := by rw [complete_frame]

@[simp] theorem complete_leases (tk : Ticket) (code : Status) (body : List Byte) (s : State) :
    (complete tk code body s).leases = s.leases := by rw [complete_frame]

@[simp] theorem complete_buffers (tk : Ticket) (code : Status) (body : List Byte) (s : State) :
    (complete tk code body s).buffers = s.buffers := by rw [complete_frame]

@[simp] theorem complete_allocQueue (tk : Ticket) (code : Status) (body : List Byte) (s : State) :
    (complete tk code body s).allocQueue = s.allocQueue := by rw [complete_frame]

@[simp] theorem complete_queue (tk : Ticket) (code : Status) (body : List Byte) (s : State) :
    (complete tk code body s).queue = s.queue := by rw [complete_frame]

@[simp] theorem complete_engine (tk : Ticket) (code : Status) (body : List Byte) (s : State) :
    (complete tk code body s).engine = s.engine := by rw [complete_frame]

@[simp] theorem complete_watches (tk : Ticket) (code : Status) (body : List Byte) (s : State) :
    (complete tk code body s).watches = s.watches := by rw [complete_frame]

@[simp] theorem complete_freeIndex (tk : Ticket) (code : Status) (body : List Byte) (s : State) :
    (complete tk code body s).freeIndex = s.freeIndex := by rw [complete_frame]

@[simp] theorem complete_record (tk : Ticket) (code : Status) (body : List Byte) (s : State) (h : Handle) :
    (complete tk code body s).record h = s.record h := by rw [complete_frame]; rfl

@[simp] theorem complete_lease (tk : Ticket) (code : Status) (body : List Byte) (s : State) (e : EntryNo) :
    (complete tk code body s).lease e = s.lease e := by rw [complete_frame]; rfl

@[simp] theorem complete_buffer (tk : Ticket) (code : Status) (body : List Byte) (s : State) (e : EntryNo) :
    (complete tk code body s).buffer e = s.buffer e := by rw [complete_frame]; rfl

@[simp] theorem complete_watchAt (tk : Ticket) (code : Status) (body : List Byte) (s : State) (n : WatchNo) :
    (complete tk code body s).watchAt n = s.watchAt n := by rw [complete_frame]; rfl

/-- A completion leaves every other port alone. -/
theorem complete_port_ne {tk : Ticket} {p : Port} (h : p ≠ tk.port) (code : Status) (body : List Byte) (s : State) :
    (complete tk code body s).port p = s.port p := by
  obtain ⟨_, _, _, h'⟩ | ⟨_, h'⟩ := complete_cases tk code body s <;> rw [h']
  rw [State.setPort_port, if_neg (Ne.symm h)]

/-- A completion leaves all of a port but its slots and its completion FIFO. -/
theorem complete_port (tk : Ticket) (code : Status) (body : List Byte) (s : State) (p : Port) :
    (complete tk code body s).port p =
      { s.port p with
        slots := ((complete tk code body s).port p).slots
        fifo := ((complete tk code body s).port p).fifo } := by
  obtain ⟨_, _, _, h⟩ | ⟨_, h⟩ := complete_cases tk code body s
  · rw [h, State.setPort_port]
    split
    · rename_i hp
      subst hp
      rfl
    · rfl
  · rw [h]

/-! ### Notices -/

/-- A notice changes nothing but the queue or the lost count of one port. -/
theorem postNotice_frame (p : Port) (n : Notice) (s : State) :
    postNotice p n s = { s with ports := (postNotice p n s).ports } := rfl

@[simp] theorem postNotice_pending (p : Port) (n : Notice) (s : State) : (postNotice p n s).pending = s.pending := rfl

@[simp] theorem postNotice_supply (p : Port) (n : Notice) (s : State) : (postNotice p n s).supply = s.supply := rfl
@[simp] theorem postNotice_resetLow (p : Port) (n : Notice) (s : State) : (postNotice p n s).resetLow = s.resetLow := rfl

@[simp] theorem postNotice_straps (p : Port) (n : Notice) (s : State) : (postNotice p n s).straps = s.straps := rfl

@[simp] theorem postNotice_dev (p : Port) (n : Notice) (s : State) : (postNotice p n s).dev = s.dev := rfl

@[simp] theorem postNotice_clear (p : Port) (n : Notice) (s : State) : (postNotice p n s).clear = s.clear := rfl

@[simp] theorem postNotice_serial (p : Port) (n : Notice) (s : State) : (postNotice p n s).serial = s.serial := rfl

@[simp] theorem postNotice_store (p : Port) (n : Notice) (s : State) : (postNotice p n s).store = s.store := rfl

@[simp] theorem postNotice_activeDir (p : Port) (n : Notice) (s : State) : (postNotice p n s).activeDir = s.activeDir := rfl

@[simp] theorem postNotice_dirGen (p : Port) (n : Notice) (s : State) : (postNotice p n s).dirGen = s.dirGen := rfl

@[simp] theorem postNotice_dirSlot (p : Port) (n : Notice) (s : State) : (postNotice p n s).dirSlot = s.dirSlot := rfl

@[simp] theorem postNotice_pageMap (p : Port) (n : Notice) (s : State) : (postNotice p n s).pageMap = s.pageMap := rfl

@[simp] theorem postNotice_records (p : Port) (n : Notice) (s : State) : (postNotice p n s).records = s.records := rfl

@[simp] theorem postNotice_leases (p : Port) (n : Notice) (s : State) : (postNotice p n s).leases = s.leases := rfl

@[simp] theorem postNotice_buffers (p : Port) (n : Notice) (s : State) : (postNotice p n s).buffers = s.buffers := rfl

@[simp] theorem postNotice_allocQueue (p : Port) (n : Notice) (s : State) : (postNotice p n s).allocQueue = s.allocQueue := rfl

@[simp] theorem postNotice_queue (p : Port) (n : Notice) (s : State) : (postNotice p n s).queue = s.queue := rfl

@[simp] theorem postNotice_engine (p : Port) (n : Notice) (s : State) : (postNotice p n s).engine = s.engine := rfl

@[simp] theorem postNotice_watches (p : Port) (n : Notice) (s : State) : (postNotice p n s).watches = s.watches := rfl

@[simp] theorem postNotice_freeIndex (p : Port) (n : Notice) (s : State) : (postNotice p n s).freeIndex = s.freeIndex := rfl

theorem postNotice_port (p q : Port) (n : Notice) (s : State) :
    (postNotice p n s).port q = if p = q then (s.port p).post n else s.port q :=
  State.setPort_port s p q _

/-- A posted notice leaves all of a port but its queue and its lost count. -/
theorem PortState.post_frame (x : PortState) (n : Notice) :
    x.post n = { x with notices := (x.post n).notices, lost := (x.post n).lost } := by
  unfold PortState.post
  split <;> rfl

/-- One notice to each port. -/
theorem postAll_port (n : Notice) (s : State) (q : Port) : (postAll n s).port q = (s.port q).post n := by
  cases q <;> rfl

theorem postAll_frame (n : Notice) (s : State) : postAll n s = { s with ports := (postAll n s).ports } := rfl

/-! ### Hand-over and admission -/

/-- What the oldest placed request of a port is. -/
theorem State.oldestPlaced_eq {s : State} {p : Port} {t : Tag} {serial : Nat} {kind : Byte} {body : List Byte}
    (h : (s.port p).handOrder.head? = some t) (hs : (s.port p).slots.get t = .pending serial kind body) :
    s.oldestPlaced p = some (⟨p, t, serial⟩, kind, body) := by
  unfold State.oldestPlaced
  cases ho : (s.port p).handOrder with
  | nil => simp [ho] at h
  | cons u rest =>
    have : u = t := by simpa [ho] using h
    subst this
    simp only [hs]

theorem State.oldestRequest_eq {s : State} {p : Port} {t : Tag} {serial : Nat} {kind : Byte} {body : List Byte} {r : Req}
    (h : (s.port p).handOrder.head? = some t) (hs : (s.port p).slots.get t = .pending serial kind body)
    (hr : parseReq kind body = some r) : s.oldestRequest p = some (⟨p, t, serial⟩, r) := by
  simp only [State.oldestRequest, State.oldestPlaced_eq h hs, hr]

/-- The oldest request of a port holds its slot, under its own serial. -/
theorem State.oldestRequest_slot {s : State} {p : Port} {tk : Ticket} {r : Req} (h : s.oldestRequest p = some (tk, r)) :
    tk.port = p ∧ (s.port p).handOrder.head? = some tk.tag
      ∧ ∃ kind body, (s.port p).slots.get tk.tag = .pending tk.serial kind body ∧ parseReq kind body = some r := by
  unfold State.oldestRequest State.oldestPlaced at h
  cases ho : (s.port p).handOrder with
  | nil => simp [ho] at h
  | cons u rest =>
    cases hs : (s.port p).slots.get u with
    | free => simp [ho, hs] at h
    | done r' => simp [ho, hs] at h
    | pending serial kind body =>
      cases hr : parseReq kind body with
      | none => simp [ho, hs, hr] at h
      | some r' =>
        simp only [ho, hs, hr, Option.some.injEq, Prod.mk.injEq] at h
        obtain ⟨rfl, rfl⟩ := h
        exact ⟨rfl, rfl, kind, body, hs, hr⟩

/-- Admission does not look at the ports' own state: the hand-over does not change it. -/
theorem admission_handOver (s : State) (p q : Port) (r : Req) : admission (handOver p s) q r = admission s q r := rfl

theorem serve_refused {s : State} {p : Port} {tk : Ticket} {r : Req} {owner : State → State} {code : Status}
    (h : admission s p r = some code) : serve p tk r owner s = complete tk code [] s := by
  simp only [serve, h]

theorem serve_taken {s : State} {p : Port} {tk : Ticket} {r : Req} {owner : State → State}
    (h : admission s p r = none) : serve p tk r owner s = owner s := by
  simp only [serve, h]

/-! ### Jobs -/

/-- A job joins the tail, and starts at once on an IDLE engine. -/
theorem handJob_eq (j : Job) (s : State) :
    handJob j s = { s with
      queue := s.queue ++ [j]
      engine := if s.engine = .idle then .programming 1 false else s.engine } := by
  unfold handJob
  split
  · rename_i h
    simp [h]
  · rename_i h
    have hn : s.engine ≠ .idle := fun hi => h hi
    simp [hn]

theorem startNext_eq (s : State) :
    startNext s = { s with engine := if s.queue = [] then .idle else .programming 1 false } := by
  unfold startNext
  split <;> simp_all

theorem reportDrained_eq_self {s : State} (h : s.clear = none) : reportDrained s = s := by
  simp [reportDrained, h]

/-! ### Freeing and granting -/

/-- A freed entry is FREE with an empty buffer, and nothing else has changed. -/
theorem freeLease_eq (e : EntryNo) (s : State) :
    freeLease e s = (s.setLease e { s.lease e with lease := none }).setBuffer e ⟨List.replicate 240 0x00#8, false⟩ :=
  rfl

/-- When no request waits for an entry, freeing it grants nothing. -/
theorem grantOnward_none {s : State} {h : Handle} (e : EntryNo) (ha : s.allocQueue = [])
    (hw : (s.record h).waiters = []) : grantOnward e h s = s := by
  have hs : { s with allocQueue := [] } = s := by rw [← ha]
  have hr : s.setWaiters h [] = s := by
    rw [← hw]
    exact State.setWaiters_self s h
  unfold grantOnward
  rw [ha]
  simp only [grantFromAlloc, hs]
  split
  · rfl
  · rw [hw]
    simp only [grantFromQueue, hr]

/-- An explicit grant changes one entry, its buffer and the port of the ACQUIRE. -/
theorem grantExplicit_frame (e : EntryNo) (h : Handle) (tk : Ticket) (s : State) :
    grantExplicit e h tk s =
      { s with
        ports := (grantExplicit e h tk s).ports
        leases := (grantExplicit e h tk s).leases
        buffers := (grantExplicit e h tk s).buffers } := by
  unfold grantExplicit
  rw [complete_frame]
  rfl

/-- An implicit grant changes one entry and its buffer, and queues a job. -/
theorem grantImplicit_frame (e : EntryNo) (h : Handle) (tk : Ticket) (delta : Word32) (s : State) :
    grantImplicit e h tk delta s =
      { s with
        leases := (grantImplicit e h tk delta s).leases
        buffers := (grantImplicit e h tk delta s).buffers
        queue := (grantImplicit e h tk delta s).queue
        engine := (grantImplicit e h tk delta s).engine } := by
  unfold grantImplicit
  rw [handJob_eq]
  rfl

/-- What the waiters of one record being tried for an entry can change. -/
theorem grantFromQueue_frame (e : EntryNo) (h : Handle) (ws : List Waiter) (s : State) :
    (grantFromQueue e h ws s).1 =
      { s with
        ports := (grantFromQueue e h ws s).1.ports
        records := (grantFromQueue e h ws s).1.records
        leases := (grantFromQueue e h ws s).1.leases
        buffers := (grantFromQueue e h ws s).1.buffers
        queue := (grantFromQueue e h ws s).1.queue
        engine := (grantFromQueue e h ws s).1.engine } := by
  induction ws generalizing s with
  | nil => rfl
  | cons w ws ih =>
    unfold grantFromQueue
    cases w.type with
    | acquire left =>
      simp only
      rw [grantExplicit_frame]
      rfl
    | add delta =>
      simp only
      split
      · rw [ih, complete_frame]
      · rw [grantImplicit_frame]
        rfl

/-- What the records of the allocation queue being tried for an entry can change. -/
theorem grantFromAlloc_frame (e : EntryNo) (hs : List Handle) (s : State) :
    (grantFromAlloc e hs s).1 =
      { s with
        ports := (grantFromAlloc e hs s).1.ports
        records := (grantFromAlloc e hs s).1.records
        leases := (grantFromAlloc e hs s).1.leases
        buffers := (grantFromAlloc e hs s).1.buffers
        allocQueue := (grantFromAlloc e hs s).1.allocQueue
        queue := (grantFromAlloc e hs s).1.queue
        engine := (grantFromAlloc e hs s).1.engine } := by
  induction hs generalizing s with
  | nil => rfl
  | cons h hs ih =>
    have hq := grantFromQueue_frame e h (s.record h).waiters s
    unfold grantFromAlloc
    generalize grantFromQueue e h (s.record h).waiters s = r at hq ⊢
    obtain ⟨s1, b⟩ := r
    cases b with
    | true =>
      simp only at hq ⊢
      rw [hq]
    | false =>
      simp only at hq ⊢
      rw [ih, hq]

/-- What a freed entry granted onward can change: ports, wait queues, the lease table, the buffers, the
allocation queue and the commit queue; never a notice, the store, the directory or the device state. -/
theorem grantOnward_frame (e : EntryNo) (h : Handle) (s : State) :
    grantOnward e h s =
      { s with
        ports := (grantOnward e h s).ports
        records := (grantOnward e h s).records
        leases := (grantOnward e h s).leases
        buffers := (grantOnward e h s).buffers
        allocQueue := (grantOnward e h s).allocQueue
        queue := (grantOnward e h s).queue
        engine := (grantOnward e h s).engine } := by
  have ha := grantFromAlloc_frame e s.allocQueue s
  unfold grantOnward
  generalize grantFromAlloc e s.allocQueue s = r at ha ⊢
  obtain ⟨s1, b⟩ := r
  cases b with
  | true =>
    simp only at ha ⊢
    split
    · unfold joinAlloc
      rw [ha]
    · rw [ha]
  | false =>
    simp only at ha ⊢
    split
    · rw [ha]
    · rw [grantFromQueue_frame, ha]

end Sys2Proof.Machine
end

