-- ==== Sys2Proof/Laws/Grants.lean ====
section
/-! SUPPORT. What a freed lease entry, granted onward, does (03, R53, R55, R56), in the words of the statements, and
what a page operation that is cut short can leave (02, R25, R26). -/

namespace Sys2Proof.Machine

open Sys2Proof.Safety

/-! ### Answers -/

theorem complete_eq_answeredIf (tk : Ticket) (code : Status) (body : List Byte) (s : State) :
    complete tk code body s = answeredIf s tk code body := rfl

theorem answerAll_eq_answeredAll (code : Status) (ws : List Waiter) (s : State) :
    answerAll code ws s = answeredAll s code (ws.map fun w => w.ticket) := by
  simp only [answerAll, answeredAll, List.foldl_map]
  rfl

theorem answeredIf_frame (s : State) (tk : Ticket) (code : Status) (body : List Byte) :
    answeredIf s tk code body = { s with ports := (answeredIf s tk code body).ports } := by
  rw [← complete_eq_answeredIf]
  exact complete_frame tk code body s

/-- Answers change nothing but the ports. -/
theorem answeredAll_frame (s : State) (code : Status) (tks : List Ticket) :
    answeredAll s code tks = { s with ports := (answeredAll s code tks).ports } := by
  induction tks generalizing s with
  | nil => rfl
  | cons tk tks ih =>
    have h : answeredAll s code (tk :: tks) = answeredAll (answeredIf s tk code []) code tks := rfl
    rw [h, ih, answeredIf_frame]

@[simp] theorem answeredIf_record (s : State) (tk : Ticket) (code : Status) (body : List Byte) (h : Handle) :
    (answeredIf s tk code body).record h = s.record h := by rw [answeredIf_frame]; rfl

@[simp] theorem answeredAll_record (s : State) (code : Status) (tks : List Ticket) (h : Handle) :
    (answeredAll s code tks).record h = s.record h := by rw [answeredAll_frame]; rfl

theorem answeredIf_setWaiters (s : State) (h : Handle) (ws : List Waiter) (tk : Ticket) (code : Status)
    (body : List Byte) : answeredIf (s.setWaiters h ws) tk code body = (answeredIf s tk code body).setWaiters h ws := by
  have hp : (s.setWaiters h ws).port = s.port := rfl
  unfold answeredIf
  rw [hp]
  cases (s.port tk.port).slots.get tk.tag with
  | free => rfl
  | done r => rfl
  | pending serial kind b =>
    by_cases hs : serial = tk.serial
    · simp only [hs, if_true]
      rfl
    · simp only [hs, if_false]

theorem answeredAll_setWaiters (s : State) (h : Handle) (ws : List Waiter) (code : Status) (tks : List Ticket) :
    answeredAll (s.setWaiters h ws) code tks = (answeredAll s code tks).setWaiters h ws := by
  induction tks generalizing s with
  | nil => rfl
  | cons tk tks ih =>
    have h1 : ∀ y, answeredAll y code (tk :: tks) = answeredAll (answeredIf y tk code []) code tks := fun _ => rfl
    rw [h1, h1, answeredIf_setWaiters, ih]

/-! ### One grant -/

/-- The sum of an ADD in the words of 04, R77: the exact sum, clamped, and whether it was. -/
theorem addDelta_eq (value delta : Word32) :
    addDelta value delta = (clampedValue value delta, decide (Clamps value delta)) := by
  unfold addDelta clampedValue Clamps
  simp only
  split
  · rename_i h
    rw [show max (0 : Int) (min ((value.toNat : Int) + delta.toInt) 4294967295) = 0 by omega]
    simp [h]
  · split
    · rename_i h1 h2
      rw [show max (0 : Int) (min ((value.toNat : Int) + delta.toInt) 4294967295) = 4294967295 by omega]
      simp [show (4294967295 : Int) < (value.toNat : Int) + delta.toInt by omega]
    · rename_i h1 h2
      rw [show max (0 : Int) (min ((value.toNat : Int) + delta.toInt) 4294967295) = (value.toNat : Int) + delta.toInt by
        omega]
      have hc : ¬ ((value.toNat : Int) + delta.toInt < 0 ∨ 4294967295 < (value.toNat : Int) + delta.toInt) := by omega
      simp only [hc, decide_false, Prod.mk.injEq, and_true]
      obtain ⟨n, hn⟩ := Int.eq_ofNat_of_zero_le (show 0 ≤ (value.toNat : Int) + delta.toInt by omega)
      rw [hn]
      simp

/-- The copy that a job programs, in the words of the statements. -/
theorem targetCopy_eq_target (c : Option Copy) : targetCopy c = target c := by
  cases c with
  | none => rfl
  | some c => cases c <;> rfl

theorem State.entryOf_eq {s : State} {h : Handle} {x : RecEntry} (hx : Defined s h x) : s.entryOf h = x := by
  simp only [State.entryOf, hx, Option.getD_some]

/-- A grant to a waiting ACQUIRE (03, R53). -/
theorem grantExplicit_eq (s : State) (e : EntryNo) (h : Handle) (x : RecEntry) (tk : Ticket) (left : Nat)
    (hx : Defined s h x) : grantExplicit e h tk s = grantedTo s e h x ⟨tk, .acquire left⟩ := by
  unfold grantExplicit grantLease
  simp only [complete_eq_answeredIf, State.entryOf_eq hx, tokenOf, acquireBody, tokenBytes, explicitLease,
    State.rightsOf, State.setBuffer_lease, State.setLease_lease]
  rfl

/-- A grant to a waiting ADD whose record is not at a spent generation (03, R55). -/
theorem grantImplicit_eq (s : State) (e : EntryNo) (h : Handle) (x : RecEntry) (tk : Ticket) (delta : Word32)
    (hx : Defined s h x) : grantImplicit e h tk delta s = grantedTo s e h x ⟨tk, .add delta⟩ := by
  unfold grantImplicit
  simp only [addDelta_eq, handJob_eq]
  unfold grantLease grantedTo withJob State.recordJob
  simp only [targetCopy_eq_target, implicitLease, State.rightsOf]
  have h1 : ∀ y z, ((s.setLease e y).setBuffer e z).entryOf h = x := fun _ _ => State.entryOf_eq hx
  rw [h1, State.entryOf_eq hx]
  rfl

/-! ### The waiters of one record -/

theorem addType_of_spent {s : State} {h : Handle} {w : Waiter} (hw : Spent s h w) : ∃ delta, w.type = .add delta := by
  have := hw.2
  unfold isAdd at this
  split at this
  · exact ⟨_, by assumption⟩
  · cases this

/-- The waiters at the head that a grant refuses are answered GEN_SPENT, and the next ones are tried. -/
theorem grantFromQueue_refused (e : EntryNo) (h : Handle) (before ws : List Waiter) (s : State)
    (hb : ∀ v ∈ before, Spent s h v) :
    grantFromQueue e h (before ++ ws) s =
      grantFromQueue e h ws (answeredAll s .genSpent (before.map fun w => w.ticket)) := by
  induction before generalizing s with
  | nil => rfl
  | cons v before ih =>
    have hv := hb v (List.mem_cons_self ..)
    obtain ⟨delta, ht⟩ := addType_of_spent hv
    have hg : (s.record h).gen = genSpentMark := hv.1
    have hstep : grantFromQueue e h (v :: before ++ ws) s =
        grantFromQueue e h (before ++ ws) (answeredIf s v.ticket .genSpent []) := by
      rw [List.cons_append, grantFromQueue, ht]
      simp only [hg, if_true]
      rfl
    rw [hstep, ih]
    · rfl
    · intro u hu
      have := hb u (List.mem_cons_of_mem _ hu)
      simpa only [Spent, answeredIf_record] using this

/-- A waiter that a grant does not refuse is granted. -/
theorem grantFromQueue_granted (e : EntryNo) (h : Handle) (w : Waiter) (ws : List Waiter) (s : State) (x : RecEntry)
    (hw : ¬ Spent s h w) (hx : Defined s h x) :
    grantFromQueue e h (w :: ws) s = (grantedTo (s.setWaiters h ws) e h x w, true) := by
  have hx' : Defined (s.setWaiters h ws) h x := by
    unfold Defined State.setWaiters
    simpa using hx
  obtain ⟨tk, type⟩ := w
  unfold grantFromQueue
  cases type with
  | acquire left => simp only [grantExplicit_eq _ e h x tk left hx']
  | add delta =>
    have hg : ¬ (s.record h).gen = genSpentMark := fun hg => hw ⟨hg, rfl⟩
    simp only [hg, if_false, grantImplicit_eq _ e h x tk delta hx']

/-- Waiters of whom the first that a grant does not refuse is `w`. -/
theorem grantFromQueue_first (e : EntryNo) (h : Handle) (before after : List Waiter) (w : Waiter) (s : State)
    (x : RecEntry) (hb : ∀ v ∈ before, Spent s h v) (hw : ¬ Spent s h w) (hx : Defined s h x) :
    grantFromQueue e h (before ++ w :: after) s = (grantedTo (refused s h before after) e h x w, true) := by
  rw [grantFromQueue_refused e h before _ s hb, grantFromQueue_granted e h w after _ x]
  · rw [refused, answeredAll_setWaiters]
  · simpa only [Spent, answeredAll_record] using hw
  · simpa only [Defined, answeredAll_record] using hx

/-- Waiters that are all refused. -/
theorem grantFromQueue_allRefused (e : EntryNo) (h : Handle) (ws : List Waiter) (s : State)
    (hb : ∀ v ∈ ws, Spent s h v) : grantFromQueue e h ws s = (refused s h ws [], false) := by
  have := grantFromQueue_refused e h ws [] s hb
  rw [List.append_nil] at this
  rw [this, grantFromQueue, refused, answeredAll_setWaiters]

/-! ### The allocation queue -/

theorem refused_record_ne (s : State) {h k : Handle} (ws rest : List Waiter) (hk : k ≠ h) :
    (refused s h ws rest).record k = s.record k := by
  simp only [refused, answeredAll_record, State.setWaiters, State.setRecord_record, if_neg (Ne.symm hk)]

theorem refused_gen (s : State) (h k : Handle) (ws rest : List Waiter) :
    ((refused s h ws rest).record k).gen = (s.record k).gen := by
  by_cases hk : k = h
  · subst hk
    simp [refused, State.setWaiters]
  · rw [refused_record_ne s ws rest hk]

theorem allSpent_refused {s : State} {h j : Handle} (hj : AllSpent s j) :
    AllSpent (Safety.refused s h (s.record h).waiters []) j := by
  intro w hw
  by_cases hk : j = h
  · subst hk
    simp [Safety.refused, State.setWaiters] at hw
  · rw [refused_record_ne s _ _ hk] at hw
    have := hj w hw
    simpa only [Spent, refused_gen] using this

theorem emptied_cons (s : State) (h : Handle) (hs : List Handle) :
    emptied s (h :: hs) = emptied (Safety.refused s h (s.record h).waiters []) hs := rfl

theorem emptied_record (s : State) (hs : List Handle) (k : Handle) (hk : k ∉ hs) :
    (emptied s hs).record k = s.record k := by
  induction hs generalizing s with
  | nil => rfl
  | cons h hs ih =>
    have hn := not_or.mp (fun h => hk (List.mem_cons.mpr h))
    rw [emptied_cons, ih _ hn.2, refused_record_ne s _ _ hn.1]

/-- Records of the allocation queue all of whose waiters are refused are passed over. -/
theorem grantFromAlloc_refused (e : EntryNo) (spents rest : List Handle) (s : State) (hs : ∀ j ∈ spents, AllSpent s j) :
    grantFromAlloc e (spents ++ rest) s = grantFromAlloc e rest (emptied s spents) := by
  induction spents generalizing s with
  | nil => rfl
  | cons j spents ih =>
    have hj := hs j (List.mem_cons_self ..)
    have hstep : grantFromAlloc e (j :: spents ++ rest) s =
        grantFromAlloc e (spents ++ rest) (Safety.refused s j (s.record j).waiters []) := by
      rw [List.cons_append, grantFromAlloc, grantFromQueue_allRefused e j _ s hj]
    rw [hstep, ih, emptied_cons]
    exact fun i hi => allSpent_refused (hs i (List.mem_cons_of_mem _ hi))

theorem grantFromAlloc_none (e : EntryNo) (s : State) (hs : ∀ j ∈ s.allocQueue, AllSpent s j) :
    grantFromAlloc e s.allocQueue s = ({ emptied s s.allocQueue with allocQueue := [] }, false) := by
  have := grantFromAlloc_refused e s.allocQueue [] s hs
  rw [List.append_nil] at this
  rw [this]
  rfl

theorem grantFromAlloc_first (e : EntryNo) (spents hs : List Handle) (k : Handle) (before after : List Waiter)
    (w : Waiter) (s : State) (x : RecEntry) (hs' : ∀ j ∈ spents, AllSpent s j) (hk : k ∉ spents)
    (hw : (s.record k).waiters = before ++ w :: after) (hb : ∀ v ∈ before, Spent s k v) (hn : ¬ Spent s k w)
    (hx : Defined s k x) :
    grantFromAlloc e (spents ++ k :: hs) s =
      ({ grantedTo (Safety.refused (emptied s spents) k before after) e k x w with allocQueue := hs }, true) := by
  have hr := emptied_record s spents k hk
  rw [grantFromAlloc_refused e spents _ s hs', grantFromAlloc, hr, hw,
    grantFromQueue_first e k before after w (emptied s spents) x]
  · intro v hv
    have := hb v hv
    simpa only [Spent, hr] using this
  · simpa only [Spent, hr] using hn
  · simpa only [Defined, hr] using hx

/-! ### A freed entry -/

theorem grantedTo_record (s : State) (e : EntryNo) (h : Handle) (x : RecEntry) (w : Waiter) (k : Handle) :
    (grantedTo s e h x w).record k = s.record k := by
  obtain ⟨tk, type⟩ := w
  cases type with
  | acquire left => simp only [grantedTo, answeredIf_record]; rfl
  | add delta => rfl

/-- A freed entry is granted onward as 03, R56 says, case by case. -/
theorem grantOnward_spec (s : State) (e : EntryNo) (h : Handle) : GrantedOnward s e h (grantOnward e h s) where
  queued spents k hs before w after x hq hh hk hs' hw hb hn hx := by
    have hne : h ≠ k := by
      rintro rfl
      exact hh (by rw [hq]; simp)
    have hsp : h ∉ spents := fun hm => hh (by rw [hq]; exact List.mem_append_left _ hm)
    have hr : (grantedTo (Safety.refused (emptied s spents) k before after) e k x w).record h = s.record h := by
      rw [grantedTo_record, refused_record_ne _ _ _ hne, emptied_record s spents h hsp]
    unfold grantOnward
    rw [hq, grantFromAlloc_first e spents hs k before after w s x hs' hk hw hb hn hx]
    simp only
    have hr' : ∀ q, ({ grantedTo (Safety.refused (emptied s spents) k before after) e k x w with
        allocQueue := q } : State).record h = s.record h := fun _ => hr
    rw [hr']
    split <;> rfl
  own before w after x hh hs' hf hw hb hn hx := by
    have hr : ({ emptied s s.allocQueue with allocQueue := [] } : State).record h = s.record h :=
      emptied_record s s.allocQueue h hh
    unfold grantOnward
    rw [grantFromAlloc_none e s hs']
    simp only [hr, hf, Bool.false_eq_true, if_false]
    rw [hw, grantFromQueue_first e h before after w _ x]
    · intro v hv
      have := hb v hv
      simpa only [Spent, hr] using this
    · simpa only [Spent, hr] using hn
    · simpa only [Defined, hr] using hx
  none hh hs' := by
    have hr : ({ emptied s s.allocQueue with allocQueue := [] } : State).record h = s.record h :=
      emptied_record s s.allocQueue h hh
    unfold grantOnward
    rw [grantFromAlloc_none e s hs']
    simp only [hr]
    constructor
    · intro hf
      simp [hf]
    · intro hf ha
      simp only [hf, Bool.false_eq_true, if_false]
      rw [grantFromQueue_allRefused e h]
      intro v hv
      have := ha v hv
      simpa only [Spent, hr] using this

/-- The waiters of a FREEZE's record that did not become frozen are served as 01, R21 says, case by case. -/
theorem freezeReturn_spec (s : State) (j : DirJob) : WaitersEligible s j (freezeReturn j s) where
  other h := by
    unfold freezeReturn
    split
    · rename_i hop
      rcases h with h | h
      · exact absurd hop h
      · rw [if_pos h]
    · rfl
  granted e before w after x hop he hw hb hn hx := by
    have hne : (s.record j.handle).waiters ≠ [] := by simp [hw]
    simp only [freezeReturn, hop, if_neg hne, State.lowestFree_eq he.1 he.2]
    rw [hw, grantFromQueue_first e j.handle before after w s x hb hn hx]
  refusedAll e hop he hs := by
    simp only [freezeReturn, hop, State.lowestFree_eq he.1 he.2]
    split
    · rename_i h
      simp only [refused, h, List.map_nil]
      rw [← h]
      exact (State.setWaiters_self s j.handle).symm
    · rw [grantFromQueue_allRefused e j.handle _ s hs]
  queued hop hw he := by
    simp only [freezeReturn, hop, if_neg hw, State.lowestFree_none he]
    rfl

/-! ### Pages cut short -/

/-- A page operation cut short leaves the old page or free bytes in it, which only an allowed outcome may be; no other
page and no other field changes. -/
theorem spoilPage_cases (page : Nat) (whole : List Byte) (s : State) :
    ∃ m, spoilPage page whole s = { s with store := m, freeIndex := s.freeIndex + 32 }
      ∧ (m = s.store
        ∨ (m = Memory.writePage s.store page s.freeBytes
          ∧ outcomeAllowed s.store (Memory.writePage s.store page whole) m = true)) := by
  unfold spoilPage
  simp only
  split
  · rename_i h
    exact ⟨_, rfl, .inr ⟨rfl, h⟩⟩
  · exact ⟨_, rfl, .inl rfl⟩

/-- A page operation cut short leaves every other page alone. -/
theorem spoilPage_read (page : Nat) (whole : List Byte) (s : State) {a : Nat} (h : a / 32 ≠ page) :
    Memory.read (spoilPage page whole s).store a = Memory.read s.store a := by
  obtain ⟨m, he, hm | ⟨hm, _⟩⟩ := spoilPage_cases page whole s
  · rw [he, hm]
  · rw [he, hm]
    exact Memory.read_writePage_outside _ _ _ _ h

/-- A directory region that is valid after a page operation cut short holds what it held before or what the finished
operation leaves (02, R35, R41). -/
theorem spoilPage_region (page : Nat) (whole : List Byte) (s : State) {c : Copy}
    (hv : regionValid (spoilPage page whole s).store c = true) :
    ∃ m, (m = s.store ∨ m = Memory.writePage s.store page whole)
      ∧ regionBytes (spoilPage page whole s).store c = regionBytes m c := by
  obtain ⟨m, he, hm | ⟨_, ho⟩⟩ := spoilPage_cases page whole s
  · exact ⟨s.store, .inl rfl, by rw [he, hm]⟩
  · rw [he] at hv ⊢
    have hc : regionAllowed s.store (Memory.writePage s.store page whole) m c = true := by
      simp only [outcomeAllowed, Bool.and_eq_true] at ho
      cases c
      · exact ho.1.1
      · exact ho.1.2
    simp only [regionAllowed, show regionValid m c = true from hv, Bool.not_true, Bool.false_or, Bool.or_eq_true,
      beq_iff_eq] at hc
    rcases hc with hc | hc
    · exact ⟨_, .inl rfl, hc⟩
    · exact ⟨_, .inr rfl, hc⟩

@[simp] theorem scanRecord_entry (store : List Host.Cell) (h : Handle) (x : Option RecEntry) :
    (scanRecord store h x).entry = x := by
  cases x <;> rfl

/-- The scan gives every handle the entry of the chosen region (09, R160). -/
theorem takeRegion_entriesRead (c : Copy) (s : State) : EntriesRead (takeRegion c s) s.store c := by
  intro h
  unfold takeRegion State.record
  simp only [tabulate_get, scanRecord_entry, readEntries, entrySlice]
  rw [List.getD_eq_getElem?_getD, List.getElem?_map, List.getElem?_range h.isLt]
  rfl

/-- A bulk erase cut short: the pages its sweeps have passed are erased, the next is indeterminate, and the others are
as they were (09, R167, R169). -/
theorem abandonErase_read {s : State} {tk : Ticket} (hc : s.clear = some ⟨tk, .erasing⟩) {n a : Nat}
    (hn : n = Config.freeSweep s.freeIndex % 2049) (ha : sweptWithin n (a / 32) = true ∨ a / 32 ≠ sweepPage n) :
    Memory.read (abandonErase s).store a = if sweptWithin n (a / 32) = true then 0xFF#8 else Memory.read s.store a := by
  unfold abandonErase
  simp only [hc, ← hn]
  split
  · rename_i hlt
    have hp : a / 32 ≠ sweepPage n := by
      rcases ha with ha | ha
      · simp only [sweptWithin, decide_eq_true_eq] at ha
        unfold sweepPage
        omega
      · exact ha
    rw [spoilPage_read _ _ _ hp]
    exact Memory.read_sweep s.store n a
  · exact Memory.read_sweep s.store n a

theorem sampleStraps_frame (straps : Straps) (s : State) :
    sampleStraps straps s = { s with straps := if s.active then straps else s.straps } := by
  unfold sampleStraps
  split <;> rfl

end Sys2Proof.Machine
end

