-- ==== Sys2Proof/WellFormed.lean ====
section
/-! DEFINITION. Which commands the bus can bring: the one operand range that the types of `Instr` do
not already hold is that an unknown code byte names none of the four transaction kinds. -/

namespace Sys2Proof

/-- C1h SUBMIT, C2h FETCH-RESPONSE, C3h FETCH-NOTICE, C4h STATUS (10, R171). -/
def isTransactionCode (code : Byte) : Bool :=
  code == 0xC1#8 || code == 0xC2#8 || code == 0xC3#8 || code == 0xC4#8

/-- A command with every operand in its range. -/
def WellFormed : Instr → Bool
  | .unknownCodeByte _ code _ => !isTransactionCode code
  | .powerUp _ | .powerLoss | .resetnAssert | .resetnRelease _ | .scanEnd
  | .submit _ _ | .fetchResponse _ _ | .fetchNotice _ _ | .status _ _
  | .readCommitted _ | .readWithToken _ | .acquire _ | .stage _ | .addWithToken _
  | .addWithoutToken _ | .commit _ | .release _ | .renew _ | .cancel _
  | .watch _ | .unwatch _ | .inquire _ | .define _ | .retire _ | .setRights _
  | .freeze _ | .deviceInfo _ | .setAttention _ | .portReset _
  | .unknownRequestKind _ | .factoryClear _ | .bulkEraseEnd | .holdExpiry _
  | .waitExpiry _ _ | .pageMatch | .pageMismatch | .eraseEnd | .readSelection _ _ _ => true

end Sys2Proof
end

