-- ==== Sys2Proof/Laws/PerInstr.lean ====
section
/-! SUPPORT. What is said of each command as syntax, one lemma for each constructor of `Instr`. -/

namespace Sys2Proof.Laws.OperandRange

/-- A command is well formed exactly when an unknown code byte, if it has one, is none of the four known codes
(07, R121; 10, R171). -/
def Statement (i : Instr) : Prop :=
  WellFormed i = true ↔
    ∀ p code extra, i = .unknownCodeByte p code extra →
      code ≠ 0xC1#8 ∧ code ≠ 0xC2#8 ∧ code ≠ 0xC3#8 ∧ code ≠ 0xC4#8

/-- A command of any other kind is well formed whatever its operands. -/
theorem of_known {i : Instr} (hw : WellFormed i = true) (hi : ∀ p code extra, i ≠ .unknownCodeByte p code extra) :
    Statement i :=
  ⟨fun _ p code extra h => absurd h (hi p code extra), fun _ => hw⟩

theorem powerUp (straps : Straps) : Statement (.powerUp straps) := of_known rfl nofun

theorem powerLoss : Statement .powerLoss := of_known rfl nofun

theorem resetnAssert : Statement .resetnAssert := of_known rfl nofun

theorem resetnRelease (straps : Straps) : Statement (.resetnRelease straps) := of_known rfl nofun

theorem scanEnd : Statement .scanEnd := of_known rfl nofun

theorem unknownCodeByte (p : Port) (code : Byte) (extra : Nat) : Statement (.unknownCodeByte p code extra) := by
  simp only [Statement, WellFormed, isTransactionCode, Bool.not_eq_true', Bool.or_eq_false_iff, beq_eq_false_iff_ne,
    ne_eq, Instr.unknownCodeByte.injEq]
  constructor
  · rintro ⟨⟨⟨h1, h2⟩, h3⟩, h4⟩ q c n ⟨-, rfl, -⟩
    exact ⟨h1, h2, h3, h4⟩
  · intro h
    obtain ⟨h1, h2, h3, h4⟩ := h p code extra ⟨rfl, rfl, rfl⟩
    exact ⟨⟨⟨h1, h2⟩, h3⟩, h4⟩

theorem submit (p : Port) (frame : List Byte) : Statement (.submit p frame) := of_known rfl nofun

theorem fetchResponse (p : Port) (n : Nat) : Statement (.fetchResponse p n) := of_known rfl nofun

theorem fetchNotice (p : Port) (n : Nat) : Statement (.fetchNotice p n) := of_known rfl nofun

theorem status (p : Port) (n : Nat) : Statement (.status p n) := of_known rfl nofun

theorem readCommitted (p : Port) : Statement (.readCommitted p) := of_known rfl nofun

theorem readWithToken (p : Port) : Statement (.readWithToken p) := of_known rfl nofun

theorem acquire (p : Port) : Statement (.acquire p) := of_known rfl nofun

theorem stage (p : Port) : Statement (.stage p) := of_known rfl nofun

theorem addWithToken (p : Port) : Statement (.addWithToken p) := of_known rfl nofun

theorem addWithoutToken (p : Port) : Statement (.addWithoutToken p) := of_known rfl nofun

theorem commit (p : Port) : Statement (.commit p) := of_known rfl nofun

theorem release (p : Port) : Statement (.release p) := of_known rfl nofun

theorem renew (p : Port) : Statement (.renew p) := of_known rfl nofun

theorem cancel (p : Port) : Statement (.cancel p) := of_known rfl nofun

theorem watch (p : Port) : Statement (.watch p) := of_known rfl nofun

theorem unwatch (p : Port) : Statement (.unwatch p) := of_known rfl nofun

theorem inquire (p : Port) : Statement (.inquire p) := of_known rfl nofun

theorem define (p : Port) : Statement (.define p) := of_known rfl nofun

theorem retire (p : Port) : Statement (.retire p) := of_known rfl nofun

theorem setRights (p : Port) : Statement (.setRights p) := of_known rfl nofun

theorem freeze (p : Port) : Statement (.freeze p) := of_known rfl nofun

theorem deviceInfo (p : Port) : Statement (.deviceInfo p) := of_known rfl nofun

theorem setAttention (p : Port) : Statement (.setAttention p) := of_known rfl nofun

theorem portReset (p : Port) : Statement (.portReset p) := of_known rfl nofun

theorem unknownRequestKind (p : Port) : Statement (.unknownRequestKind p) := of_known rfl nofun

theorem factoryClear (p : Port) : Statement (.factoryClear p) := of_known rfl nofun

theorem bulkEraseEnd : Statement .bulkEraseEnd := of_known rfl nofun

theorem holdExpiry (e : EntryNo) : Statement (.holdExpiry e) := of_known rfl nofun

theorem waitExpiry (p : Port) (t : Tag) : Statement (.waitExpiry p t) := of_known rfl nofun

theorem pageMatch : Statement .pageMatch := of_known rfl nofun

theorem pageMismatch : Statement .pageMismatch := of_known rfl nofun

theorem eraseEnd : Statement .eraseEnd := of_known rfl nofun

theorem readSelection (p : Port) (sel : Selection) (extra : Nat) : Statement (.readSelection p sel extra) := of_known rfl nofun

end Sys2Proof.Laws.OperandRange
end

