-- ==== Sys2Proof/Laws/Units.lean ====
section
/-! SUPPORT. What the operations of the single blocks can do: watches, wait queues, the undoing of a directory
job, the timers, and the notices of one event. -/

namespace Sys2Proof.Machine

/-! ### Watches -/

/-- The watches that are named go, and the others stay. -/
@[simp] theorem removeWatches_watchAt (drop : Watch → Bool) (s : State) (n : WatchNo) :
    (removeWatches drop s).watchAt n = (s.watchAt n).filter fun w => !drop w := by
  simp [removeWatches, State.watchAt]

theorem removeWatches_frame (drop : Watch → Bool) (s : State) :
    removeWatches drop s = { s with watches := (removeWatches drop s).watches } := rfl

theorem evaluateWatch_frame (c : CommitReport) (s : State) (n : WatchNo) :
    evaluateWatch c s n = { s with ports := (evaluateWatch c s n).ports } := by
  unfold evaluateWatch
  cases s.watchAt n with
  | none => rfl
  | some w =>
    simp only
    cases watchNotice c n w <;> rfl

/-- The evaluation at a commit point changes nothing but the ports. -/
theorem evaluateWatches_frame (c : CommitReport) (s : State) :
    evaluateWatches c s = { s with ports := (evaluateWatches c s).ports } := by
  unfold evaluateWatches
  induction allWatches generalizing s with
  | nil => rfl
  | cons n ns ih =>
    simp only [List.foldl_cons]
    rw [ih, evaluateWatch_frame]

theorem postIf_frame (c : Bool) (p : Port) (n : Notice) (s : State) :
    postIf c p n s = { s with ports := (postIf c p n s).ports } := by
  unfold postIf
  split <;> rfl

/-- The watches of a retired record go, and nothing else changes but the ports. -/
theorem retireWatches_frame (h : Handle) (s : State) :
    retireWatches h s = { s with
      ports := (retireWatches h s).ports
      watches := (removeWatches (fun w => w.handle == h) s).watches } := by
  unfold retireWatches
  rw [postIf_frame, postIf_frame, postIf_frame]
  rfl

/-- Notices posted one after another, in the terms of the statements. -/
theorem posted_eq_foldl (x : PortState) (ns : List Notice) : Safety.posted x ns = ns.foldl PortState.post x := by
  have h : (fun (y : PortState) (n : Notice) =>
      if y.notices.length < 8 then { y with notices := y.notices ++ [n] }
      else { y with lost := if y.lost = 255#8 then 255#8 else y.lost + 1#8 }) = PortState.post := by
    funext y n
    have hs : (if y.lost = 255#8 then 255#8 else y.lost + 1#8) = satInc y.lost := by
      unfold satInc
      split <;> simp_all
    simp only [PortState.post, hs]
  unfold Safety.posted
  rw [h]

/-! ### Wait queues -/

/-- Answers to waiters change nothing but the ports. -/
theorem answerAll_frame (code : Status) (ws : List Waiter) (s : State) :
    answerAll code ws s = { s with ports := (answerAll code ws s).ports } := by
  unfold answerAll
  induction ws generalizing s with
  | nil => rfl
  | cons w ws ih =>
    simp only [List.foldl_cons]
    rw [ih, complete_frame]

/-- Answers to waiters post no notice. -/
theorem answerAll_notices (code : Status) (ws : List Waiter) (s : State) (p : Port) :
    ((answerAll code ws s).port p).notices = (s.port p).notices := by
  unfold answerAll
  induction ws generalizing s with
  | nil => rfl
  | cons w ws ih =>
    simp only [List.foldl_cons]
    rw [ih, complete_port]

/-- A waiter that leaves changes its wait queue, and the allocation queue when no waiter is left. -/
theorem dropWaiter_eq (h : Handle) (p : Port) (t : Tag) (s : State) :
    dropWaiter h p t s =
      let ws := (s.record h).waiters.filter fun w => !w.isOf p t
      { s.setWaiters h ws with
        allocQueue := if ws = [] then s.allocQueue.filter (fun k => k != h) else s.allocQueue } := by
  unfold dropWaiter leaveAllocIfEmpty
  simp only [State.setWaiters_record, if_true]
  split <;> rfl

/-- A waiter that joins changes its wait queue, and the allocation queue when its record is FREE. -/
theorem joinWaiters_eq (h : Handle) (w : Waiter) (s : State) :
    joinWaiters h w s =
      { s.setWaiters h ((s.record h).waiters ++ [w]) with
        allocQueue := if s.recordFree h ∧ h ∉ s.allocQueue then s.allocQueue ++ [h] else s.allocQueue } := by
  unfold joinWaiters
  simp only
  split <;> rfl

/-! ### Directory jobs -/

/-- Undoing the taking of a directory job empties the slot, and changes but one flag or the page map. -/
theorem undoTaking_frame (j : DirJob) (s : State) :
    undoTaking j s = { s with
      dirSlot := none
      pageMap := (undoTaking j s).pageMap
      records := (undoTaking j s).records } := by
  unfold undoTaking
  cases j.op <;> rfl

/-- What the waiters of a failed FREEZE can change. -/
theorem freezeReturn_frame (j : DirJob) (s : State) :
    freezeReturn j s = { s with
      ports := (freezeReturn j s).ports
      records := (freezeReturn j s).records
      leases := (freezeReturn j s).leases
      buffers := (freezeReturn j s).buffers
      allocQueue := (freezeReturn j s).allocQueue
      queue := (freezeReturn j s).queue
      engine := (freezeReturn j s).engine } := by
  unfold freezeReturn
  cases j.op with
  | freeze =>
    simp only
    split
    · rfl
    · cases s.lowestFree with
      | none => rfl
      | some e =>
        simp only
        rw [grantFromQueue_frame]
  | define x => rfl
  | retire => rfl
  | setRights r => rfl

/-! ### Timers -/

@[simp] theorem tick_lease (s : State) (e : EntryNo) : (tick s).lease e = tickLease (s.lease e) := by
  simp [tick, State.lease]

@[simp] theorem tick_record (s : State) (h : Handle) :
    (tick s).record h = { s.record h with waiters := (s.record h).waiters.map tickWaiter } := by
  simp [tick, State.record]

/-- One timer unit changes nothing but the lease table and the wait queues. -/
theorem tick_frame (s : State) : tick s = { s with leases := (tick s).leases, records := (tick s).records } := rfl

end Sys2Proof.Machine
end

