-- ==== Sys2Proof/Tests/Slice0.lean ====
section
/-! SUPPORT. Tests of single commands against the spec's own examples, the WellFormed smoke test, and for each
statement with hypotheses a state and operands that meet them. -/

namespace Sys2Proof.Tests

open Sys2Proof.Machine Sys2Proof.Safety

set_option maxRecDepth 100000

/-! ### Small states -/

def full : Rights := ⟨true, true, true⟩

/-- A PLAIN record of 240 bytes, the largest, on pages 64 to 79. -/
def plain : RecEntry where
  label := 0x54414E4B#32
  kind := .plain
  size := 240#8
  holdLimit := 100#8
  rights := ⟨full, full, full⟩
  frozen := false
  stamp := 1#32
  pageA := 64
  pageB := 72

/-- A COUNTER record on pages 80 and 81. -/
def counter : RecEntry := { plain with kind := .counter, size := 4#8, pageA := 80, pageB := 81 }

/-- READY, the configuration port P0, every port in SPI mode, nothing defined. -/
def ready : State := { State.reset with dev := .ready, pageMap := some [] }

/-- P1 in I2C mode. -/
def i2c : State := { ready with straps := { ready.straps with mode1 := true } }

def withEntry (h : Handle) (x : RecEntry) (s : State) : State :=
  s.setRecord h { s.record h with entry := some x }

/-- The counter of handle `h` at a value and a generation, its active copy A. -/
def withValue (h : Handle) (value gen : Word32) (s : State) : State :=
  { s.setRecord h { s.record h with entry := some counter, active := some .a, gen := gen } with
    store := Memory.writeBytes s.store 2576 (be4 value) }

/-- A request placed in a tag of a port, the next to be handed over. -/
def withRequest (p : Port) (t : Tag) (kind : Byte) (body : List Byte) (s : State) : State :=
  s.setPort p
    { s.port p with
      slots := (s.port p).slots.set t.val (.pending 0 kind body) t.isLt
      handOrder := [t] }

/-- A request of a tag of a port that has been handed over and waits for its answer. -/
def withWaiting (p : Port) (t : Tag) (kind : Byte) (body : List Byte) (s : State) : State :=
  s.setPort p { s.port p with slots := (s.port p).slots.set t.val (.pending 0 kind body) t.isLt }

/-- A response waits in a tag of a port. -/
def withResponse (p : Port) (t : Tag) (r : Response) (s : State) : State :=
  s.setPort p
    { s.port p with
      slots := (s.port p).slots.set t.val (.done r) t.isLt
      fifo := (s.port p).fifo ++ [t] }

/-- A HELD lease of a port on a record, unmodified. -/
def held (p : Port) (h : Handle) : Lease where
  phase := .held
  handle := h
  holder := p
  form := .explicit
  timer := some 7
  renewals := 0
  modified := false
  answer := none
  grantRights := full

def withLeaseAt (e : EntryNo) (issue : Byte) (l : Lease) (s : State) : State := s.setLease e ⟨issue, some l⟩

/-- Every lease entry is HELD by P2, on handles 40 to 45. -/
def allHeld (s : State) : State :=
  { s with leases := tabulate 6 fun e => ⟨1#8, some (held .p2 (Fin.ofNat 48 (40 + e.val)))⟩ }

/-- The spec's counter of the staging example: handle 20 at 4,294,967,290, generation 17, and lease entry 2
held by P1 with token (2, 6) and 4,294,967,290 in its buffer (04, EXAMPLE). -/
def staging : State :=
  ((withValue 20 4294967290#32 17#32 ready).setLease 1 ⟨6#8, some (held .p1 20)⟩).setBuffer 1
    ⟨padTo 0x00#8 240 (be4 4294967290#32), false⟩

/-- The same lease COMMITTING, its job for copy B at generation 18 with the last page to be programmed and the
value 5 in its buffer. -/
def committing : State :=
  { withWaiting .p1 3 0x14#8 [2#8, 6#8]
      ((staging.setLease 1
        ⟨6#8, some { held .p1 20 with phase := .committing, timer := none, modified := true,
                                      answer := some ⟨.p1, 3, 0⟩ }⟩).setBuffer 1
        ⟨padTo 0x00#8 240 (be4 5#32), false⟩) with
    queue := [.record 1 20 .b 81 1 18#32]
    engine := .programming 1 false }

/-! ### One step -/

/-- The command completes, and its next state passes the test. -/
def runs (c : Instr) (s : State) (test : State → Bool) : Bool :=
  match exec c s with
  | .next t => test t
  | _ => false

/-- The command answers tag `t` of port `p` with a code and a body. -/
def answers (c : Instr) (s : State) (p : Port) (t : Tag) (code : Status) (body : List Byte) : Bool :=
  runs c s fun s' => decide ((s'.port p).slots.get t = .done ⟨code, body⟩)

/-- The command drives these bytes on the bus of port `p`. -/
def drives (c : Instr) (s : State) (p : Port) (bytes : List Byte) : Bool :=
  runs c s fun s' => decide ((s'.port p).bus.bytes = bytes)

/-! ### WellFormed -/

/-- C1h opens a SUBMIT: as an unknown code byte it is refused (07, R121; 10, R171). -/
theorem test_wellFormed_refuses_submit_code : WellFormed (.unknownCodeByte .p0 0xC1#8 0) = false := by decide

theorem test_wellFormed_refuses_status_code : WellFormed (.unknownCodeByte .p2 0xC4#8 3) = false := by decide

theorem test_wellFormed_takes_other_code : WellFormed (.unknownCodeByte .p0 0xC5#8 0) = true := by decide

/-! ### Bus transactions (10, EXAMPLE: A READ AND ITS FETCH ON SPI; 07, EXAMPLE: ONE PORT'S SESSION) -/

/-- Step 1: the status byte is 40h and its inverse BFh. -/
theorem test_status_ready : drives (.status .p0 2) ready .p0 [0xFF#8, 0x40#8, 0xBF#8] = true := by decide

/-- Step 5 of the session: READY, DONE count 1, both flags set. -/
theorem test_status_flags :
    runs (.status .p1 2)
      ((withResponse .p1 0 ⟨.ok, []⟩ ready).setPort .p1
        { (withResponse .p1 0 ⟨.ok, []⟩ ready).port .p1 with frameError := true, tagCollision := true })
      (fun s => decide ((s.port .p1).bus.bytes = [0xFF#8, 0x4B#8, 0xB4#8]) && !(s.port .p1).frameError
        && !(s.port .p1).tagCollision) = true := by decide

/-- Step 2: the READ frame is placed in slot 2. -/
theorem test_submit_places :
    runs (.submit .p0 (requestFrame 2 0x10#8 [4#8, 0#8, 0#8, 0#8, 4#8])) ready
      (fun s => decide ((s.port .p0).slots.get 2 = .pending 0 0x10#8 [4#8, 0#8, 0#8, 0#8, 4#8])) = true := by decide

/-- Step 4 of the session: a bad frame check sets FRAME_ERROR. -/
theorem test_submit_bad_check :
    runs (.submit .p0 [0x02#8, 0x40#8, 0x00#8, 0x00#8]) ready (fun s => (s.port .p0).frameError) = true := by decide

/-- Steps 3 and 4: the response frame of 12 bytes up to its check. -/
theorem test_fetch_response :
    runs (.fetchResponse .p0 12) (withResponse .p0 2 ⟨.ok, be4 1#32 ++ be4 5#32⟩ ready)
      (fun s => decide ((s.port .p0).bus.bytes.take 12 =
        [0xFF#8, 0x82#8, 0x08#8, 0x00#8, 0#8, 0#8, 0#8, 1#8, 0#8, 0#8, 0#8, 5#8])
        && decide ((s.port .p0).slots.get 2 = .free)) = true := by decide

/-- Step 5: the EMPTY answer. -/
theorem test_fetch_response_empty :
    drives (.fetchResponse .p0 3) ready .p0 [0xFF#8, 0x00#8, 0x00#8, 0xD7#8] = true := by decide

/-- A LOST notice with the lost count follows the removal of one notice from a full queue (06, EXAMPLE, step 5). -/
theorem test_fetch_notice_lost :
    runs (.fetchNotice .p1 5)
      (ready.setPort .p1
        { ready.port .p1 with
          notices := .ready .ready :: List.replicate 7 (.retired 6)
          lost := 2#8 })
      (fun s => decide ((s.port .p1).notices = List.replicate 7 (.retired 6) ++ [.lost 2#8])
        && decide ((s.port .p1).lost = 0#8)) = true := by decide

theorem test_fetch_notice_empty :
    drives (.fetchNotice .p0 4) ready .p0 [0xFF#8, 0x00#8, 0x00#8, 0xD7#8, 0xFF#8] = true := by decide

/-- The code byte is not acknowledged in I2C mode (07, R121). -/
theorem test_unknown_code_i2c :
    runs (.unknownCodeByte .p1 0xC5#8 0) i2c (fun s => decide ((s.port .p1).bus.acks = [true, false])) = true := by
  decide

theorem test_read_selection :
    runs (.readSelection .p1 .fetchNotice 0) i2c (fun s => decide ((s.port .p1).selection = .fetchNotice)) = true := by
  decide

/-! ### Requests -/

/-- Step 4 of the READ example: generation 1, value 5. -/
theorem test_read_committed :
    answers (.readCommitted .p0) (withRequest .p0 2 0x10#8 [4#8, 0#8, 0#8, 0#8, 4#8] (withValue 4 5#32 1#32 ready))
      .p0 2 .ok [0#8, 0#8, 0#8, 1#8, 0#8, 0#8, 0#8, 5#8] = true := by decide

/-- READ of 40 + 32 bytes of a record of 64 (08, EXAMPLE, No. 9). -/
theorem test_read_range :
    answers (.readCommitted .p1)
      (withRequest .p1 0 0x10#8 [8#8, 0#8, 0#8, 40#8, 32#8] (withEntry 8 { plain with size := 64#8 } ready))
      .p1 0 .range [] = true := by decide

/-- The staged bytes are read in COMMITTING (04, EXAMPLE, step 7). -/
theorem test_read_with_token :
    answers (.readWithToken .p1) (withRequest .p1 2 0x10#8 [20#8, 2#8, 6#8, 0#8, 4#8] committing)
      .p1 2 .ok [0#8, 0#8, 0#8, 5#8] = true := by decide

/-- Token (2, 6), generation 17, size 4 (04, EXAMPLE, step 1), entry 1 being taken. -/
theorem test_acquire :
    answers (.acquire .p1)
      (withRequest .p1 0 0x11#8 [20#8, 0#8]
        (((withValue 20 4294967290#32 17#32 ready).setLease 0 ⟨1#8, some (held .p2 3)⟩).setLease 1 ⟨5#8, none⟩))
      .p1 0 .ok [2#8, 6#8, 0#8, 0#8, 0#8, 17#8, 4#8] = true := by decide

/-- ACQUIRE of a frozen record (08, EXAMPLE, No. 6). -/
theorem test_acquire_frozen :
    answers (.acquire .p1) (withRequest .p1 0 0x11#8 [9#8, 10#8] (withEntry 9 { counter with frozen := true } ready))
      .p1 0 .frozen [] = true := by decide

/-- ADD +3 gives 4,294,967,293 (04, EXAMPLE, step 2). -/
theorem test_add_with_token :
    answers (.addWithToken .p1) (withRequest .p1 1 0x13#8 ([20#8, 2#8, 6#8] ++ be4 3#32) staging)
      .p1 1 .ok (be4 4294967293#32 ++ be4 17#32) = true := by decide

/-- ADD +10 is clamped to 4,294,967,295 (04, EXAMPLE, step 3). -/
theorem test_add_with_token_saturates :
    answers (.addWithToken .p1) (withRequest .p1 1 0x13#8 ([20#8, 2#8, 6#8] ++ be4 10#32) staging)
      .p1 1 .saturated (be4 4294967295#32 ++ be4 17#32) = true := by decide

/-- STAGE of 00h 00h 00h 05h replaces the value (04, EXAMPLE, step 4). -/
theorem test_stage :
    runs (.stage .p1) (withRequest .p1 2 0x12#8 [2#8, 6#8, 0#8, 0#8, 0#8, 0#8, 5#8] staging)
      (fun s => decide ((s.buffer 1).bytes.take 4 = [0#8, 0#8, 0#8, 5#8])) = true := by decide

/-- The job of COMMIT has target B and generation 18 (04, EXAMPLE, step 5). -/
theorem test_commit :
    runs (.commit .p1)
      (withRequest .p1 3 0x14#8 [2#8, 6#8] (staging.setLease 1 ⟨6#8, some { held .p1 20 with modified := true }⟩))
      (fun s => decide (s.queue = [.record 1 20 .b 81 1 18#32])) = true := by decide

/-- An unmodified lease is answered UNCHANGED with the committed generation (03, R63). -/
theorem test_commit_unchanged :
    answers (.commit .p1) (withRequest .p1 3 0x14#8 [2#8, 6#8] staging) .p1 3 .unchanged (be4 17#32) = true := by
  decide

/-- ADD −9 to 5 is clamped to 0 and marked, at issue count 7 of entry 2 (04, EXAMPLE, step 9). -/
theorem test_add_without_token :
    runs (.addWithoutToken .p2)
      (withRequest .p2 1 0x13#8 ([20#8, 0#8, 0#8] ++ be4 (BitVec.ofInt 32 (-9)))
        (((withValue 20 5#32 18#32 ready).setLease 0 ⟨1#8, some (held .p0 3)⟩).setLease 1 ⟨6#8, none⟩))
      (fun s => (s.buffer 1).clamped && decide ((s.buffer 1).bytes.take 4 = [0#8, 0#8, 0#8, 0#8])
        && decide ((s.lease 1).issue = 7#8)) = true := by decide

/-- RELEASE frees the entry (03, R61). -/
theorem test_release :
    runs (.release .p1) (withRequest .p1 0 0x15#8 [2#8, 6#8] staging)
      (fun s => decide (s.lease 1 = ⟨6#8, none⟩)) = true := by decide

/-- The first RENEW leaves three (03, R60). -/
theorem test_renew :
    answers (.renew .p1) (withRequest .p1 0 0x16#8 [2#8, 6#8] staging) .p1 0 .ok [3#8] = true := by decide

/-- A CANCEL of its own tag is MALFORMED (03, R62). -/
theorem test_cancel_own_tag :
    answers (.cancel .p1) (withRequest .p1 3 0x17#8 [3#8] ready) .p1 3 .malformed [] = true := by decide

/-- RISE on a PLAIN record (08, EXAMPLE, No. 8). -/
theorem test_watch_wrong_kind :
    answers (.watch .p1) (withRequest .p1 0 0x20#8 ([8#8, 2#8] ++ be4 5#32 ++ [1#8]) (withEntry 8 plain ready))
      .p1 0 .wrongKind [] = true := by decide

/-- A watch of another port is NOT_FOUND (06, R106). -/
theorem test_unwatch_foreign :
    answers (.unwatch .p1) (withRequest .p1 0 0x21#8 [3#8] (ready.setWatch 3 (some ⟨.p0, 8, .any, false⟩)))
      .p1 0 .notFound [] = true := by decide

/-- INQUIRE from a port that is not the configuration port: only its own rights are given (01, R22). -/
theorem test_inquire :
    answers (.inquire .p1) (withRequest .p1 0 0x22#8 [8#8] (withEntry 8 plain ready)) .p1 0 .ok
      ([0x54#8, 0x41#8, 0x4E#8, 0x4B#8, 1#8, 240#8, 100#8, 0xFF#8, 7#8, 0xFF#8, 0#8]
        ++ [0#8, 0#8, 0#8, 0#8, 0#8, 0#8, 0xFF#8, 0#8]) = true := by decide

/-- RETIRE of an undefined handle (08, EXAMPLE, No. 10), and from another port (No. 4). -/
theorem test_retire_undefined :
    answers (.retire .p0) (withRequest .p0 0 0x31#8 [30#8] ready) .p0 0 .noRecord [] = true := by decide

theorem test_retire_denied :
    answers (.retire .p1) (withRequest .p1 0 0x31#8 [8#8] (withEntry 8 plain ready)) .p1 0 .denied [] = true := by
  decide

/-- FREEZE of a frozen record (08, EXAMPLE, No. 13). -/
theorem test_freeze_frozen :
    answers (.freeze .p0) (withRequest .p0 0 0x33#8 [9#8] (withEntry 9 { counter with frozen := true } ready))
      .p0 0 .frozen [] = true := by decide

/-- DEFINE of handle 0, PLAIN, 100 bytes, in an empty record area: copies at 64 and 68 (01, EXAMPLE, step 1). -/
theorem test_define :
    runs (.define .p0) (withRequest .p0 0 0x30#8 [0#8, 0x54#8, 0x41#8, 0x4E#8, 0x4B#8, 1#8, 100#8, 1#8, 0#8, 0#8, 0#8] ready)
      (fun s => match s.dirSlot with
        | some ⟨.define x, _, _⟩ => decide (x.pageA = 64 ∧ x.pageB = 68)
        | _ => false) = true := by decide

/-- DEFINE of 241 bytes (08, EXAMPLE, No. 14). -/
theorem test_define_range :
    answers (.define .p0)
      (withRequest .p0 0 0x30#8 [30#8, 0x54#8, 0x41#8, 0x4E#8, 0x4B#8, 1#8, 241#8, 1#8, 0#8, 0#8, 0#8] ready)
      .p0 0 .range [] = true := by decide

/-- SET-RIGHTS with the sets in force (01, R17). -/
theorem test_setRights_unchanged :
    answers (.setRights .p0) (withRequest .p0 0 0x32#8 [8#8, 7#8, 7#8, 7#8] (withEntry 8 plain ready))
      .p0 0 .unchanged (be4 0#32) = true := by decide

/-- DEVICE-INFO in STARTING: part code 019Ch, revision 1, zeros, 6 FREE entries (08, R152, R153). -/
theorem test_deviceInfo_starting :
    answers (.deviceInfo .p0) (withRequest .p0 0 0x40#8 [] State.reset) .p0 0 .ok
      [0#8, 0x01#8, 0x9C#8, 1#8, 0#8, 0#8, 0#8, 0#8, 0#8, 0#8, 0#8, 0#8, 0#8, 0#8, 6#8, 0#8] = true := by decide

theorem test_setAttention_range :
    answers (.setAttention .p0) (withRequest .p0 0 0x41#8 [4#8] State.reset) .p0 0 .range [] = true := by decide

/-- A READ one byte short (08, EXAMPLE, No. 3). -/
theorem test_short_read_malformed :
    answers (.unknownRequestKind .p1) (withRequest .p1 0 0x10#8 [8#8, 0#8, 0#8, 0#8] ready) .p1 0 .malformed [] = true := by
  decide

/-- The port's HELD lease is freed by its PORT-RESET, which is answered OK (07, R136). -/
theorem test_portReset :
    runs (.portReset .p1) (withRequest .p1 0 0x42#8 [] staging)
      (fun s => decide ((s.lease 1).lease = none) && decide ((s.port .p1).fifo = [0])) = true := by decide

/-- FACTORY-CLEAR revokes the lease, and with an empty commit queue the bulk erase is issued (09, R165, R166). -/
theorem test_factoryClear :
    runs (.factoryClear .p0) (withRequest .p0 0 0x43#8 [] staging)
      (fun s => decide ((s.port .p1).notices = [.leaseRevoked ⟨2#8, 6#8⟩ 20])
        && decide (s.clear = some ⟨⟨.p0, 0, 0⟩, .erasing⟩)) = true := by decide

/-! ### Events -/

/-- LEASE_EXPIRED carries the token (03, R58). -/
theorem test_holdExpiry :
    runs (.holdExpiry 1) (staging.setLease 1 ⟨6#8, some { held .p1 20 with timer := some 0 }⟩)
      (fun s => decide ((s.port .p1).notices = [.leaseExpired ⟨2#8, 6#8⟩ 20])) = true := by decide

/-- A hold timer with units left has not run out (03, R57). -/
theorem test_holdExpiry_running :
    runs (.holdExpiry 1) staging (fun s => decide (s = staging)) = true := by decide

/-- The commit point of the job: 5 at generation 18, the COMMIT answered OK (04, EXAMPLE, step 8). -/
theorem test_commit_point :
    answers .pageMatch committing .p1 3 .ok (be4 18#32) = true := by decide

theorem test_commit_point_value :
    runs .pageMatch committing (fun s => decide (counterValue (s.committedData 20) = 5#32)) = true := by decide

/-- A first mismatch is followed by a second program of the page, a second by the fault erase (05, R89, R90). -/
theorem test_mismatch_retries :
    runs .pageMismatch { committing with store := [] } (fun s => decide (s.engine = .programming 1 true)) = true := by
  decide

/-- A store fault keeps the old value and the old generation (02, R36; 05, R90). -/
theorem test_fault_keeps_value :
    runs .eraseEnd { committing with engine := .erasing 1 81 }
      (fun s => decide (counterValue (s.committedData 20) = 4294967290#32) && decide ((s.record 20).gen = 17#32)) = true := by
  decide

/-- The scan of an erased store: READY with an empty directory, and a READY notice (09, R158, R162). -/
theorem test_scan_erased :
    runs .scanEnd State.reset
      (fun s => decide (s.dev = .ready ∧ s.activeDir = none) && decide ((s.port .p2).notices = [.ready .ready])) = true := by
  decide

/-- A spoiled region and no valid one: DAMAGED (09, R158, R163). -/
theorem test_scan_damaged :
    runs .scanEnd { State.reset with store := [(0, 0x00#8)] } (fun s => decide (s.dev = .damaged)) = true := by decide

/-- The READY notice after a bulk erase (09, R167). -/
theorem test_bulkEraseEnd :
    runs .bulkEraseEnd { ready with dev := .clearing, clear := some ⟨⟨.p0, 0, 0⟩, .erasing⟩, store := [(5, 0x00#8)] }
      (fun s => decide (s.store = [] ∧ s.dev = .ready)) = true := by decide

/-- RESETn low: nothing is acknowledged, and a bus reads nothing (07, R120). -/
theorem test_inactive :
    runs (.submit .p1 []) { i2c with resetLow := true } (fun s => decide ((s.port .p1).bus.acks = [false])) = true := by
  decide

/-- Power comes with RESETn still low: the ports stay inactive until the release (07, R120; 09, R156). -/
theorem test_powerUp_reset_low :
    runs (.powerUp i2c.straps) { State.reset with supply := false, resetLow := true }
      (fun s => !s.active && decide (s.straps = State.reset.straps)) = true := by decide

/-- RESETn rises without supply: the ports stay inactive (07, R120; 09, R156). -/
theorem test_resetnRelease_unsupplied :
    runs (.resetnRelease i2c.straps) { State.reset with supply := false, resetLow := true } (fun s => !s.active) = true := by
  decide

/-! ### What bytes on a bus spell (10, R171; 07, R119) -/

/-- C1h opens a SUBMIT; on SPI no address precedes it. -/
theorem test_bus_spi_submit :
    ready.busCommand .p0 [0xC1#8, 0x02#8, 0x40#8] 0 = some (.submit .p0 [0x02#8, 0x40#8]) := by decide

/-- Two bytes clocked after C4h. -/
theorem test_bus_spi_status : ready.busCommand .p0 [0xC4#8, 0x00#8, 0x00#8] 0 = some (.status .p0 2) := by decide

/-- ADRS low: 6Ch writes and 6Dh reads, and a port answers to no other address. -/
theorem test_bus_i2c_low :
    i2c.busCommand .p1 [0x6C#8, 0xC2#8] 0 = some (.readSelection .p1 .fetchResponse 0)
      ∧ i2c.busCommand .p1 [0x6D#8] 12 = some (.status .p1 12)
      ∧ i2c.busCommand .p1 [0x6E#8, 0xC2#8] 0 = none := by decide

/-- ADRS high: 6Eh and 6Fh. -/
theorem test_bus_i2c_high :
    { i2c with straps := { i2c.straps with adrs := true } }.busCommand .p1 [0x6E#8, 0xC5#8, 0x00#8] 0
        = some (.unknownCodeByte .p1 0xC5#8 1)
      ∧ { i2c with straps := { i2c.straps with adrs := true } }.busCommand .p1 [0x6F#8] 3 = some (.status .p1 3) := by
  decide

/-! ### States that meet the hypotheses of the statements -/

/-- What a test of each lease entry says of every lease. -/
theorem of_leases {s : State} {P : EntryNo → Lease → Prop} [∀ e l, Decidable (P e l)]
    (h : ∀ e : EntryNo, (s.lease e).lease.all (fun l => decide (P e l)) = true) :
    ∀ e l, (s.lease e).lease = some l → P e l := by
  intro e l hl
  simpa [hl] using h e

/-- What a test of each watch table entry says of every watch. -/
theorem of_watches {s : State} {P : WatchNo → Watch → Prop} [∀ n w, Decidable (P n w)]
    (h : ∀ n : WatchNo, (s.watchAt n).all (fun w => decide (P n w)) = true) :
    ∀ n w, s.watchAt n = some w → P n w := by
  intro n w hw
  simpa [hw] using h n

/-- What a test of each lease entry says of every live token. -/
theorem of_live {s : State} {p : Port} {entry count : Byte} {P : EntryNo → Lease → Prop} [∀ e l, Decidable (P e l)]
    (h : ∀ e : EntryNo, (s.lease e).lease.all (fun l => decide (Live s p entry count e l → P e l)) = true) :
    ∀ e l, Live s p entry count e l → P e l := by
  intro e l hl
  have := h e
  simp only [hl.2.1, Option.all_some, decide_eq_true_eq] at this
  exact this hl

def waiting (p : Port) (t : Tag) (left : Nat) : Waiter := ⟨⟨p, t, 0⟩, .acquire left⟩

/-- A COMMITTING lease of P1 on handle 20 whose answer tag is 3. -/
def committed (form : LeaseForm) : Lease :=
  { held .p1 20 with phase := .committing, form := form, timer := none, modified := true, answer := some ⟨.p1, 3, 0⟩ }

theorem witness_StepRunsFrontCommand :
    ∃ (c : Instr) (rest : List Instr) (s : State),
      s.pending = c :: rest :=
  ⟨.status .p0 2, [.pageMatch], { ready with pending := [.status .p0 2, .pageMatch] }, by decide⟩

/-- A running hold timer, a wait timer at 0. -/
theorem witness_EmptyQueueIsOneTimerUnit :
    ∃ s : State,
      s.pending = []
        ∧ (s.lease 1).lease = some (held .p1 20)
        ∧ (s.lease 0).lease = none
        ∧ (s.record 4).waiters = [waiting .p0 2 0] :=
  ⟨staging.setWaiters 4 [waiting .p0 2 0], by decide⟩

/-- The engine programs a page. -/
theorem witness_DeviceResetStartsAfresh_job :
    ∃ (s : State) (j : Job) (rest : List Job),
      isDeviceReset (.powerUp s.straps) = true
        ∧ isDeviceReset .powerLoss = true
        ∧ isDeviceReset .resetnAssert = true
        ∧ isDeviceReset (.resetnRelease s.straps) = true
        ∧ (∀ x, s.clear = some x → x.phase = .draining)
        ∧ s.queue = j :: rest :=
  ⟨committing, .record 1 20 .b 81 1 18#32, [], by decide, by decide, by decide, by decide, nofun, by decide⟩

theorem witness_DeviceResetStartsAfresh_idle :
    ∃ s : State,
      isDeviceReset .powerLoss = true
        ∧ (∀ x, s.clear = some x → x.phase = .draining)
        ∧ (s.queue = [] ∨ s.engine = .idle) :=
  ⟨ready, by decide, nofun, by decide⟩

/-- The same device with a factory clear that waits for its job to end. -/
def draining : State := { committing with dev := .clearing, clear := some ⟨⟨.p0, 1, 0⟩, .draining⟩ }

theorem witness_DeviceResetStartsAfresh_draining :
    ∃ (s : State) (j : Job) (rest : List Job),
      isDeviceReset .resetnAssert = true
        ∧ s.clear ≠ none
        ∧ (∀ x, s.clear = some x → x.phase = .draining)
        ∧ s.queue = j :: rest :=
  ⟨draining, .record 1 20 .b 81 1 18#32, [], by decide, by decide, fun x h => by cases h; rfl, by decide⟩

/-- No supply, and RESETn low. -/
theorem witness_DeviceResetStartsAfresh_unsupplied :
    ∃ s : State,
      isDeviceReset (.powerUp s.straps) = true
        ∧ isDeviceReset (.resetnRelease s.straps) = true
        ∧ s.supply = false
        ∧ s.resetLow = true
        ∧ (s.queue = [] ∨ s.engine = .idle) :=
  ⟨{ State.reset with supply := false, resetLow := true }, by decide⟩

/-- A factory clear whose bulk erase runs. -/
def erasing : State := { ready with dev := .clearing, clear := some ⟨⟨.p0, 1, 0⟩, .erasing⟩, store := [(5, 0x00#8)] }

theorem witness_RecordAreaIsErasedFirst :
    ∃ (s : State) (tk : Ticket),
      isDeviceReset .resetnAssert = true
        ∧ s.clear = some ⟨tk, .erasing⟩
        ∧ s.queue = [] :=
  ⟨erasing, ⟨.p0, 1, 0⟩, by decide⟩

/-- The bulk erase runs: a byte of the page after the indeterminate one. -/
theorem witness_DeviceResetStartsAfresh_erasing :
    ∃ (s : State) (tk : Ticket) (n a : Nat),
      isDeviceReset .resetnAssert = true
        ∧ s.clear = some ⟨tk, .erasing⟩
        ∧ (s.queue = [] ∨ s.engine = .idle)
        ∧ n = Config.freeSweep s.freeIndex % 2049
        ∧ (sweptWithin n (a / 32) = true ∨ a / 32 ≠ sweepPage n) :=
  ⟨erasing, ⟨.p0, 1, 0⟩, _, 32 * (sweepPage (Config.freeSweep erasing.freeIndex % 2049) + 1), by decide, by decide, by decide, rfl, .inr (by omega)⟩

/-! #### The scan -/

theorem witness_ScanChoosesDirectoryAndCopies_erased :
    State.reset.active = true ∧ State.reset.dev = .starting ∧ (∀ c, regionCond State.reset.store c = .erased) := by
  refine ⟨rfl, rfl, fun c => ?_⟩
  cases c <;> decide

def spoiled : State := { State.reset with store := [(0, 0x00#8)] }

theorem witness_ScanChoosesDirectoryAndCopies_spoiled :
    spoiled.active = true ∧ spoiled.dev = .starting ∧ (∀ c, regionCond spoiled.store c ≠ .valid)
      ∧ ∃ c, regionCond spoiled.store c = .spoiled := by
  refine ⟨rfl, rfl, fun c => ?_, .a, by decide⟩
  cases c <;> decide

theorem witness_ScanRebuildsPageMap :
    ∃ s t : State, s.active = true ∧ s.dev = .starting ∧ exec .scanEnd s = .next t ∧ t.dev = .ready := by
  cases h : exec .scanEnd State.reset with
  | next t =>
    refine ⟨State.reset, t, rfl, rfl, h, ?_⟩
    have : runs .scanEnd State.reset (fun s => decide (s.dev = .ready)) = true := by decide
    simpa [runs, h] using this
  | fault f => exact absurd (show runs .scanEnd State.reset (fun _ => true) = true by decide) (by simp [runs, h])
  | refused r => exact absurd (show runs .scanEnd State.reset (fun _ => true) = true by decide) (by simp [runs, h])

/-- A PLAIN record of one byte, its copies at pages 64 and 65. -/
def small : RecEntry := { plain with size := 1#8, pageA := 64, pageB := 65 }

/-- A directory copy at generation 9 that defines handle 0 alone, and a copy of the record at generation 5. -/
def dirBytes : List Byte :=
  let entries := (some small :: List.replicate 47 none).flatMap entryBytes
  dirHeader 9#32 entries ++ entries

def copyBytes : List Byte := copyHeader 0 1#8 1#32 5#32 [7#8] ++ [7#8]

/-- The directory in region A, without and with the record's copy A. -/
def onDisk (copied : Bool) : State :=
  { State.reset with
    store := Memory.writeBytes (Memory.writeBytes [] 0 dirBytes) 2048 (if copied then copyBytes else []) }

theorem dirBytes_length : dirBytes.length = 784 := by decide

theorem dirBytes_header : (crc8 (dirBytes.take 15) == byteAt dirBytes 15) = true := by decide +kernel

theorem dirBytes_crc : (crc16 (dirBytes.drop 16) == word16At dirBytes 4) = true := by decide +kernel

theorem dirBytes_checks :
    (List.range 48).all (fun i => crc8 ((entrySlice dirBytes i).take 15) == byteAt (entrySlice dirBytes i) 15) = true := by
  decide +kernel

theorem dirBytes_ranges : (readEntries dirBytes).all (fun x => x.all entryInRange) = true := by decide +kernel

theorem dirBytes_apart : allApart ((readEntries dirBytes).flatMap fun x => x.elim [] entryRuns) = true := by
  decide +kernel

theorem onDisk_copyBytes_short (copied : Bool) : (if copied then copyBytes else []).length ≤ 17 := by
  cases copied <;> decide

theorem dirWritten_wf : Memory.wf (Memory.writeBytes [] 0 dirBytes) = true :=
  Memory.writeBytes_wf [] 0 dirBytes (by rw [dirBytes_length]; omega) rfl

theorem onDisk_region (copied : Bool) : regionBytes (onDisk copied).store .a = dirBytes := by
  have h := Memory.readBytes_writeBytes [] 0 dirBytes (by rw [dirBytes_length]; omega) rfl
  rw [dirBytes_length] at h
  have hs := onDisk_copyBytes_short copied
  exact (Memory.readBytes_writeBytes_outside _ 2048 0 784 _ (.inl (by omega))).trans h

theorem onDisk_other (copied : Bool) : regionErased (onDisk copied).store .b = true := by
  have hs := onDisk_copyBytes_short copied
  have h : Memory.readPage (onDisk copied).store 32 = Memory.readPage [] 32 :=
    (Memory.readBytes_writeBytes_outside _ 2048 1024 32 _ (.inl (by omega))).trans
      (Memory.readBytes_writeBytes_outside _ 0 1024 32 _ (.inr (by rw [dirBytes_length]; omega)))
  simp only [regionErased, regionPage, h]
  decide

theorem onDisk_started (copied : Bool) : regionErased (onDisk copied).store .a = false := by
  have h : (Memory.readPage (onDisk copied).store 0).head? = (dirBytes.take 1).head? := by
    rw [← onDisk_region copied]
    rfl
  have hd : (dirBytes.take 1).head? = some 0x00#8 := by decide
  simp only [regionErased, regionPage, beq_eq_false_iff_ne, ne_eq]
  intro he
  rw [he, hd] at h
  exact absurd h (by decide)

theorem onDisk_valid (copied : Bool) : regionCond (onDisk copied).store .a = .valid := by
  have h : regionValid (onDisk copied).store .a = true := by
    simp only [regionValid, onDisk_region, onDisk_started, dirBytes_header, dirBytes_crc, dirBytes_checks,
      dirBytes_ranges, dirBytes_apart, Bool.not_false, Bool.and_self]
  simp only [regionCond, onDisk_started, h, Bool.false_eq_true, if_false, if_true]

theorem onDisk_entry : readEntry (slice dirBytes 16 16) = some small := by decide +kernel

/-- What stands at the two runs of the record. -/
theorem onDisk_copy : Memory.readBytes (onDisk true).store 2048 17 = copyBytes := by
  have hl : copyBytes.length = 17 := by decide
  have h := Memory.readBytes_writeBytes _ 2048 copyBytes (by rw [hl]; omega) dirWritten_wf
  rw [hl] at h
  exact h

theorem onDisk_copyA : copyValid (onDisk true).store 0 small 64 = true := by
  have h16 : Memory.readBytes (onDisk true).store 2048 16 = copyBytes.take 16 := by rw [← onDisk_copy]; rfl
  have h1 : Memory.readBytes (onDisk true).store 2064 1 = copyBytes.drop 16 := by rw [← onDisk_copy]; rfl
  have hd : copyData (onDisk true).store 64 small.size.toNat = copyBytes.drop 16 := h1
  have hh : Memory.readBytes (onDisk true).store (pageAddress 64) 16 = copyBytes.take 16 := h16
  simp only [copyValid, hh, hd]
  decide

theorem onDisk_erased (copied : Bool) (a n : Nat) (h : a = 2048 ∧ copied = false ∨ a = 2080) :
    Memory.readBytes (onDisk copied).store a n = Memory.readBytes [] a n := by
  have hs := onDisk_copyBytes_short copied
  refine (Memory.readBytes_writeBytes_outside _ 2048 a n _ (.inr ?_)).trans
    (Memory.readBytes_writeBytes_outside _ 0 a n _ (.inr (by rw [dirBytes_length]; omega)))
  rcases h with ⟨rfl, rfl⟩ | rfl
  · simp
  · omega

theorem onDisk_noCopyA : copyValid (onDisk false).store 0 small 64 = false := by
  have h : Memory.readBytes (onDisk false).store (pageAddress 64) 16 = Memory.readBytes [] 2048 16 :=
    onDisk_erased false 2048 16 (.inl ⟨rfl, rfl⟩)
  simp only [copyValid, h]
  have : (crc8 ((Memory.readBytes [] 2048 16).take 15) == byteAt (Memory.readBytes [] 2048 16) 15) = false := by decide
  simp only [this, Bool.false_and]

theorem onDisk_noCopyB (copied : Bool) : copyValid (onDisk copied).store 0 small 65 = false := by
  have h : Memory.readBytes (onDisk copied).store (pageAddress 65) 16 = Memory.readBytes [] 2080 16 :=
    onDisk_erased copied 2080 16 (.inr rfl)
  simp only [copyValid, h]
  have : (crc8 ((Memory.readBytes [] 2080 16).take 15) == byteAt (Memory.readBytes [] 2080 16) 15) = false := by decide
  simp only [this, Bool.false_and]

theorem witness_ScanChoosesDirectoryAndCopies_valid :
    (onDisk true).active = true ∧ (onDisk true).dev = .starting ∧ regionCond (onDisk true).store .a = .valid
      ∧ regionCond (onDisk true).store (other .a) ≠ .valid
      ∧ readEntry (slice (regionBytes (onDisk true).store .a) (16 + 16 * (0 : Handle).val) 16) = some small
      ∧ copyValid (onDisk true).store 0 small (small.firstPage .a) = true
      ∧ copyValid (onDisk true).store 0 small (small.firstPage (other .a)) = false := by
  refine ⟨rfl, rfl, onDisk_valid true, ?_, ?_, onDisk_copyA, onDisk_noCopyB true⟩
  · simp [regionCond, other, onDisk_other]
  · rw [onDisk_region]
    exact onDisk_entry

/-- The same without a valid copy of the record. -/
theorem witness_ScanChoosesDirectoryAndCopies_noCopy :
    (onDisk false).active = true ∧ (onDisk false).dev = .starting ∧ regionCond (onDisk false).store .a = .valid
      ∧ ∀ k, copyValid (onDisk false).store 0 small (small.firstPage k) = false := by
  refine ⟨rfl, rfl, onDisk_valid false, fun k => ?_⟩
  cases k
  · exact onDisk_noCopyA
  · exact onDisk_noCopyB false

/-! #### Transactions -/

/-- Tag 4 does not exist. -/
theorem witness_SubmitPlacesAGoodFrame_bad :
    ∃ (s : State) (frame : List Byte), s.active = true ∧
      ∀ (t : Tag) (kind : Byte) (body : List Byte), body.length ≤ 40 → frame ≠ requestFrame t kind body := by
  refine ⟨ready, [0x04#8, 0x40#8, 0x00#8, crc8 [0x04#8, 0x40#8, 0x00#8]], rfl, fun t kind body _ h => ?_⟩
  have := congrArg List.head? h
  simp only [requestFrame, List.cons_append, List.head?_cons, Option.some.injEq] at this
  clear h
  revert t
  decide

/-- A body of 40 bytes, and a FREE slot. -/
theorem witness_SubmitPlacesAGoodFrame_placed :
    ∃ (s : State) (p : Port) (t : Tag) (kind : Byte) (body : List Byte),
      s.active = true
        ∧ body.length ≤ 40
        ∧ ((s.port p).slots.get t = .free ∨ (kind = 0x42#8 ∧ body = []))
        ∧ body.length = 40 :=
  ⟨ready, .p0, 3, 0x12#8, List.replicate 40 0x00#8, by decide⟩

/-- A PORT-RESET in a PENDING slot. -/
theorem witness_SubmitPlacesAGoodFrame_portReset :
    ∃ (s : State) (p : Port) (t : Tag) (kind : Byte) (body : List Byte),
      s.active = true
        ∧ body.length ≤ 40
        ∧ (kind = 0x42#8 ∧ body = [])
        ∧ (s.port p).slots.get t ≠ .free :=
  ⟨withWaiting .p0 3 0x11#8 [4#8, 9#8] ready, .p0, 3, 0x42#8, [], by decide⟩

/-- A PORT-RESET with a body is like any other request. -/
theorem witness_SubmitPlacesAGoodFrame_collides :
    ∃ (s : State) (p : Port) (t : Tag) (kind : Byte) (body : List Byte),
      s.active = true
        ∧ body.length ≤ 40
        ∧ (s.port p).slots.get t ≠ .free
        ∧ ¬ (kind = 0x42#8 ∧ body = []) :=
  ⟨withWaiting .p0 3 0x11#8 [4#8, 9#8] ready, .p0, 3, 0x42#8, [0x00#8], by decide⟩

/-- An I2C port whose read selection is set. -/
theorem witness_FetchResponseReturnsOldest_empty :
    ∃ (s : State) (p : Port),
      s.active = true
        ∧ Selected s p .fetchResponse
        ∧ s.isI2C p = true
        ∧ (s.port p).fifo = [] :=
  ⟨i2c.setPort .p1 { i2c.port .p1 with selection := .fetchResponse }, .p1, by decide⟩

theorem witness_FetchResponseReturnsOldest_response :
    ∃ (s : State) (p : Port) (t : Tag) (rest : List Tag) (r : Response),
      s.active = true
        ∧ Selected s p .fetchResponse
        ∧ (s.port p).fifo = t :: rest
        ∧ (s.port p).slots.get t = .done r :=
  ⟨withResponse .p0 3 ⟨.ok, []⟩ ready, .p0, 3, [], ⟨.ok, []⟩, by decide⟩

def fullQueue : State :=
  ready.setPort .p1 { ready.port .p1 with notices := List.replicate 8 (.retired 6), lost := 255#8 }

/-- A full queue and a full lost count. -/
theorem witness_FetchNoticeReturnsOldest_notice :
    ∃ (s : State) (p : Port) (c : Notice) (rest : List Notice),
      s.active = true
        ∧ Selected s p .fetchNotice
        ∧ (s.port p).notices = c :: rest
        ∧ (s.port p).lost = 255#8 :=
  ⟨fullQueue, .p1, .retired 6, List.replicate 7 (.retired 6), by decide⟩

theorem witness_FetchNoticeReturnsOldest_empty :
    ∃ (s : State) (p : Port),
      s.active = true
        ∧ Selected s p .fetchNotice
        ∧ (s.port p).notices = [] :=
  ⟨fullQueue, .p0, by decide⟩

/-- Four responses wait. -/
def fullFifo : State :=
  withResponse .p0 3 ⟨.ok, []⟩ (withResponse .p0 1 ⟨.ok, []⟩ (withResponse .p0 2 ⟨.ok, []⟩ (withResponse .p0 0 ⟨.ok, []⟩ ready)))

theorem witness_StatusReportsAndClearsFlags :
    ∃ (s : State) (p : Port),
      s.active = true
        ∧ Selected s p .status
        ∧ (s.port p).fifo.length ≤ 4
        ∧ (s.port p).fifo.length = 4 :=
  ⟨fullFifo, .p0, by decide⟩

theorem witness_CodeByteSelectsTheTransaction_unknown :
    ∃ (s : State) (code : Byte),
      s.active = true
        ∧ code ≠ 0xC1#8
        ∧ code ≠ 0xC2#8
        ∧ code ≠ 0xC3#8
        ∧ code ≠ 0xC4#8 :=
  ⟨ready, 0xC0#8, by decide⟩

theorem witness_CodeByteSelectsTheTransaction_selection :
    ∃ (s : State) (p : Port),
      s.active = true
        ∧ s.isI2C p = true :=
  ⟨i2c, .p1, by decide⟩

theorem witness_CodeByteSelectsTheTransaction_spi :
    ∃ (s : State) (p : Port),
      s.isI2C p = false :=
  ⟨i2c, .p0, by decide⟩

theorem witness_CodeByteSelectsTheTransaction_i2c_low :
    ∃ (s : State) (p : Port) (write read : Byte),
      s.isI2C p = true
        ∧ s.straps.adrs = false
        ∧ write = 0x6C#8
        ∧ read = 0x6D#8 :=
  ⟨{ i2c with straps := { i2c.straps with adrs := false } }, .p1, 0x6C#8, 0x6D#8, by decide⟩

theorem witness_CodeByteSelectsTheTransaction_i2c_high :
    ∃ (s : State) (p : Port) (write read : Byte),
      s.isI2C p = true
        ∧ s.straps.adrs = true
        ∧ write = 0x6E#8
        ∧ read = 0x6F#8 :=
  ⟨{ i2c with straps := { i2c.straps with adrs := true } }, .p1, 0x6E#8, 0x6F#8, by decide⟩

theorem witness_InactivePortsTakeNothing_reset :
    ∃ (c : Instr) (s : State) (p : Port),
      s.active = false
        ∧ transactionPort c = some p
        ∧ s.isI2C p = true :=
  ⟨.submit .p1 [], { i2c with resetLow := true }, .p1, by decide⟩

theorem witness_InactivePortsTakeNothing_power :
    ∃ (c : Instr) (s : State) (p : Port),
      s.active = false
        ∧ transactionPort c = some p
        ∧ s.isI2C p = true :=
  ⟨.submit .p1 [], { i2c with supply := false }, .p1, by decide⟩

theorem witness_AttentionFollowsTheQueues_fifo :
    ∃ (s : State) (p : Port),
      FifoMatches (s.port p) :=
  ⟨fullFifo, .p0, ⟨by decide, by decide⟩⟩

theorem witness_AttentionFollowsTheQueues_scan :
    ∃ (s t : State) (p : Port), s.active = true ∧ s.dev = .starting ∧ exec .scanEnd s = .next t
      ∧ (s.port p).maskNotices = true := by
  cases h : exec .scanEnd State.reset with
  | next t => exact ⟨State.reset, t, .p0, rfl, rfl, h, rfl⟩
  | fault f => exact absurd (show runs .scanEnd State.reset (fun _ => true) = true by decide) (by simp [runs, h])
  | refused r => exact absurd (show runs .scanEnd State.reset (fun _ => true) = true by decide) (by simp [runs, h])

/-! #### Reading, leases and staging -/

/-- The last 32 bytes of a record of 240. -/
theorem witness_ReadReturnsCommittedOrStagedData_committed :
    ∃ (s : State) (p : Port) (t : Tag) (h : Handle) (x : RecEntry) (offset length : Byte),
      Asks s p t 0x10#8 [handleByte h, 0x00#8, 0x00#8, offset, length]
        ∧ s.dev = .ready
        ∧ Defined s h x
        ∧ (x.rights.get p).read = true
        ∧ 1 ≤ length.toNat
        ∧ length.toNat ≤ 32
        ∧ offset.toNat + length.toNat ≤ x.size.toNat :=
  ⟨withRequest .p2 3 0x10#8 [47#8, 0#8, 0#8, 208#8, 32#8] (withEntry 47 plain ready), .p2, 3, 47, plain, 208#8, 32#8, ⟨0, by decide⟩, by decide⟩

theorem witness_ReadReturnsCommittedOrStagedData_staged :
    ∃ (s : State) (p : Port) (t : Tag) (h : Handle) (x : RecEntry) (entry count offset length : Byte) (e : EntryNo) (l : Lease),
      Asks s p t 0x10#8 [handleByte h, entry, count, offset, length]
        ∧ s.dev = .ready
        ∧ Defined s h x
        ∧ Live s p entry count e l
        ∧ l.handle = h
        ∧ l.grantRights.read = true
        ∧ 1 ≤ length.toNat
        ∧ length.toNat ≤ 32
        ∧ offset.toNat + length.toNat ≤ x.size.toNat :=
  ⟨withRequest .p1 2 0x10#8 [20#8, 2#8, 6#8, 3#8, 1#8] committing, .p1, 2, 20, counter, 2#8, 6#8, 3#8, 1#8, 1, committed .explicit, ⟨0, by decide⟩, by decide⟩

/-- Entry 6 is the lowest FREE one. -/
def lastFree : State := (allHeld (withEntry 47 plain ready)).setLease 5 ⟨255#8, none⟩

theorem witness_AcquireIsGrantedAtOnce :
    ∃ (s : State) (p : Port) (t : Tag) (h : Handle) (x : RecEntry) (wait : Byte) (e : EntryNo),
      Asks s p t 0x11#8 [handleByte h, wait]
        ∧ s.dev = .ready
        ∧ Defined s h x
        ∧ (x.rights.get p).update = true
        ∧ x.frozen = false
        ∧ (s.record h).retirePending = false
        ∧ (s.record h).freezePending = false
        ∧ Unleased s h
        ∧ (s.record h).waiters = []
        ∧ FirstFree s e :=
  ⟨withRequest .p1 0 0x11#8 [47#8, 0#8] lastFree, .p1, 0, 47, plain, 0#8, 5, ⟨0, by decide⟩, by decide⟩

/-- A record with a RETIRE or a FREEZE pending. -/
def pendingRecord (retire : Bool) : State :=
  withRequest .p1 0 0x11#8 [40#8, 1#8]
    (ready.setRecord 40 { RecState.blank with entry := some plain, retirePending := retire, freezePending := !retire })

theorem witness_AcquireOrAddWaitsOrIsRefused_retiring :
    ∃ (s : State) (p : Port) (t : Tag) (serial : Nat) (h : Handle) (x : RecEntry) (wait : Byte),
      Placed s p t serial 0x11#8 [handleByte h, wait]
        ∧ s.dev = .ready
        ∧ Defined s h x
        ∧ (x.rights.get p).update = true
        ∧ x.frozen = false
        ∧ (s.record h).retirePending = true :=
  ⟨pendingRecord true, .p1, 0, 0, 40, plain, 1#8, by decide⟩

theorem witness_AcquireOrAddWaitsOrIsRefused_freezing :
    ∃ (s : State) (p : Port) (t : Tag) (serial : Nat) (h : Handle) (x : RecEntry) (wait : Byte),
      Placed s p t serial 0x11#8 [handleByte h, wait]
        ∧ s.dev = .ready
        ∧ Defined s h x
        ∧ (x.rights.get p).update = true
        ∧ x.frozen = false
        ∧ (s.record h).retirePending = false
        ∧ (s.record h).freezePending = true :=
  ⟨pendingRecord false, .p1, 0, 0, 40, plain, 1#8, by decide⟩

/-- P2 asks for a record that P2 holds. -/
theorem witness_AcquireOrAddWaitsOrIsRefused_own :
    ∃ (s : State) (p : Port) (t : Tag) (serial : Nat) (h : Handle) (x : RecEntry) (wait : Byte),
      Placed s p t serial 0x11#8 [handleByte h, wait]
        ∧ s.dev = .ready
        ∧ Defined s h x
        ∧ (x.rights.get p).update = true
        ∧ x.frozen = false
        ∧ (s.record h).retirePending = false
        ∧ (s.record h).freezePending = false
        ∧ (∀ e l, (s.lease e).lease = some l → l.handle = h → l.holder = p)
        ∧ ¬ Unleased s h :=
  ⟨withRequest .p2 0 0x11#8 [40#8, 9#8] (allHeld (withEntry 40 plain ready)), .p2, 0, 0, 40, plain, 9#8, by decide, by decide, by decide, by decide, by decide, by decide, by decide, of_leases (P := fun _ l => l.handle = 40 → l.holder = .p2) (by decide), by decide⟩

theorem witness_AcquireOrAddWaitsOrIsRefused_busy :
    ∃ (s : State) (p : Port) (t : Tag) (serial : Nat) (h : Handle) (x : RecEntry) (wait : Byte),
      Placed s p t serial 0x11#8 [handleByte h, wait]
        ∧ s.dev = .ready
        ∧ Defined s h x
        ∧ (x.rights.get p).update = true
        ∧ x.frozen = false
        ∧ (s.record h).retirePending = false
        ∧ (s.record h).freezePending = false
        ∧ NotHeldBy s p h
        ∧ (¬ Unleased s h ∨ (s.record h).waiters ≠ [] ∨ ∀ e, (s.lease e).lease ≠ none)
        ∧ wait = 0x00#8 :=
  ⟨withRequest .p1 0 0x11#8 [40#8, 0#8] (allHeld (withEntry 40 plain ready)), .p1, 0, 0, 40, plain, 0#8, by decide⟩

theorem witness_AcquireOrAddWaitsOrIsRefused_waits :
    ∃ (s : State) (p : Port) (t : Tag) (serial : Nat) (h : Handle) (x : RecEntry) (wait : Byte),
      Placed s p t serial 0x11#8 [handleByte h, wait]
        ∧ s.dev = .ready
        ∧ Defined s h x
        ∧ (x.rights.get p).update = true
        ∧ x.frozen = false
        ∧ (s.record h).retirePending = false
        ∧ (s.record h).freezePending = false
        ∧ NotHeldBy s p h
        ∧ (¬ Unleased s h ∨ (s.record h).waiters ≠ [] ∨ ∀ e, (s.lease e).lease ≠ none)
        ∧ wait ≠ 0x00#8 :=
  ⟨withRequest .p1 0 0x11#8 [40#8, 1#8] (allHeld (withEntry 40 plain ready)), .p1, 0, 0, 40, plain, 1#8, by decide⟩

/-- An ADD of 1 to handle 40 of P1. -/
def addRequest (s : State) : State := withRequest .p1 0 0x13#8 ([40#8, 0#8, 0#8] ++ be4 1#32) s

/-- A counter with a RETIRE or a FREEZE pending. -/
def pendingCounter (retire : Bool) : State :=
  addRequest
    (ready.setRecord 40 { RecState.blank with entry := some counter, retirePending := retire, freezePending := !retire })

theorem witness_AcquireOrAddWaitsOrIsRefused_addRetiring :
    ∃ (s : State) (p : Port) (t : Tag) (serial : Nat) (h : Handle) (x : RecEntry) (delta : Word32),
      Placed s p t serial 0x13#8 ([handleByte h, 0x00#8, 0x00#8] ++ be4 delta)
        ∧ s.dev = .ready
        ∧ Defined s h x
        ∧ x.kind = .counter
        ∧ (x.rights.get p).update = true
        ∧ x.frozen = false
        ∧ (s.record h).retirePending = true :=
  ⟨pendingCounter true, .p1, 0, 0, 40, counter, 1#32, by decide⟩

theorem witness_AcquireOrAddWaitsOrIsRefused_addFreezing :
    ∃ (s : State) (p : Port) (t : Tag) (serial : Nat) (h : Handle) (x : RecEntry) (delta : Word32),
      Placed s p t serial 0x13#8 ([handleByte h, 0x00#8, 0x00#8] ++ be4 delta)
        ∧ s.dev = .ready
        ∧ Defined s h x
        ∧ x.kind = .counter
        ∧ (x.rights.get p).update = true
        ∧ x.frozen = false
        ∧ (s.record h).retirePending = false
        ∧ (s.record h).freezePending = true :=
  ⟨pendingCounter false, .p1, 0, 0, 40, counter, 1#32, by decide⟩

/-- P1 adds to a record that P1 holds. -/
theorem witness_AcquireOrAddWaitsOrIsRefused_addOwn :
    ∃ (s : State) (p : Port) (t : Tag) (serial : Nat) (h : Handle) (x : RecEntry) (delta : Word32),
      Placed s p t serial 0x13#8 ([handleByte h, 0x00#8, 0x00#8] ++ be4 delta)
        ∧ s.dev = .ready
        ∧ Defined s h x
        ∧ x.kind = .counter
        ∧ (x.rights.get p).update = true
        ∧ x.frozen = false
        ∧ (s.record h).retirePending = false
        ∧ (s.record h).freezePending = false
        ∧ (∀ e l, (s.lease e).lease = some l → l.handle = h → l.holder = p)
        ∧ ¬ Unleased s h :=
  ⟨addRequest ((withEntry 40 counter ready).setLease 0 ⟨1#8, some (held .p1 40)⟩), .p1, 0, 0, 40, counter, 1#32, by decide, by decide, by decide, by decide, by decide, by decide, by decide, by decide, of_leases (P := fun _ l => l.handle = 40 → l.holder = .p1) (by decide), by decide⟩

theorem witness_AcquireOrAddWaitsOrIsRefused_addWaits :
    ∃ (s : State) (p : Port) (t : Tag) (serial : Nat) (h : Handle) (x : RecEntry) (delta : Word32),
      Placed s p t serial 0x13#8 ([handleByte h, 0x00#8, 0x00#8] ++ be4 delta)
        ∧ s.dev = .ready
        ∧ Defined s h x
        ∧ x.kind = .counter
        ∧ (x.rights.get p).update = true
        ∧ x.frozen = false
        ∧ (s.record h).retirePending = false
        ∧ (s.record h).freezePending = false
        ∧ NotHeldBy s p h
        ∧ (¬ Unleased s h ∨ (s.record h).waiters ≠ [] ∨ ∀ e, (s.lease e).lease ≠ none) :=
  ⟨addRequest (allHeld (withEntry 40 counter ready)), .p1, 0, 0, 40, counter, 1#32, by decide⟩

/-- The last byte of a record of 4. -/
theorem witness_StageWritesTheBuffer_inside :
    ∃ (s : State) (p : Port) (t : Tag) (entry count offset : Byte) (data : List Byte) (e : EntryNo) (l : Lease) (x : RecEntry),
      Asks s p t 0x12#8 ([entry, count, offset] ++ data)
        ∧ s.dev = .ready
        ∧ 1 ≤ data.length
        ∧ data.length ≤ 32
        ∧ offset.toNat ≤ 239
        ∧ Live s p entry count e l
        ∧ l.grantRights.update = true
        ∧ l.phase = .held
        ∧ Defined s l.handle x
        ∧ offset.toNat + data.length ≤ x.size.toNat :=
  ⟨withRequest .p1 2 0x12#8 [2#8, 6#8, 3#8, 9#8] staging, .p1, 2, 2#8, 6#8, 3#8, [9#8], 1, held .p1 20, counter, ⟨0, by decide⟩, by decide⟩

/-- The byte after it. -/
theorem witness_StageWritesTheBuffer_outside :
    ∃ (s : State) (p : Port) (t : Tag) (entry count offset : Byte) (data : List Byte) (e : EntryNo) (l : Lease) (x : RecEntry),
      Asks s p t 0x12#8 ([entry, count, offset] ++ data)
        ∧ s.dev = .ready
        ∧ 1 ≤ data.length
        ∧ data.length ≤ 32
        ∧ offset.toNat ≤ 239
        ∧ Live s p entry count e l
        ∧ l.grantRights.update = true
        ∧ l.phase = .held
        ∧ Defined s l.handle x
        ∧ x.size.toNat < offset.toNat + data.length :=
  ⟨withRequest .p1 2 0x12#8 [2#8, 6#8, 4#8, 9#8] staging, .p1, 2, 2#8, 6#8, 4#8, [9#8], 1, held .p1 20, counter, ⟨0, by decide⟩, by decide⟩

theorem witness_AddWithTokenChangesStagedValue :
    ∃ (s : State) (p : Port) (t : Tag) (h : Handle) (x : RecEntry) (entry count : Byte) (delta : Word32) (e : EntryNo) (l : Lease) (b0 b1 b2 b3 : Byte) (rest : List Byte),
      Asks s p t 0x13#8 ([handleByte h, entry, count] ++ be4 delta)
        ∧ s.dev = .ready
        ∧ Defined s h x
        ∧ x.kind = .counter
        ∧ x.frozen = false
        ∧ Live s p entry count e l
        ∧ l.handle = h
        ∧ l.grantRights.update = true
        ∧ l.phase = .held
        ∧ (s.buffer e).bytes = b0 :: b1 :: b2 :: b3 :: rest :=
  ⟨withRequest .p1 1 0x13#8 ([20#8, 2#8, 6#8] ++ be4 10#32) staging, .p1, 1, 20, counter, 2#8, 6#8, 10#32, 1, held .p1 20, 0xFF#8, 0xFF#8, 0xFF#8, 0xFA#8, List.replicate 236 0x00#8, ⟨0, by decide⟩, by decide⟩

/-- A FREE counter at a generation. -/
def freeCounter (gen : Word32) : State :=
  withRequest .p2 1 0x13#8 ([4#8, 0#8, 0#8] ++ be4 7#32) (withValue 4 5#32 gen ready)

theorem witness_AddIsGrantedImplicitly_spent :
    ∃ (s : State) (p : Port) (t : Tag) (serial : Nat) (h : Handle) (x : RecEntry) (delta : Word32) (e : EntryNo),
      Placed s p t serial 0x13#8 ([handleByte h, 0x00#8, 0x00#8] ++ be4 delta)
        ∧ s.dev = .ready
        ∧ Defined s h x
        ∧ x.kind = .counter
        ∧ x.frozen = false
        ∧ (x.rights.get p).update = true
        ∧ (s.record h).retirePending = false
        ∧ (s.record h).freezePending = false
        ∧ Unleased s h
        ∧ (s.record h).waiters = []
        ∧ FirstFree s e
        ∧ (s.record h).gen = 0xFFFFFFFF#32 :=
  ⟨freeCounter 0xFFFFFFFF#32, .p2, 1, 0, 4, counter, 7#32, 0, by decide⟩

theorem witness_AddIsGrantedImplicitly_granted :
    ∃ (s : State) (p : Port) (t : Tag) (serial : Nat) (h : Handle) (x : RecEntry) (delta : Word32) (e : EntryNo),
      Placed s p t serial 0x13#8 ([handleByte h, 0x00#8, 0x00#8] ++ be4 delta)
        ∧ s.dev = .ready
        ∧ Defined s h x
        ∧ x.kind = .counter
        ∧ x.frozen = false
        ∧ (x.rights.get p).update = true
        ∧ (s.record h).retirePending = false
        ∧ (s.record h).freezePending = false
        ∧ Unleased s h
        ∧ (s.record h).waiters = []
        ∧ FirstFree s e
        ∧ (s.record h).gen ≠ 0xFFFFFFFF#32 :=
  ⟨freeCounter 0xFFFFFFFE#32, .p2, 1, 0, 4, counter, 7#32, 0, by decide⟩

/-- A modified lease. -/
def modified (gen : Word32) : State :=
  withRequest .p1 3 0x14#8 [2#8, 6#8]
    ((withValue 20 5#32 gen ready).setLease 1 ⟨6#8, some { held .p1 20 with modified := true }⟩)

theorem witness_CommitQueuesARecordJob :
    ∃ (s : State) (p : Port) (t : Tag) (serial : Nat) (entry count : Byte) (e : EntryNo) (l : Lease) (x : RecEntry),
      Placed s p t serial 0x14#8 [entry, count]
        ∧ s.dev = .ready
        ∧ Live s p entry count e l
        ∧ l.grantRights.update = true
        ∧ l.phase = .held
        ∧ l.modified = true
        ∧ Defined s l.handle x
        ∧ (s.record l.handle).gen ≠ 0xFFFFFFFF#32 :=
  ⟨modified 0xFFFFFFFE#32, .p1, 3, 0, 2#8, 6#8, 1, { held .p1 20 with modified := true }, counter, by decide⟩

theorem witness_ReleaseAndJoblessCommitFreeTheLease_release :
    ∃ (s : State) (p : Port) (t : Tag) (entry count : Byte) (e : EntryNo) (l : Lease),
      Asks s p t 0x15#8 [entry, count]
        ∧ s.dev = .ready
        ∧ Live s p entry count e l
        ∧ l.grantRights.update = true
        ∧ l.phase = .held
        ∧ NoneWaits s l.handle :=
  ⟨withRequest .p1 0 0x15#8 [2#8, 6#8] staging, .p1, 0, 2#8, 6#8, 1, held .p1 20, ⟨0, by decide⟩, by decide⟩

theorem witness_ReleaseAndJoblessCommitFreeTheLease_unchanged :
    ∃ (s : State) (p : Port) (t : Tag) (entry count : Byte) (e : EntryNo) (l : Lease),
      Asks s p t 0x14#8 [entry, count]
        ∧ s.dev = .ready
        ∧ Live s p entry count e l
        ∧ l.grantRights.update = true
        ∧ l.phase = .held
        ∧ NoneWaits s l.handle
        ∧ l.modified = false :=
  ⟨withRequest .p1 0 0x14#8 [2#8, 6#8] staging, .p1, 0, 2#8, 6#8, 1, held .p1 20, ⟨0, by decide⟩, by decide⟩

theorem witness_ReleaseAndJoblessCommitFreeTheLease_spent :
    ∃ (s : State) (p : Port) (t : Tag) (entry count : Byte) (e : EntryNo) (l : Lease),
      Asks s p t 0x14#8 [entry, count]
        ∧ s.dev = .ready
        ∧ Live s p entry count e l
        ∧ l.grantRights.update = true
        ∧ l.phase = .held
        ∧ NoneWaits s l.handle
        ∧ l.modified = true
        ∧ (s.record l.handle).gen = 0xFFFFFFFF#32 :=
  ⟨modified 0xFFFFFFFF#32, .p1, 3, 2#8, 6#8, 1, { held .p1 20 with modified := true }, ⟨0, by decide⟩, by decide⟩

def waitingAdd (p : Port) (t : Tag) (delta : Word32) : Waiter := ⟨⟨p, t, 0⟩, .add delta⟩

/-- Entry 2 has just been freed from handle 20, which has the waiters `own`; the allocation queue is `queue`. Handle 5
stands at a spent generation with a waiting ADD, and an ACQUIRE waits for handle 4. -/
def granting (queue : List Handle) (own : List Waiter) (freeze : Bool) : State :=
  { ((ready.setRecord 4 { RecState.blank with entry := some plain, waiters := [waiting .p0 2 9] }).setRecord 5
      { RecState.blank with entry := some counter, gen := 0xFFFFFFFF#32, waiters := [waitingAdd .p2 0 1#32] }).setRecord 20
        { RecState.blank with
          entry := some counter, gen := 0xFFFFFFFF#32, waiters := own, freezePending := freeze } with
    allocQueue := queue }

/-- An ADD that a grant refuses, and behind it an ACQUIRE. -/
def ownWaiters : List Waiter := [waitingAdd .p2 1 1#32, waiting .p0 3 9]

/-- The head of the allocation queue is refused and the next record is granted. -/
theorem witness_GrantedOnward_queued :
    ∃ (s : State) (h k : Handle) (spents hs : List Handle) (before after : List Waiter) (w : Waiter) (x : RecEntry),
      s.allocQueue = spents ++ k :: hs
        ∧ h ∉ s.allocQueue
        ∧ k ∉ spents
        ∧ (∀ j ∈ spents, AllSpent s j)
        ∧ (s.record k).waiters = before ++ w :: after
        ∧ (∀ v ∈ before, Spent s k v)
        ∧ ¬ Spent s k w
        ∧ Defined s k x
        ∧ spents ≠ [] :=
  ⟨granting [5, 4] ownWaiters false, 20, 4, [5], [], [], [], waiting .p0 2 9, plain, by decide⟩

theorem witness_GrantedOnward_own :
    ∃ (s : State) (h : Handle) (before after : List Waiter) (w : Waiter) (x : RecEntry),
      h ∉ s.allocQueue
        ∧ (∀ j ∈ s.allocQueue, AllSpent s j)
        ∧ (s.record h).freezePending = false
        ∧ (s.record h).waiters = before ++ w :: after
        ∧ (∀ v ∈ before, Spent s h v)
        ∧ ¬ Spent s h w
        ∧ Defined s h x
        ∧ before ≠ [] :=
  ⟨granting [5] ownWaiters false, 20, [waitingAdd .p2 1 1#32], [], waiting .p0 3 9, counter, by decide⟩

theorem witness_GrantedOnward_none_freezing :
    ∃ (s : State) (h : Handle),
      h ∉ s.allocQueue
        ∧ (∀ j ∈ s.allocQueue, AllSpent s j)
        ∧ (s.record h).freezePending = true :=
  ⟨granting [5] [] true, 20, by decide⟩

theorem witness_GrantedOnward_none_spent :
    ∃ (s : State) (h : Handle),
      h ∉ s.allocQueue
        ∧ (∀ j ∈ s.allocQueue, AllSpent s j)
        ∧ (s.record h).freezePending = false
        ∧ AllSpent s h
        ∧ (s.record h).waiters ≠ [] :=
  ⟨granting [] [waitingAdd .p2 1 1#32] false, 20, by decide⟩

/-- P0's ACQUIRE waits for handle 20, which P1 holds. -/
def contested (s : State) : State := withWaiting .p0 2 0x11#8 [20#8, 9#8] (s.setWaiters 20 [waiting .p0 2 9])

theorem witness_FreedEntryIsGrantedOnward_release :
    ∃ (s : State) (p : Port) (t : Tag) (entry count : Byte) (e : EntryNo) (l : Lease),
      Asks s p t 0x15#8 [entry, count]
        ∧ (s.lease e).lease = some l
        ∧ s.dev = .ready
        ∧ Live s p entry count e l
        ∧ l.grantRights.update = true
        ∧ l.phase = .held
        ∧ (s.record l.handle).waiters ≠ [] :=
  ⟨withRequest .p1 0 0x15#8 [2#8, 6#8] (contested staging), .p1, 0, 2#8, 6#8, 1, held .p1 20, ⟨0, by decide⟩, by decide⟩

theorem witness_FreedEntryIsGrantedOnward_unchanged :
    ∃ (s : State) (p : Port) (t : Tag) (entry count : Byte) (e : EntryNo) (l : Lease),
      Asks s p t 0x14#8 [entry, count]
        ∧ (s.lease e).lease = some l
        ∧ s.dev = .ready
        ∧ Live s p entry count e l
        ∧ l.grantRights.update = true
        ∧ l.phase = .held
        ∧ l.modified = false
        ∧ (s.record l.handle).waiters ≠ [] :=
  ⟨withRequest .p1 0 0x14#8 [2#8, 6#8] (contested staging), .p1, 0, 2#8, 6#8, 1, held .p1 20, ⟨0, by decide⟩, by decide⟩

theorem witness_FreedEntryIsGrantedOnward_spent :
    ∃ (s : State) (p : Port) (t : Tag) (entry count : Byte) (e : EntryNo) (l : Lease),
      Asks s p t 0x14#8 [entry, count]
        ∧ (s.lease e).lease = some l
        ∧ s.dev = .ready
        ∧ Live s p entry count e l
        ∧ l.grantRights.update = true
        ∧ l.phase = .held
        ∧ l.modified = true
        ∧ (s.record l.handle).gen = 0xFFFFFFFF#32
        ∧ (s.record l.handle).waiters ≠ [] :=
  ⟨withRequest .p1 0 0x14#8 [2#8, 6#8] (contested (modified 0xFFFFFFFF#32)), .p1, 0, 2#8, 6#8, 1, { held .p1 20 with modified := true }, ⟨0, by decide⟩, by decide⟩

theorem witness_FreedEntryIsGrantedOnward_expiry :
    ∃ (s : State) (e : EntryNo) (l : Lease),
      (s.lease e).lease = some l
        ∧ l.phase = .held
        ∧ l.timer = some 0
        ∧ (s.record l.handle).waiters ≠ [] :=
  ⟨contested (staging.setLease 1 ⟨6#8, some { held .p1 20 with timer := some 0 }⟩), 1, { held .p1 20 with timer := some 0 }, by decide⟩

theorem witness_FreedEntryIsGrantedOnward_commitPoint :
    ∃ (s : State) (e : EntryNo) (l : Lease) (c : Copy) (first pages : Nat) (gen : Word32) (retry : Bool) (rest : List Job),
      (s.lease e).lease = some l
        ∧ s.engine = .programming pages retry
        ∧ s.queue = .record e l.handle c first pages gen :: rest
        ∧ 1 ≤ pages
        ∧ first < 2048
        ∧ s.clear = none
        ∧ (s.record l.handle).waiters ≠ [] :=
  ⟨contested committing, 1, committed .explicit, .b, 81, 1, 18#32, false, [], by decide⟩

theorem witness_FreedEntryIsGrantedOnward_fault :
    ∃ (s : State) (e : EntryNo) (l : Lease) (c : Copy) (first pages pos failing : Nat) (gen : Word32) (rest : List Job),
      (s.lease e).lease = some l
        ∧ s.engine = .erasing pos failing
        ∧ s.queue = .record e l.handle c first pages gen :: rest
        ∧ first < 2048
        ∧ s.clear = none
        ∧ (s.record l.handle).waiters ≠ [] :=
  ⟨contested { committing with engine := .erasing 1 81 }, 1, committed .explicit, .b, 81, 1, 1, 81, 18#32, [], by decide⟩

/-- P1's job is in programming; a record job of P2 and the job of a FREEZE have not started; P0 holds a lease. -/
def busy : State :=
  { (committing.setLease 0
      ⟨1#8, some { held .p2 3 with phase := .committing, timer := none, answer := some ⟨.p2, 0, 0⟩ }⟩).setLease 2
        ⟨1#8, some (held .p0 6)⟩ with
    queue := [.record 1 20 .b 81 1 18#32, .record 0 3 .a 90 1 1#32, .directory .freeze .a 1#32]
    dirSlot := some ⟨.freeze, 8, ⟨.p0, 1, 0⟩⟩ }

/-- P1 asks for a reset while it holds two leases. -/
def twoHeld : State := withRequest .p1 0 0x42#8 [] ((contested staging).setLease 3 ⟨9#8, some (held .p1 7)⟩)

theorem twoHeld_first (h : Handle) : ¬ ResetFrees twoHeld .p1 0 h := by
  have hn : (twoHeld.lease 0).lease = none := by decide
  rintro ⟨l, hl, _⟩
  rw [hn] at hl
  cases hl

/-- Two HELD leases of the port. -/
theorem witness_FreedEntryIsGrantedOnward_portReset :
    ∃ (s : State) (p : Port) (t : Tag),
      Asks s p t 0x42#8 []
        ∧ ¬ ResetRemovesDirectory s p
        ∧ ResetFrees s p 1 20
        ∧ ResetFrees s p 3 7
        ∧ (∀ h, ¬ ResetFrees s p 0 h)
        ∧ (s.record 20).waiters ≠ [] :=
  ⟨twoHeld, .p1, 0, ⟨0, by decide⟩, by decide, ⟨held .p1 20, by decide⟩, ⟨held .p1 7, by decide⟩, twoHeld_first, by decide⟩

/-- A COMMITTING lease whose job has not started. -/
theorem witness_FreedEntryIsGrantedOnward_portResetJob :
    ∃ (s : State) (p : Port) (t : Tag),
      Asks s p t 0x42#8 []
        ∧ ¬ ResetRemovesDirectory s p
        ∧ ResetFrees s p 0 3 :=
  ⟨withRequest .p2 0 0x42#8 [] busy, .p2, 0, ⟨0, by decide⟩, by decide, ⟨{ held .p2 3 with phase := .committing, timer := none, answer := some ⟨.p2, 0, 0⟩ }, by decide⟩⟩

theorem witness_RenewRestartsTheHoldTimer_renews :
    ∃ (s : State) (p : Port) (t : Tag) (entry count : Byte) (e : EntryNo) (l : Lease) (x : RecEntry),
      Asks s p t 0x16#8 [entry, count]
        ∧ s.dev = .ready
        ∧ Live s p entry count e l
        ∧ l.grantRights.update = true
        ∧ l.phase = .held
        ∧ Defined s l.handle x
        ∧ l.renewals < 4 :=
  ⟨withRequest .p1 0 0x16#8 [2#8, 6#8] (staging.setLease 1 ⟨6#8, some { held .p1 20 with renewals := 3 }⟩), .p1, 0, 2#8, 6#8, 1, { held .p1 20 with renewals := 3 }, counter, ⟨0, by decide⟩, by decide⟩

theorem witness_RenewRestartsTheHoldTimer_limit :
    ∃ (s : State) (p : Port) (t : Tag) (entry count : Byte) (e : EntryNo) (l : Lease) (x : RecEntry),
      Asks s p t 0x16#8 [entry, count]
        ∧ s.dev = .ready
        ∧ Live s p entry count e l
        ∧ l.grantRights.update = true
        ∧ l.phase = .held
        ∧ Defined s l.handle x
        ∧ 4 ≤ l.renewals :=
  ⟨withRequest .p1 0 0x16#8 [2#8, 6#8] (staging.setLease 1 ⟨6#8, some { held .p1 20 with renewals := 4 }⟩), .p1, 0, 2#8, 6#8, 1, { held .p1 20 with renewals := 4 }, counter, ⟨0, by decide⟩, by decide⟩

/-- P0's ACQUIRE in tag 2 waits for handle 4 behind another. -/
def queued : State :=
  withWaiting .p0 2 0x11#8 [4#8, 9#8]
    (ready.setRecord 4
      { RecState.blank with entry := some counter, waiters := [waiting .p1 2 9] ++ waiting .p0 2 9 :: [] })

theorem witness_CancelWithdrawsTheWaiter_own :
    ∃ (s : State) (p : Port) (t u : Tag),
      Asks s p t 0x17#8 [BitVec.ofNat 8 u.val]
        ∧ s.dev = .ready
        ∧ u = t :=
  ⟨withRequest .p0 3 0x17#8 [3#8] ready, .p0, 3, 3, ⟨0, by decide⟩, by decide⟩

theorem witness_CancelWithdrawsTheWaiter_none :
    ∃ (s : State) (p : Port) (t u : Tag),
      Asks s p t 0x17#8 [BitVec.ofNat 8 u.val]
        ∧ s.dev = .ready
        ∧ u ≠ t
        ∧ (∀ (h : Handle) w, w ∈ (s.record h).waiters → ¬ (w.ticket.port = p ∧ w.ticket.tag = u)) :=
  ⟨withRequest .p0 0 0x17#8 [3#8] queued, .p0, 0, 3, ⟨0, by decide⟩, by decide⟩

theorem witness_CancelWithdrawsTheWaiter_waiter :
    ∃ (s : State) (p : Port) (t u : Tag) (h : Handle) (before after : List Waiter) (serial : Nat) (type : WaitType) (kind : Byte) (body : List Byte),
      Asks s p t 0x17#8 [BitVec.ofNat 8 u.val]
        ∧ s.dev = .ready
        ∧ u ≠ t
        ∧ (s.record h).waiters = before ++ ⟨⟨p, u, serial⟩, type⟩ :: after
        ∧ (∀ w, w ∈ before ++ after → ¬ (w.ticket.port = p ∧ w.ticket.tag = u))
        ∧ (∀ h' : Handle, h' ≠ h → ∀ w, w ∈ (s.record h').waiters → ¬ (w.ticket.port = p ∧ w.ticket.tag = u))
        ∧ (s.port p).slots.get u = .pending serial kind body :=
  ⟨withRequest .p0 0 0x17#8 [2#8] queued, .p0, 0, 2, 4, [waiting .p1 2 9], [], 0, .acquire 9, 0x11#8, [4#8, 9#8], ⟨0, by decide⟩, by decide⟩

/-! #### Watches -/

def watching : State := (withEntry 4 counter ready).setWatch 0 (some ⟨.p1, 4, .rise 5#32, false⟩)

def watchRequest (s : State) : State := withRequest .p1 0 0x20#8 ([4#8, 2#8] ++ be4 5#32 ++ [1#8]) s

/-- The table is full of other watches. -/
def fullWatches : State :=
  watchRequest { withEntry 4 counter ready with watches := Vector.replicate 16 (some ⟨.p0, 4, .any, false⟩) }

theorem witness_WatchFillsLowestEntry_exists :
    ∃ (s : State) (p : Port) (t : Tag) (h : Handle) (x : RecEntry) (m f : Byte) (threshold : Word32) (mode : WatchMode) (self : Bool),
      Asks s p t 0x20#8 ([handleByte h, m] ++ be4 threshold ++ [f])
        ∧ s.dev = .ready
        ∧ Defined s h x
        ∧ (x.rights.get p).watch = true
        ∧ ((m = 0x01#8 ∧ mode = .any) ∨ (m = 0x02#8 ∧ mode = .rise threshold ∧ x.kind = .counter) ∨ (m = 0x03#8 ∧ mode = .fall threshold ∧ x.kind = .counter))
        ∧ ((f = 0x00#8 ∧ self = false) ∨ (f = 0x01#8 ∧ self = true))
        ∧ (∃ n w, s.watchAt n = some w ∧ w.port = p ∧ w.handle = h ∧ w.mode = mode) :=
  ⟨watchRequest watching, .p1, 0, 4, counter, 2#8, 1#8, 5#32, .rise 5#32, true, ⟨0, by decide⟩, by decide, by decide, by decide, by decide, by decide, ⟨0, ⟨.p1, 4, .rise 5#32, false⟩, by decide⟩⟩

/-- Entry 15 alone is empty. -/
theorem witness_WatchFillsLowestEntry_room :
    ∃ (s : State) (p : Port) (t : Tag) (h : Handle) (x : RecEntry) (m f : Byte) (threshold : Word32) (mode : WatchMode) (self : Bool) (n : WatchNo),
      Asks s p t 0x20#8 ([handleByte h, m] ++ be4 threshold ++ [f])
        ∧ s.dev = .ready
        ∧ Defined s h x
        ∧ (x.rights.get p).watch = true
        ∧ ((m = 0x01#8 ∧ mode = .any) ∨ (m = 0x02#8 ∧ mode = .rise threshold ∧ x.kind = .counter) ∨ (m = 0x03#8 ∧ mode = .fall threshold ∧ x.kind = .counter))
        ∧ ((f = 0x00#8 ∧ self = false) ∨ (f = 0x01#8 ∧ self = true))
        ∧ (∀ n w, s.watchAt n = some w → ¬ (w.port = p ∧ w.handle = h ∧ w.mode = mode))
        ∧ s.watchAt n = none
        ∧ (∀ n', n' < n → s.watchAt n' ≠ none) :=
  ⟨fullWatches.setWatch 15 none, .p1, 0, 4, counter, 2#8, 1#8, 5#32, .rise 5#32, true, 15, ⟨0, by decide⟩, by decide, by decide, by decide, by decide, by decide, of_watches (P := fun _ w => ¬ (w.port = .p1 ∧ w.handle = 4 ∧ w.mode = .rise 5#32)) (by decide), by decide⟩

theorem witness_WatchFillsLowestEntry_full :
    ∃ (s : State) (p : Port) (t : Tag) (h : Handle) (x : RecEntry) (m f : Byte) (threshold : Word32) (mode : WatchMode) (self : Bool),
      Asks s p t 0x20#8 ([handleByte h, m] ++ be4 threshold ++ [f])
        ∧ s.dev = .ready
        ∧ Defined s h x
        ∧ (x.rights.get p).watch = true
        ∧ ((m = 0x01#8 ∧ mode = .any) ∨ (m = 0x02#8 ∧ mode = .rise threshold ∧ x.kind = .counter) ∨ (m = 0x03#8 ∧ mode = .fall threshold ∧ x.kind = .counter))
        ∧ ((f = 0x00#8 ∧ self = false) ∨ (f = 0x01#8 ∧ self = true))
        ∧ (∀ n w, s.watchAt n = some w → ¬ (w.port = p ∧ w.handle = h ∧ w.mode = mode))
        ∧ (∀ n, s.watchAt n ≠ none) :=
  ⟨fullWatches, .p1, 0, 4, counter, 2#8, 1#8, 5#32, .rise 5#32, true, ⟨0, by decide⟩, by decide, by decide, by decide, by decide, by decide, of_watches (P := fun _ w => ¬ (w.port = .p1 ∧ w.handle = 4 ∧ w.mode = .rise 5#32)) (by decide), by decide⟩

theorem witness_UnwatchEmptiesOwnEntry_range :
    ∃ (s : State) (p : Port) (t : Tag) (number : Byte),
      Asks s p t 0x21#8 [number]
        ∧ s.dev = .ready
        ∧ 15 < number.toNat :=
  ⟨withRequest .p1 0 0x21#8 [16#8] watching, .p1, 0, 16#8, ⟨0, by decide⟩, by decide⟩

theorem witness_UnwatchEmptiesOwnEntry_own :
    ∃ (s : State) (p : Port) (t : Tag) (number : Byte) (n : WatchNo),
      Asks s p t 0x21#8 [number]
        ∧ s.dev = .ready
        ∧ number.toNat = n.val
        ∧ (∀ w, s.watchAt n = some w → w.port = p)
        ∧ s.watchAt n ≠ none :=
  ⟨withRequest .p1 0 0x21#8 [0#8] watching, .p1, 0, 0#8, 0, ⟨0, by decide⟩, by decide, by decide, fun w h => of_watches (P := fun n w => n = 0 → w.port = .p1) (by decide) 0 w h rfl, by decide⟩

theorem witness_UnwatchEmptiesOwnEntry_foreign :
    ∃ (s : State) (p : Port) (t : Tag) (number : Byte) (n : WatchNo),
      Asks s p t 0x21#8 [number]
        ∧ s.dev = .ready
        ∧ number.toNat = n.val
        ∧ (∀ w, s.watchAt n = some w → w.port ≠ p)
        ∧ s.watchAt n ≠ none :=
  ⟨withRequest .p2 0 0x21#8 [0#8] watching, .p2, 0, 0#8, 0, ⟨0, by decide⟩, by decide, by decide, fun w h => of_watches (P := fun n w => n = 0 → w.port ≠ .p2) (by decide) 0 w h rfl, by decide⟩

theorem witness_UnwatchEmptiesOwnEntry_empty :
    ∃ (s : State) (p : Port) (t : Tag) (number : Byte) (n : WatchNo),
      Asks s p t 0x21#8 [number]
        ∧ s.dev = .ready
        ∧ number.toNat = n.val
        ∧ s.watchAt n = none :=
  ⟨withRequest .p1 0 0x21#8 [15#8] watching, .p1, 0, 15#8, 15, ⟨0, by decide⟩, by decide⟩

/-! #### The Directory -/

/-- A FREE record, asked about by a port that is not the configuration port. -/
theorem witness_InquireReportsTheRecord_free :
    ∃ (s : State) (p : Port) (t : Tag) (h : Handle) (x : RecEntry) (l : Option Lease),
      Asks s p t 0x22#8 [handleByte h]
        ∧ s.dev = .ready
        ∧ Defined s h x
        ∧ (s.configPort = some p ∨ (x.rights.get p).read = true ∨ (x.rights.get p).update = true ∨ (x.rights.get p).watch = true)
        ∧ l = none
        ∧ Unleased s h
        ∧ s.configPort ≠ some p :=
  ⟨withRequest .p1 0 0x22#8 [8#8] (withEntry 8 plain ready), .p1, 0, 8, plain, none, ⟨0, by decide⟩, by decide⟩

/-- A leased record, asked about by the configuration port. -/
theorem witness_InquireReportsTheRecord_leased :
    ∃ (s : State) (p : Port) (t : Tag) (h : Handle) (x : RecEntry) (l : Option Lease),
      Asks s p t 0x22#8 [handleByte h]
        ∧ s.dev = .ready
        ∧ Defined s h x
        ∧ (s.configPort = some p ∨ (x.rights.get p).read = true ∨ (x.rights.get p).update = true ∨ (x.rights.get p).watch = true)
        ∧ (∃ e, (s.lease e).lease = l ∧ leasedHandle s e = some h ∧ ∀ e', leasedHandle s e' = some h → e' = e)
        ∧ s.configPort = some p :=
  ⟨withRequest .p0 0 0x22#8 [20#8] committing, .p0, 0, 20, counter, some (committed .explicit), ⟨0, by decide⟩, by decide, by decide, by decide, ⟨1, by decide⟩, by decide⟩

/-- A DEFINE of a PLAIN record of 240 bytes, which takes 8 pages per copy. -/
def defineRequest (s : State) : State :=
  withRequest .p0 0 0x30#8 ([handleByte 47] ++ be4 0x54414E4B#32 ++ [1#8, 240#8, 255#8, 7#8, 0#8, 1#8]) s

theorem lowest_a : LowestRun (pageCond []) (((240#8 : Byte).toNat + 16 + 31) / 32) (64 : Fin 2048).val :=
  ⟨⟨by decide, by decide, fun _ _ => rfl⟩, fun _ h hf => absurd hf.1 (Nat.not_le_of_lt h)⟩

theorem lowest_b :
    LowestRun (fun page => if InRun (((240#8 : Byte).toNat + 16 + 31) / 32) (64 : Fin 2048).val page
      then .reserved else pageCond [] page) (((240#8 : Byte).toNat + 16 + 31) / 32) (72 : Fin 2048).val := by
  have h8 : ((240#8 : Byte).toNat + 16 + 31) / 32 = 8 := by decide
  have ha : (64 : Fin 2048).val = 64 := rfl
  have hb : (72 : Fin 2048).val = 72 := rfl
  rw [h8, ha, hb]
  refine ⟨⟨by omega, by omega, fun i _ => ?_⟩, fun q hq hf => ?_⟩
  · have h : ¬ InRun 8 64 (72 + i) := by omega
    exact if_neg h
  · have h : InRun 8 64 (q + 0) := by have := hf.1; omega
    have h0 := hf.2.2 0 (by omega)
    simp only [if_pos h] at h0
    cases h0

theorem witness_DefineIsTakenOrRefused_taken :
    ∃ (s : State) (p : Port) (t : Tag) (serial : Nat) (h : Handle) (label : Word32) (kind : RecKind) (k size hold r0 r1 r2 : Byte) (m : List (Nat × PageCond)) (a b : Fin 2048),
      Placed s p t serial 0x30#8 ([handleByte h] ++ be4 label ++ [k, size, hold, r0, r1, r2])
        ∧ s.dev = .ready
        ∧ s.configPort = some p
        ∧ s.dirSlot = none
        ∧ (s.record h).entry = none
        ∧ s.dirGen ≠ 0xFFFFFFFF#32
        ∧ ((k = 0x01#8 ∧ kind = .plain ∧ 1 ≤ size.toNat ∧ size.toNat ≤ 240) ∨ (k = 0x02#8 ∧ kind = .counter ∧ size = 0x04#8))
        ∧ hold ≠ 0x00#8
        ∧ (∀ c ∈ be4 label, 0x20 ≤ c.toNat ∧ c.toNat ≤ 0x7E)
        ∧ r0.toNat < 8
        ∧ r1.toNat < 8
        ∧ r2.toNat < 8
        ∧ s.pageMap = some m
        ∧ LowestRun (pageCond m) ((size.toNat + 16 + 31) / 32) a.val
        ∧ LowestRun (fun page => if InRun ((size.toNat + 16 + 31) / 32) a.val page then .reserved else pageCond m page) ((size.toNat + 16 + 31) / 32) b.val :=
  ⟨defineRequest ready, .p0, 0, 0, 47, 0x54414E4B#32, .plain, 1#8, 240#8, 255#8, 7#8, 0#8, 1#8, [], 64, 72, by decide, by decide, by decide, by decide, by decide, by decide, by decide, by decide, by decide, by decide, by decide, by decide, by decide, lowest_a, lowest_b⟩

theorem witness_DefineIsTakenOrRefused_busy :
    ∃ (s : State) (p : Port) (t : Tag) (h : Handle) (label : Word32) (k size hold r0 r1 r2 : Byte) (m : List (Nat × PageCond)),
      Asks s p t 0x30#8 ([handleByte h] ++ be4 label ++ [k, size, hold, r0, r1, r2])
        ∧ s.dev = .ready
        ∧ s.configPort = some p
        ∧ ((k = 0x01#8 ∧ 1 ≤ size.toNat ∧ size.toNat ≤ 240) ∨ (k = 0x02#8 ∧ size = 0x04#8))
        ∧ hold ≠ 0x00#8
        ∧ (∀ c ∈ be4 label, 0x20 ≤ c.toNat ∧ c.toNat ≤ 0x7E)
        ∧ r0.toNat < 8
        ∧ r1.toNat < 8
        ∧ r2.toNat < 8
        ∧ s.pageMap = some m
        ∧ s.dirSlot ≠ none :=
  ⟨defineRequest { ready with dirSlot := some ⟨.retire, 8, ⟨.p0, 1, 0⟩⟩ }, .p0, 0, 47, 0x54414E4B#32, 1#8, 240#8, 255#8, 7#8, 0#8, 1#8, [], ⟨0, by decide⟩, by decide⟩

theorem witness_DefineIsTakenOrRefused_exists :
    ∃ (s : State) (p : Port) (t : Tag) (h : Handle) (label : Word32) (k size hold r0 r1 r2 : Byte) (m : List (Nat × PageCond)),
      Asks s p t 0x30#8 ([handleByte h] ++ be4 label ++ [k, size, hold, r0, r1, r2])
        ∧ s.dev = .ready
        ∧ s.configPort = some p
        ∧ ((k = 0x01#8 ∧ 1 ≤ size.toNat ∧ size.toNat ≤ 240) ∨ (k = 0x02#8 ∧ size = 0x04#8))
        ∧ hold ≠ 0x00#8
        ∧ (∀ c ∈ be4 label, 0x20 ≤ c.toNat ∧ c.toNat ≤ 0x7E)
        ∧ r0.toNat < 8
        ∧ r1.toNat < 8
        ∧ r2.toNat < 8
        ∧ s.pageMap = some m
        ∧ s.dirSlot = none
        ∧ (s.record h).entry ≠ none :=
  ⟨defineRequest (withEntry 47 plain ready), .p0, 0, 47, 0x54414E4B#32, 1#8, 240#8, 255#8, 7#8, 0#8, 1#8, [], ⟨0, by decide⟩, by decide⟩

/-- With every eighth page taken there is no run of 8. -/
def everyEighth : List (Nat × PageCond) := (List.range 248).map fun k => (64 + 8 * k, .inUse)

theorem everyEighth_taken (k : Nat) (hk : k < 248) : pageCond everyEighth (64 + 8 * k) = .inUse := by
  have : ∀ k : Fin 248, pageCond everyEighth (64 + 8 * k.val) = .inUse := by decide
  exact this ⟨k, hk⟩

theorem everyEighth_noRun (a : Nat) : ¬ FreeRun (pageCond everyEighth) (((240#8 : Byte).toNat + 16 + 31) / 32) a := by
  have h8 : ((240#8 : Byte).toNat + 16 + 31) / 32 = 8 := by decide
  rw [h8]
  rintro ⟨h1, h2, h3⟩
  have hk : (a - 64 + 7) / 8 < 248 := by omega
  have h4 := h3 (64 + 8 * ((a - 64 + 7) / 8) - a) (by omega)
  rw [show a + (64 + 8 * ((a - 64 + 7) / 8) - a) = 64 + 8 * ((a - 64 + 7) / 8) by omega, everyEighth_taken _ hk] at h4
  cases h4

theorem witness_DefineIsTakenOrRefused_noSpace :
    ∃ (s : State) (p : Port) (t : Tag) (h : Handle) (label : Word32) (k size hold r0 r1 r2 : Byte) (m : List (Nat × PageCond)),
      Asks s p t 0x30#8 ([handleByte h] ++ be4 label ++ [k, size, hold, r0, r1, r2])
        ∧ s.dev = .ready
        ∧ s.configPort = some p
        ∧ ((k = 0x01#8 ∧ 1 ≤ size.toNat ∧ size.toNat ≤ 240) ∨ (k = 0x02#8 ∧ size = 0x04#8))
        ∧ hold ≠ 0x00#8
        ∧ (∀ c ∈ be4 label, 0x20 ≤ c.toNat ∧ c.toNat ≤ 0x7E)
        ∧ r0.toNat < 8
        ∧ r1.toNat < 8
        ∧ r2.toNat < 8
        ∧ s.pageMap = some m
        ∧ s.dirSlot = none
        ∧ (s.record h).entry = none
        ∧ (∀ a, ¬ FreeRun (pageCond m) ((size.toNat + 16 + 31) / 32) a) :=
  ⟨defineRequest { ready with pageMap := some everyEighth }, .p0, 0, 47, 0x54414E4B#32, 1#8, 240#8, 255#8, 7#8, 0#8, 1#8, everyEighth, ⟨0, by decide⟩, by decide, by decide, by decide, by decide, by decide, by decide, by decide, by decide, by decide, by decide, by decide, everyEighth_noRun⟩

theorem witness_DefineIsTakenOrRefused_spent :
    ∃ (s : State) (p : Port) (t : Tag) (h : Handle) (label : Word32) (k size hold r0 r1 r2 : Byte) (m : List (Nat × PageCond)) (a b : Nat),
      Asks s p t 0x30#8 ([handleByte h] ++ be4 label ++ [k, size, hold, r0, r1, r2])
        ∧ s.dev = .ready
        ∧ s.configPort = some p
        ∧ ((k = 0x01#8 ∧ 1 ≤ size.toNat ∧ size.toNat ≤ 240) ∨ (k = 0x02#8 ∧ size = 0x04#8))
        ∧ hold ≠ 0x00#8
        ∧ (∀ c ∈ be4 label, 0x20 ≤ c.toNat ∧ c.toNat ≤ 0x7E)
        ∧ r0.toNat < 8
        ∧ r1.toNat < 8
        ∧ r2.toNat < 8
        ∧ s.pageMap = some m
        ∧ s.dirSlot = none
        ∧ (s.record h).entry = none
        ∧ s.dirGen = 0xFFFFFFFF#32
        ∧ LowestRun (pageCond m) ((size.toNat + 16 + 31) / 32) a
        ∧ LowestRun (fun page => if InRun ((size.toNat + 16 + 31) / 32) a page then .reserved else pageCond m page) ((size.toNat + 16 + 31) / 32) b :=
  ⟨defineRequest { ready with dirGen := 0xFFFFFFFF#32 }, .p0, 0, 47, 0x54414E4B#32, 1#8, 240#8, 255#8, 7#8, 0#8, 1#8, [], 64, 72, ⟨0, by decide⟩, by decide, by decide, by decide, by decide, by decide, by decide, by decide, by decide, by decide, by decide, by decide, by decide, lowest_a, lowest_b⟩

theorem witness_RetireAndFreezeAreTaken_busy :
    ∃ (s : State) (p : Port) (t : Tag) (serial : Nat) (h : Handle) (x : RecEntry) (retire : Bool),
      Placed s p t serial (if retire then 0x31#8 else 0x33#8) [handleByte h]
        ∧ s.dev = .ready
        ∧ s.configPort = some p
        ∧ Defined s h x
        ∧ s.dirSlot ≠ none :=
  ⟨withRequest .p0 0 0x31#8 [8#8] { withEntry 8 plain ready with dirSlot := some ⟨.retire, 8, ⟨.p0, 1, 0⟩⟩ }, .p0, 0, 0, 8, plain, true, by decide⟩

theorem witness_RetireAndFreezeAreTaken_frozen :
    ∃ (s : State) (p : Port) (t : Tag) (serial : Nat) (h : Handle) (x : RecEntry) (retire : Bool),
      Placed s p t serial (if retire then 0x31#8 else 0x33#8) [handleByte h]
        ∧ s.dev = .ready
        ∧ s.configPort = some p
        ∧ Defined s h x
        ∧ s.dirSlot = none
        ∧ x.frozen = true :=
  ⟨withRequest .p0 0 0x33#8 [9#8] (withEntry 9 { counter with frozen := true } ready), .p0, 0, 0, 9, { counter with frozen := true }, false, by decide⟩

theorem witness_RetireAndFreezeAreTaken_leased :
    ∃ (s : State) (p : Port) (t : Tag) (serial : Nat) (h : Handle) (x : RecEntry) (retire : Bool),
      Placed s p t serial (if retire then 0x31#8 else 0x33#8) [handleByte h]
        ∧ s.dev = .ready
        ∧ s.configPort = some p
        ∧ Defined s h x
        ∧ s.dirSlot = none
        ∧ x.frozen = false
        ∧ ¬ Unleased s h :=
  ⟨withRequest .p0 0 0x33#8 [20#8] staging, .p0, 0, 0, 20, counter, false, by decide⟩

theorem witness_RetireAndFreezeAreTaken_waited :
    ∃ (s : State) (p : Port) (t : Tag) (serial : Nat) (h : Handle) (x : RecEntry) (retire : Bool),
      Placed s p t serial (if retire then 0x31#8 else 0x33#8) [handleByte h]
        ∧ s.dev = .ready
        ∧ s.configPort = some p
        ∧ Defined s h x
        ∧ s.dirSlot = none
        ∧ x.frozen = false
        ∧ Unleased s h
        ∧ (retire = true ∧ (s.record h).waiters ≠ []) :=
  ⟨withRequest .p0 0 0x31#8 [4#8] queued, .p0, 0, 0, 4, counter, true, by decide⟩

theorem witness_RetireAndFreezeAreTaken_spent :
    ∃ (s : State) (p : Port) (t : Tag) (serial : Nat) (h : Handle) (x : RecEntry) (retire : Bool),
      Placed s p t serial (if retire then 0x31#8 else 0x33#8) [handleByte h]
        ∧ s.dev = .ready
        ∧ s.configPort = some p
        ∧ Defined s h x
        ∧ s.dirSlot = none
        ∧ x.frozen = false
        ∧ Unleased s h
        ∧ (retire = true → (s.record h).waiters = [])
        ∧ s.dirGen = 0xFFFFFFFF#32 :=
  ⟨withRequest .p0 0 0x31#8 [8#8] { withEntry 8 plain ready with dirGen := 0xFFFFFFFF#32 }, .p0, 0, 0, 8, plain, true, by decide⟩

theorem witness_RetireAndFreezeAreTaken_retire :
    ∃ (s : State) (p : Port) (t : Tag) (serial : Nat) (h : Handle) (x : RecEntry) (retire : Bool),
      Placed s p t serial (if retire then 0x31#8 else 0x33#8) [handleByte h]
        ∧ s.dev = .ready
        ∧ s.configPort = some p
        ∧ Defined s h x
        ∧ s.dirSlot = none
        ∧ x.frozen = false
        ∧ Unleased s h
        ∧ (retire = true → (s.record h).waiters = [])
        ∧ s.dirGen ≠ 0xFFFFFFFF#32
        ∧ retire = true :=
  ⟨withRequest .p0 0 0x31#8 [8#8] { withEntry 8 plain ready with dirGen := 0xFFFFFFFE#32 }, .p0, 0, 0, 8, plain, true, by decide⟩

/-- Waiters do not stop a FREEZE. -/
theorem witness_RetireAndFreezeAreTaken_freeze :
    ∃ (s : State) (p : Port) (t : Tag) (serial : Nat) (h : Handle) (x : RecEntry) (retire : Bool),
      Placed s p t serial (if retire then 0x31#8 else 0x33#8) [handleByte h]
        ∧ s.dev = .ready
        ∧ s.configPort = some p
        ∧ Defined s h x
        ∧ s.dirSlot = none
        ∧ x.frozen = false
        ∧ Unleased s h
        ∧ (s.record h).waiters ≠ []
        ∧ s.dirGen ≠ 0xFFFFFFFF#32
        ∧ retire = false :=
  ⟨withRequest .p0 0 0x33#8 [4#8] queued, .p0, 0, 0, 4, counter, false, by decide⟩

theorem witness_SetRightsIsTaken_busy :
    ∃ (s : State) (p : Port) (t : Tag) (serial : Nat) (h : Handle) (x : RecEntry) (r0 r1 r2 : Byte) (r : PerPort Rights),
      Placed s p t serial 0x32#8 [handleByte h, r0, r1, r2]
        ∧ s.dev = .ready
        ∧ s.configPort = some p
        ∧ Defined s h x
        ∧ r0.toNat < 8
        ∧ r1.toNat < 8
        ∧ r2.toNat < 8
        ∧ r = ⟨⟨r0.getLsbD 0, r0.getLsbD 1, r0.getLsbD 2⟩, ⟨r1.getLsbD 0, r1.getLsbD 1, r1.getLsbD 2⟩, ⟨r2.getLsbD 0, r2.getLsbD 1, r2.getLsbD 2⟩⟩
        ∧ s.dirSlot ≠ none :=
  ⟨withRequest .p0 0 0x32#8 [8#8, 7#8, 1#8, 0#8] { withEntry 8 plain ready with dirSlot := some ⟨.retire, 8, ⟨.p0, 1, 0⟩⟩ }, .p0, 0, 0, 8, plain, 7#8, 1#8, 0#8, ⟨full, ⟨true, false, false⟩, ⟨false, false, false⟩⟩, by decide⟩

theorem witness_SetRightsIsTaken_unchanged :
    ∃ (s : State) (p : Port) (t : Tag) (serial : Nat) (h : Handle) (x : RecEntry) (r0 r1 r2 : Byte) (r : PerPort Rights),
      Placed s p t serial 0x32#8 [handleByte h, r0, r1, r2]
        ∧ s.dev = .ready
        ∧ s.configPort = some p
        ∧ Defined s h x
        ∧ r0.toNat < 8
        ∧ r1.toNat < 8
        ∧ r2.toNat < 8
        ∧ r = ⟨⟨r0.getLsbD 0, r0.getLsbD 1, r0.getLsbD 2⟩, ⟨r1.getLsbD 0, r1.getLsbD 1, r1.getLsbD 2⟩, ⟨r2.getLsbD 0, r2.getLsbD 1, r2.getLsbD 2⟩⟩
        ∧ s.dirSlot = none
        ∧ x.rights = r :=
  ⟨withRequest .p0 0 0x32#8 [8#8, 7#8, 7#8, 7#8] (withEntry 8 plain ready), .p0, 0, 0, 8, plain, 7#8, 7#8, 7#8, ⟨full, full, full⟩, by decide⟩

theorem witness_SetRightsIsTaken_spent :
    ∃ (s : State) (p : Port) (t : Tag) (serial : Nat) (h : Handle) (x : RecEntry) (r0 r1 r2 : Byte) (r : PerPort Rights),
      Placed s p t serial 0x32#8 [handleByte h, r0, r1, r2]
        ∧ s.dev = .ready
        ∧ s.configPort = some p
        ∧ Defined s h x
        ∧ r0.toNat < 8
        ∧ r1.toNat < 8
        ∧ r2.toNat < 8
        ∧ r = ⟨⟨r0.getLsbD 0, r0.getLsbD 1, r0.getLsbD 2⟩, ⟨r1.getLsbD 0, r1.getLsbD 1, r1.getLsbD 2⟩, ⟨r2.getLsbD 0, r2.getLsbD 1, r2.getLsbD 2⟩⟩
        ∧ s.dirSlot = none
        ∧ x.rights ≠ r
        ∧ s.dirGen = 0xFFFFFFFF#32 :=
  ⟨withRequest .p0 0 0x32#8 [8#8, 7#8, 1#8, 0#8] { withEntry 8 plain ready with dirGen := 0xFFFFFFFF#32 }, .p0, 0, 0, 8, plain, 7#8, 1#8, 0#8, ⟨full, ⟨true, false, false⟩, ⟨false, false, false⟩⟩, by decide⟩

theorem witness_SetRightsIsTaken_taken :
    ∃ (s : State) (p : Port) (t : Tag) (serial : Nat) (h : Handle) (x : RecEntry) (r0 r1 r2 : Byte) (r : PerPort Rights),
      Placed s p t serial 0x32#8 [handleByte h, r0, r1, r2]
        ∧ s.dev = .ready
        ∧ s.configPort = some p
        ∧ Defined s h x
        ∧ r0.toNat < 8
        ∧ r1.toNat < 8
        ∧ r2.toNat < 8
        ∧ r = ⟨⟨r0.getLsbD 0, r0.getLsbD 1, r0.getLsbD 2⟩, ⟨r1.getLsbD 0, r1.getLsbD 1, r1.getLsbD 2⟩, ⟨r2.getLsbD 0, r2.getLsbD 1, r2.getLsbD 2⟩⟩
        ∧ s.dirSlot = none
        ∧ x.rights ≠ r
        ∧ s.dirGen ≠ 0xFFFFFFFF#32 :=
  ⟨withRequest .p0 0 0x32#8 [8#8, 7#8, 1#8, 0#8] { withEntry 8 plain ready with dirGen := 0xFFFFFFFE#32 }, .p0, 0, 0, 8, plain, 7#8, 1#8, 0#8, ⟨full, ⟨true, false, false⟩, ⟨false, false, false⟩⟩, by decide⟩

/-! #### Control -/

/-- An empty page map: one run of 1984 pages. -/
theorem witness_DeviceInfoReportsTheDevice_ready :
    ∃ (s : State) (p : Port) (t : Tag) (m : List (Nat × PageCond)) (longest : Nat),
      Asks s p t 0x40#8 []
        ∧ (s.dev = .ready ∨ (s.dev = .clearing ∧ ∀ x, s.clear = some x → x.phase = .draining))
        ∧ s.pageMap = some m
        ∧ (longest = 0 ∨ ∃ q, FreeRun (pageCond m) longest q)
        ∧ (∀ q, ¬ FreeRun (pageCond m) (longest + 1) q) :=
  ⟨withRequest .p1 0 0x40#8 [] ready, .p1, 0, [], 1984, ⟨0, by decide⟩, .inl rfl, rfl, .inr ⟨64, by decide, by decide, fun _ _ => rfl⟩, fun _ h => absurd h.2.1 (by have := h.1; omega)⟩

theorem witness_DeviceInfoReportsTheDevice_starting :
    ∃ (s : State) (p : Port) (t : Tag),
      Asks s p t 0x40#8 []
        ∧ s.dev = .starting :=
  ⟨withRequest .p1 0 0x40#8 [] State.reset, .p1, 0, ⟨0, by decide⟩, by decide⟩

theorem witness_DeviceInfoReportsTheDevice_damaged :
    ∃ (s : State) (p : Port) (t : Tag),
      Asks s p t 0x40#8 []
        ∧ s.dev = .damaged :=
  ⟨withRequest .p1 0 0x40#8 [] { ready with dev := .damaged }, .p1, 0, ⟨0, by decide⟩, by decide⟩

theorem witness_DeviceInfoReportsTheDevice_erasing :
    ∃ (s : State) (p : Port) (t : Tag) (tk : Ticket),
      Asks s p t 0x40#8 []
        ∧ s.dev = .clearing
        ∧ s.clear = some ⟨tk, .erasing⟩ :=
  ⟨withRequest .p1 0 0x40#8 [] erasing, .p1, 0, ⟨.p0, 1, 0⟩, ⟨0, by decide⟩, by decide⟩

theorem witness_SetAttentionSetsTheMask_set :
    ∃ (s : State) (p : Port) (t : Tag) (mask : Byte),
      Asks s p t 0x41#8 [mask]
        ∧ mask.toNat ≤ 3 :=
  ⟨withRequest .p1 0 0x41#8 [3#8] State.reset, .p1, 0, 3#8, ⟨0, by decide⟩, by decide⟩

theorem witness_SetAttentionSetsTheMask_range :
    ∃ (s : State) (p : Port) (t : Tag) (mask : Byte),
      Asks s p t 0x41#8 [mask]
        ∧ 3 < mask.toNat :=
  ⟨withRequest .p1 0 0x41#8 [4#8] State.reset, .p1, 0, 4#8, ⟨0, by decide⟩, by decide⟩

/-- A COMMITTING lease of the port whose job is in programming, and a lease of another port. -/
theorem witness_PortResetClearsThePort_started :
    ∃ (s : State) (p : Port) (t : Tag),
      Asks s p t 0x42#8 []
        ∧ s.engine ≠ .idle
        ∧ (s.lease 1).lease = some (committed .explicit)
        ∧ (s.lease 0).lease = some (held .p2 3)
        ∧ ¬ ResetRemovesDirectory s p :=
  ⟨withRequest .p1 0 0x42#8 [] (committing.setLease 0 ⟨1#8, some (held .p2 3)⟩), .p1, 0, ⟨0, by decide⟩, by decide⟩

/-- A job of the port that has not started. -/
theorem witness_PortResetClearsThePort_unstarted :
    ∃ (s : State) (p : Port) (t : Tag) (j : Job),
      Asks s p t 0x42#8 []
        ∧ s.queue.drop 1 = j :: s.queue.drop 2
        ∧ resetRemoves s p j = true :=
  ⟨withRequest .p2 0 0x42#8 [] busy, .p2, 0, .record 0 3 .a 90 1 1#32, ⟨0, by decide⟩, by decide⟩

/-- The configuration port, the directory job not started. -/
theorem witness_PortResetClearsThePort_directory :
    ∃ (s : State) (p : Port) (t : Tag) (j : DirJob),
      Asks s p t 0x42#8 []
        ∧ ResetRemovesDirectory s p
        ∧ s.dirSlot = some j :=
  ⟨withRequest .p0 0 0x42#8 [] busy, .p0, 0, ⟨.freeze, 8, ⟨.p0, 1, 0⟩⟩, ⟨0, by decide⟩, by decide⟩

/-- The port holds no lease. -/
theorem witness_PortResetClearsThePort_empty :
    ∃ (s : State) (p : Port) (t : Tag),
      Asks s p t 0x42#8 []
        ∧ (∀ e l, (s.lease e).lease = some l → l.holder ≠ p)
        ∧ ¬ ResetRemovesDirectory s p :=
  ⟨withRequest .p2 0 0x42#8 [] committing, .p2, 0, ⟨0, by decide⟩, of_leases (P := fun _ l => l.holder ≠ .p2) (by decide), by decide⟩

/-- Kind code 00h. -/
theorem witness_UnknownRequestKindIsRefused_ready :
    ∃ (s : State) (p : Port) (t : Tag) (kind : Byte) (body : List Byte),
      Asks s p t kind body
        ∧ (∀ k, toReqKind kind = some k → lengthRight k body.length = false)
        ∧ s.dev = .ready :=
  ⟨withRequest .p1 0 0x00#8 [] ready, .p1, 0, 0x00#8, [], ⟨0, by decide⟩, nofun, by decide⟩

/-- A DEVICE-INFO with a body, in STARTING. -/
theorem witness_UnknownRequestKindIsRefused_served :
    ∃ (s : State) (p : Port) (t : Tag) (kind : Byte) (body : List Byte) (k : ReqKind),
      Asks s p t kind body
        ∧ (∀ k, toReqKind kind = some k → lengthRight k body.length = false)
        ∧ toReqKind kind = some k
        ∧ KindServed s.dev k
        ∧ s.dev ≠ .ready :=
  ⟨withRequest .p1 0 0x40#8 [0#8] State.reset, .p1, 0, 0x40#8, [0#8], .deviceInfo, ⟨0, by decide⟩, fun k h => by cases h; rfl, by decide⟩

theorem witness_UnknownRequestKindIsRefused_notReady :
    ∃ (s : State) (p : Port) (t : Tag) (kind : Byte) (body : List Byte),
      Asks s p t kind body
        ∧ (∀ k, toReqKind kind = some k → lengthRight k body.length = false)
        ∧ s.dev ≠ .ready
        ∧ (∀ k, toReqKind kind = some k → ¬ KindServed s.dev k) :=
  ⟨withRequest .p1 0 0xFF#8 [] State.reset, .p1, 0, 0xFF#8, [], ⟨0, by decide⟩, nofun, by decide, nofun⟩

/-- Jobs that have not started, and a HELD lease. -/
theorem witness_FactoryClearEmptiesTheTables_draining :
    ∃ (s : State) (p : Port) (t : Tag) (serial : Nat) (d : DirJob) (l0 l2 : Lease),
      Placed s p t serial 0x43#8 []
        ∧ s.configPort = some p
        ∧ (s.dev = .ready ∨ s.dev = .damaged)
        ∧ s.queue ≠ []
        ∧ (s.queue.drop 1).any Job.isDirectory = true
        ∧ s.dirSlot = some d
        ∧ (s.lease 0).lease = some l0
        ∧ l0.phase = .committing
        ∧ (s.queue.drop 1).any (Job.isRecordOf 0) = true
        ∧ (s.lease 2).lease = some l2
        ∧ l2.phase = .held :=
  ⟨withRequest .p0 0 0x43#8 [] busy, .p0, 0, 0, ⟨.freeze, 8, ⟨.p0, 1, 0⟩⟩, { held .p2 3 with phase := .committing, timer := none, answer := some ⟨.p2, 0, 0⟩ }, held .p0 6, by decide⟩

theorem witness_FactoryClearEmptiesTheTables_started :
    ∃ (s : State) (p : Port) (t : Tag) (serial : Nat),
      Placed s p t serial 0x43#8 []
        ∧ s.configPort = some p
        ∧ (s.dev = .ready ∨ s.dev = .damaged)
        ∧ s.queue ≠ []
        ∧ (s.queue.drop 1).any Job.isDirectory = false :=
  ⟨withRequest .p0 0 0x43#8 [] committing, .p0, 0, 0, by decide⟩

theorem witness_FactoryClearEmptiesTheTables_erasing :
    ∃ (s : State) (p : Port) (t : Tag) (serial : Nat),
      Placed s p t serial 0x43#8 []
        ∧ s.configPort = some p
        ∧ (s.dev = .ready ∨ s.dev = .damaged)
        ∧ s.queue = [] :=
  ⟨withRequest .p0 0 0x43#8 [] { ready with dev := .damaged }, .p0, 0, 0, by decide⟩

theorem witness_JobEndInClearingReportsDrained_any :
    ∃ (c : Instr) (s t : State) (tk : Ticket),
      (c = .pageMatch ∨ c = .eraseEnd)
        ∧ s.clear = some ⟨tk, .draining⟩
        ∧ s.queue ≠ []
        ∧ exec c { s with clear := none } = .next t
        ∧ t.queue = [] :=
  ⟨.eraseEnd, { draining with engine := .erasing 1 81 }, _, ⟨.p0, 1, 0⟩, by decide, by decide, by decide, rfl, rfl⟩

theorem draining_apart (y : Copy) (hy : (draining.record 20).active = some y) :
    ¬ InRun ((counter.size.toNat + 16 + 31) / 32) (counter.firstPage y) 81 := by
  cases y
  · decide
  · exact absurd hy (by decide)

theorem witness_JobEndInClearingReportsDrained_commit :
    ∃ (s : State) (tk : Ticket) (e : EntryNo) (l : Lease) (h : Handle) (x : RecEntry) (c : Copy) (first pages : Nat) (gen : Word32) (q : Port) (u : Tag) (serial : Nat) (kind : Byte) (body : List Byte),
      s.clear = some ⟨tk, .draining⟩
        ∧ s.queue = [.record e h c first pages gen]
        ∧ first < 2048
        ∧ Defined s h x
        ∧ (s.lease e).lease = some l
        ∧ l.handle = h
        ∧ l.answer = some ⟨q, u, serial⟩
        ∧ NoneWaits s h
        ∧ (s.port q).slots.get u = .pending serial kind body
        ∧ (∃ retry, s.engine = .programming pages retry)
        ∧ 1 ≤ pages
        ∧ (∀ y, (s.record h).active = some y → ¬ InRun ((x.size.toNat + 16 + 31) / 32) (x.firstPage y) first) :=
  ⟨draining, ⟨.p0, 1, 0⟩, 1, committed .explicit, 20, counter, .b, 81, 1, 18#32, .p1, 3, 0, 0x14#8, [2#8, 6#8], by decide, by decide, by decide, by decide, by decide, by decide, by decide, by decide, by decide, by decide, by decide, draining_apart⟩

theorem witness_JobEndInClearingReportsDrained_fault :
    ∃ (s : State) (tk : Ticket) (e : EntryNo) (l : Lease) (h : Handle) (x : RecEntry) (c : Copy) (first pages : Nat) (gen : Word32) (q : Port) (u : Tag) (serial : Nat) (kind : Byte) (body : List Byte),
      s.clear = some ⟨tk, .draining⟩
        ∧ s.queue = [.record e h c first pages gen]
        ∧ first < 2048
        ∧ Defined s h x
        ∧ (s.lease e).lease = some l
        ∧ l.handle = h
        ∧ l.answer = some ⟨q, u, serial⟩
        ∧ NoneWaits s h
        ∧ (s.port q).slots.get u = .pending serial kind body
        ∧ (∃ pos failing, s.engine = .erasing pos failing) :=
  ⟨{ draining with engine := .erasing 1 81 }, ⟨.p0, 1, 0⟩, 1, committed .explicit, 20, counter, .b, 81, 1, 18#32, .p1, 3, 0, 0x14#8, [2#8, 6#8], by decide, by decide, by decide, by decide, by decide, by decide, by decide, by decide, by decide, ⟨1, 81, by decide⟩⟩

theorem witness_BulkEraseEndsTheClear_answered :
    ∃ (s : State) (p : Port) (t : Tag) (serial : Nat),
      s.clear = some ⟨⟨p, t, serial⟩, .erasing⟩
        ∧ (∃ kind body, (s.port p).slots.get t = .pending serial kind body) :=
  ⟨withWaiting .p0 1 0x43#8 [] erasing, .p0, 1, 0, by decide, ⟨0x43#8, [], by decide⟩⟩

theorem witness_BulkEraseEndsTheClear_gone :
    ∃ (s : State) (p : Port) (t : Tag) (serial : Nat),
      s.clear = some ⟨⟨p, t, serial⟩, .erasing⟩
        ∧ (∀ kind body, (s.port p).slots.get t ≠ .pending serial kind body) :=
  ⟨erasing, .p0, 1, 0, by decide, nofun⟩

/-! #### Expiries -/

/-- A hold timer that has run out. -/
theorem witness_ExpiriesEndTheHoldOrTheWait_hold :
    ∃ (s : State) (e : EntryNo) (l : Lease),
      (s.lease e).lease = some l
        ∧ l.phase = .held
        ∧ l.timer = some 0
        ∧ NoneWaits s l.handle :=
  ⟨staging.setLease 1 ⟨6#8, some { held .p1 20 with timer := some 0 }⟩, 1, { held .p1 20 with timer := some 0 }, by decide⟩

/-- One unit is left. -/
theorem witness_ExpiriesEndTheHoldOrTheWait_holdRunning :
    ∃ (s : State) (e : EntryNo) (l : Lease) (left : Nat),
      (s.lease e).lease = some l
        ∧ l.timer = some (left + 1)
        ∧ left = 0 :=
  ⟨staging.setLease 1 ⟨6#8, some { held .p1 20 with timer := some 1 }⟩, 1, { held .p1 20 with timer := some 1 }, 0, by decide⟩

/-- Nine units are left. -/
theorem witness_ExpiriesEndTheHoldOrTheWait_waitRunning :
    ∃ (s : State) (p : Port) (u : Tag),
      (∀ (h : Handle) w, w ∈ (s.record h).waiters → ¬ (w.ticket.port = p ∧ w.ticket.tag = u ∧ w.type = .acquire 0)) :=
  ⟨queued, .p0, 2, by decide⟩

theorem witness_ExpiriesEndTheHoldOrTheWait_wait :
    ∃ (s : State) (p : Port) (u : Tag) (h : Handle) (before after : List Waiter) (serial : Nat) (kind : Byte) (body : List Byte),
      (s.record h).waiters = before ++ ⟨⟨p, u, serial⟩, .acquire 0⟩ :: after
        ∧ (∀ w, w ∈ before ++ after → ¬ (w.ticket.port = p ∧ w.ticket.tag = u))
        ∧ (∀ h' : Handle, h' ≠ h → ∀ w, w ∈ (s.record h').waiters → ¬ (w.ticket.port = p ∧ w.ticket.tag = u))
        ∧ (s.port p).slots.get u = .pending serial kind body :=
  ⟨queued.setWaiters 4 ([waiting .p1 2 9] ++ waiting .p0 2 0 :: []), .p0, 2, 4, [waiting .p1 2 9], [], 0, 0x11#8, [4#8, 9#8], by decide⟩

/-! #### The Commit Engine -/

/-- A job of 8 pages. -/
def programming (pos : Nat) (retry : Bool) : State :=
  { (withEntry 8 plain ready).setLease 0 ⟨1#8, some { held .p1 8 with phase := .committing }⟩ with
    queue := [.record 0 8 .a 64 8 1#32]
    engine := .programming pos retry }

/-- The last data page of the largest record. -/
theorem witness_DataPageIsProgrammed :
    ∃ (s : State) (e : EntryNo) (h : Handle) (x : RecEntry) (c : Copy) (first pages pos : Nat) (gen : Word32) (retry : Bool) (rest : List Job),
      s.engine = .programming pos retry
        ∧ s.queue = .record e h c first pages gen :: rest
        ∧ 1 ≤ pos
        ∧ pos < pages
        ∧ first + pos < 2048
        ∧ StoreCanonical s
        ∧ Defined s h x
        ∧ (s.buffer e).bytes.length = 240
        ∧ x.size.toNat ≤ 240 :=
  ⟨programming 7 false, 0, 8, plain, .a, 64, 8, 7, 1#32, false, [], by decide, by decide, by decide, by decide, by decide, rfl, by decide⟩

theorem witness_MismatchRetriesOnceThenFails_retries :
    ∃ (s : State) (j : Job) (rest : List Job) (pos : Nat) (retry : Bool),
      s.engine = .programming pos retry
        ∧ s.queue = j :: rest
        ∧ j.pageAt pos < 2048
        ∧ retry = false :=
  ⟨programming 1 false, .record 0 8 .a 64 8 1#32, [], 1, false, by decide⟩

theorem witness_MismatchRetriesOnceThenFails_fails :
    ∃ (s : State) (j : Job) (rest : List Job) (pos : Nat) (retry : Bool),
      s.engine = .programming pos retry
        ∧ s.queue = j :: rest
        ∧ j.pageAt pos < 2048
        ∧ retry = true :=
  ⟨programming 8 true, .record 0 8 .a 64 8 1#32, [], 8, true, by decide⟩

theorem committing_store : Memory.wf committing.store = true := by decide

/-- The commit point of an implicit lease whose value was clamped. -/
def clamped : State :=
  (committing.setLease 1 ⟨6#8, some (committed .implicit)⟩).setBuffer 1 ⟨List.replicate 240 0x00#8, true⟩

theorem witness_RecordCommitPointTakesEffect_explicit :
    ∃ (s : State) (e : EntryNo) (l : Lease) (h : Handle) (x : RecEntry) (c : Copy) (first pages : Nat) (gen : Word32) (retry : Bool) (rest : List Job) (q : Port) (u : Tag) (serial : Nat) (kind : Byte) (body : List Byte),
      s.engine = .programming pages retry
        ∧ s.queue = .record e h c first pages gen :: rest
        ∧ 1 ≤ pages
        ∧ first < 2048
        ∧ StoreCanonical s
        ∧ Defined s h x
        ∧ (s.buffer e).bytes.length = 240
        ∧ 1 ≤ x.size.toNat
        ∧ x.size.toNat ≤ 240
        ∧ (s.lease e).lease = some l
        ∧ l.handle = h
        ∧ l.answer = some ⟨q, u, serial⟩
        ∧ NoneWaits s h
        ∧ s.clear = none
        ∧ (s.port q).slots.get u = .pending serial kind body
        ∧ l.form = .explicit :=
  ⟨committing, 1, committed .explicit, 20, counter, .b, 81, 1, 18#32, false, [], .p1, 3, 0, 0x14#8, [2#8, 6#8], by decide, by decide, by decide, by decide, committing_store, by decide⟩

theorem witness_RecordCommitPointTakesEffect_implicit :
    ∃ (s : State) (e : EntryNo) (l : Lease) (h : Handle) (x : RecEntry) (c : Copy) (first pages : Nat) (gen : Word32) (retry : Bool) (rest : List Job) (q : Port) (u : Tag) (serial : Nat) (kind : Byte) (body : List Byte),
      s.engine = .programming pages retry
        ∧ s.queue = .record e h c first pages gen :: rest
        ∧ 1 ≤ pages
        ∧ first < 2048
        ∧ StoreCanonical s
        ∧ Defined s h x
        ∧ (s.buffer e).bytes.length = 240
        ∧ 1 ≤ x.size.toNat
        ∧ x.size.toNat ≤ 240
        ∧ (s.lease e).lease = some l
        ∧ l.handle = h
        ∧ l.answer = some ⟨q, u, serial⟩
        ∧ NoneWaits s h
        ∧ s.clear = none
        ∧ (s.port q).slots.get u = .pending serial kind body
        ∧ l.form = .implicit :=
  ⟨clamped, 1, committed .implicit, 20, counter, .b, 81, 1, 18#32, false, [], .p1, 3, 0, 0x14#8, [2#8, 6#8], by decide, by decide, by decide, by decide, committing_store, by decide⟩

theorem committing_apart (y : Copy) (hy : (committing.record 20).active = some y) :
    ¬ InRun ((counter.size.toNat + 16 + 31) / 32) (counter.firstPage y) 81 := by
  cases y
  · decide
  · exact absurd hy (by decide)

theorem witness_CommitPointPostsWatchNotices :
    ∃ (s : State) (e : EntryNo) (l : Lease) (h : Handle) (x : RecEntry) (c : Copy) (first pages : Nat) (gen : Word32) (retry : Bool) (rest : List Job),
      s.engine = .programming pages retry
        ∧ s.queue = .record e h c first pages gen :: rest
        ∧ first < 2048
        ∧ 1 ≤ pages
        ∧ Defined s h x
        ∧ (s.lease e).lease = some l
        ∧ l.handle = h
        ∧ (∀ y, (s.record h).active = some y → ¬ InRun ((x.size.toNat + 16 + 31) / 32) (x.firstPage y) first) :=
  ⟨committing, 1, committed .explicit, 20, counter, .b, 81, 1, 18#32, false, [], by decide, by decide, by decide, by decide, by decide, by decide, by decide, committing_apart⟩

theorem witness_RecordStoreFaultKeepsOldData :
    ∃ (s : State) (e : EntryNo) (l : Lease) (h : Handle) (c : Copy) (first pages pos failing : Nat) (gen : Word32) (rest : List Job) (q : Port) (u : Tag) (serial : Nat) (kind : Byte) (body : List Byte),
      s.engine = .erasing pos failing
        ∧ s.queue = .record e h c first pages gen :: rest
        ∧ first < 2048
        ∧ StoreCanonical s
        ∧ (s.lease e).lease = some l
        ∧ l.handle = h
        ∧ l.answer = some ⟨q, u, serial⟩
        ∧ NoneWaits s h
        ∧ s.clear = none
        ∧ (s.port q).slots.get u = .pending serial kind body :=
  ⟨{ committing with engine := .erasing 1 81 }, 1, committed .explicit, 20, .b, 81, 1, 1, 81, 18#32, [], .p1, 3, 0, 0x14#8, [2#8, 6#8], by decide, by decide, by decide, committing_store, by decide⟩

/-- A directory job at its commit point, its operation in the slot. -/
def dirCommit (op : DirOp) (kind : DirKind) : State :=
  { withWaiting .p0 1 0x30#8 [] (withEntry 8 plain ready) with
    engine := .programming 25 false
    queue := [.directory kind .b 7#32]
    dirSlot := some ⟨op, 8, ⟨.p0, 1, 0⟩⟩ }

theorem witness_DirectoryPagesHoldTheDirectory_first :
    ∃ (s : State) (k : DirKind) (c : Copy) (gen : Word32) (pos : Nat) (retry : Bool) (rest : List Job),
      s.engine = .programming pos retry
        ∧ s.queue = .directory k c gen :: rest
        ∧ 1 ≤ pos
        ∧ pos ≤ 25
        ∧ StoreCanonical s :=
  ⟨{ dirCommit .freeze .freeze with engine := .programming 1 false }, .freeze, .b, 7#32, 1, false, [], by decide, by decide, by decide, by decide, rfl⟩

theorem witness_DirectoryPagesHoldTheDirectory_header :
    ∃ (s : State) (k : DirKind) (c : Copy) (gen : Word32) (pos : Nat) (retry : Bool) (rest : List Job),
      s.engine = .programming pos retry
        ∧ s.queue = .directory k c gen :: rest
        ∧ 1 ≤ pos
        ∧ pos ≤ 25
        ∧ StoreCanonical s :=
  ⟨{ dirCommit .freeze .freeze with engine := .programming 25 false }, .freeze, .b, 7#32, 25, false, [], by decide, by decide, by decide, by decide, rfl⟩

/-- A PLAIN record of 24 bytes, which takes two pages per copy. -/
def twoPageRecord : RecEntry := { plain with size := 24#8, pageA := 64, pageB := 66 }

/-- Its header page is to be programmed; all its data bytes are FFh. -/
def twoPages : State :=
  { (withEntry 8 twoPageRecord ready).setBuffer 0 ⟨List.replicate 240 0xFF#8, false⟩ with
    queue := [.record 0 8 .b 66 2 1#32]
    engine := .programming 2 false }

theorem twoPages_image : ∀ i, i < 32 * 2 → 32 ≤ i →
    Memory.read twoPages.store (32 * 66 + i) =
      (recordImage 8 twoPageRecord 1#32 ((twoPages.buffer 0).bytes.take 24)).getD i 0xFF#8 := by decide

/-- A record of two pages, its data page programmed. -/
theorem witness_FinishedCopyIsValid_record :
    ∃ (s : State) (e : EntryNo) (h : Handle) (x : RecEntry) (c : Copy) (first pages : Nat) (gen : Word32) (retry : Bool) (rest : List Job) (data : List Byte),
      s.engine = .programming pages retry
        ∧ s.queue = .record e h c first pages gen :: rest
        ∧ pages = (x.size.toNat + 16 + 31) / 32
        ∧ first + pages ≤ 2048
        ∧ StoreCanonical s
        ∧ Defined s h x
        ∧ (s.buffer e).bytes.length = 240
        ∧ 1 ≤ x.size.toNat
        ∧ x.size.toNat ≤ 240
        ∧ data = (s.buffer e).bytes.take x.size.toNat
        ∧ (∀ i, 32 ≤ i → i < 32 * pages → Memory.read s.store (32 * first + i) = (recordImage h x gen data).getD i 0xFF#8) :=
  ⟨twoPages, 0, 8, twoPageRecord, .b, 66, 2, 1#32, false, [], (twoPages.buffer 0).bytes.take 24, by decide, by decide, by decide, by decide, rfl, by decide, by decide, by decide, by decide, by decide, fun i h1 h2 => twoPages_image i h2 h1⟩

/-- A FREEZE's directory job, every page of its copy in region B but the header page programmed. -/
def frozenEntries : List (Option RecEntry) := entriesWritten (dirCommit .freeze .freeze) 7#32

def frozenImage : List Byte := (directoryImage 7#32 frozenEntries).take 784

def nearlyWritten : State := { dirCommit .freeze .freeze with store := Memory.writeBytes [] 1024 frozenImage }

theorem frozenImage_length : frozenImage.length = 784 := by decide

theorem frozenEntries_defined : frozenEntries.all (fun y => y.all entryInRange) = true := by decide

theorem nearlyWritten_page (i : Nat) (h : i < 784) :
    Memory.read nearlyWritten.store (32 * 32 + i) = (directoryImage 7#32 frozenEntries).getD i 0xFF#8 := by
  have hl := frozenImage_length
  have hr : Memory.read nearlyWritten.store (32 * 32 + i) = frozenImage.getD i 0x00#8 :=
    Memory.read_writeBytes_inside [] 1024 i frozenImage (by omega) (by omega) rfl
  have hd : (directoryImage 7#32 frozenEntries).length = 800 := by decide
  rw [hr, List.getD_eq_getElem _ _ (by omega), List.getD_eq_getElem _ _ (by omega)]
  simp only [frozenImage, List.getElem_take]

theorem witness_FinishedCopyIsValid_directory :
    ∃ (s : State) (k : DirKind) (c : Copy) (gen : Word32) (retry : Bool) (rest : List Job),
      s.engine = .programming 25 retry
        ∧ s.queue = .directory k c gen :: rest
        ∧ StoreCanonical s
        ∧ (∀ x, some x ∈ entriesWritten s gen → entryInRange x = true)
        ∧ allApart ((entriesWritten s gen).flatMap fun y => y.elim [] entryRuns) = true
        ∧ ∀ i, 32 ≤ i → i < 784 →
            Memory.read s.store (32 * (match c with | .a => 0 | .b => 32) + i) =
              (directoryImage gen (entriesWritten s gen)).getD i 0xFF#8 := by
  refine ⟨nearlyWritten, .freeze, .b, 7#32, false, [], by decide, by decide, ?_, fun x hx => ?_, by decide,
    fun i _ hi => nearlyWritten_page i hi⟩
  · exact Memory.writeBytes_wf [] 1024 frozenImage (by rw [frozenImage_length]; omega) rfl
  · have hm : some x ∈ frozenEntries := hx
    exact (List.all_eq_true.mp frozenEntries_defined) _ hm

/-- The record of `onDisk` with a job for its copy B at generation 6, its one page being programmed. -/
def interrupted : State :=
  { (onDisk true).setRecord 0 { RecState.blank with entry := some small, active := some .a, gen := 5#32 } with
    dev := .ready
    queue := [.record 0 0 .b 65 1 6#32]
    engine := .programming 1 false }

def interruptedPage : List Byte := interrupted.jobPage (.record 0 0 .b 65 1 6#32) 1

theorem onDisk_wf : Memory.wf (onDisk true).store = true := by
  have hl : copyBytes.length = 17 := by decide
  have h := Memory.writeBytes_wf (Memory.writeBytes [] 0 dirBytes) 2048 copyBytes (by rw [hl]; omega) dirWritten_wf
  exact h

theorem interrupted_store : interrupted.store = (onDisk true).store := rfl

theorem interrupted_gen : copyGen (Memory.writePage interrupted.store 65 interruptedPage) 65 = 6#32 := by
  have hl : interruptedPage.length = 32 := by decide
  have h := Memory.readBytes_writeBytes (onDisk true).store 2080 interruptedPage (by rw [hl]; omega) onDisk_wf
  rw [hl] at h
  have hw : Memory.writePage (onDisk true).store 65 interruptedPage =
      Memory.writeBytes (onDisk true).store 2080 interruptedPage := by
    unfold Memory.writePage
    rw [if_pos (by omega), List.take_of_length_le (by omega)]
    rfl
  have h16 : Memory.readBytes (Memory.writePage (onDisk true).store 65 interruptedPage) (pageAddress 65) 16 =
      interruptedPage.take 16 := by
    rw [hw]
    have ht := congrArg (List.take 16) h
    rw [← ht]
    rfl
  rw [interrupted_store, copyGen, h16]
  decide

theorem copyBytes_gen : copyGen (onDisk true).store 64 = 5#32 := by
  have h16 : Memory.readBytes (onDisk true).store (pageAddress 64) 16 = copyBytes.take 16 := by rw [← onDisk_copy]; rfl
  rw [copyGen, h16]
  decide

theorem witness_InterruptedJobLeavesOldOrNew_record :
    ∃ (c : Instr) (s : State) (e : EntryNo) (h : Handle) (x : RecEntry) (k r : Copy) (pages : Nat) (g gen : Word32)
      (rest : List Job) (page : Nat) (whole : List Byte),
      isDeviceReset c = true
        ∧ (∀ y, s.clear = some y → y.phase = .draining)
        ∧ s.queue = .record e h k (x.firstPage k) pages gen :: rest
        ∧ s.pageInProgress = some (page, whole)
        ∧ 64 ≤ page
        ∧ InRun pages (x.firstPage k) page
        ∧ pages = (x.size.toNat + 16 + 31) / 32
        ∧ ¬ InRun pages (x.firstPage (other k)) page
        ∧ g < gen
        ∧ regionCond s.store r = .valid
        ∧ regionCond s.store (other r) ≠ .valid
        ∧ readEntry (slice (regionBytes s.store r) (16 + 16 * h.val) 16) = some x
        ∧ (copyValid s.store h x (x.firstPage (other k)) = true ∧ copyGen s.store (x.firstPage (other k)) = g)
        ∧ ∀ m, m = s.store ∨ m = Memory.writePage s.store page whole → copyValid m h x (x.firstPage k) = true →
            copyGen m (x.firstPage k) < g ∨ copyGen m (x.firstPage k) = gen := by
  refine ⟨.powerLoss, interrupted, 0, 0, small, .b, .a, 1, 5#32, 6#32, [], 65, interruptedPage, rfl, nofun, rfl, rfl,
    by decide, by decide, by decide, by decide, by decide, onDisk_valid true, ?_, ?_, ⟨onDisk_copyA, copyBytes_gen⟩,
    fun m hm hv => ?_⟩
  · show regionCond (onDisk true).store .b ≠ .valid
    simp [regionCond, onDisk_other]
  · show readEntry (slice (regionBytes (onDisk true).store .a) 16 16) = some small
    rw [onDisk_region]
    exact onDisk_entry
  · rcases hm with rfl | rfl
    · have : copyValid (onDisk true).store 0 small 65 = true := hv
      rw [onDisk_noCopyB] at this
      cases this
    · exact .inr interrupted_gen

/-- A directory job for the region that `onDisk` leaves erased, its page 3 being programmed. -/
def interruptedDirectory (disk : List Host.Cell) (c : Copy) (gen : Word32) : State :=
  { ready with
    store := disk
    queue := [.directory .freeze c gen]
    engine := .programming 3 false }

/-- Page 3 of a region leaves its first page erased. -/
theorem interruptedDirectory_erased (disk : List Host.Cell) (c : Copy) (whole : List Byte)
    (h : regionErased disk c = true) : ∀ m, m = disk ∨ m = Memory.writePage disk (regionPage c + 3) whole →
      regionCond m c ≠ .valid := by
  rintro m (rfl | rfl)
  · simp [regionCond, h]
  · have hp : Memory.readPage (Memory.writePage disk (regionPage c + 3) whole) (regionPage c) =
        Memory.readPage disk (regionPage c) := by
      refine List.map_congr_left fun i hi => Memory.read_writePage_outside disk _ _ whole ?_
      have := List.mem_range.mp hi
      simp only [pageAddress]
      omega
    have : regionErased (Memory.writePage disk (regionPage c + 3) whole) c = true := by
      simp only [regionErased, hp]
      exact h
    simp [regionCond, this]

theorem witness_InterruptedJobLeavesOldOrNew_directory :
    ∃ (c : Instr) (s : State) (d : DirKind) (k : Copy) (g gen : Word32) (rest : List Job) (page : Nat)
      (whole : List Byte),
      isDeviceReset c = true
        ∧ (∀ y, s.clear = some y → y.phase = .draining)
        ∧ s.queue = .directory d k gen :: rest
        ∧ s.pageInProgress = some (page, whole)
        ∧ InRun 25 (match k with | .a => 0 | .b => 32) page
        ∧ g < gen
        ∧ (∀ m, m = s.store ∨ m = Memory.writePage s.store page whole → regionCond m k = .valid →
            regionGen m k < g ∨ regionGen m k = gen)
        ∧ regionCond s.store (other k) = .valid
        ∧ regionGen s.store (other k) = g := by
  refine ⟨.powerLoss, interruptedDirectory (onDisk false).store .b 10#32, .freeze, .b, 9#32, 10#32, [], 35,
    (interruptedDirectory (onDisk false).store .b 10#32).jobPage (.directory .freeze .b 10#32) 3, rfl, nofun, rfl, rfl,
    by decide, by decide, fun m hm hv => ?_, onDisk_valid false, ?_⟩
  · exact absurd hv (interruptedDirectory_erased _ .b _ (onDisk_other false) m hm)
  · show regionGen (onDisk false).store .a = 9#32
    rw [regionGen, onDisk_region]
    decide

/-- The first directory after an empty one. -/
theorem witness_InterruptedJobLeavesOldOrNew_first :
    ∃ (c : Instr) (s : State) (d : DirKind) (k : Copy) (g gen : Word32) (rest : List Job) (page : Nat)
      (whole : List Byte),
      isDeviceReset c = true
        ∧ (∀ y, s.clear = some y → y.phase = .draining)
        ∧ s.queue = .directory d k gen :: rest
        ∧ s.pageInProgress = some (page, whole)
        ∧ InRun 25 (match k with | .a => 0 | .b => 32) page
        ∧ g < gen
        ∧ (∀ m, m = s.store ∨ m = Memory.writePage s.store page whole → regionCond m k = .valid →
            regionGen m k < g ∨ regionGen m k = gen)
        ∧ regionCond s.store (other k) = .erased
        ∧ g = 0#32 := by
  refine ⟨.powerLoss, interruptedDirectory [] .a 1#32, .freeze, .a, 0#32, 1#32, [], 3,
    (interruptedDirectory [] .a 1#32).jobPage (.directory .freeze .a 1#32) 3, rfl, nofun, rfl, rfl, by decide, by decide,
    fun m hm hv => ?_, by decide, rfl⟩
  exact absurd hv (interruptedDirectory_erased [] .a _ (by decide) m hm)

/-- A valid copy at a generation other than the job's is no outcome of an interrupted page (02, R35). -/
theorem test_other_generation_not_allowed :
    copyAllowed [] (Memory.writeBytes [] 2048 (copyHeader 0 1#8 1#32 6#32 [7#8] ++ [7#8]))
      (Memory.writeBytes [] 2048 copyBytes) 0 small .a = false := by decide

theorem witness_DirectoryJobWithoutCommitIsUndone_fault :
    ∃ (s : State) (j : DirJob) (k : DirKind) (c : Copy) (gen : Word32) (pos failing : Nat) (rest : List Job),
      s.dirSlot = some j
        ∧ s.engine = .erasing pos failing
        ∧ s.queue = .directory k c gen :: rest
        ∧ s.clear = none
        ∧ StoreCanonical s :=
  ⟨{ dirCommit .freeze .freeze with engine := .erasing 5 37 }, ⟨.freeze, 8, ⟨.p0, 1, 0⟩⟩, .freeze, .b, 7#32, 5, 37, [], by decide, by decide, by decide, by decide, rfl⟩

theorem witness_DirectoryJobWithoutCommitIsUndone_removed :
    ∃ (s : State) (j : DirJob) (p : Port) (t : Tag),
      Asks s p t 0x42#8 []
        ∧ s.dirSlot = some j
        ∧ ResetRemovesDirectory s p :=
  ⟨withRequest .p0 0 0x42#8 [] busy, ⟨.freeze, 8, ⟨.p0, 1, 0⟩⟩, .p0, 0, ⟨0, by decide⟩, by decide⟩

theorem witness_TakingUndone_define :
    ∃ (s : State) (j : DirJob) (x : RecEntry) (m : List (Nat × PageCond)),
      j.op = .define x
        ∧ s.pageMap = some m
        ∧ sparseWf .free 0 4096 m = true :=
  ⟨dirCommit (.define counter) .define, ⟨.define counter, 8, ⟨.p0, 1, 0⟩⟩, counter, [], by decide⟩

theorem witness_WaitersEligible_other :
    ∃ (s : State) (j : DirJob),
      (j.op ≠ .freeze ∨ (s.record j.handle).waiters = []) :=
  ⟨ready, ⟨.retire, 8, ⟨.p0, 1, 0⟩⟩, by decide⟩

theorem witness_WaitersEligible_granted :
    ∃ (s : State) (j : DirJob) (e : EntryNo) (before after : List Waiter) (w : Waiter) (x : RecEntry),
      j.op = .freeze
        ∧ FirstFree s e
        ∧ (s.record j.handle).waiters = before ++ w :: after
        ∧ (∀ v ∈ before, Spent s j.handle v)
        ∧ ¬ Spent s j.handle w
        ∧ Defined s j.handle x
        ∧ before ≠ [] :=
  ⟨granting [] ownWaiters false, ⟨.freeze, 20, ⟨.p0, 1, 0⟩⟩, 0, [waitingAdd .p2 1 1#32], [], waiting .p0 3 9, counter, by decide⟩

theorem witness_WaitersEligible_refused :
    ∃ (s : State) (j : DirJob) (e : EntryNo),
      j.op = .freeze
        ∧ FirstFree s e
        ∧ AllSpent s j.handle
        ∧ (s.record j.handle).waiters ≠ [] :=
  ⟨granting [] [waitingAdd .p2 1 1#32] false, ⟨.freeze, 20, ⟨.p0, 1, 0⟩⟩, 0, by decide⟩

theorem witness_WaitersEligible_queued :
    ∃ (s : State) (j : DirJob),
      j.op = .freeze
        ∧ (s.record j.handle).waiters ≠ []
        ∧ (∀ e, (s.lease e).lease ≠ none) :=
  ⟨allHeld (granting [] ownWaiters false), ⟨.freeze, 20, ⟨.p0, 1, 0⟩⟩, by decide⟩

theorem witness_DefineAndRetireCommitPoints_define :
    ∃ (s : State) (j : DirJob) (k : DirKind) (c : Copy) (gen : Word32) (retry : Bool) (rest : List Job) (m : List (Nat × PageCond)) (x : RecEntry) (kind : Byte) (body : List Byte),
      s.engine = .programming 25 retry
        ∧ s.queue = .directory k c gen :: rest
        ∧ s.dirSlot = some j
        ∧ s.clear = none
        ∧ s.pageMap = some m
        ∧ sparseWf .free 0 4096 m = true
        ∧ (s.port j.ticket.port).slots.get j.ticket.tag = .pending j.ticket.serial kind body
        ∧ j.op = .define x :=
  ⟨dirCommit (.define counter) .define, ⟨.define counter, 8, ⟨.p0, 1, 0⟩⟩, .define, .b, 7#32, false, [], [], counter, 0x30#8, [], by decide⟩

theorem witness_DefineAndRetireCommitPoints_retire :
    ∃ (s : State) (j : DirJob) (k : DirKind) (c : Copy) (gen : Word32) (retry : Bool) (rest : List Job) (m : List (Nat × PageCond)) (x : RecEntry) (kind : Byte) (body : List Byte),
      s.engine = .programming 25 retry
        ∧ s.queue = .directory k c gen :: rest
        ∧ s.dirSlot = some j
        ∧ s.clear = none
        ∧ s.pageMap = some m
        ∧ sparseWf .free 0 4096 m = true
        ∧ (s.port j.ticket.port).slots.get j.ticket.tag = .pending j.ticket.serial kind body
        ∧ j.op = .retire
        ∧ Defined s j.handle x :=
  ⟨dirCommit .retire .retire, ⟨.retire, 8, ⟨.p0, 1, 0⟩⟩, .retire, .b, 7#32, false, [], [], plain, 0x30#8, [], by decide⟩

theorem witness_SetRightsAndFreezeCommitPoints_setRights :
    ∃ (s : State) (j : DirJob) (k : DirKind) (c : Copy) (gen : Word32) (retry : Bool) (rest : List Job) (x : RecEntry) (r : PerPort Rights) (kind : Byte) (body : List Byte),
      s.engine = .programming 25 retry
        ∧ s.queue = .directory k c gen :: rest
        ∧ s.dirSlot = some j
        ∧ s.clear = none
        ∧ Defined s j.handle x
        ∧ (s.port j.ticket.port).slots.get j.ticket.tag = .pending j.ticket.serial kind body
        ∧ (∀ w, w ∈ (s.record j.handle).waiters → ¬ (w.ticket.port = j.ticket.port ∧ w.ticket.tag = j.ticket.tag))
        ∧ (s.record j.handle).waiters ≠ []
        ∧ (j.op = .setRights r ∨ j.op = .freeze)
        ∧ j.op = .setRights r :=
  ⟨(dirCommit (.setRights ⟨full, full, ⟨true, false, false⟩⟩) .setRights).setWaiters 8 [waiting .p2 1 9], ⟨.setRights ⟨full, full, ⟨true, false, false⟩⟩, 8, ⟨.p0, 1, 0⟩⟩, .setRights, .b, 7#32, false, [], plain, ⟨full, full, ⟨true, false, false⟩⟩, 0x30#8, [], by decide⟩

theorem witness_SetRightsAndFreezeCommitPoints_freeze :
    ∃ (s : State) (j : DirJob) (k : DirKind) (c : Copy) (gen : Word32) (retry : Bool) (rest : List Job) (x : RecEntry) (r : PerPort Rights) (kind : Byte) (body : List Byte),
      s.engine = .programming 25 retry
        ∧ s.queue = .directory k c gen :: rest
        ∧ s.dirSlot = some j
        ∧ s.clear = none
        ∧ Defined s j.handle x
        ∧ (s.port j.ticket.port).slots.get j.ticket.tag = .pending j.ticket.serial kind body
        ∧ (∀ w, w ∈ (s.record j.handle).waiters → ¬ (w.ticket.port = j.ticket.port ∧ w.ticket.tag = j.ticket.tag))
        ∧ (s.record j.handle).waiters ≠ []
        ∧ (j.op = .setRights r ∨ j.op = .freeze)
        ∧ j.op = .freeze :=
  ⟨(dirCommit (.freeze) .freeze).setWaiters 8 [waiting .p2 1 9], ⟨.freeze, 8, ⟨.p0, 1, 0⟩⟩, .freeze, .b, 7#32, false, [], plain, ⟨full, full, ⟨true, false, false⟩⟩, 0x30#8, [], by decide⟩

/-! #### Admission -/

/-- The records of the example (08, EXAMPLE: ONE SET OF REQUESTS THROUGH ADMISSION). -/
def rec8 : RecEntry :=
  { plain with size := 64#8, rights := ⟨⟨true, false, false⟩, ⟨true, false, true⟩, ⟨false, false, false⟩⟩ }

def rec9 : RecEntry :=
  { counter with frozen := true, rights := ⟨⟨false, false, false⟩, ⟨true, true, false⟩, ⟨false, false, false⟩⟩ }

def admitting : State := withEntry 9 rec9 (withEntry 8 rec8 ready)

theorem witness_AdmissionRefusesInOrder_device :
    ∃ (s : State) (p : Port) (tk : Ticket) (r : Req),
      s.oldestRequest p = some (tk, r)
        ∧ ¬ KindServed s.dev r.kind :=
  ⟨withRequest .p1 0 0x11#8 [8#8, 10#8] State.reset, .p1, ⟨.p1, 0, 0⟩, .acquire 8#8 10#8, by decide⟩

/-- No. 4 of the example. -/
theorem witness_AdmissionRefusesInOrder_configuration :
    ∃ (s : State) (p : Port) (tk : Ticket) (r : Req),
      s.oldestRequest p = some (tk, r)
        ∧ KindServed s.dev r.kind
        ∧ s.configPort ≠ some p
        ∧ r.kind ∈ [ReqKind.define, .retire, .setRights, .freeze, .factoryClear] :=
  ⟨withRequest .p1 0 0x31#8 [8#8] admitting, .p1, ⟨.p1, 0, 0⟩, .retire 8#8, by decide⟩

theorem witness_AdmissionRefusesInOrder_handle48 :
    ∃ (s : State) (p : Port) (tk : Ticket) (r : Req) (b : Byte),
      s.oldestRequest p = some (tk, r)
        ∧ s.dev = .ready
        ∧ JudgedByCurrent s p b r
        ∧ 48 ≤ b.toNat :=
  ⟨withRequest .p2 0 0x11#8 [48#8, 0#8] admitting, .p2, ⟨.p2, 0, 0⟩, .acquire 48#8 0#8, 48#8, by decide, by decide, rfl, by decide⟩

/-- P2 sees neither of the records. -/
theorem admitting_unseen (h : Handle) (hh : h.val = (8#8 : Byte).toNat) (x : RecEntry)
    (hx : Defined (withRequest .p2 0 0x11#8 [8#8, 0#8] admitting) h x) : ¬ Sees x .p2 := by
  have h8 : h = 8 := Fin.ext hh
  subst h8
  have hall : ((withRequest .p2 0 0x11#8 [8#8, 0#8] admitting).record 8).entry.all (fun x => decide (¬ Sees x .p2)) = true := by
    decide
  rw [hx] at hall
  simpa using hall

/-- A record that P1 may update and not read. -/
def unreadable : RecEntry :=
  { plain with rights := ⟨⟨false, false, false⟩, ⟨false, true, false⟩, ⟨false, false, false⟩⟩ }

theorem staging_undefined (h : Handle) (hh : h.val = (30#8 : Byte).toNat) (x : RecEntry)
    (hx : Defined (withRequest .p1 0 0x10#8 [30#8, 2#8, 6#8, 0#8, 1#8] staging) h x) : ¬ Sees x .p1 := by
  have h30 : h = 30 := Fin.ext hh
  subst h30
  have hall : ((withRequest .p1 0 0x10#8 [30#8, 2#8, 6#8, 0#8, 1#8] staging).record 30).entry = none := by decide
  rw [hx] at hall
  cases hall

theorem witness_AdmissionRefusesInOrder_unseen :
    ∃ (s : State) (p : Port) (tk : Ticket) (r : Req) (b : Byte),
      s.oldestRequest p = some (tk, r)
        ∧ s.dev = .ready
        ∧ JudgedByCurrent s p b r
        ∧ (∀ h : Handle, h.val = b.toNat → ∀ x, Defined s h x → ¬ Sees x p) :=
  ⟨withRequest .p2 0 0x11#8 [8#8, 0#8] admitting, .p2, ⟨.p2, 0, 0⟩, .acquire 8#8 0#8, 8#8, by decide, by decide, rfl, admitting_unseen⟩

/-- No. 5 of the example. -/
theorem witness_AdmissionRefusesInOrder_right :
    ∃ (s : State) (p : Port) (tk : Ticket) (r : Req) (b : Byte) (h : Handle) (x : RecEntry),
      s.oldestRequest p = some (tk, r)
        ∧ s.dev = .ready
        ∧ JudgedByCurrent s p b r
        ∧ h.val = b.toNat
        ∧ Defined s h x
        ∧ Sees x p
        ∧ (∃ w, r = .acquire b w ∧ (x.rights.get p).update = false) :=
  ⟨withRequest .p1 0 0x11#8 [8#8, 10#8] admitting, .p1, ⟨.p1, 0, 0⟩, .acquire 8#8 10#8, 8#8, 8, rec8, by decide, by decide, rfl, by decide, by decide, by decide, ⟨10#8, by decide⟩⟩

/-- No. 7 of the example. -/
theorem witness_AdmissionRefusesInOrder_frozen :
    ∃ (s : State) (p : Port) (tk : Ticket) (r : Req) (b : Byte) (h : Handle) (x : RecEntry),
      s.oldestRequest p = some (tk, r)
        ∧ s.dev = .ready
        ∧ JudgedByCurrent s p b r
        ∧ h.val = b.toNat
        ∧ Defined s h x
        ∧ x.frozen = true
        ∧ (x.rights.get p).update = true
        ∧ (∃ k d, r = .add b k d) :=
  ⟨withRequest .p1 0 0x13#8 ([9#8, 0#8, 0#8] ++ be4 1#32) admitting, .p1, ⟨.p1, 0, 0⟩, .add 9#8 ⟨0#8, 0#8⟩ 1#32, 9#8, 9, rec9, by decide, by decide, ⟨rfl, of_live (P := fun _ l => l.handle.val ≠ 9) (by decide)⟩, by decide, by decide, by decide, by decide, ⟨⟨0#8, 0#8⟩, 1#32, rfl⟩⟩

/-- A READ with a live token that names no record. -/
theorem witness_AdmissionRefusesInOrder_undefinedToken :
    ∃ (s : State) (p : Port) (tk : Ticket) (r : Req) (b : Byte),
      s.oldestRequest p = some (tk, r)
        ∧ s.dev = .ready
        ∧ JudgedByCurrent s p b r
        ∧ (∀ h : Handle, h.val = b.toNat → ∀ x, Defined s h x → ¬ Sees x p) :=
  ⟨withRequest .p1 0 0x10#8 [30#8, 2#8, 6#8, 0#8, 1#8] staging, .p1, ⟨.p1, 0, 0⟩, .read 30#8 ⟨2#8, 6#8⟩ 0#8 1#8, 30#8, by decide, by decide, ⟨rfl, of_live (P := fun _ l => l.handle.val ≠ 30) (by decide)⟩, staging_undefined⟩

/-- The token is live, on another record. -/
theorem witness_AdmissionRefusesInOrder_readRightToken :
    ∃ (s : State) (p : Port) (tk : Ticket) (r : Req) (b : Byte) (h : Handle) (x : RecEntry),
      s.oldestRequest p = some (tk, r)
        ∧ s.dev = .ready
        ∧ JudgedByCurrent s p b r
        ∧ h.val = b.toNat
        ∧ Defined s h x
        ∧ Sees x p
        ∧ (∃ k o n, r = .read b k o n ∧ (x.rights.get p).read = false) :=
  ⟨withRequest .p1 0 0x10#8 [8#8, 2#8, 6#8, 0#8, 1#8] (withEntry 8 unreadable staging), .p1, ⟨.p1, 0, 0⟩, .read 8#8 ⟨2#8, 6#8⟩ 0#8 1#8, 8#8, 8, unreadable, by decide, by decide, ⟨rfl, of_live (P := fun _ l => l.handle.val ≠ 8) (by decide)⟩, by decide, by decide, by decide, ⟨⟨2#8, 6#8⟩, 0#8, 1#8, by decide⟩⟩

/-- The token is live for no port. -/
theorem witness_AdmissionRefusesInOrder_addRightToken :
    ∃ (s : State) (p : Port) (tk : Ticket) (r : Req) (b : Byte) (h : Handle) (x : RecEntry),
      s.oldestRequest p = some (tk, r)
        ∧ s.dev = .ready
        ∧ JudgedByCurrent s p b r
        ∧ h.val = b.toNat
        ∧ Defined s h x
        ∧ Sees x p
        ∧ (∃ k d, r = .add b k d ∧ (x.rights.get p).update = false) :=
  ⟨withRequest .p1 0 0x13#8 ([8#8, 1#8, 1#8] ++ be4 1#32) admitting, .p1, ⟨.p1, 0, 0⟩, .add 8#8 ⟨1#8, 1#8⟩ 1#32, 8#8, 8, rec8, by decide, by decide, ⟨rfl, of_live (P := fun _ l => l.handle.val ≠ 8) (by decide)⟩, by decide, by decide, by decide, ⟨⟨1#8, 1#8⟩, 1#32, by decide⟩⟩

/-- The token is live, on another record. -/
theorem witness_AdmissionRefusesInOrder_frozenOther :
    ∃ (s : State) (p : Port) (tk : Ticket) (r : Req) (b : Byte) (h : Handle) (x : RecEntry),
      s.oldestRequest p = some (tk, r)
        ∧ s.dev = .ready
        ∧ JudgedByCurrent s p b r
        ∧ h.val = b.toNat
        ∧ Defined s h x
        ∧ x.frozen = true
        ∧ (x.rights.get p).update = true
        ∧ (∃ k d, r = .add b k d) :=
  ⟨withRequest .p1 0 0x13#8 ([9#8, 2#8, 6#8] ++ be4 1#32) (withEntry 9 rec9 staging), .p1, ⟨.p1, 0, 0⟩, .add 9#8 ⟨2#8, 6#8⟩ 1#32, 9#8, 9, rec9, by decide, by decide, ⟨rfl, of_live (P := fun _ l => l.handle.val ≠ 9) (by decide)⟩, by decide, by decide, by decide, by decide, ⟨⟨2#8, 6#8⟩, 1#32, rfl⟩⟩

theorem witness_AdmissionRefusesInOrder_inquire :
    ∃ (s : State) (p : Port) (tk : Ticket) (r : Req) (b : Byte),
      s.oldestRequest p = some (tk, r)
        ∧ s.dev = .ready
        ∧ r = .inquire b
        ∧ 48 ≤ b.toNat :=
  ⟨withRequest .p0 0 0x22#8 [48#8] admitting, .p0, ⟨.p0, 0, 0⟩, .inquire 48#8, 48#8, by decide⟩

theorem witness_AdmissionRefusesInOrder_define48 :
    ∃ (s : State) (p : Port) (tk : Ticket) (r : Req) (f : DefineFields),
      s.oldestRequest p = some (tk, r)
        ∧ s.dev = .ready
        ∧ s.configPort = some p
        ∧ r = .define f
        ∧ 48 ≤ f.handle.toNat :=
  ⟨withRequest .p0 0 0x30#8 [48#8, 0x54#8, 0x41#8, 0x4E#8, 0x4B#8, 1#8, 1#8, 1#8, 0#8, 0#8, 0#8] admitting, .p0, ⟨.p0, 0, 0⟩, .define ⟨48#8, 0x54414E4B#32, 1#8, 1#8, 1#8, ⟨0#8, 0#8, 0#8⟩⟩, ⟨48#8, 0x54414E4B#32, 1#8, 1#8, 1#8, ⟨0#8, 0#8, 0#8⟩⟩, by decide⟩

/-- No. 10 of the example. -/
theorem witness_AdmissionRefusesInOrder_undefined :
    ∃ (s : State) (p : Port) (tk : Ticket) (r : Req) (b : Byte),
      s.oldestRequest p = some (tk, r)
        ∧ s.dev = .ready
        ∧ s.configPort = some p
        ∧ changesEntry b r
        ∧ (∀ h : Handle, h.val = b.toNat → (s.record h).entry = none) :=
  ⟨withRequest .p0 0 0x31#8 [30#8] admitting, .p0, ⟨.p0, 0, 0⟩, .retire 30#8, 30#8, by decide, by decide, by decide, rfl, by decide⟩

theorem witness_AdmissionRefusesInOrder_frozenToken :
    ∃ (s : State) (p : Port) (tk : Ticket) (r : Req) (b entry count : Byte) (d : Word32) (e : EntryNo) (l : Lease) (x : RecEntry),
      s.oldestRequest p = some (tk, r)
        ∧ s.dev = .ready
        ∧ r = .add b ⟨entry, count⟩ d
        ∧ Live s p entry count e l
        ∧ l.handle.val = b.toNat
        ∧ l.grantRights.update = true
        ∧ Defined s l.handle x
        ∧ x.frozen = true :=
  ⟨withRequest .p1 0 0x13#8 ([9#8, 1#8, 1#8] ++ be4 1#32) (admitting.setLease 0 ⟨1#8, some (held .p1 9)⟩), .p1, ⟨.p1, 0, 0⟩, .add 9#8 ⟨1#8, 1#8⟩ 1#32, 9#8, 1#8, 1#8, 1#32, 0, held .p1 9, rec9, by decide⟩

/-- No. 9 of the example. -/
theorem witness_AdmissionRefusesInOrder_readRange :
    ∃ (s : State) (p : Port) (tk : Ticket) (r : Req) (b entry count o n : Byte) (h : Handle) (x : RecEntry),
      s.oldestRequest p = some (tk, r)
        ∧ s.dev = .ready
        ∧ r = .read b ⟨entry, count⟩ o n
        ∧ h.val = b.toNat
        ∧ Defined s h x
        ∧ ((∀ e l, Live s p entry count e l → l.handle ≠ h) ∧ (x.rights.get p).read = true)
        ∧ x.size.toNat < o.toNat + n.toNat :=
  ⟨withRequest .p1 0 0x10#8 [8#8, 0#8, 0#8, 40#8, 32#8] admitting, .p1, ⟨.p1, 0, 0⟩, .read 8#8 ⟨0#8, 0#8⟩ 40#8 32#8, 8#8, 0#8, 0#8, 40#8, 32#8, 8, rec8, by decide, by decide, by decide, by decide, by decide, ⟨of_live (P := fun _ l => l.handle ≠ 8) (by decide), by decide⟩, by decide⟩

theorem witness_AdmissionRefusesInOrder_readRangeStaged :
    ∃ (s : State) (p : Port) (tk : Ticket) (r : Req) (b entry count o n : Byte) (h : Handle) (x : RecEntry),
      s.oldestRequest p = some (tk, r)
        ∧ s.dev = .ready
        ∧ r = .read b ⟨entry, count⟩ o n
        ∧ h.val = b.toNat
        ∧ Defined s h x
        ∧ (∃ e l, Live s p entry count e l ∧ l.handle = h ∧ l.grantRights.read = true)
        ∧ n.toNat = 0 :=
  ⟨withRequest .p1 0 0x10#8 [20#8, 2#8, 6#8, 0#8, 0#8] staging, .p1, ⟨.p1, 0, 0⟩, .read 20#8 ⟨2#8, 6#8⟩ 0#8 0#8, 20#8, 2#8, 6#8, 0#8, 0#8, 20, counter, by decide, by decide, by decide, by decide, by decide, ⟨1, held .p1 20, by decide⟩, by decide⟩

theorem witness_AdmissionRefusesInOrder_stageRange :
    ∃ (s : State) (p : Port) (tk : Ticket) (r : Req) (entry count o : Byte) (d : List Byte),
      s.oldestRequest p = some (tk, r)
        ∧ s.dev = .ready
        ∧ r = .stage ⟨entry, count⟩ o d
        ∧ 239 < o.toNat
        ∧ (∀ e l, Live s p entry count e l → l.grantRights.update = true) :=
  ⟨withRequest .p1 0 0x12#8 [2#8, 6#8, 240#8, 1#8] staging, .p1, ⟨.p1, 0, 0⟩, .stage ⟨2#8, 6#8⟩ 240#8 [1#8], 2#8, 6#8, 240#8, [1#8], by decide, by decide, by decide, by decide, of_live (P := fun _ l => l.grantRights.update = true) (by decide)⟩

theorem witness_AdmissionRefusesInOrder_cancelRange :
    ∃ (s : State) (p : Port) (tk : Ticket) (r : Req) (b : Byte),
      s.oldestRequest p = some (tk, r)
        ∧ s.dev = .ready
        ∧ r = .cancel b
        ∧ 3 < b.toNat :=
  ⟨withRequest .p1 0 0x17#8 [4#8] ready, .p1, ⟨.p1, 0, 0⟩, .cancel 4#8, 4#8, by decide⟩

theorem witness_AdmissionRefusesInOrder_watchRange :
    ∃ (s : State) (p : Port) (tk : Ticket) (r : Req) (b m f : Byte) (th : Word32) (h : Handle) (x : RecEntry),
      s.oldestRequest p = some (tk, r)
        ∧ s.dev = .ready
        ∧ r = .watch b m th f
        ∧ h.val = b.toNat
        ∧ Defined s h x
        ∧ (x.rights.get p).watch = true
        ∧ 1 < f.toNat :=
  ⟨withRequest .p1 0 0x20#8 ([8#8, 1#8] ++ be4 0#32 ++ [2#8]) admitting, .p1, ⟨.p1, 0, 0⟩, .watch 8#8 1#8 0#32 2#8, 8#8, 1#8, 2#8, 0#32, 8, rec8, by decide⟩

/-- No. 8 of the example. -/
theorem witness_AdmissionRefusesInOrder_watchKind :
    ∃ (s : State) (p : Port) (tk : Ticket) (r : Req) (b m f : Byte) (th : Word32) (h : Handle) (x : RecEntry),
      s.oldestRequest p = some (tk, r)
        ∧ s.dev = .ready
        ∧ r = .watch b m th f
        ∧ h.val = b.toNat
        ∧ Defined s h x
        ∧ (x.rights.get p).watch = true
        ∧ (m = 0x02#8 ∨ m = 0x03#8)
        ∧ f.toNat ≤ 1
        ∧ x.kind = .plain :=
  ⟨withRequest .p1 0 0x20#8 ([8#8, 2#8] ++ be4 0#32 ++ [1#8]) admitting, .p1, ⟨.p1, 0, 0⟩, .watch 8#8 2#8 0#32 1#8, 8#8, 2#8, 1#8, 0#32, 8, rec8, by decide⟩

/-- No. 14 of the example. -/
theorem witness_AdmissionRefusesInOrder_defineRange :
    ∃ (s : State) (p : Port) (tk : Ticket) (r : Req) (f : DefineFields),
      s.oldestRequest p = some (tk, r)
        ∧ s.dev = .ready
        ∧ s.configPort = some p
        ∧ r = .define f
        ∧ f.handle.toNat < 48
        ∧ ¬ ((f.kind = 0x01#8 ∧ 1 ≤ f.size.toNat ∧ f.size.toNat ≤ 240) ∨ (f.kind = 0x02#8 ∧ f.size = 0x04#8)) :=
  ⟨withRequest .p0 0 0x30#8 [30#8, 0x54#8, 0x41#8, 0x4E#8, 0x4B#8, 1#8, 241#8, 1#8, 0#8, 0#8, 0#8] admitting, .p0, ⟨.p0, 0, 0⟩, .define ⟨30#8, 0x54414E4B#32, 1#8, 241#8, 1#8, ⟨0#8, 0#8, 0#8⟩⟩, ⟨30#8, 0x54414E4B#32, 1#8, 241#8, 1#8, ⟨0#8, 0#8, 0#8⟩⟩, by decide⟩

theorem witness_AdmissionRefusesInOrder_setRightsRange :
    ∃ (s : State) (p : Port) (tk : Ticket) (r : Req) (b : Byte) (rs : PerPort Byte) (h : Handle) (x : RecEntry),
      s.oldestRequest p = some (tk, r)
        ∧ s.dev = .ready
        ∧ s.configPort = some p
        ∧ r = .setRights b rs
        ∧ h.val = b.toNat
        ∧ Defined s h x
        ∧ (∃ q, 8 ≤ (rs.get q).toNat) :=
  ⟨withRequest .p0 0 0x32#8 [8#8, 0#8, 0#8, 8#8] admitting, .p0, ⟨.p0, 0, 0⟩, .setRights 8#8 ⟨0#8, 0#8, 8#8⟩, 8#8, ⟨0#8, 0#8, 8#8⟩, 8, rec8, by decide, by decide, by decide, by decide, by decide, by decide, ⟨.p2, by decide⟩⟩

theorem witness_AdmissionRefusesInOrder_addKind :
    ∃ (s : State) (p : Port) (tk : Ticket) (r : Req) (b entry count : Byte) (d : Word32) (h : Handle) (x : RecEntry),
      s.oldestRequest p = some (tk, r)
        ∧ s.dev = .ready
        ∧ r = .add b ⟨entry, count⟩ d
        ∧ h.val = b.toNat
        ∧ Defined s h x
        ∧ x.frozen = false
        ∧ x.kind = .plain
        ∧ ((∀ e l, Live s p entry count e l → l.handle ≠ h) ∧ (x.rights.get p).update = true) :=
  ⟨withRequest .p1 0 0x13#8 ([4#8, 0#8, 0#8] ++ be4 1#32) (withEntry 4 plain ready), .p1, ⟨.p1, 0, 0⟩, .add 4#8 ⟨0#8, 0#8⟩ 1#32, 4#8, 0#8, 0#8, 1#32, 4, plain, by decide, by decide, by decide, by decide, by decide, by decide, by decide, ⟨of_live (P := fun _ l => l.handle ≠ 4) (by decide), by decide⟩⟩

/-- Token (2, 5) is gone. -/
theorem token_gone (e : EntryNo) (l : Lease) :
    ¬ Live (withRequest .p1 0 0x15#8 [2#8, 5#8] committing) .p1 2#8 5#8 e l := by
  have h : ∀ e : EntryNo, ¬ ((2#8 : Byte).toNat = e.val + 1
      ∧ ((withRequest .p1 0 0x15#8 [2#8, 5#8] committing).lease e).issue = 5#8) := by decide
  exact fun hl => h e ⟨hl.1, hl.2.2.2⟩

theorem witness_TokenCheckGuardsTheLease_gone :
    ∃ (s : State) (p : Port) (tk : Ticket) (r : Req) (entry count : Byte),
      s.oldestRequest p = some (tk, r)
        ∧ s.dev = .ready
        ∧ r = .release ⟨entry, count⟩
        ∧ (∀ e l, ¬ Live s p entry count e l) :=
  ⟨withRequest .p1 0 0x15#8 [2#8, 5#8] committing, .p1, ⟨.p1, 0, 0⟩, .release ⟨2#8, 5#8⟩, 2#8, 5#8, by decide, by decide, by decide, token_gone⟩

theorem witness_TokenCheckGuardsTheLease_busy :
    ∃ (s : State) (p : Port) (tk : Ticket) (r : Req) (entry count : Byte) (e : EntryNo) (l : Lease),
      s.oldestRequest p = some (tk, r)
        ∧ s.dev = .ready
        ∧ r = .release ⟨entry, count⟩
        ∧ Live s p entry count e l
        ∧ l.grantRights.update = true
        ∧ l.phase = .committing :=
  ⟨withRequest .p1 0 0x15#8 [2#8, 6#8] committing, .p1, ⟨.p1, 0, 0⟩, .release ⟨2#8, 6#8⟩, 2#8, 6#8, 1, committed .explicit, by decide⟩

/-- The token is live, on another record. -/
theorem witness_TokenCheckGuardsTheLease_readOther :
    ∃ (s : State) (p : Port) (tk : Ticket) (r : Req) (b entry count : Byte) (h : Handle) (x : RecEntry) (o n : Byte),
      s.oldestRequest p = some (tk, r)
        ∧ s.dev = .ready
        ∧ h.val = b.toNat
        ∧ Defined s h x
        ∧ ¬ (entry = 0x00#8 ∧ count = 0x00#8)
        ∧ r = .read b ⟨entry, count⟩ o n
        ∧ (∀ e l, Live s p entry count e l → l.handle ≠ h)
        ∧ (x.rights.get p).read = true
        ∧ 1 ≤ n.toNat
        ∧ n.toNat ≤ 32
        ∧ o.toNat + n.toNat ≤ x.size.toNat :=
  ⟨withRequest .p1 0 0x10#8 [8#8, 2#8, 6#8, 0#8, 4#8] (withEntry 8 plain staging), .p1, ⟨.p1, 0, 0⟩, .read 8#8 ⟨2#8, 6#8⟩ 0#8 4#8, 8#8, 2#8, 6#8, 8, plain, 0#8, 4#8, by decide, by decide, by decide, by decide, by decide, by decide, of_live (P := fun _ l => l.handle ≠ 8) (by decide), by decide⟩

theorem witness_TokenCheckGuardsTheLease_readDenied :
    ∃ (s : State) (p : Port) (tk : Ticket) (r : Req) (b entry count : Byte) (h : Handle) (x : RecEntry) (o n : Byte) (e : EntryNo) (l : Lease),
      s.oldestRequest p = some (tk, r)
        ∧ s.dev = .ready
        ∧ h.val = b.toNat
        ∧ Defined s h x
        ∧ ¬ (entry = 0x00#8 ∧ count = 0x00#8)
        ∧ r = .read b ⟨entry, count⟩ o n
        ∧ Live s p entry count e l
        ∧ l.handle = h
        ∧ l.grantRights.update = true
        ∧ l.grantRights.read = false :=
  ⟨withRequest .p1 0 0x10#8 [20#8, 2#8, 6#8, 0#8, 4#8] (staging.setLease 1 ⟨6#8, some { held .p1 20 with grantRights := ⟨false, true, false⟩ }⟩), .p1, ⟨.p1, 0, 0⟩, .read 20#8 ⟨2#8, 6#8⟩ 0#8 4#8, 20#8, 2#8, 6#8, 20, counter, 0#8, 4#8, 1, { held .p1 20 with grantRights := ⟨false, true, false⟩ }, by decide⟩

theorem witness_TokenCheckGuardsTheLease_addOther :
    ∃ (s : State) (p : Port) (tk : Ticket) (r : Req) (b entry count : Byte) (h : Handle) (x : RecEntry) (d : Word32),
      s.oldestRequest p = some (tk, r)
        ∧ s.dev = .ready
        ∧ h.val = b.toNat
        ∧ Defined s h x
        ∧ ¬ (entry = 0x00#8 ∧ count = 0x00#8)
        ∧ r = .add b ⟨entry, count⟩ d
        ∧ x.kind = .counter
        ∧ x.frozen = false
        ∧ (∀ e l, Live s p entry count e l → l.handle ≠ h)
        ∧ (x.rights.get p).update = true :=
  ⟨withRequest .p1 0 0x13#8 ([8#8, 2#8, 6#8] ++ be4 1#32) (withEntry 8 counter staging), .p1, ⟨.p1, 0, 0⟩, .add 8#8 ⟨2#8, 6#8⟩ 1#32, 8#8, 2#8, 6#8, 8, counter, 1#32, by decide, by decide, by decide, by decide, by decide, by decide, by decide, by decide, of_live (P := fun _ l => l.handle ≠ 8) (by decide), by decide⟩

theorem witness_TokenCheckGuardsTheLease_addBusy :
    ∃ (s : State) (p : Port) (tk : Ticket) (r : Req) (b entry count : Byte) (h : Handle) (x : RecEntry) (d : Word32) (e : EntryNo) (l : Lease),
      s.oldestRequest p = some (tk, r)
        ∧ s.dev = .ready
        ∧ h.val = b.toNat
        ∧ Defined s h x
        ∧ ¬ (entry = 0x00#8 ∧ count = 0x00#8)
        ∧ r = .add b ⟨entry, count⟩ d
        ∧ x.kind = .counter
        ∧ x.frozen = false
        ∧ Live s p entry count e l
        ∧ l.handle = h
        ∧ l.grantRights.update = true
        ∧ l.phase = .committing :=
  ⟨withRequest .p1 0 0x13#8 ([20#8, 2#8, 6#8] ++ be4 1#32) committing, .p1, ⟨.p1, 0, 0⟩, .add 20#8 ⟨2#8, 6#8⟩ 1#32, 20#8, 2#8, 6#8, 20, counter, 1#32, 1, committed .explicit, by decide⟩

/-! #### Rules of the whole machine -/

theorem witness_CounterArithmeticIsExactAndClamped_below :
    ∃ value delta : Word32,
      (value.toNat : Int) + delta.toInt < 0 :=
  ⟨0#32, 0xFFFFFFFF#32, by decide⟩

theorem witness_CounterArithmeticIsExactAndClamped_within :
    ∃ value delta : Word32,
      0 ≤ (value.toNat : Int) + delta.toInt
        ∧ (value.toNat : Int) + delta.toInt ≤ 4294967295
        ∧ (value.toNat : Int) + delta.toInt = 4294967295 :=
  ⟨4294967294#32, 1#32, by decide⟩

theorem witness_CounterArithmeticIsExactAndClamped_above :
    ∃ value delta : Word32,
      4294967295 < (value.toNat : Int) + delta.toInt :=
  ⟨4294967295#32, 1#32, by decide⟩

theorem witness_CounterArithmeticIsExactAndClamped_held :
    ∃ l : Lease,
      l.phase = .held :=
  ⟨held .p1 20, by decide⟩

theorem witness_StoreChangesOnlyAtItsEvents_pages :
    ∃ c : Instr,
      changesPages c = false :=
  ⟨.portReset .p1, by decide⟩

theorem witness_StoreChangesOnlyAtItsEvents_records :
    ∃ (c : Instr) (s t : State),
      changesStoreState c = false
        ∧ exec c s = .next t :=
  ⟨.commit .p1, modified 17#32, _, by decide, rfl⟩

theorem witness_DeviceStateAndStrapsChangeAtTheirEvents_straps :
    ∃ (c : Instr) (s t : State), exec c s = .next t ∧ t.straps ≠ s.straps :=
  ⟨.powerUp i2c.straps, State.reset, _, rfl, by decide⟩

theorem witness_DeviceStateAndStrapsChangeAtTheirEvents_dev :
    ∃ (c : Instr) (s t : State), exec c s = .next t ∧ t.dev ≠ s.dev := by
  obtain ⟨s, t, _, hs, h, ht⟩ := witness_ScanRebuildsPageMap
  exact ⟨.scanEnd, s, t, h, by rw [hs, ht]; decide⟩

/-! #### Invariants -/

theorem witness_EveryStepKeepsStoreCanonical :
    StoreCanonical committing ∧ ∃ t, step committing = .next t := ⟨committing_store, ⟨_, rfl⟩⟩

theorem fullFifo_matches (p : Port) : FifoMatches (fullFifo.port p) := by
  cases p <;> exact ⟨by decide, by decide⟩

theorem witness_EveryStepKeepsPortQueues :
    FifosMatch fullFifo ∧ AllNoticesBounded fullFifo ∧ ∃ t, step fullFifo = .next t := by
  refine ⟨fullFifo_matches, fun p => ?_, ⟨_, rfl⟩⟩
  cases p <;> exact ⟨by decide, by decide⟩

/-- A counter on pages 80 and 81 with a lease and a waiter. -/
def settled : State :=
  { staging with pageMap := some [(80, .inUse), (81, .inUse)] }.setRecord 20
    { staging.record 20 with waiters := [waiting .p0 2 9] }

theorem witness_EveryStepKeepsRunsDisjoint : RunsDisjoint settled ∧ ∃ t, step settled = .next t := by
  refine ⟨⟨by decide, by decide, fun m hm r hr page h1 h2 => ?_, by decide, rfl, by decide, by decide, nofun⟩, ⟨_, rfl⟩⟩
  have hr' : r ∈ [((80 : Nat), (1 : Nat)), (81, 1)] := by
    have he : allRuns settled = [(80, 1), (81, 1)] := by decide
    rwa [he] at hr
  have hm' : m = [(80, .inUse), (81, .inUse)] := by
    have he : settled.pageMap = some [(80, .inUse), (81, .inUse)] := by decide
    rw [he] at hm
    exact (Option.some.inj hm).symm
  subst hm'
  simp only [List.mem_cons, List.not_mem_nil, or_false] at hr'
  rcases hr' with rfl | rfl
  · have : page = 80 := by simp only at h1 h2; omega
    subst this
    decide
  · have : page = 81 := by simp only at h1 h2; omega
    subst this
    decide

theorem witness_EveryStepKeepsLeasesConsistent : LeasesConsistent settled ∧ ∃ t, step settled = .next t := by
  refine ⟨⟨by decide, by decide, by decide, by decide, ?_, ?_, nofun, nofun, by decide, by decide, ?_, rfl, ?_, by decide⟩,
    ⟨_, rfl⟩⟩
  · intro h hh
    exact absurd hh (by revert h; decide)
  · intro h hh
    exact absurd hh (by revert h; decide)
  · exact of_leases (P := fun e l => l.phase = .committing → ∃ j ∈ settled.queue, Job.isRecordOf e j = true) (by decide)
  · exact fun h => absurd (show settled.clear = none by decide) h

end Sys2Proof.Tests
end

