-- ==== Sys2Proof/Proofs/CounterArithmetic.lean ====
section
/-! PROOF. The arithmetic of a COUNTER record's value (04, R77): how four bytes spell it, what the exact sum with a
signed delta becomes below, within and above the range of 32 bits, and where ADD leaves the result. -/

namespace Sys2Proof.Machine

/-! ### The value that four bytes spell -/

theorem toNat_append_eq_mul_add {m n : Nat} (x : BitVec m) (y : BitVec n) :
    (x ++ y).toNat = x.toNat * 2 ^ n + y.toNat := by
  rw [BitVec.toNat_append, ← Nat.shiftLeft_add_eq_or_of_lt y.isLt, Nat.shiftLeft_eq]

theorem word32_toNat (b0 b1 b2 b3 : Byte) :
    (word32 b0 b1 b2 b3).toNat = b0.toNat * 16777216 + b1.toNat * 65536 + b2.toNat * 256 + b3.toNat := by
  unfold word32
  simp only [toNat_append_eq_mul_add]
  omega

theorem counterValue_cons (b0 b1 b2 b3 : Byte) (rest : List Byte) :
    counterValue (b0 :: b1 :: b2 :: b3 :: rest) = word32 b0 b1 b2 b3 := rfl

/-! ### The exact sum, judged before it is clamped -/

section Sum

variable {value delta : Word32}

theorem addDelta_of_sum_neg (h : (value.toNat : Int) + delta.toInt < 0) :
    addDelta value delta = (0#32, true) :=
  if_pos h

theorem addDelta_of_sum_gt (h : 4294967295 < (value.toNat : Int) + delta.toInt) :
    addDelta value delta = (4294967295#32, true) := by
  have hn : ¬ (value.toNat : Int) + delta.toInt < 0 := by omega
  exact (if_neg hn).trans (if_pos h)

theorem addDelta_of_sum_fits (h0 : 0 ≤ (value.toNat : Int) + delta.toInt)
    (h1 : (value.toNat : Int) + delta.toInt ≤ 4294967295) :
    addDelta value delta = (BitVec.ofNat 32 ((value.toNat : Int) + delta.toInt).toNat, false) :=
  (if_neg (by omega)).trans (if_neg (by omega))

/-- A sum in the range of 32 bits is the new value itself: nothing wraps. -/
theorem addDelta_toNat_of_sum_fits (h0 : 0 ≤ (value.toNat : Int) + delta.toInt)
    (h1 : (value.toNat : Int) + delta.toInt ≤ 4294967295) :
    ((addDelta value delta).1.toNat : Int) = (value.toNat : Int) + delta.toInt := by
  have hlt : ((value.toNat : Int) + delta.toInt).toNat < 2 ^ 32 := by omega
  rw [addDelta_of_sum_fits h0 h1, BitVec.toNat_ofNat, Nat.mod_eq_of_lt hlt, Int.toNat_of_nonneg h0]

end Sum

/-! ### Where ADD leaves the new value -/

theorem overwrite_zero (l data : List Byte) : overwrite l 0 data = data ++ l.drop data.length := by
  simp [overwrite]

@[simp] theorem writeBuffer_buffer_same (e : EntryNo) (l : Lease) (offset : Nat) (data : List Byte) (s : State) :
    (writeBuffer e l offset data s).buffer e =
      { s.buffer e with bytes := overwrite (s.buffer e).bytes offset data } :=
  State.setBuffer_buffer_same _ e _

@[simp] theorem grantLease_buffer_same (e : EntryNo) (h : Handle) (l : Lease) (b : Buffer) (s : State) :
    (grantLease e h l b s).buffer e = b :=
  State.setBuffer_buffer_same _ e b

@[simp] theorem handJob_buffer (j : Job) (s : State) (e : EntryNo) : (handJob j s).buffer e = s.buffer e := by
  rw [handJob_eq]
  rfl

theorem padTo_be4 (fill : Byte) (w : Word32) : padTo fill 240 (be4 w) = be4 w ++ List.replicate 236 fill := rfl

/-- An ADD on a HELD lease puts the new value in the first four staged bytes (04, R78). -/
theorem takeTokenAdd_bytes (s : State) (tk : Ticket) (delta : Word32) (e : EntryNo) (l : Lease)
    (hl : l.phase = .held) :
    ((takeTokenAdd tk delta e l s).buffer e).bytes =
      be4 (addDelta (counterValue (s.buffer e).bytes) delta).1 ++ (s.buffer e).bytes.drop 4 := by
  simp only [takeTokenAdd, hl, complete_buffer, writeBuffer_buffer_same, overwrite_zero]
  rfl

/-- An implicit load puts the new value of the committed data before 236 zero bytes, marked when it was clamped
(04, R73). -/
theorem grantImplicit_buffer (s : State) (tk : Ticket) (delta : Word32) (e : EntryNo) (h : Handle) :
    (grantImplicit e h tk delta s).buffer e =
      ⟨be4 (addDelta (counterValue (s.committedData h)) delta).1 ++ List.replicate 236 0x00#8,
        (addDelta (counterValue (s.committedData h)) delta).2⟩ := by
  simp only [grantImplicit, handJob_buffer, grantLease_buffer_same, padTo_be4]

/-! ### The statement -/

/-- Settles O54: the bytes by `word32_toNat`, the three ranges of the exact sum each by its equation of `addDelta`,
and the two places of the result by the buffer each operation leaves. -/
theorem counterArithmeticIsExactAndClamped : Obligations.CounterArithmeticIsExactAndClamped := by
  unfold Obligations.CounterArithmeticIsExactAndClamped
  refine ⟨fun b0 b1 b2 b3 rest => ?bytes, fun value delta => ⟨?below, ?within, ?above⟩, ?staged, ?implicit⟩
  case bytes => rw [counterValue_cons, word32_toNat]
  case below => exact addDelta_of_sum_neg
  case within => exact fun h0 h1 => ⟨addDelta_toNat_of_sum_fits h0 h1, by rw [addDelta_of_sum_fits h0 h1]⟩
  case above => exact addDelta_of_sum_gt
  case staged => exact takeTokenAdd_bytes
  case implicit => exact grantImplicit_buffer

end Sys2Proof.Machine
end

