-- ==== Sys2Proof/Proofs/Unwatch.lean ====
section
/-! PROOF. UNWATCH (06, R106): what a placed request of this kind is when its port's oldest is taken, how admission
judges its number, and what the Watch Unit answers for an entry of its own port and for any other. -/

namespace Sys2Proof.Machine

open Sys2Proof.Safety

/-! ### The answer to a request that has been handed over -/

theorem handOver_eq_handed (p : Port) (s : State) : handOver p s = handed s p := by
  rw [handOver, handed, List.drop_one]

/-- A request that holds its slot and is completed in the event that hands it over is answered, and nothing else
changes (07, R126, R128). -/
theorem complete_handOver_eq_answered {s : State} {p : Port} {t : Tag} {serial : Nat} {kind : Byte} {b : List Byte}
    (hslot : (s.port p).slots.get t = .pending serial kind b) (code : Status) (body : List Byte) :
    complete ⟨p, t, serial⟩ code body (handOver p s) = answered s p t code body := by
  have hslot' : ((handed s p).port p).slots.get t = .pending serial kind b := by
    rw [handed, State.setPort_port_same, hslot]
  rw [handOver_eq_handed, complete_of_pending code body hslot']
  rfl

/-- The hand-over and a change of the watch table are independent. -/
theorem handOver_setWatch (p : Port) (n : WatchNo) (x : Option Watch) (s : State) :
    (handOver p s).setWatch n x = handOver p (s.setWatch n x) := rfl

/-! ### The request -/

theorem parseReq_unwatch (number : Byte) : parseReq 0x21#8 [number] = some (.unwatch number) := rfl

theorem toWatchNo_eq {number : Byte} {n : WatchNo} (h : number.toNat = n.val) : toWatchNo number = n := by
  apply Fin.ext
  simp only [toWatchNo, h, Nat.mod_eq_of_lt n.isLt]

/-- In READY the number's range is the only check of an UNWATCH that can fail (08, R149). -/
theorem admission_unwatch {s : State} (hdev : s.dev = .ready) (p : Port) (number : Byte) :
    admission s p (.unwatch number) = if number.toNat ≤ 15 then none else some .range := by
  by_cases hrange : number.toNat ≤ 15 <;>
    simp [admission, kindAllowed, configOnly, handlePasses, rightPasses, frozenPasses, rangePasses, kindPasses,
      Req.kind, hdev, hrange]

/-! ### The Watch Unit's answer -/

theorem takeUnwatch_own {s : State} {tk : Ticket} {n : WatchNo} {w : Watch} (hw : s.watchAt n = some w)
    (hp : w.port = tk.port) : takeUnwatch tk n s = complete tk .ok [] (s.setWatch n none) := by
  simp only [takeUnwatch, hw, hp, if_true]

theorem takeUnwatch_not_own {s : State} {tk : Ticket} {n : WatchNo}
    (h : ∀ w, s.watchAt n = some w → w.port ≠ tk.port) : takeUnwatch tk n s = complete tk .notFound [] s := by
  cases hw : s.watchAt n with
  | none => simp only [takeUnwatch, hw]
  | some w => simp only [takeUnwatch, hw, if_neg (h w hw)]

/-! ### The command on a placed request -/

section Command

variable {s : State} {p : Port} {t : Tag} {serial : Nat} {number : Byte}

/-- The command judges the port's oldest placed request in the event that hands it over (08, R141). -/
theorem exec_unwatch_of_placed (hpl : Placed s p t serial 0x21#8 [number]) :
    exec (.unwatch p) s = .next (serve p ⟨p, t, serial⟩ (.unwatch number)
      (takeUnwatch ⟨p, t, serial⟩ (toWatchNo number)) (handOver p s)) := by
  obtain ⟨hhead, hslot⟩ := hpl
  have harm : exec (.unwatch p) s = execUnwatch p s := rfl
  rw [harm, execUnwatch, State.oldestRequest_eq hhead hslot (parseReq_unwatch number)]

theorem exec_unwatch_out_of_range (hpl : Placed s p t serial 0x21#8 [number]) (hdev : s.dev = .ready)
    (hrange : 15 < number.toNat) : exec (.unwatch p) s = .next (answered s p t .range []) := by
  have hadm : admission (handOver p s) p (.unwatch number) = some .range := by
    rw [admission_handOver, admission_unwatch hdev, if_neg (by omega)]
  rw [exec_unwatch_of_placed hpl, serve_refused hadm, complete_handOver_eq_answered hpl.2]

/-- A number in range takes the request to the Watch Unit, at the entry it names. -/
theorem exec_unwatch_in_range (hpl : Placed s p t serial 0x21#8 [number]) (hdev : s.dev = .ready) {n : WatchNo}
    (hn : number.toNat = n.val) :
    exec (.unwatch p) s = .next (takeUnwatch ⟨p, t, serial⟩ n (handOver p s)) := by
  have hadm : admission (handOver p s) p (.unwatch number) = none := by
    rw [admission_handOver, admission_unwatch hdev, if_pos (by omega)]
  rw [exec_unwatch_of_placed hpl, serve_taken hadm, toWatchNo_eq hn]

end Command

/-! ### The statement -/

/-- Settles O28: a number above 15 fails admission, and one in range is answered by the Watch Unit for an entry of the
port or for any other. -/
theorem unwatchEmptiesOwnEntry : Obligations.UnwatchEmptiesOwnEntry := by
  unfold Obligations.UnwatchEmptiesOwnEntry
  rintro s p t number ⟨serial, hpl⟩ hdev
  have hslot : (s.port p).slots.get t = .pending serial 0x21#8 [number] := hpl.2
  refine ⟨exec_unwatch_out_of_range hpl hdev, fun n hn => ⟨fun w hw hp => ?own, fun hother => ?other⟩⟩
  case own =>
    rw [exec_unwatch_in_range hpl hdev hn, takeUnwatch_own (s := handOver p s) hw hp, handOver_setWatch,
      complete_handOver_eq_answered (s := s.setWatch n none) hslot]
  case other =>
    rw [exec_unwatch_in_range hpl hdev hn, takeUnwatch_not_own (s := handOver p s) (tk := ⟨p, t, serial⟩) hother,
      complete_handOver_eq_answered hslot]

end Sys2Proof.Machine
end

