-- ==== Sys2Proof/Proofs/Attention.lean ====
section
/-! PROOF. The ATTN outputs (07, R134): the two conditions that drive one low, the DONE count as a matching completion
FIFO gives it, and what the READY notice at the end of the scan (09, R163) makes of them. -/

namespace Sys2Proof.Machine

open Sys2Proof.Safety

/-! ### The two conditions of an output -/

theorem State.attnLow_iff (s : State) (p : Port) :
    s.attnLow p = true ↔
      s.active = true ∧
        ((0 < (s.port p).doneCount ∧ (s.port p).maskResponses = true)
          ∨ ((s.port p).notices ≠ [] ∧ (s.port p).maskNotices = true)) := by
  simp only [State.attnLow, Bool.and_eq_true, Bool.or_eq_true, decide_eq_true_eq, Bool.not_eq_true',
    List.isEmpty_eq_false_iff]

theorem isDone_iff (x : Slot) : isDone x = true ↔ ∃ r, x = .done r := by
  cases x <;> simp [isDone]

/-- The DONE count of a matching FIFO is above 0 exactly while some slot holds a response (07, R129). -/
theorem doneCount_pos_iff {x : PortState} (h : FifoMatches x) :
    0 < x.doneCount ↔ ∃ t r, x.slots.get t = .done r := by
  obtain ⟨-, hmem⟩ := h
  calc 0 < x.doneCount
    _ ↔ ∃ t, t ∈ x.fifo := List.length_pos_iff_exists_mem
    _ ↔ ∃ t r, x.slots.get t = .done r := by simp only [hmem, isDone_iff]

/-! ### A notice to every port -/

/-- A posted notice joins the queue or finds it full, so that it never leaves the queue empty. -/
theorem PortState.post_notices_ne_nil (x : PortState) (n : Notice) : (x.post n).notices ≠ [] := by
  unfold PortState.post
  split
  case isTrue => exact List.append_ne_nil_of_right_ne_nil _ (List.cons_ne_nil n [])
  case isFalse hfull => exact List.length_pos_iff.mp (show 0 < x.notices.length by omega)

@[simp] theorem PortState.post_maskNotices (x : PortState) (n : Notice) :
    (x.post n).maskNotices = x.maskNotices := by
  rw [PortState.post_frame]

@[simp] theorem postAll_active (n : Notice) (s : State) : (postAll n s).active = s.active := rfl

theorem attnLow_postAll {s : State} {p : Port} (n : Notice) (hact : s.active = true)
    (hmask : (s.port p).maskNotices = true) : (postAll n s).attnLow p = true := by
  refine (State.attnLow_iff _ p).mpr ⟨hact, .inr ?_⟩
  rw [postAll_port, PortState.post_maskNotices]
  exact ⟨PortState.post_notices_ne_nil _ n, hmask⟩

/-! ### The end of the scan -/

/-- Whatever the scan finds, its end posts a READY notice to every port of a state with the power, the level of
RESETn and the ports as they were (09, R163). -/
theorem exec_scanEnd_posts {s t : State} (hact : s.active = true) (hdev : s.dev = .starting)
    (h : exec .scanEnd s = .next t) :
    ∃ (d : DevState) (u : State), t = postAll (.ready d) u ∧ u.active = s.active ∧ u.ports = s.ports := by
  have harm : exec .scanEnd s = execScanEnd s := rfl
  rw [harm, execScanEnd, if_pos ⟨hact, hdev⟩] at h
  cases hdir : chooseDirectory s.store <;> rw [hdir] at h <;> cases h
  case region => exact ⟨.ready, _, rfl, rfl, rfl⟩
  case nothing => exact ⟨.ready, _, rfl, rfl, rfl⟩
  case damaged => exact ⟨.damaged, _, rfl, rfl, rfl⟩

/-! ### The statement -/

/-- Settles O15: the output's two conditions with the DONE count of a matching FIFO, and the READY notice that the end
of the scan leaves in every port's queue. -/
theorem attentionFollowsTheQueues : Obligations.AttentionFollowsTheQueues := by
  unfold Obligations.AttentionFollowsTheQueues
  refine ⟨fun s p hfifo => ?conditions, fun s t p hact hdev hexec hmask => ?scan⟩
  case conditions => rw [State.attnLow_iff, doneCount_pos_iff hfifo]
  case scan =>
    obtain ⟨d, u, rfl, hactive, hports⟩ := exec_scanEnd_posts hact hdev hexec
    have hport : u.port p = s.port p := congrArg (PerPort.get · p) hports
    exact attnLow_postAll (.ready d) (hactive.trans hact) (hport ▸ hmask)

end Sys2Proof.Machine
end

/-! PROOF. What the shared operations leave: a relation for everything that completions, notices, grants, wait queues,
watches and timers can do to the state, so that each rule of the whole machine is read off once. -/

namespace Sys2Proof.Machine

open Sys2Proof.Safety
-- With this option the proofs are elaborated one after another: all at once they exhaust the threads of the check.
set_option deprecated.oldSectionVars true

/-! ### The two invariants of a port, under each update of a port -/

/-- The completion FIFO and the notice queue of a port are as every step keeps them (07, R129; 06, R116 to R118). -/
def PortSound (x : PortState) : Prop := FifoMatches x ∧ NoticesBounded x

theorem portSound_start : PortSound PortState.start := by
  refine ⟨⟨List.nodup_nil, fun t => ?_⟩, Nat.zero_le 8, fun h => absurd rfl h⟩
  simp [PortState.start, isDone]

/-- What a port's FIFO and notices do not look at may change. -/
theorem PortSound.of_eq {x y : PortState} (hx : PortSound x) (hs : y.slots = x.slots) (hf : y.fifo = x.fifo)
    (hn : y.notices = x.notices) (hl : y.lost = x.lost) : PortSound y := by
  obtain ⟨hfifo, hnotices⟩ := hx
  unfold FifoMatches at hfifo
  unfold NoticesBounded at hnotices
  rw [← hs, ← hf] at hfifo
  rw [← hn, ← hl] at hnotices
  exact ⟨hfifo, hnotices⟩

/-- A request that is not DONE is answered: its tag joins the FIFO. -/
theorem PortSound.answer {x : PortState} (hx : PortSound x) {t : Tag} (ht : isDone (x.slots.get t) = false)
    (r : Response) :
    PortSound { x with slots := x.slots.set t.val (.done r) t.isLt, fifo := x.fifo ++ [t] } := by
  obtain ⟨⟨hnodup, hmem⟩, hn⟩ := hx
  have hnot : t ∉ x.fifo := fun h => by simp [(hmem t).mp h] at ht
  refine ⟨⟨?_, fun u => ?_⟩, hn⟩
  · exact List.nodup_append.mpr ⟨hnodup, by simp, fun a ha b hb => by
      rw [List.mem_singleton.mp hb]; rintro rfl; exact hnot ha⟩
  · simp only [List.mem_append, List.mem_singleton, vector_get_set]
    by_cases hu : t = u
    · simp [hu, isDone]
    · simp [hu, Ne.symm hu, hmem u]

theorem PortSound.post {x : PortState} (hx : PortSound x) (n : Notice) : PortSound (x.post n) := by
  obtain ⟨hf, hlen, hfull⟩ := hx
  unfold PortState.post
  split
  case isTrue hlt =>
    refine ⟨hf, ?_, fun hl => absurd (hfull hl) (by omega)⟩
    simp only [List.length_append, List.length_singleton]
    omega
  case isFalse hge => exact ⟨hf, hlen, fun _ => show x.notices.length = 8 by omega⟩

/-- A notice leaves the head of the queue; a LOST notice takes the place it leaves in a full one. -/
theorem PortSound.removeNotice {x : PortState} (hx : PortSound x) : PortSound x.removeNotice := by
  obtain ⟨hf, hlen, hfull⟩ := hx
  unfold PortState.removeNotice
  split
  case isTrue h0 =>
    refine ⟨hf, ?_, fun hl => absurd h0 hl⟩
    simp only [List.length_drop]
    omega
  case isFalse h0 =>
    refine ⟨hf, ?_, fun hl => absurd rfl hl⟩
    have := hfull h0
    simp only [List.length_append, List.length_drop, List.length_singleton]
    omega

/-- The response at the head of the FIFO leaves it, and its slot becomes FREE. -/
theorem PortSound.removeHead {x : PortState} (hx : PortSound x) {t : Tag} {rest : List Tag} (hfifo : x.fifo = t :: rest) :
    PortSound { x with slots := x.slots.set t.val .free t.isLt, fifo := x.fifo.drop 1 } := by
  obtain ⟨⟨hnodup, hmem⟩, hn⟩ := hx
  rw [hfifo] at hnodup hmem
  obtain ⟨hnot, hrest⟩ := List.nodup_cons.mp hnodup
  refine ⟨⟨by rw [hfifo]; exact hrest, fun u => ?_⟩, hn⟩
  have hu := hmem u
  simp only [hfifo, List.drop_succ_cons, List.drop_zero, vector_get_set]
  by_cases h : t = u
  · subst h
    simp [isDone, hnot]
  · simpa [h, Ne.symm h] using hu

/-- A request is placed in a slot: the slot's tag leaves the FIFO. -/
theorem PortSound.place {x : PortState} (hx : PortSound x) (t : Tag) (serial : Nat) (kind : Byte) (body : List Byte)
    (order : List Tag) :
    PortSound { x with
      slots := x.slots.set t.val (.pending serial kind body) t.isLt
      fifo := x.fifo.filter fun u => u != t
      handOrder := order } := by
  obtain ⟨⟨hnodup, hmem⟩, hn⟩ := hx
  refine ⟨⟨hnodup.filter _, fun u => ?_⟩, hn⟩
  simp only [List.mem_filter, vector_get_set, bne_iff_ne, ne_eq]
  by_cases h : t = u
  · subst h
    simp [isDone]
  · simp [h, Ne.symm h, hmem u]

/-- A port that is reset keeps its own request's slot alone. -/
theorem PortSound.reset (x : PortState) {t : Tag} (ht : isDone (x.slots.get t) = false) : PortSound (x.reset t) := by
  obtain ⟨-, hn⟩ := portSound_start
  refine ⟨⟨List.nodup_nil, fun u => ?_⟩, hn⟩
  simp only [PortState.reset, PortState.start, vector_get_set]
  by_cases h : t = u
  · subst h
    simp [ht]
  · simp [h, isDone]

/-! ### What leaves the device, the store and the ports' queues as they should be -/

/-- The part of the state that no shared operation changes: what the board and the store hold. -/
def State.standing (s : State) : State :=
  { State.reset with
    pending := s.pending, supply := s.supply, resetLow := s.resetLow, straps := s.straps, dev := s.dev
    store := s.store, freeIndex := s.freeIndex }

/-- `t` differs from `s` neither in what the board and the store hold nor in the soundness of a port. -/
abbrev Keeps (s t : State) : Prop :=
  t.standing = s.standing ∧ ∀ p, PortSound (s.port p) → PortSound (t.port p)

namespace Keeps

variable {s t u : State}

theorem standing (h : Keeps s t) : t.standing = s.standing := h.1
theorem ports (h : Keeps s t) : ∀ p, PortSound (s.port p) → PortSound (t.port p) := h.2

theorem refl (s : State) : Keeps s s := ⟨rfl, fun _ h => h⟩

theorem trans (h : Keeps s t) (k : Keeps t u) : Keeps s u :=
  ⟨k.standing.trans h.standing, fun p hp => k.ports p (h.ports p hp)⟩

theorem store (h : Keeps s t) : t.store = s.store := (congrArg State.store h.standing :)
theorem dev (h : Keeps s t) : t.dev = s.dev := (congrArg State.dev h.standing :)
theorem straps (h : Keeps s t) : t.straps = s.straps := (congrArg State.straps h.standing :)

theorem foldl {α : Type} {f : State → α → State} (hf : ∀ s a, Keeps s (f s a)) (l : List α) (s : State) :
    Keeps s (l.foldl f s) := by
  induction l generalizing s with
  | nil => exact refl s
  | cons a l ih => exact (hf s a).trans (ih _)

/-- An update that leaves the ports leaves their soundness. -/
theorem of_ports (hs : t.standing = s.standing) (hp : t.ports = s.ports) : Keeps s t :=
  ⟨hs, fun p h => by
    have : t.port p = s.port p := congrArg (PerPort.get · p) hp
    rwa [this]⟩

end Keeps

theorem keeps_setPort {s : State} {p : Port} {x : PortState} (hx : PortSound (s.port p) → PortSound x) :
    Keeps s (s.setPort p x) := by
  refine ⟨rfl, fun q hq => ?_⟩
  rw [State.setPort_port]
  split
  case isTrue h => exact hx (h ▸ hq)
  case isFalse => exact hq

/-! ### What leaves the directory as well -/

/-- The part of the state that neither leases, wait queues, watches nor completions change: what the Directory, the
Store Array and a factory clear hold. -/
def State.settled (s : State) : State :=
  { State.reset with
    clear := s.clear, activeDir := s.activeDir, dirGen := s.dirGen, dirSlot := s.dirSlot, pageMap := s.pageMap }

/-- `t` comes from `s` by what completions, notices, grants, wait queues, watches and timers can do: of a record they
change its waiters alone, and of the commit queue its record jobs alone. -/
abbrev Acts (s t : State) : Prop :=
  Keeps s t ∧ t.settled = s.settled
    ∧ (∀ h, { t.record h with waiters := (s.record h).waiters } = s.record h)
    ∧ t.queue.filter Job.isDirectory = s.queue.filter Job.isDirectory

namespace Acts

variable {s t u : State}

theorem toKeeps (h : Acts s t) : Keeps s t := h.1
theorem settled (h : Acts s t) : t.settled = s.settled := h.2.1
theorem record (h : Acts s t) (k : Handle) : { t.record k with waiters := (s.record k).waiters } = s.record k := h.2.2.1 k
theorem jobs (h : Acts s t) : t.queue.filter Job.isDirectory = s.queue.filter Job.isDirectory := h.2.2.2
theorem ports (h : Acts s t) : ∀ p, PortSound (s.port p) → PortSound (t.port p) := h.toKeeps.ports

theorem refl (s : State) : Acts s s := ⟨.refl s, rfl, fun _ => rfl, rfl⟩

theorem trans (h : Acts s t) (k : Acts t u) : Acts s u := by
  refine ⟨h.toKeeps.trans k.toKeeps, k.settled.trans h.settled, fun i => ?_, k.jobs.trans h.jobs⟩
  have h1 := h.record i
  rw [← k.record i] at h1
  exact h1

theorem foldl {α : Type} {f : State → α → State} (hf : ∀ s a, Acts s (f s a)) (l : List α) (s : State) :
    Acts s (l.foldl f s) := by
  induction l generalizing s with
  | nil => exact refl s
  | cons a l ih => exact (hf s a).trans (ih _)

theorem clear (h : Acts s t) : t.clear = s.clear := (congrArg State.clear h.settled :)
theorem activeDir (h : Acts s t) : t.activeDir = s.activeDir := (congrArg State.activeDir h.settled :)
theorem dirGen (h : Acts s t) : t.dirGen = s.dirGen := (congrArg State.dirGen h.settled :)
theorem dirSlot (h : Acts s t) : t.dirSlot = s.dirSlot := (congrArg State.dirSlot h.settled :)
theorem pageMap (h : Acts s t) : t.pageMap = s.pageMap := (congrArg State.pageMap h.settled :)

/-- Of a record the waiters alone may differ. -/
theorem record_eq (h : Acts s t) (k : Handle) : t.record k = { s.record k with waiters := (t.record k).waiters } := by
  conv_rhs => rw [← h.record k]

theorem entry (h : Acts s t) (k : Handle) : (t.record k).entry = (s.record k).entry := by rw [h.record_eq]
theorem active (h : Acts s t) (k : Handle) : (t.record k).active = (s.record k).active := by rw [h.record_eq]
theorem gen (h : Acts s t) (k : Handle) : (t.record k).gen = (s.record k).gen := by rw [h.record_eq]
theorem freezePending (h : Acts s t) (k : Handle) : (t.record k).freezePending = (s.record k).freezePending := by
  rw [h.record_eq]
theorem retirePending (h : Acts s t) (k : Handle) : (t.record k).retirePending = (s.record k).retirePending := by
  rw [h.record_eq]

/-- An update of the lease table, the buffers, the allocation queue, the engine and the watches alone. -/
theorem of_eq (hst : t.standing = s.standing) (hse : t.settled = s.settled) (hp : t.ports = s.ports)
    (hr : t.records = s.records) (hq : t.queue = s.queue) : Acts s t := by
  refine ⟨.of_ports hst hp, hse, fun h => ?_, by rw [hq]⟩
  have : t.record h = s.record h := congrArg (Vector.get · h) hr
  rw [this]

end Acts

/-! ### The single operations -/

theorem acts_setPort {s : State} {p : Port} {x : PortState} (hx : PortSound (s.port p) → PortSound x) :
    Acts s (s.setPort p x) :=
  ⟨keeps_setPort hx, rfl, fun _ => rfl, rfl⟩

theorem acts_complete (tk : Ticket) (code : Status) (body : List Byte) (s : State) :
    Acts s (complete tk code body s) := by
  obtain ⟨kind, b, hslot, h⟩ | ⟨-, h⟩ := complete_cases tk code body s
  · rw [h]
    exact acts_setPort fun hx => hx.answer (by rw [hslot]; rfl) _
  · rw [h]
    exact .refl s

theorem acts_completeIf (tk : Option Ticket) (code : Status) (body : List Byte) (s : State) :
    Acts s (completeIf tk code body s) := by
  cases tk with
  | none => exact .refl s
  | some tk => exact acts_complete tk code body s

theorem acts_postNotice (p : Port) (n : Notice) (s : State) : Acts s (postNotice p n s) :=
  acts_setPort fun hx => hx.post n

theorem acts_postAll (n : Notice) (s : State) : Acts s (postAll n s) :=
  ((acts_postNotice .p0 n s).trans (acts_postNotice .p1 n _)).trans (acts_postNotice .p2 n _)

theorem acts_handOver (p : Port) (s : State) : Acts s (handOver p s) :=
  acts_setPort fun hx => hx.of_eq rfl rfl rfl rfl

theorem acts_setLease (e : EntryNo) (x : LeaseEntry) (s : State) : Acts s (s.setLease e x) := .of_eq rfl rfl rfl rfl rfl
theorem acts_setBuffer (e : EntryNo) (x : Buffer) (s : State) : Acts s (s.setBuffer e x) := .of_eq rfl rfl rfl rfl rfl
theorem acts_setWatch (n : WatchNo) (x : Option Watch) (s : State) : Acts s (s.setWatch n x) :=
  .of_eq rfl rfl rfl rfl rfl
theorem acts_allocQueue (hs : List Handle) (s : State) : Acts s { s with allocQueue := hs } := .of_eq rfl rfl rfl rfl rfl
theorem acts_engine (x : Engine) (s : State) : Acts s { s with engine := x } := .of_eq rfl rfl rfl rfl rfl
theorem acts_removeWatches (drop : Watch → Bool) (s : State) : Acts s (removeWatches drop s) := .of_eq rfl rfl rfl rfl rfl
theorem acts_freeLease (e : EntryNo) (s : State) : Acts s (freeLease e s) := .of_eq rfl rfl rfl rfl rfl
theorem acts_grantLease (e : EntryNo) (h : Handle) (l : Lease) (b : Buffer) (s : State) :
    Acts s (grantLease e h l b s) := .of_eq rfl rfl rfl rfl rfl

theorem acts_setWaiters (h : Handle) (ws : List Waiter) (s : State) : Acts s (s.setWaiters h ws) := by
  refine ⟨.of_ports rfl rfl, rfl, fun k => ?_, rfl⟩
  rw [State.setWaiters_record]
  split
  case isTrue hk => rw [hk]
  case isFalse => rfl

theorem acts_startNext (s : State) : Acts s (startNext s) := by
  rw [startNext_eq]
  exact acts_engine _ s

theorem acts_handRecordJob (e : EntryNo) (h : Handle) (c : Copy) (first pages : Nat) (gen : Word32) (s : State) :
    Acts s (handJob (.record e h c first pages gen) s) := by
  rw [handJob_eq]
  exact ⟨.of_ports rfl rfl, rfl, fun _ => rfl, by simp [Job.isDirectory]⟩

theorem isDirectory_of_isRecordOf {e : EntryNo} {j : Job} (h : Job.isRecordOf e j = true) : Job.isDirectory j = false := by
  cases j with
  | record => rfl
  | directory => simp [Job.isRecordOf] at h

theorem filter_isDirectory_of_dropped {drop : Job → Bool} (hd : ∀ j, drop j = true → Job.isDirectory j = false)
    (q : List Job) : (q.filter fun j => !drop j).filter Job.isDirectory = q.filter Job.isDirectory := by
  rw [List.filter_filter]
  refine List.filter_congr fun j _ => ?_
  have := hd j
  cases hj : Job.isDirectory j <;> cases hk : drop j <;> simp_all

theorem acts_removeUnstarted (e : EntryNo) (s : State) : Acts s (removeUnstarted (Job.isRecordOf e) s) := by
  refine ⟨.of_ports rfl rfl, rfl, fun _ => rfl, ?_⟩
  simp only [removeUnstarted, List.filter_append]
  rw [filter_isDirectory_of_dropped fun j => isDirectory_of_isRecordOf]
  rw [← List.filter_append, List.take_append_drop]

/-! ### Grants -/

theorem acts_grantExplicit (e : EntryNo) (h : Handle) (tk : Ticket) (s : State) : Acts s (grantExplicit e h tk s) :=
  (acts_grantLease e h _ _ s).trans (acts_complete _ _ _ _)

theorem acts_grantImplicit (e : EntryNo) (h : Handle) (tk : Ticket) (delta : Word32) (s : State) :
    Acts s (grantImplicit e h tk delta s) :=
  (acts_grantLease e h _ _ s).trans (acts_handRecordJob _ _ _ _ _ _ _)

theorem acts_grantFromQueue (e : EntryNo) (h : Handle) (ws : List Waiter) (s : State) :
    Acts s (grantFromQueue e h ws s).1 := by
  induction ws generalizing s with
  | nil => exact acts_setWaiters h [] s
  | cons w ws ih =>
    unfold grantFromQueue
    cases w.type with
    | acquire left => exact (acts_setWaiters h ws s).trans (acts_grantExplicit _ _ _ _)
    | add delta =>
      simp only
      split
      · exact (acts_complete _ _ _ s).trans (ih _)
      · exact (acts_setWaiters h ws s).trans (acts_grantImplicit _ _ _ _ _)

theorem acts_grantFromAlloc (e : EntryNo) (hs : List Handle) (s : State) : Acts s (grantFromAlloc e hs s).1 := by
  induction hs generalizing s with
  | nil => exact acts_allocQueue [] s
  | cons h hs ih =>
    have hq := acts_grantFromQueue e h (s.record h).waiters s
    unfold grantFromAlloc
    generalize grantFromQueue e h (s.record h).waiters s = r at hq ⊢
    obtain ⟨s1, b⟩ := r
    cases b with
    | true => exact hq.trans (acts_allocQueue hs s1)
    | false => exact hq.trans (ih s1)

theorem acts_grantOnward (e : EntryNo) (h : Handle) (s : State) : Acts s (grantOnward e h s) := by
  have ha := acts_grantFromAlloc e s.allocQueue s
  unfold grantOnward
  generalize grantFromAlloc e s.allocQueue s = r at ha ⊢
  obtain ⟨s1, b⟩ := r
  cases b with
  | true =>
    simp only
    split
    · exact ha.trans (acts_allocQueue _ s1)
    · exact ha
  | false =>
    simp only
    split
    · exact ha
    · exact ha.trans (acts_grantFromQueue _ _ _ _)

/-! ### Wait queues, watches and timers -/

theorem acts_leaveAllocIfEmpty (h : Handle) (s : State) : Acts s (leaveAllocIfEmpty h s) := by
  unfold leaveAllocIfEmpty
  split
  · exact acts_allocQueue _ s
  · exact .refl s

theorem acts_joinWaiters (h : Handle) (w : Waiter) (s : State) : Acts s (joinWaiters h w s) := by
  rw [joinWaiters_eq]
  exact (acts_setWaiters h _ s).trans (acts_allocQueue _ _)

theorem acts_dropWaiter (h : Handle) (p : Port) (t : Tag) (s : State) : Acts s (dropWaiter h p t s) :=
  (acts_setWaiters h _ s).trans (acts_leaveAllocIfEmpty h _)

theorem acts_answerAll (code : Status) (ws : List Waiter) (s : State) : Acts s (answerAll code ws s) :=
  by
  unfold answerAll
  exact Acts.foldl (fun s w => acts_complete w.ticket code [] s) ws s

theorem acts_evaluateWatch (c : CommitReport) (s : State) (n : WatchNo) : Acts s (evaluateWatch c s n) := by
  unfold evaluateWatch
  cases s.watchAt n with
  | none => exact .refl s
  | some w =>
    simp only
    cases watchNotice c n w with
    | none => exact .refl s
    | some x => exact acts_postNotice w.port x s

theorem acts_evaluateWatches (c : CommitReport) (s : State) : Acts s (evaluateWatches c s) :=
  Acts.foldl (acts_evaluateWatch c) allWatches s

theorem acts_postIf (c : Bool) (p : Port) (n : Notice) (s : State) : Acts s (postIf c p n s) := by
  unfold postIf
  split
  · exact acts_postNotice p n s
  · exact .refl s

theorem acts_retireWatches (h : Handle) (s : State) : Acts s (retireWatches h s) :=
  (((acts_removeWatches _ s).trans (acts_postIf _ .p0 _ _)).trans (acts_postIf _ .p1 _ _)).trans (acts_postIf _ .p2 _ _)

theorem removePortWaiters_record (p : Port) (s : State) (h : Handle) :
    (removePortWaiters p s).record h =
      { s.record h with waiters := (s.record h).waiters.filter fun w => w.ticket.port != p } := by
  simp [removePortWaiters, State.record]

theorem acts_removePortWaiters (p : Port) (s : State) : Acts s (removePortWaiters p s) :=
  ⟨.of_ports rfl rfl, rfl, fun h => by rw [removePortWaiters_record], rfl⟩

theorem acts_resetEntry (p : Port) (s : State) (e : EntryNo) : Acts s (resetEntry p s e) := by
  unfold resetEntry
  cases (s.lease e).lease with
  | none => exact .refl s
  | some l =>
    simp only
    split
    · cases l.phase with
      | held => exact (acts_freeLease e s).trans (acts_grantOnward _ _ _)
      | committing =>
        simp only
        split
        · exact ((acts_removeUnstarted e s).trans (acts_freeLease e _)).trans (acts_grantOnward _ _ _)
        · exact .refl s
    · exact .refl s

theorem acts_resetEntries (p : Port) (s : State) : Acts s (resetEntries p s) :=
  Acts.foldl (acts_resetEntry p) allEntries s

theorem acts_clearWaiters (s : State) (h : Handle) : Acts s (clearWaiters s h) :=
  (acts_setWaiters h [] s).trans (acts_answerAll _ _ _)

theorem acts_clearAllWaiters (s : State) : Acts s (clearAllWaiters s) :=
  (Acts.foldl acts_clearWaiters allHandles s).trans (acts_allocQueue [] _)

theorem acts_revokeEntry (s : State) (e : EntryNo) : Acts s (revokeEntry s e) := by
  unfold revokeEntry
  cases (s.lease e).lease with
  | none => exact .refl s
  | some l =>
    simp only
    cases l.phase with
    | held => exact (acts_freeLease e s).trans (acts_postNotice _ _ _)
    | committing => exact .refl s

theorem acts_endLease (e : EntryNo) (l : Lease) (answer : Status × List Byte) (s : State) :
    Acts s (endLease e l answer s) :=
  ((acts_freeLease e s).trans (acts_completeIf _ _ _ _)).trans (acts_grantOnward _ _ _)

theorem acts_recordFault (e : EntryNo) (s : State) : Acts s (recordFault e s) := by
  unfold recordFault
  cases (s.lease e).lease with
  | none => exact .refl s
  | some l => exact acts_endLease e l _ s

theorem acts_postFault (j : Job) (failing : Nat) (s : State) : Acts s (postFault j failing s) := by
  unfold postFault
  cases s.configPort with
  | none => exact .refl s
  | some p => exact acts_postNotice p _ s

theorem acts_freezeReturn (j : DirJob) (s : State) : Acts s (freezeReturn j s) := by
  unfold freezeReturn
  cases j.op with
  | freeze =>
    simp only
    split
    · exact .refl s
    · cases s.lowestFree with
      | none => exact acts_allocQueue _ s
      | some e => exact acts_grantFromQueue _ _ _ _
  | define x => exact .refl s
  | retire => exact .refl s
  | setRights r => exact .refl s

theorem acts_tick (s : State) : Acts s (tick s) :=
  ⟨.of_ports rfl rfl, rfl, fun h => by rw [tick_record], rfl⟩

theorem acts_writeBuffer (e : EntryNo) (l : Lease) (offset : Nat) (data : List Byte) (s : State) :
    Acts s (writeBuffer e l offset data s) := (acts_setLease e _ s).trans (acts_setBuffer e _ _)

theorem acts_beginCommit (tk : Ticket) (e : EntryNo) (l : Lease) (s : State) : Acts s (beginCommit tk e l s) :=
  (acts_setLease e _ s).trans (acts_handRecordJob _ _ _ _ _ _ _)

/-! ### Admission and the token check -/

/-- A request that is judged is completed at once, or its owner acts. -/
theorem acts_serve {p : Port} {tk : Ticket} {r : Req} {owner : State → State} (s : State)
    (ho : ∀ s, Acts s (owner s)) : Acts s (serve p tk r owner s) := by
  unfold serve
  cases admission s p r with
  | none => exact ho s
  | some code => exact acts_complete tk code [] s

theorem acts_withLease {p : Port} {tk : Ticket} {t : Token} {act : EntryNo → Lease → State → State} (s : State)
    (ha : ∀ e l s, Acts s (act e l s)) : Acts s (withLease p tk t act s) := by
  unfold withLease
  cases s.liveLease p t with
  | none => exact acts_complete _ _ _ s
  | some x => exact ha x.1 x.2 s

theorem acts_withLeaseOn {p : Port} {tk : Ticket} {t : Token} {h : Handle} {act : EntryNo → Lease → State → State}
    (s : State) (ha : ∀ e l s, Acts s (act e l s)) : Acts s (withLeaseOn p tk t h act s) := by
  unfold withLeaseOn
  cases s.liveLease p t with
  | none => exact acts_complete _ _ _ s
  | some x =>
    simp only
    split
    · exact ha x.1 x.2 s
    · exact acts_complete _ _ _ s

end Sys2Proof.Machine

/-! PROOF. What each command leaves: the requests, transactions and expiries are made of shared operations alone, and
the others of these and of their own updates. -/

namespace Sys2Proof.Machine

open Sys2Proof.Safety
set_option deprecated.oldSectionVars true

/-! ### The owners of the requests -/

theorem acts_takeWatch (tk : Ticket) (w : Watch) (s : State) : Acts s (takeWatch tk w s) := by
  unfold takeWatch
  split
  · exact acts_complete _ _ _ s
  · cases s.emptyWatch with
    | none => exact acts_complete _ _ _ s
    | some n => exact (acts_setWatch n _ s).trans (acts_complete _ _ _ _)

theorem acts_takeUnwatch (tk : Ticket) (n : WatchNo) (s : State) : Acts s (takeUnwatch tk n s) := by
  unfold takeUnwatch
  cases s.watchAt n with
  | none => exact acts_complete _ _ _ s
  | some w =>
    simp only
    split
    · exact (acts_setWatch n _ s).trans (acts_complete _ _ _ _)
    · exact acts_complete _ _ _ s

theorem acts_takeMask (tk : Ticket) (mask : Byte) (s : State) : Acts s (takeMask tk mask s) :=
  (acts_setPort (x := { s.port tk.port with maskResponses := mask.getLsbD 0, maskNotices := mask.getLsbD 1 })
    fun hx => hx.of_eq rfl rfl rfl rfl).trans (acts_complete _ _ _ _)

theorem acts_takeAcquire (tk : Ticket) (h : Handle) (limit : Byte) (s : State) : Acts s (takeAcquire tk h limit s) := by
  unfold takeAcquire
  split
  · exact acts_complete _ _ _ s
  split
  · exact acts_complete _ _ _ s
  split
  · exact acts_complete _ _ _ s
  · cases s.entryAtOnce h with
    | none =>
      simp only
      split
      · exact acts_complete _ _ _ s
      · exact acts_joinWaiters _ _ s
    | some e => exact acts_grantExplicit _ _ _ s

theorem acts_takeFreeAdd (tk : Ticket) (h : Handle) (delta : Word32) (s : State) : Acts s (takeFreeAdd tk h delta s) := by
  unfold takeFreeAdd
  split
  · exact acts_complete _ _ _ s
  split
  · exact acts_complete _ _ _ s
  split
  · exact acts_complete _ _ _ s
  · cases s.entryAtOnce h with
    | none => exact acts_joinWaiters _ _ s
    | some e =>
      simp only
      split
      · exact acts_complete _ _ _ s
      · exact acts_grantImplicit _ _ _ _ s

/-- An answer to the request that frees a lease comes before the grant. -/
theorem acts_freeAnswered (e : EntryNo) (h : Handle) (tk : Ticket) (code : Status) (body : List Byte) (s : State) :
    Acts s (grantOnward e h (complete tk code body (freeLease e s))) :=
  ((acts_freeLease e s).trans (acts_complete _ _ _ _)).trans (acts_grantOnward _ _ _)

theorem acts_takeCommit (tk : Ticket) (e : EntryNo) (l : Lease) (s : State) : Acts s (takeCommit tk e l s) := by
  unfold takeCommit
  cases l.phase with
  | committing => exact acts_complete _ _ _ s
  | held =>
    simp only
    split_ifs
    · exact acts_freeAnswered _ _ _ _ _ s
    · exact acts_freeAnswered _ _ _ _ _ s
    · exact acts_beginCommit _ _ _ s

theorem acts_takeRelease (tk : Ticket) (e : EntryNo) (l : Lease) (s : State) : Acts s (takeRelease tk e l s) := by
  unfold takeRelease
  cases l.phase with
  | committing => exact acts_complete _ _ _ s
  | held => exact acts_freeAnswered _ _ _ _ _ s

theorem acts_takeRenew (tk : Ticket) (e : EntryNo) (l : Lease) (s : State) : Acts s (takeRenew tk e l s) := by
  unfold takeRenew
  cases l.phase with
  | committing => exact acts_complete _ _ _ s
  | held =>
    simp only
    split
    · exact (acts_setLease e _ s).trans (acts_complete _ _ _ _)
    · exact acts_complete _ _ _ s

theorem acts_takeCancel (tk : Ticket) (target : Tag) (s : State) : Acts s (takeCancel tk target s) := by
  unfold takeCancel
  split
  · exact acts_complete _ _ _ s
  · cases s.findWaiter tk.port target with
    | none => exact acts_complete _ _ _ s
    | some x => exact ((acts_dropWaiter _ _ _ s).trans (acts_complete _ _ _ _)).trans (acts_complete _ _ _ _)

theorem acts_takeStage (tk : Ticket) (offset : Byte) (data : List Byte) (e : EntryNo) (l : Lease) (s : State) :
    Acts s (takeStage tk offset data e l s) := by
  unfold takeStage
  cases l.phase with
  | committing => exact acts_complete _ _ _ s
  | held =>
    simp only
    split
    · exact acts_complete _ _ _ s
    · exact (acts_writeBuffer e l _ _ s).trans (acts_complete _ _ _ _)

theorem acts_takeTokenAdd (tk : Ticket) (delta : Word32) (e : EntryNo) (l : Lease) (s : State) :
    Acts s (takeTokenAdd tk delta e l s) := by
  unfold takeTokenAdd
  cases l.phase with
  | committing => exact acts_complete _ _ _ s
  | held => exact (acts_writeBuffer e l _ _ s).trans (acts_complete _ _ _ _)

/-! ### Transactions -/

theorem acts_setBus (p : Port) (b : BusRecord) (s : State) : Acts s (setBus p b s) :=
  acts_setPort fun hx => hx.of_eq rfl rfl rfl rfl

theorem acts_driveInactive (p : Port) (s : State) : Acts s (driveInactive p s) := acts_setBus p _ s

theorem acts_driveItem (p : Port) (item : List Byte) (n : Nat) (s : State) : Acts s (driveItem p item n s) := by
  unfold driveItem
  split <;> exact acts_setBus p _ s

theorem acts_driveWritten (p : Port) (n : Nat) (s : State) : Acts s (driveWritten p n s) := by
  unfold driveWritten
  split <;> exact acts_setBus p _ s

theorem acts_setFrameError (p : Port) (s : State) : Acts s (setFrameError p s) :=
  acts_setPort fun hx => hx.of_eq rfl rfl rfl rfl

theorem acts_tagCheck (p : Port) (g : GoodFrame) (s : State) : Acts s (tagCheck p g s) := by
  unfold tagCheck
  split
  · unfold placeRequest
    refine Acts.trans (t := { s with serial := s.serial + 1 }) (.of_eq rfl rfl rfl rfl rfl) (acts_setPort fun hx => ?_)
    exact PortSound.place hx g.tag s.serial g.kind g.body _
  · exact acts_setPort fun hx => hx.of_eq rfl rfl rfl rfl

/-- What a transaction drives is a record of its own: the rest of the port is as before. -/
theorem driveItem_port (p : Port) (item : List Byte) (n : Nat) (s : State) :
    (driveItem p item n s).port p = { s.port p with bus := ((driveItem p item n s).port p).bus } := by
  unfold driveItem
  split <;> simp [setBus]

theorem PortState.headResponse_some {x : PortState} {t : Tag} {r : Response} (h : x.headResponse = some (t, r)) :
    ∃ rest, x.fifo = t :: rest ∧ x.slots.get t = .done r := by
  unfold PortState.headResponse at h
  cases hf : x.fifo with
  | nil => simp [hf] at h
  | cons u rest =>
    cases hs : x.slots.get u with
    | free => simp [hf, hs] at h
    | pending => simp [hf, hs] at h
    | done r' =>
      simp only [hf, hs, Option.some.injEq, Prod.mk.injEq] at h
      obtain ⟨rfl, rfl⟩ := h
      exact ⟨rest, rfl, hs⟩

theorem acts_removeResponse {p : Port} {t : Tag} {rest : List Tag} {s : State} (h : (s.port p).fifo = t :: rest) :
    Acts s (removeResponse p t s) :=
  acts_setPort fun hx => hx.removeHead h

theorem acts_clearFlags (p : Port) (s : State) : Acts s (clearFlags p s) :=
  acts_setPort fun hx => hx.of_eq rfl rfl rfl rfl

theorem exec_submit_acts (p : Port) (frame : List Byte) (s : State) :
    ∃ t, execSubmit p frame s = .next t ∧ Acts s t := by
  unfold execSubmit
  split
  · have hd := acts_driveWritten p frame.length s
    cases judgeFrame frame with
    | none => exact ⟨_, rfl, hd.trans (acts_setFrameError p _)⟩
    | some g => exact ⟨_, rfl, hd.trans (acts_tagCheck p g _)⟩
  · exact ⟨_, rfl, acts_driveInactive p s⟩

theorem exec_unknownCodeByte_acts (p : Port) (code : Byte) (extra : Nat) (s : State) :
    ∃ t, execUnknownCodeByte p code extra s = .next t ∧ Acts s t := by
  unfold execUnknownCodeByte
  split
  · split
    · exact ⟨_, rfl, .refl s⟩
    · refine ⟨_, rfl, Acts.trans ?_ (acts_setFrameError p _)⟩
      split <;> exact acts_setBus p _ s
  · exact ⟨_, rfl, acts_driveInactive p s⟩

theorem exec_fetchResponse_acts (p : Port) (n : Nat) (s : State) :
    ∃ t, execFetchResponse p n s = .next t ∧ Acts s t := by
  unfold execFetchResponse
  split
  · split
    · cases hr : (s.port p).headResponse with
      | none => exact ⟨_, rfl, acts_driveItem p _ n s⟩
      | some x =>
        obtain ⟨rest, hf, -⟩ := PortState.headResponse_some hr
        have hd := acts_driveItem p (responseFrame x.1 x.2) n s
        simp only
        split
        · refine ⟨_, rfl, hd.trans (acts_removeResponse (rest := rest) ?_)⟩
          rw [driveItem_port]
          exact hf
        · exact ⟨_, rfl, hd⟩
    · exact ⟨_, rfl, .refl s⟩
  · exact ⟨_, rfl, acts_driveInactive p s⟩

theorem exec_fetchNotice_acts (p : Port) (n : Nat) (s : State) :
    ∃ t, execFetchNotice p n s = .next t ∧ Acts s t := by
  unfold execFetchNotice
  split
  · split
    · cases (s.port p).notices with
      | nil => exact ⟨_, rfl, acts_driveItem p _ n s⟩
      | cons c rest =>
        have hd := acts_driveItem p (noticeFrame c) n s
        simp only
        split
        · exact ⟨_, rfl, hd.trans (acts_setPort PortSound.removeNotice)⟩
        · exact ⟨_, rfl, hd⟩
    · exact ⟨_, rfl, .refl s⟩
  · exact ⟨_, rfl, acts_driveInactive p s⟩

theorem exec_status_acts (p : Port) (n : Nat) (s : State) : ∃ t, execStatus p n s = .next t ∧ Acts s t := by
  unfold execStatus
  split
  · split
    · have hd := acts_driveItem p (s.statusBytes p) n s
      simp only
      split
      · exact ⟨_, rfl, hd.trans (acts_clearFlags p _)⟩
      · exact ⟨_, rfl, hd⟩
    · exact ⟨_, rfl, .refl s⟩
  · exact ⟨_, rfl, acts_driveInactive p s⟩

theorem exec_readSelection_acts (p : Port) (sel : Selection) (extra : Nat) (s : State) :
    ∃ t, execReadSelection p sel extra s = .next t ∧ Acts s t := by
  unfold execReadSelection
  split
  · split
    · have hd := (acts_driveWritten p extra s).trans
        (acts_setPort (x := { (driveWritten p extra s).port p with selection := sel })
          fun hx => hx.of_eq rfl rfl rfl rfl)
      simp only
      split
      · exact ⟨_, rfl, hd⟩
      · exact ⟨_, rfl, hd.trans (acts_setFrameError p _)⟩
    · exact ⟨_, rfl, .refl s⟩
  · exact ⟨_, rfl, acts_driveInactive p s⟩

/-! ### Expiries -/

theorem exec_holdExpiry_acts (e : EntryNo) (s : State) : ∃ t, execHoldExpiry e s = .next t ∧ Acts s t := by
  unfold execHoldExpiry
  cases (s.lease e).lease with
  | none => exact ⟨_, rfl, .refl s⟩
  | some l =>
    simp only
    split
    · exact ⟨_, rfl, ((acts_freeLease e s).trans (acts_postNotice _ _ _)).trans (acts_grantOnward _ _ _)⟩
    · exact ⟨_, rfl, .refl s⟩

theorem exec_waitExpiry_acts (p : Port) (t : Tag) (s : State) : ∃ u, execWaitExpiry p t s = .next u ∧ Acts s u := by
  unfold execWaitExpiry
  cases s.findWaiter p t with
  | none => exact ⟨_, rfl, .refl s⟩
  | some x =>
    simp only
    split
    · exact ⟨_, rfl, (acts_dropWaiter _ _ _ s).trans (acts_complete _ _ _ _)⟩
    · exact ⟨_, rfl, .refl s⟩

/-! ### The commands made of shared operations alone -/

/-- The commands that change neither the device, the store nor the directory: the transactions, the expiries and the
requests but those of the configuration port and PORT-RESET. -/
def isOrdinary : Instr → Bool
  | .powerUp _ | .powerLoss | .resetnAssert | .resetnRelease _ | .scanEnd | .bulkEraseEnd => false
  | .define _ | .retire _ | .setRights _ | .freeze _ | .portReset _ | .factoryClear _ => false
  | .pageMatch | .pageMismatch | .eraseEnd => false
  | _ => true

/-- A request command serves the oldest request when it is of its kind; otherwise nothing happens. -/
theorem acts_serveHanded {p : Port} {tk : Ticket} {r : Req} {owner : State → State} (s : State)
    (ho : ∀ s, Acts s (owner s)) :
    ∃ t, (Host.Outcome.next (serve p tk r owner (handOver p s)) : Host.Outcome State Fault Refusal) = .next t
      ∧ Acts s t :=
  ⟨_, rfl, (acts_handOver p s).trans (acts_serve _ ho)⟩

theorem exec_acts {c : Instr} (hc : isOrdinary c = true) (s : State) : ∃ t, exec c s = .next t ∧ Acts s t := by
  cases c with
  | powerUp | powerLoss | resetnAssert | resetnRelease | scanEnd | bulkEraseEnd => cases hc
  | define | retire | setRights | freeze | portReset | factoryClear => cases hc
  | pageMatch | pageMismatch | eraseEnd => cases hc
  | unknownCodeByte p code extra => exact exec_unknownCodeByte_acts p code extra s
  | submit p frame => exact exec_submit_acts p frame s
  | fetchResponse p n => exact exec_fetchResponse_acts p n s
  | fetchNotice p n => exact exec_fetchNotice_acts p n s
  | status p n => exact exec_status_acts p n s
  | readSelection p sel extra => exact exec_readSelection_acts p sel extra s
  | holdExpiry e => exact exec_holdExpiry_acts e s
  | waitExpiry p t => exact exec_waitExpiry_acts p t s
  | readCommitted p =>
    simp only [exec, execReadCommitted]
    split
    · split
      · exact acts_serveHanded s fun s => acts_complete _ _ _ s
      · exact ⟨s, rfl, .refl s⟩
    · exact ⟨s, rfl, .refl s⟩
  | readWithToken p =>
    simp only [exec, execReadWithToken]
    split
    · split
      · exact ⟨s, rfl, .refl s⟩
      · exact acts_serveHanded s fun s => acts_withLeaseOn s fun _ _ s => acts_complete _ _ _ s
    · exact ⟨s, rfl, .refl s⟩
  | acquire p =>
    simp only [exec, execAcquire]
    split
    · exact acts_serveHanded s fun s => acts_takeAcquire _ _ _ s
    · exact ⟨s, rfl, .refl s⟩
  | stage p =>
    simp only [exec, execStage]
    split
    · exact acts_serveHanded s fun s => acts_withLease s (acts_takeStage _ _ _)
    · exact ⟨s, rfl, .refl s⟩
  | addWithToken p =>
    simp only [exec, execAddWithToken]
    split
    · split
      · exact ⟨s, rfl, .refl s⟩
      · exact acts_serveHanded s fun s => acts_withLeaseOn s (acts_takeTokenAdd _ _)
    · exact ⟨s, rfl, .refl s⟩
  | addWithoutToken p =>
    simp only [exec, execAddWithoutToken]
    split
    · split
      · exact acts_serveHanded s fun s => acts_takeFreeAdd _ _ _ s
      · exact ⟨s, rfl, .refl s⟩
    · exact ⟨s, rfl, .refl s⟩
  | commit p =>
    simp only [exec, execCommit]
    split
    · exact acts_serveHanded s fun s => acts_withLease s (acts_takeCommit _)
    · exact ⟨s, rfl, .refl s⟩
  | release p =>
    simp only [exec, execRelease]
    split
    · exact acts_serveHanded s fun s => acts_withLease s (acts_takeRelease _)
    · exact ⟨s, rfl, .refl s⟩
  | renew p =>
    simp only [exec, execRenew]
    split
    · exact acts_serveHanded s fun s => acts_withLease s (acts_takeRenew _)
    · exact ⟨s, rfl, .refl s⟩
  | cancel p =>
    simp only [exec, execCancel]
    split
    · exact acts_serveHanded s fun s => acts_takeCancel _ _ s
    · exact ⟨s, rfl, .refl s⟩
  | watch p =>
    simp only [exec, execWatch]
    split
    · exact acts_serveHanded s fun s => acts_takeWatch _ _ s
    · exact ⟨s, rfl, .refl s⟩
  | unwatch p =>
    simp only [exec, execUnwatch]
    split
    · exact acts_serveHanded s fun s => acts_takeUnwatch _ _ s
    · exact ⟨s, rfl, .refl s⟩
  | inquire p =>
    simp only [exec, execInquire]
    split
    · exact acts_serveHanded s fun s => acts_complete _ _ _ s
    · exact ⟨s, rfl, .refl s⟩
  | deviceInfo p =>
    simp only [exec, execDeviceInfo]
    split
    · exact acts_serveHanded s fun s => acts_complete _ _ _ s
    · exact ⟨s, rfl, .refl s⟩
  | setAttention p =>
    simp only [exec, execSetAttention]
    split
    · exact acts_serveHanded s fun s => acts_takeMask _ _ s
    · exact ⟨s, rfl, .refl s⟩
  | unknownRequestKind p =>
    simp only [exec, execUnknownRequestKind]
    split
    · split_ifs
      · exact ⟨s, rfl, .refl s⟩
      · exact ⟨_, rfl, (acts_handOver p s).trans (acts_complete _ _ _ _)⟩
      · exact ⟨_, rfl, (acts_handOver p s).trans (acts_complete _ _ _ _)⟩
    · exact ⟨s, rfl, .refl s⟩

end Sys2Proof.Machine

/-! PROOF. What every command leaves: the directory's requests, PORT-RESET and FACTORY-CLEAR, the scan, the ends of jobs
and of the bulk erase, and the device resets. -/

namespace Sys2Proof.Machine

open Sys2Proof.Safety
set_option deprecated.oldSectionVars true

/-! ### Directory requests and PORT-RESET -/

/-- `t` keeps what `Keeps` says, and the active copy and the committed generation of every record. -/
abbrev KeepsCopies (s t : State) : Prop :=
  Keeps s t ∧ ∀ h, (t.record h).active = (s.record h).active ∧ (t.record h).gen = (s.record h).gen

namespace KeepsCopies

variable {s t u : State}

theorem toKeeps (h : KeepsCopies s t) : Keeps s t := h.1
theorem copies (h : KeepsCopies s t) : ∀ k, (t.record k).active = (s.record k).active ∧ (t.record k).gen = (s.record k).gen :=
  h.2
theorem store (h : KeepsCopies s t) : t.store = s.store := h.toKeeps.store

theorem trans (h : KeepsCopies s t) (k : KeepsCopies t u) : KeepsCopies s u :=
  ⟨h.toKeeps.trans k.toKeeps, fun i => ⟨(k.copies i).1.trans (h.copies i).1, (k.copies i).2.trans (h.copies i).2⟩⟩

theorem of_acts (h : Acts s t) : KeepsCopies s t := ⟨h.toKeeps, fun i => ⟨h.active i, h.gen i⟩⟩

theorem refl (s : State) : KeepsCopies s s := of_acts (.refl s)

/-- An update of the directory's own fields, the commit queue or the engine. -/
theorem of_eq (hs : t.standing = s.standing) (hp : t.ports = s.ports) (hr : t.records = s.records) : KeepsCopies s t :=
  ⟨.of_ports hs hp, fun h => by
    have : t.record h = s.record h := congrArg (Vector.get · h) hr
    rw [this]
    exact ⟨rfl, rfl⟩⟩

end KeepsCopies

/-- An update of a record that leaves its active copy and its committed generation. -/
theorem keepsCopies_setRecord {s : State} {h : Handle} {x : RecState} (ha : x.active = (s.record h).active)
    (hg : x.gen = (s.record h).gen) : KeepsCopies s (s.setRecord h x) := by
  refine ⟨.of_ports rfl rfl, fun k => ?_⟩
  rw [State.setRecord_record]
  split
  case isTrue hk => exact hk ▸ ⟨ha, hg⟩
  case isFalse => exact ⟨rfl, rfl⟩

theorem keepsCopies_takeDirJob (kind : DirKind) (job : DirJob) (s : State) : KeepsCopies s (takeDirJob kind job s) := by
  rw [takeDirJob, handJob_eq]
  exact .of_eq rfl rfl rfl

theorem keepsCopies_undoTaking (j : DirJob) (s : State) : KeepsCopies s (undoTaking j s) := by
  unfold undoTaking
  cases j.op with
  | define x => exact .of_eq rfl rfl rfl
  | setRights r => exact .of_eq rfl rfl rfl
  | retire => exact KeepsCopies.trans (t := { s with dirSlot := none }) (.of_eq rfl rfl rfl) (keepsCopies_setRecord rfl rfl)
  | freeze => exact KeepsCopies.trans (t := { s with dirSlot := none }) (.of_eq rfl rfl rfl) (keepsCopies_setRecord rfl rfl)

theorem keepsCopies_resetDirJob (p : Port) (s : State) : KeepsCopies s (resetDirJob p s) := by
  unfold resetDirJob
  cases s.dirSlot with
  | none => exact .refl s
  | some j =>
    simp only
    split
    · refine KeepsCopies.trans ?_ (.of_acts (acts_freezeReturn j _))
      refine KeepsCopies.trans ?_ (keepsCopies_undoTaking j _)
      exact .of_eq rfl rfl rfl
    · exact .refl s

/-- A PORT-RESET whose own request is not yet answered. -/
theorem keepsCopies_takePortReset {tk : Ticket} {s : State} (h : isDone ((s.port tk.port).slots.get tk.tag) = false) :
    KeepsCopies s (takePortReset tk s) := by
  have hreset : Acts s (s.setPort tk.port ((s.port tk.port).reset tk.tag)) := acts_setPort fun _ => .reset _ h
  have hleases := ((hreset.trans (acts_removePortWaiters tk.port _)).trans (acts_resetEntries tk.port _)).trans
    (acts_removeWatches (fun w => w.port == tk.port) _)
  exact (KeepsCopies.of_acts hleases).trans ((keepsCopies_resetDirJob tk.port _).trans (.of_acts (acts_complete _ _ _ _)))

theorem keepsCopies_serve {p : Port} {tk : Ticket} {r : Req} {owner : State → State} (s : State)
    (ho : KeepsCopies s (owner s)) : KeepsCopies s (serve p tk r owner s) := by
  unfold serve
  cases admission s p r with
  | none => exact ho
  | some code => exact .of_acts (acts_complete tk code [] s)

theorem keepsCopies_takeDefine (tk : Ticket) (f : DefineFields) (s : State) : KeepsCopies s (takeDefine tk f s) := by
  unfold takeDefine
  simp only
  split
  · exact .of_acts (acts_complete _ _ _ s)
  · refine KeepsCopies.trans ?_ (keepsCopies_takeDirJob _ _ _)
    exact .of_eq rfl rfl rfl

theorem keepsCopies_takeRetire (tk : Ticket) (h : Handle) (s : State) : KeepsCopies s (takeRetire tk h s) := by
  unfold takeRetire
  split
  · exact .of_acts (acts_complete _ _ _ s)
  · refine KeepsCopies.trans ?_ (keepsCopies_takeDirJob _ _ _)
    exact keepsCopies_setRecord rfl rfl

theorem keepsCopies_takeSetRights (tk : Ticket) (h : Handle) (r : PerPort Rights) (s : State) :
    KeepsCopies s (takeSetRights tk h r s) := by
  unfold takeSetRights
  split
  · exact .of_acts (acts_complete _ _ _ s)
  · exact .of_acts (acts_complete _ _ _ s)
  · exact keepsCopies_takeDirJob _ _ s

theorem keepsCopies_takeFreeze (tk : Ticket) (h : Handle) (s : State) : KeepsCopies s (takeFreeze tk h s) := by
  unfold takeFreeze
  split
  · exact .of_acts (acts_complete _ _ _ s)
  · refine KeepsCopies.trans ?_ (keepsCopies_takeDirJob _ _ _)
    refine KeepsCopies.trans ?_ (.of_acts (acts_allocQueue _ _))
    exact keepsCopies_setRecord rfl rfl

/-- The commands at which the device, the store and the store state stand as they are. -/
def isSteady : Instr → Bool
  | .define _ | .retire _ | .setRights _ | .freeze _ | .portReset _ => true
  | c => isOrdinary c

/-- The oldest request that is handed over still holds its slot. -/
theorem handOver_slot {s : State} {p : Port} {tk : Ticket} {r : Req} (h : s.oldestRequest p = some (tk, r)) :
    tk.port = p ∧ ∃ kind body, ((handOver p s).port p).slots.get tk.tag = .pending tk.serial kind body := by
  obtain ⟨hp, -, kind, body, hslot, -⟩ := State.oldestRequest_slot h
  exact ⟨hp, kind, body, by rw [handOver, State.setPort_port_same]; exact hslot⟩

theorem exec_keepsCopies {c : Instr} (hc : isSteady c = true) (s : State) :
    ∃ t, exec c s = .next t ∧ KeepsCopies s t := by
  have served : ∀ (p : Port) (tk : Ticket) (r : Req) (owner : State → State),
      KeepsCopies (handOver p s) (owner (handOver p s)) →
      ∃ t, (Host.Outcome.next (serve p tk r owner (handOver p s)) : Host.Outcome State Fault Refusal) = .next t
        ∧ KeepsCopies s t := fun p tk r owner ho =>
    ⟨_, rfl, (KeepsCopies.of_acts (acts_handOver p s)).trans (keepsCopies_serve _ ho)⟩
  by_cases ho : isOrdinary c = true
  · obtain ⟨t, he, ht⟩ := exec_acts ho s
    exact ⟨t, he, .of_acts ht⟩
  cases c with
  | define p =>
    simp only [exec, execDefine]
    split
    · exact served _ _ _ _ (keepsCopies_takeDefine _ _ _)
    · exact ⟨s, rfl, .refl s⟩
  | retire p =>
    simp only [exec, execRetire]
    split
    · exact served _ _ _ _ (keepsCopies_takeRetire _ _ _)
    · exact ⟨s, rfl, .refl s⟩
  | setRights p =>
    simp only [exec, execSetRights]
    split
    · exact served _ _ _ _ (keepsCopies_takeSetRights _ _ _ _)
    · exact ⟨s, rfl, .refl s⟩
  | freeze p =>
    simp only [exec, execFreeze]
    split
    · exact served _ _ _ _ (keepsCopies_takeFreeze _ _ _)
    · exact ⟨s, rfl, .refl s⟩
  | portReset p =>
    simp only [exec, execPortReset]
    split
    · rename_i tk hold
      obtain ⟨rfl, kind, body, hslot⟩ := handOver_slot hold
      exact served _ _ _ _ (keepsCopies_takePortReset (by rw [hslot]; rfl))
    · exact ⟨s, rfl, .refl s⟩
  | _ => exact absurd hc ho

/-! ### FACTORY-CLEAR and the drained report -/

theorem keeps_reportDrained (s : State) : Keeps s (reportDrained s) := by
  unfold reportDrained
  split
  · split
    · exact .of_ports rfl rfl
    · exact .refl s
  · exact .refl s

theorem keepsCopies_clearJob (s : State) (j : Job) : KeepsCopies s (clearJob s j) := by
  unfold clearJob
  cases j with
  | record e h c first pages gen =>
    simp only
    cases (s.lease e).lease with
    | none => exact .refl s
    | some l => exact .of_acts ((acts_freeLease e s).trans (acts_completeIf _ _ _ _))
  | directory kind c gen =>
    simp only
    cases s.dirSlot with
    | none => exact .refl s
    | some d => exact (keepsCopies_undoTaking d s).trans (.of_acts (acts_complete _ _ _ _))

theorem keeps_clearJobs (s : State) : Keeps s (clearJobs s) :=
  Keeps.trans (t := { s with queue := s.queue.take 1 }) (.of_ports rfl rfl)
    (Keeps.foldl (fun s j => (keepsCopies_clearJob s j).toKeeps) _ _)

theorem keeps_takeFactoryClear (tk : Ticket) (s : State) : Keeps { s with dev := .clearing } (takeFactoryClear tk s) := by
  have hclear : Keeps { s with dev := .clearing } { s with dev := .clearing, clear := some ⟨tk, .draining⟩ } :=
    .of_ports rfl rfl
  exact (((hclear.trans (acts_clearAllWaiters _).toKeeps).trans
    (Acts.foldl acts_revokeEntry allEntries _).toKeeps).trans (keeps_clearJobs _)).trans (keeps_reportDrained _)

/-- Admission serves a FACTORY-CLEAR in READY and DAMAGED alone (08, R142). -/
theorem dev_of_admission_factoryClear {s : State} {p : Port} (h : admission s p .factoryClear = none) :
    s.dev = .ready ∨ s.dev = .damaged := by
  cases hd : s.dev <;> simp_all [admission, kindAllowed, Req.kind]

theorem exec_factoryClear_keeps (p : Port) (s : State) :
    ∃ t d, exec (.factoryClear p) s = .next t ∧ Keeps { s with dev := d } t
      ∧ (d = s.dev ∨ (d = .clearing ∧ (s.dev = .ready ∨ s.dev = .damaged))) := by
  simp only [exec, execFactoryClear]
  split
  · rename_i tk hold
    have hh := acts_handOver p s
    unfold serve
    cases hadm : admission (handOver p s) p .factoryClear with
    | some code => exact ⟨_, s.dev, rfl, (hh.trans (acts_complete _ _ _ _)).toKeeps, .inl rfl⟩
    | none =>
      refine ⟨_, .clearing, rfl, Keeps.trans ?_ (keeps_takeFactoryClear tk _), .inr ⟨rfl, ?_⟩⟩
      · exact ⟨rfl, hh.ports⟩
      · rw [admission_handOver] at hadm
        exact dev_of_admission_factoryClear hadm
  · exact ⟨s, s.dev, rfl, .refl s, .inl rfl⟩

/-! ### The end of the scan and of the bulk erase -/

theorem exec_scanEnd_keeps (s : State) :
    ∃ t d, exec .scanEnd s = .next t ∧ Keeps { s with dev := d } t
      ∧ (d = s.dev ∨ (s.dev = .starting ∧ (d = .ready ∨ d = .damaged))) := by
  simp only [exec, execScanEnd]
  split
  case isTrue h =>
    cases chooseDirectory s.store with
    | region c =>
      refine ⟨_, .ready, rfl, Keeps.trans ?_ (acts_postAll _ _).toKeeps, .inr ⟨h.2, .inl rfl⟩⟩
      exact .of_ports rfl rfl
    | nothing =>
      refine ⟨_, .ready, rfl, Keeps.trans ?_ (acts_postAll _ _).toKeeps, .inr ⟨h.2, .inl rfl⟩⟩
      exact .of_ports rfl rfl
    | damaged => exact ⟨_, .damaged, rfl, (acts_postAll _ _).toKeeps, .inr ⟨h.2, .inr rfl⟩⟩
  case isFalse => exact ⟨s, s.dev, rfl, .refl s, .inl rfl⟩

theorem exec_bulkEraseEnd_keeps (s : State) :
    exec .bulkEraseEnd s = .next s ∨
      s.clear ≠ none ∧ ∃ t, exec .bulkEraseEnd s = .next t ∧ KeepsCopies { s with store := [], dev := .ready } t := by
  simp only [exec, execBulkEraseEnd]
  split
  · rename_i tk hc
    have hcopies : KeepsCopies { s with store := [], dev := .ready }
        { s with store := [], activeDir := none, dev := .ready, clear := none } := .of_eq rfl rfl rfl
    exact .inr ⟨by simp [hc], _, rfl, hcopies.trans (.of_acts ((acts_postAll _ _).trans (acts_complete _ _ _ _)))⟩
  · exact .inl rfl

/-! ### Job ends -/

theorem keeps_setRecord (s : State) (h : Handle) (x : RecState) : Keeps s (s.setRecord h x) := .of_ports rfl rfl

theorem keeps_recordCommitPoint (e : EntryNo) (h : Handle) (c : Copy) (gen : Word32) (s : State) :
    Keeps s (recordCommitPoint e h c gen s) := by
  unfold recordCommitPoint
  cases (s.lease e).lease with
  | none => exact keeps_setRecord s h _
  | some l => exact (keeps_setRecord s h _).trans ((acts_evaluateWatches _ _).trans (acts_endLease _ _ _ _)).toKeeps

theorem keeps_dirCommitPoint (c : Copy) (gen : Word32) (s : State) : Keeps s (dirCommitPoint c gen s) := by
  have h1 : Keeps s { s with activeDir := some c, dirGen := gen, dirSlot := none } := .of_ports rfl rfl
  unfold dirCommitPoint
  cases s.dirSlot with
  | none => exact h1
  | some j =>
    refine h1.trans ?_
    simp only
    generalize ({ s with activeDir := some c, dirGen := gen, dirSlot := none } : State) = s1
    cases j.op with
    | define x =>
      refine Keeps.trans ?_ (acts_complete _ _ _ _).toKeeps
      exact .of_ports rfl rfl
    | retire =>
      refine Keeps.trans ?_ ((acts_retireWatches _ _).trans (acts_complete _ _ _ _)).toKeeps
      exact .of_ports rfl rfl
    | setRights r =>
      refine Keeps.trans ?_ ((acts_answerAll _ _ _).trans (acts_complete _ _ _ _)).toKeeps
      refine Keeps.trans ?_ (acts_leaveAllocIfEmpty _ _).toKeeps
      exact .of_ports rfl rfl
    | freeze =>
      refine Keeps.trans ?_ ((acts_answerAll _ _ _).trans (acts_complete _ _ _ _)).toKeeps
      exact .of_ports rfl rfl

theorem keeps_dirFault (s : State) : Keeps s (dirFault s) := by
  unfold dirFault
  cases s.dirSlot with
  | none => exact .refl s
  | some j => exact (keepsCopies_undoTaking j s).toKeeps.trans ((acts_freezeReturn j _).trans (acts_complete _ _ _ _)).toKeeps

theorem keeps_commitPoint (j : Job) (s : State) : Keeps s (commitPoint j s) := by
  refine Keeps.trans ?_ ((acts_startNext _).toKeeps.trans (keeps_reportDrained _))
  cases j with
  | record e h c first pages gen => exact keeps_recordCommitPoint e h c gen s
  | directory kind c gen => exact keeps_dirCommitPoint c gen s

theorem keeps_jobFault (j : Job) (failing : Nat) (s : State) : Keeps s (jobFault j failing s) := by
  refine Keeps.trans ?_ ((acts_startNext _).toKeeps.trans (keeps_reportDrained _))
  cases j with
  | record e h c first pages gen =>
    exact (keeps_setRecord s h _).trans ((acts_postFault _ _ _).trans (acts_recordFault e _)).toKeeps
  | directory kind c gen => exact (acts_postFault _ _ s).toKeeps.trans (keeps_dirFault _)

theorem spoilPage_wf (page : Nat) (whole : List Byte) {s : State} (hs : StoreCanonical s) :
    StoreCanonical (spoilPage page whole s) := by
  obtain ⟨m, he, hm | ⟨hm, -⟩⟩ := spoilPage_cases page whole s
  · rw [he, hm]
    exact hs
  · rw [he, hm]
    exact Memory.writePage_wf _ _ _ hs

theorem exec_pageMatch_keeps {s t : State} (h : exec .pageMatch s = .next t) :
    ∃ m, Keeps { s with store := m } t ∧ (Memory.wf s.store = true → Memory.wf m = true) := by
  simp only [exec, execPageMatch] at h
  split at h
  · rename_i pos retry j rest he hq
    split at h
    · refine ⟨Memory.writePage s.store (j.pageAt pos) (s.jobPage j pos), ?_, Memory.writePage_wf _ _ _⟩
      split at h
      · cases h
        exact .of_ports rfl rfl
      · cases h
        refine Keeps.trans ?_ (keeps_commitPoint j _)
        exact .of_ports rfl rfl
    · cases h
  · cases h
    exact ⟨s.store, .refl s, id⟩

theorem exec_eraseEnd_keeps {s t : State} (h : exec .eraseEnd s = .next t) :
    ∃ m, Keeps { s with store := m } t ∧ (Memory.wf s.store = true → Memory.wf m = true) := by
  simp only [exec, execEraseEnd] at h
  split at h
  · rename_i pos failing j rest he hq
    split at h
    · cases h
      refine ⟨Memory.erasePage s.store j.headerPage, ?_, Memory.erasePage_wf _ _⟩
      refine Keeps.trans ?_ (keeps_jobFault j failing _)
      exact .of_ports rfl rfl
    · cases h
  · cases h
    exact ⟨s.store, .refl s, id⟩

/-- A mismatch leaves the page's bytes, the free index and the engine changed, at the most. -/
theorem exec_pageMismatch_eq {s t : State} (h : exec .pageMismatch s = .next t) :
    t = s ∨ ∃ page whole x, t = { spoilPage page whole s with engine := x } := by
  simp only [exec, execPageMismatch] at h
  split at h
  · split at h
    · split at h <;> cases h <;> exact .inr ⟨_, _, _, rfl⟩
    · cases h
  · cases h
    exact .inl rfl

theorem exec_pageMismatch_keeps {s t : State} (h : exec .pageMismatch s = .next t) :
    ∃ m n, KeepsCopies { s with store := m, freeIndex := n } t ∧ (Memory.wf s.store = true → Memory.wf m = true) := by
  obtain rfl | ⟨page, whole, x, rfl⟩ := exec_pageMismatch_eq h
  · exact ⟨t.store, t.freeIndex, .refl t, id⟩
  · exact ⟨_, _, .of_eq rfl rfl rfl, spoilPage_wf page whole (s := s)⟩

/-! ### Device resets -/

theorem abandonPage_wf {s : State} (hs : StoreCanonical s) : StoreCanonical (abandonPage s) := by
  unfold abandonPage
  cases s.pageInProgress with
  | none => exact hs
  | some x => exact spoilPage_wf _ _ hs

theorem abandonErase_wf {s : State} (hs : StoreCanonical s) : StoreCanonical (abandonErase s) := by
  unfold abandonErase
  split
  · simp only
    split
    · exact spoilPage_wf _ _ (Memory.sweep_wf _ _ hs)
    · exact Memory.sweep_wf _ _ hs
  · exact hs

/-- A device reset leaves the start values, the store that the abandoned operations leave, and the straps or those
sampled anew. -/
theorem exec_deviceReset_eq {c : Instr} (hc : isDeviceReset c = true) (s : State) :
    ∃ t, exec c s = .next t ∧ t.ports = ⟨PortState.start, PortState.start, PortState.start⟩ ∧ t.dev = .starting
      ∧ t.store = (abandonErase (abandonPage s)).store
      ∧ (t.straps = (abandonErase (abandonPage s)).straps
        ∨ c = .powerUp t.straps ∨ c = .resetnRelease t.straps) := by
  cases c with
  | powerLoss => exact ⟨_, rfl, rfl, rfl, rfl, .inl rfl⟩
  | resetnAssert => exact ⟨_, rfl, rfl, rfl, rfl, .inl rfl⟩
  | powerUp straps =>
    refine ⟨_, rfl, ?_⟩
    rw [sampleStraps_frame]
    refine ⟨rfl, rfl, rfl, ?_⟩
    simp only
    split
    · exact .inr (.inl rfl)
    · exact .inl rfl
  | resetnRelease straps =>
    refine ⟨_, rfl, ?_⟩
    rw [sampleStraps_frame]
    refine ⟨rfl, rfl, rfl, ?_⟩
    simp only
    split
    · exact .inr (.inr rfl)
    · exact .inl rfl
  | _ => cases hc

/-- Operations that are abandoned change the store and the free index alone. -/
theorem abandonPage_frame (s : State) :
    abandonPage s = { s with store := (abandonPage s).store, freeIndex := (abandonPage s).freeIndex } := by
  unfold abandonPage
  cases s.pageInProgress <;> rfl

theorem abandonErase_frame (s : State) :
    abandonErase s = { s with store := (abandonErase s).store, freeIndex := (abandonErase s).freeIndex } := by
  unfold abandonErase
  split
  · simp only
    split <;> rfl
  · rfl

theorem abandon_frame (s : State) :
    abandonErase (abandonPage s) =
      { s with
        store := (abandonErase (abandonPage s)).store
        freeIndex := (abandonErase (abandonPage s)).freeIndex } := by
  rw [abandonErase_frame, abandonPage_frame]

end Sys2Proof.Machine

/-! PROOF. The rules of the whole machine: the step, the reset, what the store, the device state and the straps change
at, and the invariants of the store and of the port queues. -/

namespace Sys2Proof.Machine

open Sys2Proof.Safety
set_option deprecated.oldSectionVars true

/-! ### What any command can do to the device, the store and the ports -/

/-- The events of 09, R155 at which a command other than a device reset changes the device state from `d` to `d'`. -/
def DevEvent (s : State) (c : Instr) (d : DevState) : Prop :=
  d = s.dev
    ∨ (c = .scanEnd ∧ s.dev = .starting ∧ (d = .ready ∨ d = .damaged))
    ∨ ((∃ p, c = .factoryClear p) ∧ (s.dev = .ready ∨ s.dev = .damaged) ∧ d = .clearing)
    ∨ (c = .bulkEraseEnd ∧ d = .ready ∧ s.clear ≠ none)

/-- A command that is no device reset changes the store and the device state at its own event, and keeps the rest of
what the board and the ports hold. -/
theorem exec_event {c : Instr} {s t : State} (hc : isDeviceReset c = false) (h : exec c s = .next t) :
    ∃ m n d, Keeps { s with store := m, freeIndex := n, dev := d } t
      ∧ (Memory.wf s.store = true → Memory.wf m = true) ∧ DevEvent s c d := by
  by_cases hsteady : isSteady c = true
  · obtain ⟨u, hu, hk⟩ := exec_keepsCopies hsteady s
    rw [hu] at h
    cases h
    exact ⟨s.store, s.freeIndex, s.dev, hk.toKeeps, id, .inl rfl⟩
  cases c with
  | powerUp | powerLoss | resetnAssert | resetnRelease => cases hc
  | pageMatch =>
    obtain ⟨m, hk, hm⟩ := exec_pageMatch_keeps h
    exact ⟨m, s.freeIndex, s.dev, hk, hm, .inl rfl⟩
  | eraseEnd =>
    obtain ⟨m, hk, hm⟩ := exec_eraseEnd_keeps h
    exact ⟨m, s.freeIndex, s.dev, hk, hm, .inl rfl⟩
  | pageMismatch =>
    obtain ⟨m, n, hk, hm⟩ := exec_pageMismatch_keeps h
    exact ⟨m, n, s.dev, hk.toKeeps, hm, .inl rfl⟩
  | scanEnd =>
    obtain ⟨u, d, hu, hk, hd⟩ := exec_scanEnd_keeps s
    rw [hu] at h
    cases h
    refine ⟨s.store, s.freeIndex, d, hk, id, ?_⟩
    obtain rfl | ⟨hs, hd⟩ := hd
    · exact .inl rfl
    · exact .inr (.inl ⟨rfl, hs, hd⟩)
  | factoryClear p =>
    obtain ⟨u, d, hu, hk, hd⟩ := exec_factoryClear_keeps p s
    rw [hu] at h
    cases h
    refine ⟨s.store, s.freeIndex, d, hk, id, ?_⟩
    obtain rfl | ⟨rfl, hs⟩ := hd
    · exact .inl rfl
    · exact .inr (.inr (.inl ⟨⟨p, rfl⟩, hs, rfl⟩))
  | bulkEraseEnd =>
    obtain hu | ⟨hclear, u, hu, hk⟩ := exec_bulkEraseEnd_keeps s
    · rw [hu] at h
      cases h
      exact ⟨s.store, s.freeIndex, s.dev, .refl s, id, .inl rfl⟩
    · rw [hu] at h
      cases h
      exact ⟨[], s.freeIndex, .ready, hk.toKeeps, fun _ => rfl, .inr (.inr (.inr ⟨rfl, rfl, hclear⟩))⟩
  | _ => exact absurd rfl hsteady

theorem exec_wf {c : Instr} {s t : State} (h : exec c s = .next t) (hs : StoreCanonical s) : StoreCanonical t := by
  cases hc : isDeviceReset c with
  | true =>
    obtain ⟨u, hu, -, -, hstore, -⟩ := exec_deviceReset_eq hc s
    rw [hu] at h
    cases h
    unfold StoreCanonical
    rw [hstore]
    exact abandonErase_wf (abandonPage_wf hs)
  | false =>
    obtain ⟨m, n, d, hk, hm, -⟩ := exec_event hc h
    unfold StoreCanonical
    rw [hk.store]
    exact hm hs

theorem exec_portSound {c : Instr} {s t : State} (h : exec c s = .next t) (hs : ∀ p, PortSound (s.port p)) :
    ∀ p, PortSound (t.port p) := by
  cases hc : isDeviceReset c with
  | true =>
    obtain ⟨u, hu, hports, -⟩ := exec_deviceReset_eq hc s
    rw [hu] at h
    cases h
    intro p
    unfold State.port
    rw [hports]
    cases p <;> exact portSound_start
  | false =>
    obtain ⟨m, n, d, hk, -⟩ := exec_event hc h
    exact fun p => hk.ports p (hs p)

/-! ### One step -/

theorem step_cons {c : Instr} {rest : List Instr} {s : State} (h : s.pending = c :: rest) :
    step s = exec c { s with pending := rest } := by
  simp only [step, h]

theorem step_nil {s : State} (h : s.pending = []) : step s = .next (tick s) := by
  simp only [step, h]

/-- What every command and the timers keep, every step keeps, when the waiting commands play no part in it. -/
theorem step_induction {P : State → Prop} {s t : State} (hp : ∀ (s : State) (l : List Instr), P s → P { s with pending := l })
    (htick : ∀ s, P s → P (tick s)) (hexec : ∀ c s t, exec c s = .next t → P s → P t) (hs : P s)
    (h : step s = .next t) : P t := by
  cases hl : s.pending with
  | nil =>
    rw [step_nil hl] at h
    cases h
    exact htick s hs
  | cons c rest =>
    rw [step_cons hl] at h
    exact hexec c _ t h (hp s rest hs)

/-! ### The statements -/

/-- Settles O57: every command writes whole pages, sweeps or leaves the store. -/
theorem everyStepKeepsStoreCanonical : Obligations.EveryStepKeepsStoreCanonical := by
  unfold Obligations.EveryStepKeepsStoreCanonical
  intro s t hs h
  exact step_induction (P := StoreCanonical) (fun _ _ hs => hs) (fun _ hs => hs) (fun c s t h hs => exec_wf h hs) hs h

/-- Settles O58: each update of a port keeps both invariants, and every command is made of such updates. -/
theorem everyStepKeepsPortQueues : Obligations.EveryStepKeepsPortQueues := by
  unfold Obligations.EveryStepKeepsPortQueues
  intro s t hf hn h
  have ht := step_induction (P := fun s => ∀ p, PortSound (s.port p)) (fun _ _ hs => hs) (fun _ hs => hs)
    (fun c s t h hs => exec_portSound h hs) (fun p => ⟨hf p, hn p⟩) h
  exact ⟨fun p => (ht p).1, fun p => (ht p).2⟩

/-- Settles O55: the commands that are neither page operations nor resets keep the store, and those that are no commit
point, scan, clear or reset keep the copies. -/
theorem storeChangesOnlyAtItsEvents : Obligations.StoreChangesOnlyAtItsEvents := by
  unfold Obligations.StoreChangesOnlyAtItsEvents
  refine ⟨fun c s hc => ?store, fun c s t hc h => ?copies⟩
  case store =>
    by_cases hsteady : isSteady c = true
    · obtain ⟨t, ht, hk⟩ := exec_keepsCopies hsteady s
      exact ⟨t, ht, hk.store⟩
    cases c with
    | scanEnd =>
      obtain ⟨t, d, ht, hk, -⟩ := exec_scanEnd_keeps s
      exact ⟨t, ht, hk.store⟩
    | factoryClear p =>
      obtain ⟨t, d, ht, hk, -⟩ := exec_factoryClear_keeps p s
      exact ⟨t, ht, hk.store⟩
    | powerUp | powerLoss | resetnAssert | resetnRelease | pageMatch | pageMismatch | eraseEnd | bulkEraseEnd => cases hc
    | _ => exact absurd rfl hsteady
  case copies =>
    by_cases hsteady : isSteady c = true
    · obtain ⟨u, hu, hk⟩ := exec_keepsCopies hsteady s
      rw [hu] at h
      cases h
      exact hk.copies
    cases c with
    | pageMismatch =>
      obtain ⟨m, n, hk, -⟩ := exec_pageMismatch_keeps h
      exact hk.copies
    | bulkEraseEnd =>
      obtain hu | ⟨-, u, hu, hk⟩ := exec_bulkEraseEnd_keeps s
      · rw [hu] at h
        cases h
        exact fun _ => ⟨rfl, rfl⟩
      · rw [hu] at h
        cases h
        exact hk.copies
    | powerUp | powerLoss | resetnAssert | resetnRelease | pageMatch | scanEnd | eraseEnd | factoryClear => cases hc
    | _ => exact absurd rfl hsteady

/-- Settles O56: the device state changes at the events of `DevEvent` and at device resets, which alone sample straps. -/
theorem deviceStateAndStrapsChangeAtTheirEvents : Obligations.DeviceStateAndStrapsChangeAtTheirEvents := by
  unfold Obligations.DeviceStateAndStrapsChangeAtTheirEvents
  intro c s t h
  cases hc : isDeviceReset c with
  | true =>
    obtain ⟨u, hu, -, hdev, -, hstraps⟩ := exec_deviceReset_eq hc s
    rw [hu] at h
    cases h
    refine ⟨fun _ => .inl ⟨rfl, hdev⟩, fun hne => ?_⟩
    rw [abandon_frame] at hstraps
    obtain hs | hs | hs := hstraps
    · exact absurd hs hne
    · exact .inl ⟨_, hs, rfl⟩
    · exact .inr ⟨_, hs, rfl⟩
  | false =>
    obtain ⟨m, n, d, hk, -, hd⟩ := exec_event hc h
    refine ⟨fun hne => .inr ?_, fun hne => absurd hk.straps hne⟩
    rw [hk.dev] at hne ⊢
    exact hd.resolve_left hne

/-- Settles O1. -/
theorem stepRunsFrontCommand : Obligations.StepRunsFrontCommand := by
  unfold Obligations.StepRunsFrontCommand
  exact fun c rest s h => step_cons h

/-- Settles O2: the timers of the lease table and of the wait queues, one table place at a time. -/
theorem emptyQueueIsOneTimerUnit : Obligations.EmptyQueueIsOneTimerUnit := by
  unfold Obligations.EmptyQueueIsOneTimerUnit
  intro s hs
  refine ⟨tick s, step_nil hs, fun e he => ?free, fun e l he => ?leased, fun h => ?record, fun h => ?waiters, rfl⟩
  case free =>
    rw [tick_lease, tickLease, he, Option.map_none, ← he]
  case leased =>
    rw [tick_lease, tickLease, he, Option.map_some]
  case record => rw [tick_record]
  case waiters =>
    rw [tick_record]
    refine List.map_congr_left fun w _ => ?_
    obtain ⟨tk, type⟩ := w
    cases type <;> rfl

/-- The tables of `State.reset` place by place. -/
theorem reset_lease (e : EntryNo) : State.reset.lease e = LeaseEntry.start := vector_get_replicate _ e
theorem reset_buffer (e : EntryNo) : State.reset.buffer e = Buffer.empty := vector_get_replicate _ e
theorem reset_record (h : Handle) : State.reset.record h = RecState.blank := vector_get_replicate _ h
theorem reset_watchAt (n : WatchNo) : State.reset.watchAt n = none := vector_get_replicate _ n
theorem reset_port (p : Port) : State.reset.port p = PortState.start := by cases p <;> rfl

/-- Settles O3: each table of `State.reset` is one value at every place. -/
theorem resetLeavesStartValues : Obligations.ResetLeavesStartValues := by
  unfold Obligations.ResetLeavesStartValues
  simp only [reset_lease, reset_buffer, reset_record, reset_port]
  refine ⟨rfl, rfl, rfl, rfl, fun _ t => vector_get_replicate _ t, fun _ => ⟨rfl, rfl, rfl, rfl, rfl, rfl, rfl, rfl⟩,
    fun _ => ⟨rfl, rfl⟩, fun _ => ⟨rfl, rfl, rfl, rfl⟩, rfl, rfl, rfl, rfl, reset_watchAt, fun _ => rfl⟩

theorem reset_allRuns : allRuns State.reset = [] := by
  simp only [allRuns, reset_record, pendingRuns]
  simp [RecState.blank, State.reset]

theorem reset_runsDisjoint : RunsDisjoint State.reset where
  apart := by rw [reset_allRuns]; rfl
  inArea := by rw [reset_allRuns]; simp
  taken := by rw [reset_allRuns]; simp
  fresh h _ := by rw [reset_record]; rfl
  slot := rfl
  starting _ := rfl
  ready h := by cases h
  erasing c h := by cases h

theorem reset_unleased (h : Handle) : Unleased State.reset h := fun e => by
  simp [leasedHandle, reset_lease, LeaseEntry.start]

theorem reset_leasesConsistent : LeasesConsistent State.reset where
  unique h e e' he := absurd he (reset_unleased h e)
  once := List.nodup_nil
  queued h := by
    rw [reset_record]
    simp [State.reset, RecState.blank]
  empty _ _ := rfl
  freezing h hf := by rw [reset_record] at hf; cases hf
  retiring h hf := by rw [reset_record] at hf; cases hf
  freezeSlot h tk hs := by cases hs
  retireSlot h tk hs := by cases hs
  undefined h _ := ⟨reset_unleased h, by rw [reset_record]; rfl⟩
  fresh h _ := by rw [reset_record]; rfl
  committing e l hl := by rw [reset_lease] at hl; cases hl
  slot := rfl
  clearing h := absurd rfl h
  starting _ := ⟨fun e => by rw [reset_lease]; rfl, fun h => by rw [reset_record]; rfl, rfl, rfl⟩

/-- Settles O4: every table is empty after reset. -/
theorem resetMeetsInvariants : Obligations.ResetMeetsInvariants := by
  unfold Obligations.ResetMeetsInvariants
  have hp : ∀ p, PortSound (State.reset.port p) := fun p => by rw [reset_port]; exact portSound_start
  exact ⟨rfl, fun p => (hp p).1, fun p => (hp p).2, reset_runsDisjoint, reset_leasesConsistent⟩

end Sys2Proof.Machine

/-! PROOF. Requests: every request command hands over the oldest placed request and serves it, and admission is read
off its seven steps. -/

namespace Sys2Proof.Machine

open Sys2Proof.Safety
set_option deprecated.oldSectionVars true

/-! ### The owner of a request -/

/-- What the owner of a request does once admission has passed (08, R141). -/
def ownerOf (p : Port) (tk : Ticket) : Req → State → State
  | .read b t o n =>
    if t.isZero then takeRead tk (toHandle b) o n else withLeaseOn p tk t (toHandle b) (takeTokenRead tk o n)
  | .acquire b w => takeAcquire tk (toHandle b) w
  | .stage t o d => withLease p tk t (takeStage tk o d)
  | .add b t d =>
    if t.isZero then takeFreeAdd tk (toHandle b) d else withLeaseOn p tk t (toHandle b) (takeTokenAdd tk d)
  | .commit t => withLease p tk t (takeCommit tk)
  | .release t => withLease p tk t (takeRelease tk)
  | .renew t => withLease p tk t (takeRenew tk)
  | .cancel b => takeCancel tk (toTag b)
  | .watch b m t f => takeWatch tk ⟨p, toHandle b, (toMode m t).getD .any, (toSelf f).getD false⟩
  | .unwatch b => takeUnwatch tk (toWatchNo b)
  | .inquire b => fun s => complete tk .ok (inquireBody s p (toHandle b)) s
  | .define f => takeDefine tk f
  | .retire b => takeRetire tk (toHandle b)
  | .setRights b r => takeSetRights tk (toHandle b) ⟨toRights r.p0, toRights r.p1, toRights r.p2⟩
  | .freeze b => takeFreeze tk (toHandle b)
  | .deviceInfo => fun s => complete tk .ok (infoBody s) s
  | .setAttention m => takeMask tk m
  | .portReset => takePortReset tk
  | .factoryClear => takeFactoryClear tk

/-- Every request command serves the port's oldest placed request with its owner (07, R126; 08, R141). -/
theorem exec_commandOf {s : State} {p : Port} {tk : Ticket} {r : Req} (h : s.oldestRequest p = some (tk, r)) :
    exec (commandOf p r) s = .next (serve p tk r (ownerOf p tk r) (handOver p s)) := by
  cases r with
  | read b t o n =>
    cases hz : t.isZero
    · have harm : exec (commandOf p (.read b t o n)) s = execReadWithToken p s := by rw [commandOf, hz]; rfl
      simp only [harm, execReadWithToken, h, hz, ownerOf, Bool.false_eq_true, if_false]
    · have harm : exec (commandOf p (.read b t o n)) s = execReadCommitted p s := by rw [commandOf, hz]; rfl
      simp only [harm, execReadCommitted, h, hz, ownerOf, if_true]
  | add b t d =>
    cases hz : t.isZero
    · have harm : exec (commandOf p (.add b t d)) s = execAddWithToken p s := by rw [commandOf, hz]; rfl
      simp only [harm, execAddWithToken, h, hz, ownerOf, Bool.false_eq_true, if_false]
    · have harm : exec (commandOf p (.add b t d)) s = execAddWithoutToken p s := by rw [commandOf, hz]; rfl
      simp only [harm, execAddWithoutToken, h, hz, ownerOf, if_true]
  | acquire => exact (by rw [execAcquire, h] : execAcquire p s = _)
  | stage => exact (by rw [execStage, h] : execStage p s = _)
  | commit => exact (by rw [execCommit, h] : execCommit p s = _)
  | release => exact (by rw [execRelease, h] : execRelease p s = _)
  | renew => exact (by rw [execRenew, h] : execRenew p s = _)
  | cancel => exact (by rw [execCancel, h] : execCancel p s = _)
  | watch => exact (by rw [execWatch, h] : execWatch p s = _)
  | unwatch => exact (by rw [execUnwatch, h] : execUnwatch p s = _)
  | inquire => exact (by rw [execInquire, h] : execInquire p s = _)
  | define => exact (by rw [execDefine, h] : execDefine p s = _)
  | retire => exact (by rw [execRetire, h] : execRetire p s = _)
  | setRights => exact (by rw [execSetRights, h] : execSetRights p s = _)
  | freeze => exact (by rw [execFreeze, h] : execFreeze p s = _)
  | deviceInfo => exact (by rw [execDeviceInfo, h] : execDeviceInfo p s = _)
  | setAttention => exact (by rw [execSetAttention, h] : execSetAttention p s = _)
  | portReset => exact (by rw [execPortReset, h] : execPortReset p s = _)
  | factoryClear => exact (by rw [execFactoryClear, h] : execFactoryClear p s = _)

/-! ### Answers of a request that has just been handed over -/

/-- The oldest placed request is answered as it is handed over (07, R126, R128). -/
theorem complete_oldest {s : State} {p : Port} {tk : Ticket} {r : Req} (h : s.oldestRequest p = some (tk, r))
    (code : Status) (body : List Byte) : complete tk code body (handOver p s) = answered s p tk.tag code body := by
  obtain ⟨hp, -, kind, b, hslot, -⟩ := State.oldestRequest_slot h
  obtain ⟨port, tag, serial⟩ := tk
  obtain rfl : port = p := hp
  exact complete_handOver_eq_answered hslot code body

theorem exec_refused {s : State} {p : Port} {tk : Ticket} {r : Req} {code : Status}
    (h : s.oldestRequest p = some (tk, r)) (ha : admission s p r = some code) :
    exec (commandOf p r) s = .next (answered s p tk.tag code []) := by
  rw [exec_commandOf h, serve_refused ((admission_handOver s p p r).trans ha), complete_oldest h]

theorem exec_taken {s : State} {p : Port} {tk : Ticket} {r : Req}
    (h : s.oldestRequest p = some (tk, r)) (ha : admission s p r = none) :
    exec (commandOf p r) s = .next (ownerOf p tk r (handOver p s)) := by
  rw [exec_commandOf h, serve_taken ((admission_handOver s p p r).trans ha)]

/-! ### Admission, step by step -/

section
variable {s : State} {p : Port} {r : Req}

theorem admission_passed (hkind : kindAllowed s.dev (some r.kind) = true)
    (hport : configOnly r.kind = true → s.configPort = some p) (hhandle : handlePasses s p r = true)
    (hright : rightPasses s p r = true) (hfrozen : frozenPasses s r = true) (hrange : rangePasses s r = true)
    (hrec : kindPasses s r = true) : admission s p r = none := by
  have hconfig : (configOnly r.kind && !(s.configPort == some p)) = false := by
    cases hc : configOnly r.kind
    · rfl
    · simp [hport hc]
  simp [admission, hkind, hconfig, hhandle, hright, hfrozen, hrange, hrec]

theorem admission_notReady (hkind : kindAllowed s.dev (some r.kind) = false) : admission s p r = some .notReady := by
  simp [admission, hkind]

theorem admission_config (hkind : kindAllowed s.dev (some r.kind) = true) (hconfig : configOnly r.kind = true)
    (hport : s.configPort ≠ some p) : admission s p r = some .denied := by
  simp [admission, hkind, hconfig, hport]

/-- In READY, past the configuration port check, the first of steps 4 to 7 that fails answers. -/
theorem admission_ready (hdev : s.dev = .ready) (hport : configOnly r.kind = true → s.configPort = some p) :
    admission s p r =
      if !handlePasses s p r then some .noRecord
      else if !rightPasses s p r then some .denied
      else if !frozenPasses s r then some .frozen
      else if !rangePasses s r then some .range
      else if !kindPasses s r then some .wrongKind
      else none := by
  have hconfig : (configOnly r.kind && !(s.configPort == some p)) = false := by
    cases hc : configOnly r.kind
    · rfl
    · simp [hport hc]
  simp [admission, hdev, kindAllowed, hconfig]

end

/-! ### Handles and rights at admission -/

theorem toHandle_of_val {b : Byte} {h : Handle} (hb : h.val = b.toNat) : toHandle b = h := by
  apply Fin.ext
  show b.toNat % 48 = h.val
  omega

theorem isHandle_of_val {b : Byte} {h : Handle} (hb : h.val = b.toNat) : isHandle b = true := by
  simp [isHandle, ← hb]

theorem State.isDefined_of {s : State} {h : Handle} {x : RecEntry} (hx : Defined s h x) : s.isDefined h = true := by
  simp [State.isDefined, hx]

theorem State.rightsOf_eq {s : State} {h : Handle} {x : RecEntry} (hx : Defined s h x) (p : Port) :
    s.rightsOf h p = x.rights.get p := by
  rw [State.rightsOf, State.entryOf_eq hx]

theorem Rights.visible_iff (r : Rights) :
    r.visible = true ↔ r.read = true ∨ r.update = true ∨ r.watch = true := by
  simp [Rights.visible, or_assoc]

/-- A token that is live for the port on the record is judged against its grant rights (08, R146). -/
theorem State.rightsFor_live {s : State} {p : Port} {entry count : Byte} {e : EntryNo} {l : Lease}
    (hl : Live s p entry count e l) : s.rightsFor p l.handle ⟨entry, count⟩ = l.grantRights := by
  obtain ⟨he, hlease, hp, hc⟩ := hl
  simp [State.rightsFor, State.liveLease_eq he hlease hp hc]

theorem State.liveLease_of_live {s : State} {p : Port} {entry count : Byte} {e : EntryNo} {l : Lease}
    (hl : Live s p entry count e l) : s.liveLease p ⟨entry, count⟩ = some (e, l) := by
  obtain ⟨he, hlease, hp, hc⟩ := hl
  exact State.liveLease_eq he hlease hp hc

theorem State.live_of_liveLease {s : State} {p : Port} {entry count : Byte} {e : EntryNo} {l : Lease}
    (hl : s.liveLease p ⟨entry, count⟩ = some (e, l)) : Live s p entry count e l :=
  State.liveLease_spec hl

theorem Token.isZero_of_live {s : State} {p : Port} {entry count : Byte} {e : EntryNo} {l : Lease}
    (hl : Live s p entry count e l) : Token.isZero ⟨entry, count⟩ = false := by
  obtain ⟨he, -⟩ := hl
  have : entry ≠ 0#8 := by rintro rfl; simp at he
  simp [Token.isZero, this]

theorem handOver_liveLease (s : State) (p q : Port) (t : Token) :
    (handOver p s).liveLease q t = s.liveLease q t := rfl

theorem withLease_live {s : State} {p : Port} {entry count : Byte} {e : EntryNo} {l : Lease}
    (hl : Live s p entry count e l) (tk : Ticket) (act : EntryNo → Lease → State → State) :
    withLease p tk ⟨entry, count⟩ act (handOver p s) = act e l (handOver p s) := by
  simp only [withLease, handOver_liveLease, State.liveLease_of_live hl]

theorem withLeaseOn_live {s : State} {p : Port} {entry count : Byte} {e : EntryNo} {l : Lease}
    (hl : Live s p entry count e l) (tk : Ticket) (act : EntryNo → Lease → State → State) :
    withLeaseOn p tk ⟨entry, count⟩ l.handle act (handOver p s) = act e l (handOver p s) := by
  simp only [withLeaseOn, handOver_liveLease, State.liveLease_of_live hl, if_true]

end Sys2Proof.Machine

/-! PROOF. Reading, staging and the requests on a live lease (02, R37; 03, R60 to R63; 04): each is admitted and its
owner's answer is the one that the statements give. -/

namespace Sys2Proof.Machine

open Sys2Proof.Safety
set_option deprecated.oldSectionVars true

/-! ### Request bodies -/

/-- Four bytes of a word, read back (10, R170). -/
theorem word32_be4 (w : Word32) :
    word32 (w.extractLsb' 24 8) (w.extractLsb' 16 8) (w.extractLsb' 8 8) (w.extractLsb' 0 8) = w := by
  apply BitVec.eq_of_toNat_eq
  rw [word32_toNat]
  simp only [BitVec.extractLsb'_toNat, Nat.shiftRight_eq_div_pow]
  have := w.isLt
  omega

theorem word32At_be4 (front rest : List Byte) (w : Word32) (i : Nat) (hi : front.length = i) :
    word32At (front ++ be4 w ++ rest) i = w := by
  subst hi
  have hbyte : ∀ k, byteAt (front ++ be4 w ++ rest) (front.length + k) = byteAt (be4 w ++ rest) k := fun k => by
    simp only [byteAt, List.append_assoc, List.getD_eq_getElem?_getD]
    rw [List.getElem?_append_right (Nat.le_add_right _ _), Nat.add_sub_cancel_left]
  rw [word32At, hbyte 1, hbyte 2, hbyte 3]
  rw [show byteAt (front ++ be4 w ++ rest) front.length = byteAt (be4 w ++ rest) 0 from hbyte 0]
  exact word32_be4 w

theorem parseReq_add (b entry count : Byte) (delta : Word32) :
    parseReq 0x13#8 ([b, entry, count] ++ be4 delta) = some (.add b ⟨entry, count⟩ delta) := by
  have hd : word32At ([b, entry, count] ++ be4 delta) 3 = delta := by
    simpa using word32At_be4 [b, entry, count] [] delta 3 rfl
  calc parseReq 0x13#8 ([b, entry, count] ++ be4 delta)
      = some (.add b ⟨entry, count⟩ (word32At ([b, entry, count] ++ be4 delta) 3)) := rfl
    _ = _ := by rw [hd]

theorem parseReq_stage (entry count offset : Byte) {data : List Byte} (h1 : 1 ≤ data.length)
    (h32 : data.length ≤ 32) :
    parseReq 0x12#8 ([entry, count, offset] ++ data) = some (.stage ⟨entry, count⟩ offset data) := by
  have hlen : lengthRight .stage ([entry, count, offset] ++ data).length = true := by
    simp only [lengthRight, List.length_append, List.length_cons, List.length_nil, Bool.and_eq_true, decide_eq_true_eq]
    omega
  show (if lengthRight .stage ([entry, count, offset] ++ data).length then
    some (bodyFields ([entry, count, offset] ++ data) .stage) else none) = _
  rw [if_pos hlen]
  rfl

theorem parseReq_read (b entry count offset length : Byte) :
    parseReq 0x10#8 [b, entry, count, offset, length] = some (.read b ⟨entry, count⟩ offset length) := rfl

theorem parseReq_onLease (entry count : Byte) :
    parseReq 0x14#8 [entry, count] = some (.commit ⟨entry, count⟩)
      ∧ parseReq 0x15#8 [entry, count] = some (.release ⟨entry, count⟩)
      ∧ parseReq 0x16#8 [entry, count] = some (.renew ⟨entry, count⟩) := ⟨rfl, rfl, rfl⟩

/-! ### Admission of the requests on a lease and of the kinds that name a record -/

section
variable {s : State} {p : Port} {h : Handle} {x : RecEntry}

theorem needVisible_of {rights : Handle → Rights} (hx : Defined s h x) (hv : (rights h).visible = true) :
    needVisible s (handleByte h) rights = true := by
  simp [needVisible, isHandle_handleByte, toHandle_handleByte, State.isDefined_of hx, hv]

theorem tokenUpdate_live {entry count : Byte} {e : EntryNo} {l : Lease} (hl : Live s p entry count e l) :
    tokenUpdate s p ⟨entry, count⟩ = l.grantRights.update := by
  simp only [tokenUpdate, State.liveLease_of_live hl]

theorem admission_read {t : Token} {offset length : Byte} (hdev : s.dev = .ready) (hx : Defined s h x)
    (hr : (s.rightsFor p h t).read = true) (h1 : 1 ≤ length.toNat) (h32 : length.toNat ≤ 32)
    (hsize : offset.toNat + length.toNat ≤ x.size.toNat) :
    admission s p (.read (handleByte h) t offset length) = none := by
  have hv : (s.rightsFor p h t).visible = true := (Rights.visible_iff _).2 (.inl hr)
  refine admission_passed (by rw [hdev]; rfl) nofun
    (needVisible_of (rights := fun h => s.rightsFor p h t) hx hv) ?_ rfl ?_ rfl
  · simpa [rightPasses, toHandle_handleByte] using hr
  · simp [rangePasses, toHandle_handleByte, State.entryOf_eq hx, h1, h32, hsize]

theorem admission_acquire (hdev : s.dev = .ready) (hx : Defined s h x) (hu : (x.rights.get p).update = true)
    (hf : x.frozen = false) (wait : Byte) : admission s p (.acquire (handleByte h) wait) = none := by
  have hr := State.rightsOf_eq hx p
  refine admission_passed (by rw [hdev]; rfl) nofun
    (needVisible_of (rights := fun h => s.rightsOf h p) hx ?_) ?_ ?_ rfl rfl
  · exact (Rights.visible_iff _).2 (.inr (.inl (hr ▸ hu)))
  · simpa [rightPasses, toHandle_handleByte, hr] using hu
  · simp [frozenPasses, toHandle_handleByte, State.entryOf_eq hx, hf]

theorem admission_add {t : Token} (hdev : s.dev = .ready) (hx : Defined s h x) (hk : x.kind = .counter)
    (hf : x.frozen = false) (hu : (s.rightsFor p h t).update = true) (delta : Word32) :
    admission s p (.add (handleByte h) t delta) = none := by
  refine admission_passed (by rw [hdev]; rfl) nofun
    (needVisible_of (rights := fun h => s.rightsFor p h t) hx ?_) ?_ ?_ rfl ?_
  · exact (Rights.visible_iff _).2 (.inr (.inl hu))
  · simpa [rightPasses, toHandle_handleByte] using hu
  · simp [frozenPasses, toHandle_handleByte, State.entryOf_eq hx, hf]
  · simp [kindPasses, toHandle_handleByte, State.entryOf_eq hx, hk]

theorem rightsFor_zero (hx : Defined s h x) : s.rightsFor p h ⟨0x00#8, 0x00#8⟩ = x.rights.get p := by
  rw [State.rightsFor_other (by rw [State.liveLease_zero]; exact fun _ _ hl => nomatch hl), State.rightsOf_eq hx]

variable {entry count : Byte} {e : EntryNo} {l : Lease}

theorem admission_onLease (hdev : s.dev = .ready) (hl : Live s p entry count e l) (hu : l.grantRights.update = true) :
    admission s p (.commit ⟨entry, count⟩) = none ∧ admission s p (.release ⟨entry, count⟩) = none
      ∧ admission s p (.renew ⟨entry, count⟩) = none := by
  have hright : tokenUpdate s p ⟨entry, count⟩ = true := (tokenUpdate_live hl).trans hu
  exact ⟨admission_passed (by rw [hdev]; rfl) nofun rfl hright rfl rfl rfl,
    admission_passed (by rw [hdev]; rfl) nofun rfl hright rfl rfl rfl,
    admission_passed (by rw [hdev]; rfl) nofun rfl hright rfl rfl rfl⟩

theorem admission_stage (hdev : s.dev = .ready) (hl : Live s p entry count e l) (hu : l.grantRights.update = true)
    {offset : Byte} (ho : offset.toNat ≤ 239) (data : List Byte) :
    admission s p (.stage ⟨entry, count⟩ offset data) = none :=
  admission_passed (by rw [hdev]; rfl) nofun rfl ((tokenUpdate_live hl).trans hu) rfl (decide_eq_true ho) rfl

end

/-! ### READ -/

/-- Bytes read from the store, sliced. -/
theorem slice_readBytes (m : List Host.Cell) (a : Nat) {n off len : Nat} (h : off + len ≤ n) :
    slice (Memory.readBytes m a n) off len = (List.range len).map fun i => Memory.read m (a + off + i) := by
  apply List.ext_getElem
  · simp [slice, Memory.readBytes]
    omega
  · intro i h1 h2
    simp [slice, Memory.readBytes, Nat.add_assoc]

theorem slice_committedData {s : State} {h : Handle} {x : RecEntry} (hx : Defined s h x) {off len : Nat}
    (hsize : off + len ≤ x.size.toNat) :
    slice (s.committedData h) off len = (List.range len).map fun i =>
      match (s.record h).active with
      | none => 0x00#8
      | some c => Memory.read s.store (32 * x.firstPage c + 16 + off + i) := by
  rw [State.committedData, State.entryOf_eq hx]
  cases (s.record h).active with
  | none =>
    apply List.ext_getElem
    · simp [slice]
      omega
    · intro i h1 h2
      simp [slice]
  | some c => exact slice_readBytes _ _ hsize

/-- Settles O16. -/
theorem readReturnsCommittedOrStagedData : Obligations.ReadReturnsCommittedOrStagedData := by
  unfold Obligations.ReadReturnsCommittedOrStagedData
  constructor
  · intro s p t h x offset length hask hdev hx hr h1 h32 hsize
    obtain ⟨serial, hpl⟩ := hask
    have hreq := State.oldestRequest_eq hpl.1 hpl.2 (parseReq_read (handleByte h) 0x00#8 0x00#8 offset length)
    have hadm : admission s p (.read (handleByte h) ⟨0x00#8, 0x00#8⟩ offset length) = none :=
      admission_read hdev hx (by rw [rightsFor_zero hx]; exact hr) h1 h32 hsize
    refine (exec_taken hreq hadm).trans ?_
    show Host.Outcome.next (takeRead ⟨p, t, serial⟩ (toHandle (handleByte h)) offset length (handOver p s)) = _
    rw [toHandle_handleByte, ← complete_handOver_eq_answered hpl.2]
    exact congrArg (fun data => Host.Outcome.next (complete ⟨p, t, serial⟩ .ok (be4 (s.record h).gen ++ data)
      (handOver p s))) (slice_committedData hx hsize)
  · intro s p t h x entry count offset length e l hask hdev hx hl hh hr h1 h32 hsize
    subst hh
    obtain ⟨serial, hpl⟩ := hask
    have hreq := State.oldestRequest_eq hpl.1 hpl.2 (parseReq_read (handleByte l.handle) entry count offset length)
    have hadm : admission s p (.read (handleByte l.handle) ⟨entry, count⟩ offset length) = none :=
      admission_read hdev hx (by rw [State.rightsFor_live hl]; exact hr) h1 h32 hsize
    have hexec := exec_taken hreq hadm
    simp only [commandOf, ownerOf, Token.isZero_of_live hl, Bool.false_eq_true, if_false, toHandle_handleByte,
      withLeaseOn_live hl] at hexec
    rw [hexec, ← complete_handOver_eq_answered hpl.2]
    rfl

/-! ### STAGE and ADD with a token -/

theorem takeStage_held {l : Lease} (hheld : l.phase = .held) (tk : Ticket) (offset : Byte) (data : List Byte)
    (e : EntryNo) (s : State) :
    takeStage tk offset data e l s =
      if (s.entryOf l.handle).size.toNat < offset.toNat + data.length then complete tk .range [] s
      else complete tk .ok [] (writeBuffer e l offset.toNat data s) := by
  simp only [takeStage, hheld]

theorem takeTokenAdd_held {l : Lease} (hheld : l.phase = .held) (tk : Ticket) (delta : Word32) (e : EntryNo)
    (s : State) :
    takeTokenAdd tk delta e l s =
      complete tk (addStatus (addDelta (counterValue (s.buffer e).bytes) delta).2)
        (be4 (addDelta (counterValue (s.buffer e).bytes) delta).1 ++ be4 (s.record l.handle).gen)
        (writeBuffer e l 0 (be4 (addDelta (counterValue (s.buffer e).bytes) delta).1) s) := by
  simp only [takeTokenAdd, hheld]

/-- Settles O19. -/
theorem stageWritesTheBuffer : Obligations.StageWritesTheBuffer := by
  unfold Obligations.StageWritesTheBuffer
  intro s p t entry count offset data e l x hask hdev h1 h32 ho hl hu hheld hx
  obtain ⟨serial, hpl⟩ := hask
  have hreq := State.oldestRequest_eq hpl.1 hpl.2 (parseReq_stage entry count offset h1 h32)
  have hexec : exec (.stage p) s = .next (takeStage ⟨p, t, serial⟩ offset data e l (handOver p s)) := by
    refine (exec_taken hreq (admission_stage hdev hl hu ho data)).trans ?_
    exact congrArg Host.Outcome.next (withLease_live hl _ _)
  have hsize : (handOver p s).entryOf l.handle = x := State.entryOf_eq hx
  rw [hexec, takeStage_held hheld, hsize]
  constructor
  · intro hfits
    rw [if_neg (by omega)]
    exact congrArg Host.Outcome.next
      (complete_handOver_eq_answered (s := writeBuffer e l offset.toNat data s) hpl.2 _ _)
  · intro hpast
    rw [if_pos hpast, complete_handOver_eq_answered hpl.2]

/-- Settles O20. -/
theorem addWithTokenChangesStagedValue : Obligations.AddWithTokenChangesStagedValue := by
  unfold Obligations.AddWithTokenChangesStagedValue
  intro s p t h x entry count delta e l b0 b1 b2 b3 rest hask hdev hx hk hf hl hh hu hheld hbytes
  subst hh
  obtain ⟨serial, hpl⟩ := hask
  have hreq := State.oldestRequest_eq hpl.1 hpl.2 (parseReq_add (handleByte l.handle) entry count delta)
  have hadm := admission_add hdev hx hk hf (by rw [State.rightsFor_live hl]; exact hu) delta
  have hexec := exec_taken hreq hadm
  simp only [commandOf, ownerOf, Token.isZero_of_live hl, Bool.false_eq_true, if_false, toHandle_handleByte,
    withLeaseOn_live hl] at hexec
  have hval : counterValue ((handOver p s).buffer e).bytes = b0 ++ b1 ++ b2 ++ b3 := by
    show counterValue (s.buffer e).bytes = _
    rw [hbytes]
    rfl
  have hover : ∀ w : Word32, overwrite (s.buffer e).bytes 0 (be4 w) = be4 w ++ rest := fun w => by
    rw [hbytes]
    rfl
  rw [hexec, takeTokenAdd_held hheld, hval, addDelta_eq, ← hover]
  simp only [addStatus, decide_eq_true_eq]
  exact congrArg Host.Outcome.next
    (complete_handOver_eq_answered
      (s := writeBuffer e l 0 (be4 (clampedValue (b0 ++ b1 ++ b2 ++ b3) delta)) s) hpl.2 _ _)

/-! ### RENEW, RELEASE and COMMIT -/

section
variable {s : State} {p : Port} {t : Tag} {serial : Nat} {entry count : Byte} {e : EntryNo} {l : Lease}

theorem exec_renew_live (hpl : Placed s p t serial 0x16#8 [entry, count]) (hdev : s.dev = .ready)
    (hl : Live s p entry count e l) (hu : l.grantRights.update = true) :
    exec (.renew p) s = .next (takeRenew ⟨p, t, serial⟩ e l (handOver p s)) := by
  have hreq := State.oldestRequest_eq hpl.1 hpl.2 (parseReq_onLease entry count).2.2
  obtain ⟨-, -, hadm⟩ := admission_onLease hdev hl hu
  exact (exec_taken hreq hadm).trans (congrArg Host.Outcome.next (withLease_live hl _ _))

theorem exec_release_live (hpl : Placed s p t serial 0x15#8 [entry, count]) (hdev : s.dev = .ready)
    (hl : Live s p entry count e l) (hu : l.grantRights.update = true) :
    exec (.release p) s = .next (takeRelease ⟨p, t, serial⟩ e l (handOver p s)) := by
  have hreq := State.oldestRequest_eq hpl.1 hpl.2 (parseReq_onLease entry count).2.1
  obtain ⟨-, hadm, -⟩ := admission_onLease hdev hl hu
  exact (exec_taken hreq hadm).trans (congrArg Host.Outcome.next (withLease_live hl _ _))

theorem exec_commit_live (hpl : Placed s p t serial 0x14#8 [entry, count]) (hdev : s.dev = .ready)
    (hl : Live s p entry count e l) (hu : l.grantRights.update = true) :
    exec (.commit p) s = .next (takeCommit ⟨p, t, serial⟩ e l (handOver p s)) := by
  have hreq := State.oldestRequest_eq hpl.1 hpl.2 (parseReq_onLease entry count).1
  obtain ⟨hadm, -, -⟩ := admission_onLease hdev hl hu
  exact (exec_taken hreq hadm).trans (congrArg Host.Outcome.next (withLease_live hl _ _))

/-- The request that frees its lease is answered before the grant onward (03, R61, R63). -/
theorem complete_freeLease_handOver {kind : Byte} {b : List Byte} (hslot : (s.port p).slots.get t = .pending serial kind b)
    (code : Status) (body : List Byte) :
    complete ⟨p, t, serial⟩ code body (freeLease e (handOver p s)) = answered (freed s e) p t code body :=
  complete_handOver_eq_answered (s := freed s e) hslot code body

theorem takeRelease_held {kind : Byte} {b : List Byte} (hslot : (s.port p).slots.get t = .pending serial kind b)
    (hheld : l.phase = .held) :
    takeRelease ⟨p, t, serial⟩ e l (handOver p s) = grantOnward e l.handle (answered (freed s e) p t .ok []) := by
  simp only [takeRelease, hheld]
  rw [complete_freeLease_handOver hslot]

theorem takeCommit_unmodified {kind : Byte} {b : List Byte} (hslot : (s.port p).slots.get t = .pending serial kind b)
    (hheld : l.phase = .held) (hm : l.modified = false) :
    takeCommit ⟨p, t, serial⟩ e l (handOver p s)
      = grantOnward e l.handle (answered (freed s e) p t .unchanged (be4 (s.record l.handle).gen)) := by
  simp only [takeCommit, hheld, hm, if_true]
  rw [complete_freeLease_handOver hslot]
  rfl

theorem takeCommit_spent {kind : Byte} {b : List Byte} (hslot : (s.port p).slots.get t = .pending serial kind b)
    (hheld : l.phase = .held) (hm : l.modified = true) (hg : (s.record l.handle).gen = 0xFFFFFFFF#32) :
    takeCommit ⟨p, t, serial⟩ e l (handOver p s)
      = grantOnward e l.handle (answered (freed s e) p t .genSpent []) := by
  have hg' : ((handOver p s).record l.handle).gen = genSpentMark := hg
  simp only [takeCommit, hheld, hm, hg', Bool.true_eq_false, if_false, if_true]
  rw [complete_freeLease_handOver hslot]

theorem takeRenew_held (hheld : l.phase = .held) (tk : Ticket) (s : State) :
    takeRenew tk e l s =
      if l.renewals < 4 then
        complete tk .ok [BitVec.ofNat 8 (4 - (l.renewals + 1))]
          (s.setLease e
            { s.lease e with
              lease := some
                { l with renewals := l.renewals + 1, timer := some (s.entryOf l.handle).holdLimit.toNat } })
      else complete tk .limit [] s := by
  simp only [takeRenew, hheld]

end

/-- Settles O25. -/
theorem renewRestartsTheHoldTimer : Obligations.RenewRestartsTheHoldTimer := by
  unfold Obligations.RenewRestartsTheHoldTimer
  intro s p t entry count e l x hask hdev hl hu hheld hx
  obtain ⟨serial, hpl⟩ := hask
  have hsize : (handOver p s).entryOf l.handle = x := State.entryOf_eq hx
  rw [exec_renew_live hpl hdev hl hu, takeRenew_held hheld, hsize]
  constructor
  · intro hleft
    rw [if_pos hleft, show 4 - (l.renewals + 1) = 3 - l.renewals by omega]
    exact congrArg Host.Outcome.next (complete_handOver_eq_answered (s := s.setLease e _) hpl.2 _ _)
  · intro hspent
    rw [if_neg (by omega), complete_handOver_eq_answered hpl.2]

/-- Settles O23. -/
theorem releaseAndJoblessCommitFreeTheLease : Obligations.ReleaseAndJoblessCommitFreeTheLease := by
  unfold Obligations.ReleaseAndJoblessCommitFreeTheLease
  intro s p t entry count e l hdev hl hu hheld hwait
  obtain ⟨hqueue, hwaiters⟩ := hwait
  have hnone : ∀ code body, grantOnward e l.handle (answered (freed s e) p t code body)
      = answered (freed s e) p t code body := fun code body => grantOnward_none e hqueue hwaiters
  refine ⟨?_, ?_, ?_⟩
  · rintro ⟨serial, hpl⟩
    rw [exec_release_live hpl hdev hl hu, takeRelease_held hpl.2 hheld, hnone]
  · rintro ⟨serial, hpl⟩ hm
    rw [exec_commit_live hpl hdev hl hu, takeCommit_unmodified hpl.2 hheld hm, hnone]
  · rintro ⟨serial, hpl⟩ hm hg
    rw [exec_commit_live hpl hdev hl hu, takeCommit_spent hpl.2 hheld hm hg, hnone]

theorem handJob_eq_withJob (j : Job) (s : State) : handJob j s = withJob s j := by
  rw [handJob_eq, withJob]

/-- The job of a lease entry on a defined record (05, R83, R84). -/
theorem State.recordJob_eq {s : State} {h : Handle} {x : RecEntry} (hx : Defined s h x) (e : EntryNo) :
    s.recordJob e h = .record e h (target (s.record h).active) (x.firstPage (target (s.record h).active))
      ((x.size.toNat + 16 + 31) / 32) ((s.record h).gen + 1#32) := by
  rw [State.recordJob, State.entryOf_eq hx, targetCopy_eq_target]
  rfl

theorem beginCommit_eq {s : State} {l : Lease} {x : RecEntry} (hx : Defined s l.handle x) (tk : Ticket) (e : EntryNo) :
    beginCommit tk e l s =
      withJob
        (s.setLease e { s.lease e with lease := some { l with phase := .committing, timer := none, answer := some tk } })
        (.record e l.handle (target (s.record l.handle).active) (x.firstPage (target (s.record l.handle).active))
          ((x.size.toNat + 16 + 31) / 32) ((s.record l.handle).gen + 1#32)) := by
  rw [beginCommit, handJob_eq_withJob, State.recordJob_eq (s := s.setLease e _) hx]
  rfl

/-- Settles O22. -/
theorem commitQueuesARecordJob : Obligations.CommitQueuesARecordJob := by
  unfold Obligations.CommitQueuesARecordJob
  intro s p t serial entry count e l x hpl hdev hl hu hheld hm hx hg
  have hg' : ((handOver p s).record l.handle).gen ≠ genSpentMark := hg
  have htake : takeCommit ⟨p, t, serial⟩ e l (handOver p s) = beginCommit ⟨p, t, serial⟩ e l (handOver p s) := by
    simp only [takeCommit, hheld, hm, hg', Bool.true_eq_false, if_false]
  rw [exec_commit_live hpl hdev hl hu, htake, beginCommit_eq (s := handOver p s) hx, handOver_eq_handed]
  rfl

end Sys2Proof.Machine

/-! PROOF. ACQUIRE and ADD without a token (03, R52, R54): granted at once, waiting or refused; CANCEL and the two
expiries (03, R58, R59, R62). -/

namespace Sys2Proof.Machine

open Sys2Proof.Safety
set_option deprecated.oldSectionVars true

/-! ### The lease state of a record -/

theorem State.leaseOn_none_iff_unleased {s : State} {h : Handle} : s.leaseOn h = none ↔ Unleased s h := by
  rw [State.leaseOn_none]
  simp only [Unleased, leasedHandle, ne_eq, Option.map_eq_some_iff, not_exists, not_and]

theorem State.recordFree_iff {s : State} {h : Handle} : s.recordFree h = true ↔ Unleased s h := by
  rw [State.recordFree, Option.isNone_iff_eq_none, State.leaseOn_none_iff_unleased]

theorem State.leaseOn_of_not_unleased {s : State} {h : Handle} (hu : ¬ Unleased s h) :
    ∃ e l, s.leaseOn h = some (e, l) ∧ (s.lease e).lease = some l ∧ l.handle = h := by
  cases hl : s.leaseOn h with
  | none => exact absurd (State.leaseOn_none_iff_unleased.1 hl) hu
  | some a =>
    obtain ⟨e, l⟩ := a
    exact ⟨e, l, rfl, State.leaseOn_spec hl⟩

theorem notHeldBy_of_unleased {s : State} {h : Handle} (hu : Unleased s h) (p : Port) : NotHeldBy s p h := fun e => by
  have he := hu e
  cases hl : (s.lease e).lease with
  | none => rfl
  | some l =>
    have hne : l.handle ≠ h := fun hh => he (by simp [leasedHandle, hl, hh])
    simp [hne]

theorem State.holds_eq_false {s : State} {p : Port} {h : Handle} (hn : NotHeldBy s p h) : s.holds p h = false := by
  rw [State.holds]
  cases hl : s.leaseOn h with
  | none => rfl
  | some a =>
    obtain ⟨e, l⟩ := a
    obtain ⟨hlease, hh⟩ := State.leaseOn_spec hl
    have he := hn e
    simpa [hlease, hh] using he

theorem State.holds_eq_true {s : State} {p : Port} {h : Handle}
    (hp : ∀ e l, (s.lease e).lease = some l → l.handle = h → l.holder = p) (hu : ¬ Unleased s h) :
    s.holds p h = true := by
  obtain ⟨e, l, hl, hlease, hh⟩ := State.leaseOn_of_not_unleased hu
  simp [State.holds, hl, hp e l hlease hh]

theorem State.entryAtOnce_eq {s : State} {h : Handle} {e : EntryNo} (hu : Unleased s h)
    (hw : (s.record h).waiters = []) (he : FirstFree s e) : s.entryAtOnce h = some e := by
  rw [State.entryAtOnce, if_pos ⟨State.recordFree_iff.2 hu, hw⟩, State.lowestFree_eq he.1 he.2]

theorem State.entryAtOnce_none {s : State} {h : Handle}
    (hn : ¬ Unleased s h ∨ (s.record h).waiters ≠ [] ∨ ∀ e, (s.lease e).lease ≠ none) : s.entryAtOnce h = none := by
  rw [State.entryAtOnce]
  split
  next hc =>
    obtain ⟨hfree, hw⟩ := hc
    exact State.lowestFree_none ((hn.resolve_left (not_not.2 (State.recordFree_iff.1 hfree))).resolve_left (not_not.2 hw))
  next => rfl

/-! ### The five outcomes of an ACQUIRE and of an ADD without a token -/

section
variable {s : State} {h : Handle} {tk : Ticket}

theorem takeAcquire_retiring (hr : (s.record h).retirePending = true) (wait : Byte) :
    takeAcquire tk h wait s = complete tk .inUse [] s := by
  simp only [takeAcquire, hr, if_true]

theorem takeFreeAdd_retiring (hr : (s.record h).retirePending = true) (delta : Word32) :
    takeFreeAdd tk h delta s = complete tk .inUse [] s := by
  simp only [takeFreeAdd, hr, if_true]

theorem takeAcquire_freezing (hr : (s.record h).retirePending = false) (hf : (s.record h).freezePending = true)
    (wait : Byte) : takeAcquire tk h wait s = complete tk .frozen [] s := by
  simp only [takeAcquire, hr, hf, if_true, Bool.false_eq_true, if_false]

theorem takeFreeAdd_freezing (hr : (s.record h).retirePending = false) (hf : (s.record h).freezePending = true)
    (delta : Word32) : takeFreeAdd tk h delta s = complete tk .frozen [] s := by
  simp only [takeFreeAdd, hr, hf, if_true, Bool.false_eq_true, if_false]

theorem takeAcquire_own (hr : (s.record h).retirePending = false) (hf : (s.record h).freezePending = false)
    (hp : s.holds tk.port h = true) (wait : Byte) : takeAcquire tk h wait s = complete tk .inUse [] s := by
  simp only [takeAcquire, hr, hf, hp, if_true, Bool.false_eq_true, if_false]

theorem takeFreeAdd_own (hr : (s.record h).retirePending = false) (hf : (s.record h).freezePending = false)
    (hp : s.holds tk.port h = true) (delta : Word32) : takeFreeAdd tk h delta s = complete tk .inUse [] s := by
  simp only [takeFreeAdd, hr, hf, hp, if_true, Bool.false_eq_true, if_false]

variable (hr : (s.record h).retirePending = false) (hf : (s.record h).freezePending = false)
include hr hf

theorem takeAcquire_atOnce {e : EntryNo} (hu : Unleased s h) (hw : (s.record h).waiters = []) (he : FirstFree s e)
    (wait : Byte) : takeAcquire tk h wait s = grantExplicit e h tk s := by
  simp only [takeAcquire, hr, hf, State.holds_eq_false (notHeldBy_of_unleased hu tk.port), Bool.false_eq_true,
    if_false, State.entryAtOnce_eq hu hw he]

theorem takeFreeAdd_atOnce {e : EntryNo} (hu : Unleased s h) (hw : (s.record h).waiters = []) (he : FirstFree s e)
    (delta : Word32) :
    takeFreeAdd tk h delta s =
      if (s.record h).gen = genSpentMark then complete tk .genSpent [] s else grantImplicit e h tk delta s := by
  simp only [takeFreeAdd, hr, hf, State.holds_eq_false (notHeldBy_of_unleased hu tk.port), Bool.false_eq_true,
    if_false, State.entryAtOnce_eq hu hw he]

theorem takeAcquire_later (hn : NotHeldBy s tk.port h)
    (hl : ¬ Unleased s h ∨ (s.record h).waiters ≠ [] ∨ ∀ e, (s.lease e).lease ≠ none) (wait : Byte) :
    takeAcquire tk h wait s =
      if wait = 0#8 then complete tk .busy [] s else joinWaiters h ⟨tk, .acquire wait.toNat⟩ s := by
  simp only [takeAcquire, hr, hf, State.holds_eq_false hn, Bool.false_eq_true, if_false, State.entryAtOnce_none hl]

theorem takeFreeAdd_later (hn : NotHeldBy s tk.port h)
    (hl : ¬ Unleased s h ∨ (s.record h).waiters ≠ [] ∨ ∀ e, (s.lease e).lease ≠ none) (delta : Word32) :
    takeFreeAdd tk h delta s = joinWaiters h ⟨tk, .add delta⟩ s := by
  simp only [takeFreeAdd, hr, hf, State.holds_eq_false hn, Bool.false_eq_true, if_false, State.entryAtOnce_none hl]

end

/-- A waiter joins the tail of the queue, and the record that of the allocation queue (03, R52, R54). -/
theorem joinWaiters_handOver (s : State) (p : Port) (h : Handle) (w : Waiter) :
    joinWaiters h w (handOver p s) =
      { (handed s p).setWaiters h ((s.record h).waiters ++ [w]) with
        allocQueue := if Unleased s h ∧ h ∉ s.allocQueue then s.allocQueue ++ [h] else s.allocQueue } := by
  have halloc : (if (handOver p s).recordFree h ∧ h ∉ (handOver p s).allocQueue then (handOver p s).allocQueue ++ [h]
      else (handOver p s).allocQueue) = if Unleased s h ∧ h ∉ s.allocQueue then s.allocQueue ++ [h] else s.allocQueue :=
    if_congr (and_congr_left fun _ => State.recordFree_iff) rfl rfl
  rw [joinWaiters_eq, halloc, handOver_eq_handed]
  rfl

section
variable {s : State} {p : Port} {t : Tag} {serial : Nat} {h : Handle} {x : RecEntry}

theorem exec_acquire_taken {wait : Byte} (hpl : Placed s p t serial 0x11#8 [handleByte h, wait])
    (hdev : s.dev = .ready) (hx : Defined s h x) (hu : (x.rights.get p).update = true) (hf : x.frozen = false) :
    exec (.acquire p) s = .next (takeAcquire ⟨p, t, serial⟩ h wait (handOver p s)) := by
  have hreq := State.oldestRequest_eq hpl.1 hpl.2
    (show parseReq 0x11#8 [handleByte h, wait] = some (.acquire (handleByte h) wait) from rfl)
  have hexec := exec_taken hreq (admission_acquire hdev hx hu hf wait)
  rwa [ownerOf, toHandle_handleByte] at hexec

theorem exec_freeAdd_taken {delta : Word32}
    (hpl : Placed s p t serial 0x13#8 ([handleByte h, 0x00#8, 0x00#8] ++ be4 delta))
    (hdev : s.dev = .ready) (hx : Defined s h x) (hk : x.kind = .counter) (hu : (x.rights.get p).update = true)
    (hf : x.frozen = false) :
    exec (.addWithoutToken p) s = .next (takeFreeAdd ⟨p, t, serial⟩ h delta (handOver p s)) := by
  have hreq := State.oldestRequest_eq hpl.1 hpl.2 (parseReq_add (handleByte h) 0x00#8 0x00#8 delta)
  have hexec := exec_taken hreq (admission_add hdev hx hk hf (by rw [rightsFor_zero hx]; exact hu) delta)
  have hzero : Token.isZero ⟨0x00#8, 0x00#8⟩ = true := rfl
  simpa only [commandOf, ownerOf, hzero, if_true, toHandle_handleByte] using hexec

end

/-- Settles O17. -/
theorem acquireIsGrantedAtOnce : Obligations.AcquireIsGrantedAtOnce := by
  unfold Obligations.AcquireIsGrantedAtOnce
  intro s p t h x wait e hask hdev hx hu hfrozen hr hf hfree hw he
  obtain ⟨serial, hpl⟩ := hask
  rw [exec_acquire_taken hpl hdev hx hu hfrozen, takeAcquire_atOnce (s := handOver p s) hr hf hfree hw he,
    grantExplicit_eq (handOver p s) e h x _ 0 hx]
  exact congrArg Host.Outcome.next (complete_handOver_eq_answered (s := (s.setLease e _).setBuffer e _) hpl.2 _ _)

/-- Settles O18. -/
theorem acquireOrAddWaitsOrIsRefused : Obligations.AcquireOrAddWaitsOrIsRefused := by
  unfold Obligations.AcquireOrAddWaitsOrIsRefused
  constructor
  · intro s p t serial h x wait hpl hdev hx hu hfrozen
    rw [exec_acquire_taken hpl hdev hx hu hfrozen]
    refine ⟨fun hr => ?_, fun hr hf => ?_, fun hr hf hp hn => ?_, fun hr hf hn hl => ⟨fun h0 => ?_, fun h0 => ?_⟩⟩
    · rw [takeAcquire_retiring (s := handOver p s) hr, complete_handOver_eq_answered hpl.2]
    · rw [takeAcquire_freezing (s := handOver p s) hr hf, complete_handOver_eq_answered hpl.2]
    · rw [takeAcquire_own (s := handOver p s) (tk := ⟨p, t, serial⟩) hr hf
          (State.holds_eq_true (s := s) (p := p) hp hn),
        complete_handOver_eq_answered hpl.2]
    · rw [takeAcquire_later (s := handOver p s) hr hf hn hl, if_pos h0, complete_handOver_eq_answered hpl.2]
    · rw [takeAcquire_later (s := handOver p s) hr hf hn hl, if_neg h0, joinWaiters_handOver]
  · intro s p t serial h x delta hpl hdev hx hk hu hfrozen
    rw [exec_freeAdd_taken hpl hdev hx hk hu hfrozen]
    refine ⟨fun hr => ?_, fun hr hf => ?_, fun hr hf hp hn => ?_, fun hr hf hn hl => ?_⟩
    · rw [takeFreeAdd_retiring (s := handOver p s) hr, complete_handOver_eq_answered hpl.2]
    · rw [takeFreeAdd_freezing (s := handOver p s) hr hf, complete_handOver_eq_answered hpl.2]
    · rw [takeFreeAdd_own (s := handOver p s) (tk := ⟨p, t, serial⟩) hr hf
          (State.holds_eq_true (s := s) (p := p) hp hn),
        complete_handOver_eq_answered hpl.2]
    · rw [takeFreeAdd_later (s := handOver p s) hr hf hn hl, joinWaiters_handOver]

/-- Settles O21. -/
theorem addIsGrantedImplicitly : Obligations.AddIsGrantedImplicitly := by
  unfold Obligations.AddIsGrantedImplicitly
  intro s p t serial h x delta e hpl hdev hx hk hfrozen hu hr hf hfree hw he
  rw [exec_freeAdd_taken hpl hdev hx hk hu hfrozen, takeFreeAdd_atOnce (s := handOver p s) hr hf hfree hw he]
  constructor
  · intro hg
    rw [if_pos (by exact hg), complete_handOver_eq_answered hpl.2]
  · intro hg
    rw [if_neg (by exact hg), grantImplicit_eq (handOver p s) e h x _ delta hx, handOver_eq_handed]
    rfl

/-! ### CANCEL and the expiries -/

/-- The completion of a request that still holds its slot (07, R128, R129). -/
theorem complete_eq_completed {s : State} {p : Port} {t : Tag} {serial : Nat} {kind : Byte} {b : List Byte}
    (hslot : (s.port p).slots.get t = .pending serial kind b) (code : Status) (body : List Byte) :
    complete ⟨p, t, serial⟩ code body s = completed s p t code body :=
  complete_of_pending (tk := ⟨p, t, serial⟩) code body hslot

theorem handed_slot (s : State) (p q : Port) (u : Tag) :
    ((handed s p).port q).slots.get u = (s.port q).slots.get u := by
  rw [handed, State.setPort_port]
  split
  next h => rw [h]
  next => rfl

theorem completed_slot_ne {s : State} {p : Port} {t u : Tag} (hut : t ≠ u) (code : Status) (body : List Byte) :
    ((completed s p t code body).port p).slots.get u = (s.port p).slots.get u := by
  rw [completed, State.setPort_port_same, vector_get_set, if_neg hut]

theorem Waiter.isOf_iff {p : Port} {t : Tag} {w : Waiter} :
    w.isOf p t = true ↔ w.ticket.port = p ∧ w.ticket.tag = t := by
  simp [Waiter.isOf]

theorem Waiter.isOf_eq_false {p : Port} {t : Tag} {w : Waiter} (h : ¬ (w.ticket.port = p ∧ w.ticket.tag = t)) :
    w.isOf p t = false :=
  Bool.eq_false_iff.2 fun hw => h (Waiter.isOf_iff.1 hw)

theorem State.findWaiter_none {s : State} {p : Port} {t : Tag}
    (h : ∀ k w, w ∈ (s.record k).waiters → ¬ (w.ticket.port = p ∧ w.ticket.tag = t)) : s.findWaiter p t = none := by
  rw [State.findWaiter, List.findSome?_eq_none_iff]
  intro k _
  have hk : (s.record k).waiters.find? (Waiter.isOf p t) = none :=
    List.find?_eq_none.2 fun w hw => by simp [Waiter.isOf_eq_false (h k w hw)]
  rw [hk]

/-- The waiter found is the one that stands in the tag (03, R62). -/
theorem State.findWaiter_spec {s : State} {p : Port} {t : Tag} {h : Handle} {w : Waiter}
    (hw : s.findWaiter p t = some (h, w)) :
    w ∈ (s.record h).waiters ∧ w.ticket.port = p ∧ w.ticket.tag = t := by
  obtain ⟨k, -, hk⟩ := List.exists_of_findSome?_eq_some hw
  cases hf : (s.record k).waiters.find? (Waiter.isOf p t) with
  | none => simp [hf] at hk
  | some v =>
    simp only [hf, Option.some.injEq, Prod.mk.injEq] at hk
    obtain ⟨rfl, rfl⟩ := hk
    exact ⟨List.mem_of_find?_eq_some hf, Waiter.isOf_iff.1 (List.find?_some hf)⟩

section
variable {s : State} {p : Port} {u : Tag} {h : Handle} {before after : List Waiter} {w : Waiter}
  (hw : (s.record h).waiters = before ++ w :: after) (hp : w.ticket.port = p) (hu : w.ticket.tag = u)
  (hne : ∀ v, v ∈ before ++ after → ¬ (v.ticket.port = p ∧ v.ticket.tag = u))
include hw hp hu hne

theorem waiters_filter_of_only : (s.record h).waiters.filter (fun v => !v.isOf p u) = before ++ after := by
  have hkeep : (before ++ after).filter (fun v => !v.isOf p u) = before ++ after :=
    List.filter_eq_self.2 fun v hv => by simp [Waiter.isOf_eq_false (hne v hv)]
  rw [List.filter_append] at hkeep
  rw [hw, List.filter_append, List.filter_cons_of_neg (by simp [Waiter.isOf_iff.2 ⟨hp, hu⟩]), hkeep]

/-- The one waiter of a tag is the one found. -/
theorem State.findWaiter_eq (ho : ∀ k, k ≠ h → ∀ v, v ∈ (s.record k).waiters → ¬ (v.ticket.port = p ∧ v.ticket.tag = u)) :
    s.findWaiter p u = some (h, w) := by
  cases hf : s.findWaiter p u with
  | none =>
    rw [State.findWaiter, List.findSome?_eq_none_iff] at hf
    have hh := hf h (List.mem_finRange h)
    split at hh
    · cases hh
    next hnone =>
      exact absurd (Waiter.isOf_iff.2 ⟨hp, hu⟩)
        (List.find?_eq_none.1 hnone w (by rw [hw]; exact List.mem_append_right _ List.mem_cons_self))
  | some a =>
    obtain ⟨k, v⟩ := a
    obtain ⟨hv, hvof⟩ := State.findWaiter_spec hf
    obtain rfl : k = h := by_contra fun hk => ho k hk v hv hvof
    rw [hw, List.mem_append, List.mem_cons] at hv
    have hvw : v = w := by
      by_contra hvw
      exact hne v (by rw [List.mem_append]; tauto) hvof
    rw [hvw]

theorem dropWaiter_of_only : dropWaiter h p u s =
    { s.setWaiters h (before ++ after) with
      allocQueue := if before ++ after = [] then s.allocQueue.filter (fun k => k != h) else s.allocQueue } := by
  rw [dropWaiter_eq]
  simp only [waiters_filter_of_only hw hp hu hne]

end

theorem toTag_ofNat (u : Tag) : toTag (BitVec.ofNat 8 u.val) = u := by
  apply Fin.ext
  have := u.isLt
  simp only [toTag, BitVec.toNat_ofNat]
  omega

theorem exec_cancel_taken {s : State} {p : Port} {t u : Tag} {serial : Nat}
    (hpl : Placed s p t serial 0x17#8 [BitVec.ofNat 8 u.val]) (hdev : s.dev = .ready) :
    exec (.cancel p) s = .next (takeCancel ⟨p, t, serial⟩ u (handOver p s)) := by
  have hreq := State.oldestRequest_eq hpl.1 hpl.2
    (show parseReq 0x17#8 [BitVec.ofNat 8 u.val] = some (.cancel (BitVec.ofNat 8 u.val)) from rfl)
  have hrange : rangePasses s (.cancel (BitVec.ofNat 8 u.val)) = true := by
    have := u.isLt
    simp only [rangePasses, BitVec.toNat_ofNat, decide_eq_true_eq]
    omega
  have hexec := exec_taken hreq (admission_passed (by rw [hdev]; rfl) nofun rfl rfl rfl hrange rfl)
  rwa [ownerOf, toTag_ofNat] at hexec

/-- Two requests of one port are answered one after another. -/
theorem complete_complete {s : State} {p : Port} {t u : Tag} {serial serial' : Nat} {kind kind' : Byte}
    {b b' : List Byte} (hut : u ≠ t) (hu : (s.port p).slots.get u = .pending serial' kind' b')
    (ht : (s.port p).slots.get t = .pending serial kind b) (first second : Status) :
    complete ⟨p, t, serial⟩ second [] (complete ⟨p, u, serial'⟩ first [] s)
      = completed (completed s p u first []) p t second [] := by
  rw [complete_eq_completed hu, complete_eq_completed ((completed_slot_ne hut first []).trans ht)]

/-- Settles O26. -/
theorem cancelWithdrawsTheWaiter : Obligations.CancelWithdrawsTheWaiter := by
  unfold Obligations.CancelWithdrawsTheWaiter
  intro s p t u hask hdev
  obtain ⟨serial, hpl⟩ := hask
  rw [exec_cancel_taken hpl hdev]
  refine ⟨fun hut => ?_, fun hut hn => ?_, ?_⟩
  · rw [takeCancel, if_pos hut, complete_handOver_eq_answered hpl.2]
  · rw [takeCancel, if_neg hut, State.findWaiter_none (s := handOver p s) hn]
    exact congrArg Host.Outcome.next (complete_handOver_eq_answered hpl.2 _ _)
  · intro hut h before after wserial type kind body hw hne ho hslot
    have hfind := State.findWaiter_eq (s := handOver p s) hw rfl rfl hne ho
    have hdrop := dropWaiter_of_only (s := handOver p s) hw rfl rfl hne
    rw [takeCancel, if_neg hut]
    simp only [hfind, hdrop]
    rw [handOver_eq_handed]
    exact congrArg Host.Outcome.next (complete_complete hut (by exact (handed_slot s p p u).trans hslot)
      (by exact (handed_slot s p p t).trans hpl.2) .cancelled .ok)

theorem posted_singleton (x : PortState) (n : Notice) : posted x [n] = x.post n := posted_eq_foldl x [n]

/-- Settles O40. -/
theorem expiriesEndTheHoldOrTheWait : Obligations.ExpiriesEndTheHoldOrTheWait := by
  unfold Obligations.ExpiriesEndTheHoldOrTheWait
  refine ⟨?_, ?_, ?_, ?_⟩
  · intro s e l hl hheld htimer hwait
    obtain ⟨hqueue, hwaiters⟩ := hwait
    show execHoldExpiry e s = _
    simp only [execHoldExpiry, hl, hheld, htimer, and_self, if_true]
    rw [grantOnward_none e (by exact hqueue) (by exact hwaiters), posted_singleton]
    rfl
  · intro s p u h before after serial kind body hw hne ho hslot
    show execWaitExpiry p u s = _
    have hrun : (WaitType.acquire 0).hasRunOut = true := rfl
    simp only [execWaitExpiry, State.findWaiter_eq hw rfl rfl hne ho, hrun, if_true, dropWaiter_of_only hw rfl rfl hne]
    rw [complete_eq_completed (kind := kind) (b := body) (by exact hslot)]
  · intro s e l left hl htimer
    show execHoldExpiry e s = _
    have hne : ¬ (l.phase = .held ∧ l.timer = some 0) := by
      rw [htimer]
      simp
    simp only [execHoldExpiry, hl, hne, if_false]
  · intro s p u hn
    show execWaitExpiry p u s = _
    rw [execWaitExpiry]
    split
    next h w hfind =>
      obtain ⟨hw, hp, hu⟩ := State.findWaiter_spec hfind
      have hrun : w.type.hasRunOut = false := by
        cases htype : w.type with
        | add d => rfl
        | acquire left =>
          refine beq_eq_false_iff_ne.2 ?_
          rintro rfl
          exact hn h w hw ⟨hp, hu, htype⟩
      rw [hrun]
      rfl
    · rfl

end Sys2Proof.Machine

/-! PROOF. WATCH, INQUIRE, SET-ATTENTION, a request of an unknown kind, the taking of SET-RIGHTS, RETIRE and FREEZE, and
the end of the bulk erase. -/

namespace Sys2Proof.Machine

open Sys2Proof.Safety
set_option deprecated.oldSectionVars true

/-! ### WATCH -/

theorem parseReq_watch (b m f : Byte) (threshold : Word32) :
    parseReq 0x20#8 ([b, m] ++ be4 threshold ++ [f]) = some (.watch b m threshold f) := by
  calc parseReq 0x20#8 ([b, m] ++ be4 threshold ++ [f])
      = some (.watch b m (word32At ([b, m] ++ be4 threshold ++ [f]) 2) f) := rfl
    _ = _ := by rw [word32At_be4 [b, m] [f] threshold 2 rfl]

/-- A watch that the mode byte, the self byte and the record's kind allow is admitted (08, R149). -/
theorem admission_watch {s : State} {p : Port} {h : Handle} {x : RecEntry} {m f : Byte} {threshold : Word32}
    {mode : WatchMode} {self : Bool} (hdev : s.dev = .ready) (hx : Defined s h x) (hw : (x.rights.get p).watch = true)
    (hmode : toMode m threshold = some mode) (hself : toSelf f = some self) (hk : mode = .any ∨ x.kind = .counter) :
    admission s p (.watch (handleByte h) m threshold f) = none := by
  have hr := State.rightsOf_eq hx p
  refine admission_passed (by rw [hdev]; rfl) nofun (needVisible_of (rights := fun k => s.rightsOf k p) hx ?_)
    ?_ rfl ?_ ?_
  · exact (Rights.visible_iff _).2 (.inr (.inr (hr ▸ hw)))
  · simpa [rightPasses, toHandle_handleByte, hr] using hw
  · simp [rangePasses, hmode, hself]
  · simp only [kindPasses, hmode, toHandle_handleByte, State.entryOf_eq hx]
    split
    · rfl
    next hne =>
      rcases hk with rfl | hk
      · exact absurd rfl hne
      · rw [hk]; rfl

theorem State.hasWatch_iff {s : State} {w : Watch} :
    s.hasWatch w = true ↔ ∃ n v, s.watchAt n = some v ∧ v.port = w.port ∧ v.handle = w.handle ∧ v.mode = w.mode := by
  rw [State.hasWatch, List.any_eq_true]
  constructor
  · rintro ⟨n, -, hn⟩
    cases hv : s.watchAt n with
    | none => simp [hv] at hn
    | some v => exact ⟨n, v, hv, by simpa [hv, and_assoc] using hn⟩
  · rintro ⟨n, v, hv, hport, hhandle, hmode⟩
    exact ⟨n, List.mem_finRange n, by simp [hv, hport, hhandle, hmode]⟩

theorem State.emptyWatch_none {s : State} (h : ∀ n, s.watchAt n ≠ none) : s.emptyWatch = none :=
  List.find?_eq_none.2 fun n _ => by simp [h n]

theorem State.emptyWatch_eq {s : State} {n : WatchNo} (h : s.watchAt n = none)
    (hlow : ∀ n', n' < n → s.watchAt n' ≠ none) : s.emptyWatch = some n :=
  State.emptyWatch_find h hlow

/-- Settles O27. -/
theorem watchFillsLowestEntry : Obligations.WatchFillsLowestEntry := by
  unfold Obligations.WatchFillsLowestEntry
  intro s p t h x m f threshold mode self hask hdev hx hw hm hf
  obtain ⟨serial, hpl⟩ := hask
  have hmode : toMode m threshold = some mode := by
    rcases hm with ⟨rfl, rfl⟩ | ⟨rfl, rfl, -⟩ | ⟨rfl, rfl, -⟩ <;> rfl
  have hkind : mode = .any ∨ x.kind = .counter := by
    rcases hm with ⟨-, rfl⟩ | ⟨-, -, hk⟩ | ⟨-, -, hk⟩
    exacts [.inl rfl, .inr hk, .inr hk]
  have hself : toSelf f = some self := by
    rcases hf with ⟨rfl, rfl⟩ | ⟨rfl, rfl⟩ <;> rfl
  have hreq := State.oldestRequest_eq hpl.1 hpl.2 (parseReq_watch (handleByte h) m f threshold)
  have hexec : exec (.watch p) s = .next (takeWatch ⟨p, t, serial⟩ ⟨p, h, mode, self⟩ (handOver p s)) := by
    have he := exec_taken hreq (admission_watch hdev hx hw hmode hself hkind)
    rwa [ownerOf, toHandle_handleByte, hmode, hself] at he
  rw [hexec, takeWatch]
  refine ⟨fun hex => ?_, fun hno => ⟨fun hfull => ?_, fun n hn hlow => ?_⟩⟩
  · rw [if_pos (State.hasWatch_iff.2 (by exact hex)), complete_handOver_eq_answered hpl.2]
  all_goals
    rw [if_neg (fun hhas => by
      obtain ⟨k, v, hv, hsame⟩ := State.hasWatch_iff.1 hhas
      exact hno k v hv hsame)]
  · rw [State.emptyWatch_none (s := handOver p s) hfull]
    exact congrArg Host.Outcome.next (complete_handOver_eq_answered hpl.2 _ _)
  · rw [State.emptyWatch_eq (s := handOver p s) hn hlow]
    exact congrArg Host.Outcome.next (complete_handOver_eq_answered (s := s.setWatch n _) hpl.2 _ _)

/-! ### INQUIRE -/

theorem admission_inquire {s : State} {p : Port} {h : Handle} {x : RecEntry} (hdev : s.dev = .ready)
    (hx : Defined s h x) (hsee : s.configPort = some p ∨ Sees x p) : admission s p (.inquire (handleByte h)) = none := by
  refine admission_passed (by rw [hdev]; rfl) nofun ?_ rfl rfl rfl rfl
  have hv : s.configPort = some p ∨ (x.rights.get p).visible = true := hsee.imp_right (Rights.visible_iff _).2
  simpa [handlePasses, isHandle_handleByte, toHandle_handleByte, State.isDefined_of hx, State.rightsOf_eq hx] using hv

/-- The flags byte of an INQUIRE response (10, R176). -/
theorem inquiredFlags (frozen freezing : Bool) :
    0#6 ++ BitVec.ofBool freezing ++ BitVec.ofBool frozen
      = (if frozen then 0x01#8 else 0x00#8) ||| (if freezing then 0x02#8 else 0x00#8) := by
  cases frozen <;> cases freezing <;> rfl

/-- The lease that INQUIRE reports is the one found on the record (03, R48). -/
theorem State.leaseOn_map_eq {s : State} {h : Handle} {l : Option Lease}
    (hl : (l = none ∧ Unleased s h) ∨
      ∃ e, (s.lease e).lease = l ∧ leasedHandle s e = some h ∧ ∀ e', leasedHandle s e' = some h → e' = e) :
    (s.leaseOn h).map (fun a => a.2) = l := by
  rcases hl with ⟨rfl, hu⟩ | ⟨e, he, hh, huniq⟩
  · rw [State.leaseOn_none_iff_unleased.2 hu]
    rfl
  · obtain ⟨e', l', hl', hlease, hhandle⟩ := State.leaseOn_of_not_unleased (h := h) (fun hu => hu e hh)
    obtain rfl : e' = e := huniq e' (by simp [leasedHandle, hlease, hhandle])
    rw [hl', ← he, hlease]
    rfl

/-- Settles O29. -/
theorem inquireReportsTheRecord : Obligations.InquireReportsTheRecord := by
  unfold Obligations.InquireReportsTheRecord
  intro s p t h x l hask hdev hx hsee hl
  obtain ⟨serial, hpl⟩ := hask
  have hreq := State.oldestRequest_eq hpl.1 hpl.2
    (show parseReq 0x22#8 [handleByte h] = some (.inquire (handleByte h)) from rfl)
  have hexec : exec (.inquire p) s = .next (answered s p t .ok (inquireBody s p h)) := by
    have he := exec_taken hreq (admission_inquire hdev hx hsee)
    rw [ownerOf, toHandle_handleByte] at he
    exact he.trans (congrArg Host.Outcome.next (complete_handOver_eq_answered hpl.2 _ _))
  have hlease := State.leaseOn_map_eq hl
  have hstate : s.leaseState h = l.map fun y => y.phase := by
    rw [← hlease, Option.map_map]
    rfl
  have hholder : (s.leaseOn h).map (fun a => a.2.holder) = l.map fun y => y.holder := by
    rw [← hlease, Option.map_map]
    rfl
  rw [hexec, inquireBody, State.entryOf_eq hx, hstate, inquiredFlags, inquiredHolder, hholder]
  simp only [inquiredRights, State.rightsOf_eq hx]
  cases l with
  | none => rfl
  | some y =>
    obtain ⟨phase, handle, holder, form, timer, renewals, modified, answer, rights⟩ := y
    cases phase <;> rfl

/-! ### SET-ATTENTION and requests of an unknown kind -/

theorem State.setPort_setPort (s : State) (p : Port) (x y : PortState) : (s.setPort p x).setPort p y = s.setPort p y := by
  simp [State.setPort]

theorem kindAllowed_always (dev : DevState) : kindAllowed dev (some .deviceInfo) = true
    ∧ kindAllowed dev (some .setAttention) = true ∧ kindAllowed dev (some .portReset) = true := by
  cases dev <;> exact ⟨rfl, rfl, rfl⟩

/-- Settles O34. -/
theorem setAttentionSetsTheMask : Obligations.SetAttentionSetsTheMask := by
  unfold Obligations.SetAttentionSetsTheMask
  intro s p t mask hask
  obtain ⟨serial, hpl⟩ := hask
  have hreq := State.oldestRequest_eq hpl.1 hpl.2
    (show parseReq 0x41#8 [mask] = some (.setAttention mask) from rfl)
  obtain ⟨-, hkind, -⟩ := kindAllowed_always s.dev
  constructor
  · intro hrange
    refine (exec_taken hreq (admission_passed hkind nofun rfl rfl rfl (decide_eq_true hrange) rfl)).trans ?_
    have hmask : takeMask ⟨p, t, serial⟩ mask (handOver p s) =
        complete ⟨p, t, serial⟩ .ok [] (handOver p
          (s.setPort p { s.port p with maskResponses := mask.getLsbD 0, maskNotices := mask.getLsbD 1 })) := by
      simp only [takeMask, handOver, State.setPort_port_same, State.setPort_setPort]
    show Host.Outcome.next (takeMask ⟨p, t, serial⟩ mask (handOver p s)) = _
    rw [hmask, complete_handOver_eq_answered (by rw [State.setPort_port_same]; exact hpl.2)]
  · intro hrange
    refine exec_refused hreq ?_
    have hout : rangePasses s (.setAttention mask) = false := decide_eq_false (by omega)
    have hconfig : configOnly (Req.setAttention mask).kind = false := rfl
    simp [admission, hkind, Req.kind, configOnly, handlePasses, rightPasses, frozenPasses, hout]

theorem kindAllowed_iff (dev : DevState) (k : ReqKind) : kindAllowed dev (some k) = true ↔ KindServed dev k := by
  cases dev <;> cases k <;> simp [kindAllowed, KindServed]

theorem kindAllowed_none (dev : DevState) : kindAllowed dev none = true ↔ dev = .ready := by
  cases dev <;> simp [kindAllowed]

/-- Settles O36. -/
theorem unknownRequestKindIsRefused : Obligations.UnknownRequestKindIsRefused := by
  unfold Obligations.UnknownRequestKindIsRefused
  intro s p t kind body hask hlen
  obtain ⟨serial, hpl⟩ := hask
  have hparse : (parseReq kind body).isSome = false := by
    rw [parseReq]
    cases hk : toReqKind kind with
    | none => rfl
    | some k => simp [hlen k hk]
  have hexec : exec (.unknownRequestKind p) s =
      .next (answered s p t (if kindAllowed s.dev (toReqKind kind) then .malformed else .notReady) []) := by
    show execUnknownRequestKind p s = _
    simp only [execUnknownRequestKind, State.oldestPlaced_eq hpl.1 hpl.2, hparse, Bool.false_eq_true, if_false]
    split <;> rw [complete_handOver_eq_answered hpl.2]
  rw [hexec]
  refine ⟨fun hdev => ?_, fun k hk hserved => ?_, fun hdev hserved => ?_⟩
  · rw [if_pos (by rw [hdev]; rfl)]
  · rw [if_pos (by rw [hk]; exact (kindAllowed_iff _ k).2 hserved)]
  · rw [if_neg ?_]
    cases hk : toReqKind kind with
    | none => rwa [kindAllowed_none]
    | some k => exact fun ha => hserved k hk ((kindAllowed_iff _ k).1 ha)

/-! ### The directory requests that name an entry -/

/-- A rights byte in range has no bit above bit 2 (10, R170). -/
theorem rightsInRange_iff (b : Byte) : rightsInRange b = true ↔ b.toNat < 8 := by
  rw [rightsInRange, beq_iff_eq]
  have hmask : ∀ i, i < 8 → ((0xF8#8 : Byte).getLsbD i = decide (3 ≤ i)) := by decide
  constructor
  · intro hb
    refine Nat.lt_pow_two_of_testBit (n := 3) _ fun i hi => ?_
    by_cases h8 : i < 8
    · have hbit := congrArg (fun w : Byte => w.getLsbD i) hb
      simp only [BitVec.getLsbD_and, hmask i h8, decide_eq_true hi, Bool.and_true, BitVec.getLsbD_zero] at hbit
      exact hbit
    · exact Nat.testBit_lt_two_pow (lt_of_lt_of_le b.isLt (Nat.pow_le_pow_right (by omega) (by omega)))
  · intro hb
    apply BitVec.eq_of_getLsbD_eq
    intro i hi
    rw [BitVec.getLsbD_and, hmask i hi]
    by_cases h3 : 3 ≤ i
    · have hbit : b.getLsbD i = false :=
        Nat.testBit_lt_two_pow (lt_of_lt_of_le hb (Nat.pow_le_pow_right (by omega) h3 : 2 ^ 3 ≤ 2 ^ i))
      simp [hbit]
    · simp [h3]

section
variable {s : State} {p : Port} {h : Handle} {x : RecEntry}

/-- RETIRE, FREEZE and SET-RIGHTS of a defined record are admitted from the configuration port (08, R144, R145). -/
theorem admission_directory (hdev : s.dev = .ready) (hport : s.configPort = some p) (hx : Defined s h x) :
    admission s p (.retire (handleByte h)) = none ∧ admission s p (.freeze (handleByte h)) = none := by
  have hhandle : (isHandle (handleByte h) && s.isDefined (toHandle (handleByte h))) = true := by
    simp [isHandle_handleByte, toHandle_handleByte, State.isDefined_of hx]
  exact ⟨admission_passed (by rw [hdev]; rfl) (fun _ => hport) hhandle rfl rfl rfl rfl,
    admission_passed (by rw [hdev]; rfl) (fun _ => hport) hhandle rfl rfl rfl rfl⟩

theorem admission_setRights {r0 r1 r2 : Byte} (hdev : s.dev = .ready) (hport : s.configPort = some p)
    (hx : Defined s h x) (h0 : r0.toNat < 8) (h1 : r1.toNat < 8) (h2 : r2.toNat < 8) :
    admission s p (.setRights (handleByte h) ⟨r0, r1, r2⟩) = none := by
  have hhandle : (isHandle (handleByte h) && s.isDefined (toHandle (handleByte h))) = true := by
    simp [isHandle_handleByte, toHandle_handleByte, State.isDefined_of hx]
  refine admission_passed (by rw [hdev]; rfl) (fun _ => hport) hhandle rfl rfl ?_ rfl
  simp [rangePasses, rightsInRange_iff, h0, h1, h2]

end

section
variable {s : State} {refuse : Option Status}

theorem judgeDir_busy (hslot : s.dirSlot ≠ none) : judgeDir s refuse = some .busy := by
  simp [judgeDir, Option.isSome_iff_ne_none.2 hslot]

theorem judgeDir_refused {c : Status} (hslot : s.dirSlot = none) (hr : refuse = some c) :
    judgeDir s refuse = some c := by
  simp [judgeDir, hslot, hr]

theorem judgeDir_spent (hslot : s.dirSlot = none) (hr : refuse = none) (hg : s.dirGen = 0xFFFFFFFF#32) :
    judgeDir s refuse = some .genSpent := by
  simp [judgeDir, hslot, hr, hg, genSpentMark]

theorem judgeDir_taken (hslot : s.dirSlot = none) (hr : refuse = none) (hg : s.dirGen ≠ 0xFFFFFFFF#32) :
    judgeDir s refuse = none := by
  simp [judgeDir, hslot, hr, hg, genSpentMark]

end

/-- The taking of a directory request: the slot holds the job, and its directory job is queued (01, R11; 05, R84). -/
theorem takeDirJob_eq (kind : DirKind) (job : DirJob) (s : State) :
    takeDirJob kind job s =
      withJob { s with dirSlot := some job } (.directory kind (target s.activeDir) (s.dirGen + 1#32)) := by
  rw [takeDirJob, handJob_eq_withJob, targetCopy_eq_target]

/-- Settles O32. -/
theorem setRightsIsTaken : Obligations.SetRightsIsTaken := by
  unfold Obligations.SetRightsIsTaken
  rintro s p t serial h x r0 r1 r2 r hpl hdev hport hx h0 h1 h2 rfl
  have hreq := State.oldestRequest_eq hpl.1 hpl.2
    (show parseReq 0x32#8 [handleByte h, r0, r1, r2] = some (.setRights (handleByte h) ⟨r0, r1, r2⟩) from rfl)
  have hexec : exec (.setRights p) s = .next (takeSetRights ⟨p, t, serial⟩ h
      ⟨toRights r0, toRights r1, toRights r2⟩ (handOver p s)) := by
    have he := exec_taken hreq (admission_setRights hdev hport hx h0 h1 h2)
    rwa [ownerOf, toHandle_handleByte] at he
  have hentry : (handOver p s).entryOf h = x := State.entryOf_eq hx
  rw [hexec, takeSetRights, hentry]
  refine ⟨fun hslot => ?_, fun hslot hsame => ?_, fun hslot hne hg => ?_, fun hslot hne hg => ?_⟩
  · rw [judgeDir_busy (s := handOver p s) hslot]
    exact congrArg Host.Outcome.next (complete_handOver_eq_answered hpl.2 _ _)
  · rw [judgeDir_refused (s := handOver p s) hslot (if_pos (by exact hsame))]
    exact congrArg Host.Outcome.next (complete_handOver_eq_answered hpl.2 _ _)
  · rw [judgeDir_spent (s := handOver p s) hslot (if_neg (by exact hne)) hg]
    exact congrArg Host.Outcome.next (complete_handOver_eq_answered hpl.2 _ _)
  · rw [judgeDir_taken (s := handOver p s) hslot (if_neg (by exact hne)) hg, takeDirJob_eq, handOver_eq_handed]
    rfl

section
variable {s : State} {p : Port} {t : Tag} {serial : Nat} {h : Handle} {x : RecEntry}

theorem exec_retire_taken (hpl : Placed s p t serial 0x31#8 [handleByte h]) (hdev : s.dev = .ready)
    (hport : s.configPort = some p) (hx : Defined s h x) :
    exec (.retire p) s = .next (takeRetire ⟨p, t, serial⟩ h (handOver p s)) := by
  have hreq := State.oldestRequest_eq hpl.1 hpl.2
    (show parseReq 0x31#8 [handleByte h] = some (.retire (handleByte h)) from rfl)
  have he := exec_taken hreq (admission_directory hdev hport hx).1
  rwa [ownerOf, toHandle_handleByte] at he

theorem exec_freeze_taken (hpl : Placed s p t serial 0x33#8 [handleByte h]) (hdev : s.dev = .ready)
    (hport : s.configPort = some p) (hx : Defined s h x) :
    exec (.freeze p) s = .next (takeFreeze ⟨p, t, serial⟩ h (handOver p s)) := by
  have hreq := State.oldestRequest_eq hpl.1 hpl.2
    (show parseReq 0x33#8 [handleByte h] = some (.freeze (handleByte h)) from rfl)
  have he := exec_taken hreq (admission_directory hdev hport hx).2
  rwa [ownerOf, toHandle_handleByte] at he

theorem retireRefusal_frozen (hx : Defined s h x) (hf : x.frozen = true) : retireRefusal s h = some .frozen := by
  rw [retireRefusal, State.entryOf_eq hx, if_pos hf]

theorem freezeRefusal_frozen (hx : Defined s h x) (hf : x.frozen = true) : freezeRefusal s h = some .frozen := by
  rw [freezeRefusal, State.entryOf_eq hx, if_pos hf]

theorem retireRefusal_used (hx : Defined s h x) (hf : x.frozen = false)
    (hu : ¬ Unleased s h ∨ (s.record h).waiters ≠ []) : retireRefusal s h = some .inUse := by
  rw [retireRefusal, State.entryOf_eq hx, if_neg (by simp [hf]), if_neg ?_]
  rintro ⟨hfree, hw⟩
  exact hu.elim (fun hn => hn (State.recordFree_iff.1 hfree)) fun hn => hn hw

theorem freezeRefusal_used (hx : Defined s h x) (hf : x.frozen = false) (hu : ¬ Unleased s h) :
    freezeRefusal s h = some .inUse := by
  rw [freezeRefusal, State.entryOf_eq hx, if_neg (by simp [hf]), if_neg fun hfree => hu (State.recordFree_iff.1 hfree)]

theorem retireRefusal_none (hx : Defined s h x) (hf : x.frozen = false) (hu : Unleased s h)
    (hw : (s.record h).waiters = []) : retireRefusal s h = none := by
  rw [retireRefusal, State.entryOf_eq hx, if_neg (by simp [hf]), if_pos ⟨State.recordFree_iff.2 hu, hw⟩]

theorem freezeRefusal_none (hx : Defined s h x) (hf : x.frozen = false) (hu : Unleased s h) :
    freezeRefusal s h = none := by
  rw [freezeRefusal, State.entryOf_eq hx, if_neg (by simp [hf]), if_pos (State.recordFree_iff.2 hu)]

end

/-- Settles O31. -/
theorem retireAndFreezeAreTaken : Obligations.RetireAndFreezeAreTaken := by
  unfold Obligations.RetireAndFreezeAreTaken
  intro s p t serial h x retire hpl hdev hport hx
  have hx' : Defined (handOver p s) h x := hx
  cases retire with
  | true =>
    simp only [if_true, true_and, forall_const, Bool.true_eq_false, false_implies, and_true] at hpl ⊢
    rw [exec_retire_taken hpl hdev hport hx, takeRetire]
    refine ⟨fun hslot => ?_, fun hslot hf => ?_, fun hslot hf hu => ?_, fun hslot hf hu hw => ⟨fun hg => ?_, fun hg => ?_⟩⟩
    · rw [judgeDir_busy (s := handOver p s) hslot]
      exact congrArg Host.Outcome.next (complete_handOver_eq_answered hpl.2 _ _)
    · rw [judgeDir_refused (s := handOver p s) hslot (retireRefusal_frozen hx' hf)]
      exact congrArg Host.Outcome.next (complete_handOver_eq_answered hpl.2 _ _)
    · rw [judgeDir_refused (s := handOver p s) hslot (retireRefusal_used hx' hf hu)]
      exact congrArg Host.Outcome.next (complete_handOver_eq_answered hpl.2 _ _)
    · rw [judgeDir_spent (s := handOver p s) hslot (retireRefusal_none hx' hf hu hw) hg]
      exact congrArg Host.Outcome.next (complete_handOver_eq_answered hpl.2 _ _)
    · rw [judgeDir_taken (s := handOver p s) hslot (retireRefusal_none hx' hf hu hw) hg, takeDirJob_eq,
        handOver_eq_handed]
      rfl
  | false =>
    simp only [Bool.false_eq_true, if_false, false_and, or_false, false_implies, forall_const, true_and] at hpl ⊢
    rw [exec_freeze_taken hpl hdev hport hx, takeFreeze]
    refine ⟨fun hslot => ?_, fun hslot hf => ?_, fun hslot hf hu => ?_, fun hslot hf hu => ⟨fun hg => ?_, fun hg => ?_⟩⟩
    · rw [judgeDir_busy (s := handOver p s) hslot]
      exact congrArg Host.Outcome.next (complete_handOver_eq_answered hpl.2 _ _)
    · rw [judgeDir_refused (s := handOver p s) hslot (freezeRefusal_frozen hx' hf)]
      exact congrArg Host.Outcome.next (complete_handOver_eq_answered hpl.2 _ _)
    · rw [judgeDir_refused (s := handOver p s) hslot (freezeRefusal_used hx' hf hu)]
      exact congrArg Host.Outcome.next (complete_handOver_eq_answered hpl.2 _ _)
    · rw [judgeDir_spent (s := handOver p s) hslot (freezeRefusal_none hx' hf hu) hg]
      exact congrArg Host.Outcome.next (complete_handOver_eq_answered hpl.2 _ _)
    · rw [judgeDir_taken (s := handOver p s) hslot (freezeRefusal_none hx' hf hu) hg, takeDirJob_eq,
        handOver_eq_handed]
      rfl

/-! ### The end of the bulk erase -/

/-- Settles O39. -/
theorem bulkEraseEndsTheClear : Obligations.BulkEraseEndsTheClear := by
  unfold Obligations.BulkEraseEndsTheClear
  intro s p t serial hclear
  have hexec : exec .bulkEraseEnd s = .next (complete ⟨p, t, serial⟩ .ok []
      (postAll (.ready .ready) { s with store := [], activeDir := none, dev := .ready, clear := none })) := by
    show execBulkEraseEnd s = _
    simp only [execBulkEraseEnd, hclear]
  have hport : ∀ q, (postAll (.ready .ready)
      { s with store := [], activeDir := none, dev := .ready, clear := none }).port q
        = posted (s.port q) [.ready .ready] := fun q => by
    rw [postAll_port, posted_singleton]
    rfl
  have hslots : ∀ q, (posted (s.port q) [.ready .ready]).slots = (s.port q).slots := fun q => by
    rw [posted_singleton, PortState.post_frame]
  refine ⟨_, hexec, fun a => ?_, ?_, fun q hq => ?_, ?_, fun hno => ?_⟩
  · rw [complete_store]
    rfl
  · rw [complete_frame, postAll_frame]
  · rw [complete_port_ne (tk := ⟨p, t, serial⟩) hq, hport]
  · rintro ⟨kind, body, hslot⟩
    rw [complete_eq_completed (kind := kind) (b := body) (by rw [hport, hslots]; exact hslot), completed,
      State.setPort_port_same, hport, hslots]
    rw [posted_singleton, PortState.post_frame]
  · rcases complete_cases ⟨p, t, serial⟩ .ok []
      (postAll (.ready .ready) { s with store := [], activeDir := none, dev := .ready, clear := none })
      with ⟨kind, b, hslot, -⟩ | ⟨-, hsame⟩
    · exact absurd ((congrArg (fun v => Vector.get v t) (hslots p)).symm.trans (hport p ▸ hslot)) (hno kind b)
    · rw [hsame, hport]

end Sys2Proof.Machine

/-! PROOF. The page map (01, R7, R8): runs of FREE pages, what a DEFINE reserves, and the figures of DEVICE-INFO
(08, R152, R153). -/

namespace Sys2Proof.Machine

open Sys2Proof.Safety
set_option deprecated.oldSectionVars true

/-! ### Conditions of pages after a marking -/

/-- A value other than the table's unlisted one reads back, whatever the table. -/
theorem sparseGet_put_listed {α : Type} [DecidableEq α] {d v : α} (m : List (Nat × α)) (a : Nat) (hv : v ≠ d) :
    sparseGet d (sparsePut d m a v) a = v := by
  induction m with
  | nil => simp [sparsePut, sparseGet, hv]
  | cons c m ih =>
    obtain ⟨k, w⟩ := c
    rw [sparsePut]
    split
    next => simp [sparseGet]
    next =>
      split
      next hak => simp [sparseGet, hak]
      next hak => simpa [sparseGet, hak] using ih

/-- A run marked RESERVED or IN USE, in any table. -/
theorem pageCond_markRun_taken {cond : PageCond} (hc : cond ≠ .free) (first len : Nat) (m : List (Nat × PageCond))
    (page : Nat) :
    pageCond (markRun cond first len m) page = if InRun len first page then cond else pageCond m page := by
  induction len generalizing first m with
  | zero => rw [markRun, if_neg (by omega)]
  | succ len ih =>
    rw [markRun, ih]
    by_cases hpage : page = first
    · subst hpage
      rw [if_neg (by omega), if_pos (by omega)]
      exact sparseGet_put_listed m page hc
    · have hput : pageCond (sparsePut .free m first cond) page = pageCond m page := sparseGet_put_ne m cond hpage
      rw [hput]
      exact if_congr (by omega) rfl rfl

theorem pageCond_markCopies_taken {cond : PageCond} (hc : cond ≠ .free) (x : RecEntry) (m : List (Nat × PageCond))
    (page : Nat) :
    pageCond (markCopies cond x m) page =
      if InRun (pagesPerCopy x.size.toNat) x.pageA.val page ∨ InRun (pagesPerCopy x.size.toNat) x.pageB.val page
      then cond else pageCond m page := by
  rw [markCopies, pageCond_markRun_taken hc, pageCond_markRun_taken hc]
  by_cases hb : InRun (pagesPerCopy x.size.toNat) x.pageB.val page
  · rw [if_pos hb, if_pos (.inr hb)]
  · rw [if_neg hb]
    exact if_congr (by rw [or_iff_left hb]) rfl rfl

/-! ### Runs of FREE pages -/

theorem runFree_iff {m : List (Nat × PageCond)} {len q : Nat} :
    runFree m q len = true ↔ q + len ≤ 2048 ∧ ∀ i, i < len → pageCond m (q + i) = .free := by
  simp only [runFree, Bool.and_eq_true, decide_eq_true_eq, List.all_eq_true, List.mem_range'_1, beq_iff_eq]
  refine and_congr_right fun _ => ⟨fun h i hi => h (q + i) (by omega), fun h page hp => ?_⟩
  obtain ⟨i, rfl⟩ := Nat.exists_eq_add_of_le hp.1
  exact h i (by omega)

/-- The allocation takes the lowest run (01, R8). -/
theorem findRun_spec {m : List (Nat × PageCond)} {len a : Nat} (h : findRun m len = some a) :
    FreeRun (pageCond m) len a := by
  have hmem := List.mem_of_find?_eq_some h
  rw [recordArea, List.mem_range'_1] at hmem
  have hrun := List.find?_some h
  obtain ⟨hend, hfree⟩ := runFree_iff.1 hrun
  exact ⟨hmem.1, hend, hfree⟩

theorem findRun_eq {m : List (Nat × PageCond)} {len a : Nat} (hlen : 1 ≤ len) (h : LowestRun (pageCond m) len a) :
    findRun m len = some a := by
  obtain ⟨⟨h64, hend, hfree⟩, hlow⟩ := h
  rw [findRun, recordArea, List.find?_eq_some_iff_append]
  refine ⟨runFree_iff.2 ⟨hend, hfree⟩, List.range' 64 (a - 64), List.range' (a + 1) (2047 - a), ?_, ?_⟩
  · have hsplit : List.range' 64 1984 = List.range' 64 (a - 64) ++ List.range' (64 + (a - 64)) (1984 - (a - 64)) := by
      rw [List.range'_append_1]
      congr 1
      omega
    rw [hsplit, show 64 + (a - 64) = a by omega, show 1984 - (a - 64) = (2047 - a) + 1 by omega, List.range'_succ]
  · intro q hq
    rw [List.mem_range'_1] at hq
    simp only [Bool.not_eq_true', Bool.eq_false_iff]
    intro hrun
    obtain ⟨hend', hfree'⟩ := runFree_iff.1 hrun
    exact hlow q (by omega) ⟨hq.1, hend', hfree'⟩

theorem findRun_none {m : List (Nat × PageCond)} {len : Nat} (h : ∀ a, ¬ FreeRun (pageCond m) len a) :
    findRun m len = none := by
  cases hf : findRun m len with
  | none => rfl
  | some a => exact absurd (findRun_spec hf) (h a)

/-- Copy A's run counted as not free for copy B (01, R8). -/
theorem pageCond_reserved (m : List (Nat × PageCond)) (a len : Nat) :
    pageCond (markRun .reserved a len m) = fun page => if InRun len a page then .reserved else pageCond m page :=
  funext fun page => pageCond_markRun_taken (cond := .reserved) nofun a len m page

theorem allocate_eq {m : List (Nat × PageCond)} {len a b : Nat} (hlen : 1 ≤ len) (ha : LowestRun (pageCond m) len a)
    (hb : LowestRun (fun page => if InRun len a page then .reserved else pageCond m page) len b) :
    allocate m len = some (a, b) := by
  rw [← pageCond_reserved] at hb
  simp only [allocate, findRun_eq hlen ha, findRun_eq hlen hb]

theorem allocate_none {m : List (Nat × PageCond)} {len : Nat} (hlen : 1 ≤ len)
    (h : (∀ a, ¬ FreeRun (pageCond m) len a) ∨
      ∃ a, LowestRun (pageCond m) len a ∧
        ∀ b, ¬ FreeRun (fun page => if InRun len a page then .reserved else pageCond m page) len b) :
    allocate m len = none := by
  rcases h with hnone | ⟨a, ha, hb⟩
  · simp only [allocate, findRun_none hnone]
  · rw [← pageCond_reserved] at hb
    simp only [allocate, findRun_eq hlen ha, findRun_none hb]

/-! ### DEFINE -/

theorem parseReq_define (b k size hold r0 r1 r2 : Byte) (label : Word32) :
    parseReq 0x30#8 ([b] ++ be4 label ++ [k, size, hold, r0, r1, r2])
      = some (.define ⟨b, label, k, size, hold, ⟨r0, r1, r2⟩⟩) := by
  calc parseReq 0x30#8 ([b] ++ be4 label ++ [k, size, hold, r0, r1, r2])
      = some (.define ⟨b, word32At ([b] ++ be4 label ++ [k, size, hold, r0, r1, r2]) 1, k, size, hold,
          ⟨r0, r1, r2⟩⟩) := rfl
    _ = _ := by rw [word32At_be4 [b] [k, size, hold, r0, r1, r2] label 1 rfl]

theorem labelInRange_iff (label : Word32) :
    labelInRange label = true ↔ ∀ c ∈ be4 label, 0x20 ≤ c.toNat ∧ c.toNat ≤ 0x7E := by
  simp only [labelInRange, List.all_eq_true, labelChar, Bool.and_eq_true, decide_eq_true_eq]

theorem sizeInRange_plain (size : Byte) : sizeInRange .plain size = true ↔ 1 ≤ size.toNat ∧ size.toNat ≤ 240 := by
  simp only [sizeInRange, Bool.and_eq_true, decide_eq_true_eq]

theorem sizeInRange_counter (size : Byte) : sizeInRange .counter size = true ↔ size = 0x04#8 := by
  simp only [sizeInRange, beq_iff_eq]

theorem defineInRange_iff (f : DefineFields) :
    defineInRange f = true ↔
      ((f.kind = 0x01#8 ∧ 1 ≤ f.size.toNat ∧ f.size.toNat ≤ 240) ∨ (f.kind = 0x02#8 ∧ f.size = 0x04#8))
        ∧ f.holdLimit ≠ 0x00#8 ∧ (∀ c ∈ be4 f.label, 0x20 ≤ c.toNat ∧ c.toNat ≤ 0x7E)
        ∧ f.rights.p0.toNat < 8 ∧ f.rights.p1.toNat < 8 ∧ f.rights.p2.toNat < 8 := by
  by_cases h1 : f.kind = 0x01#8
  · simp [defineInRange, toKind, h1, sizeInRange_plain, labelInRange_iff, rightsInRange_iff, and_assoc]
  · by_cases h2 : f.kind = 0x02#8
    · simp [defineInRange, toKind, h2, sizeInRange_counter, labelInRange_iff, rightsInRange_iff, and_assoc]
    · simp [defineInRange, toKind, h1, h2]

theorem one_le_pagesPerCopy (size : Nat) (h : 1 ≤ size) : 1 ≤ (size + 16 + 31) / 32 := by omega

section
variable {s : State} {p : Port} {t : Tag} {serial : Nat} {h : Handle} {f : DefineFields}

theorem admission_define (hdev : s.dev = .ready) (hport : s.configPort = some p) (hh : isHandle f.handle = true)
    (hf : defineInRange f = true) : admission s p (.define f) = none :=
  admission_passed (by rw [hdev]; rfl) (fun _ => hport) hh rfl rfl hf rfl

theorem takeDefine_answered {m : List (Nat × PageCond)} {tk : Ticket} (hm : s.pageMap = some m) {c : Status}
    (hj : judgeDir s (defineRefusal s (toHandle f.handle) (allocate m (pagesPerCopy f.size.toNat))) = some c) :
    takeDefine tk f s = complete tk c [] s := by
  have hlist : s.pageList = m := by rw [State.pageList, hm]; rfl
  simp only [takeDefine, hlist, hj]

theorem takeDefine_taken {m : List (Nat × PageCond)} {tk : Ticket} (hm : s.pageMap = some m) {a b : Nat}
    (hr : allocate m (pagesPerCopy f.size.toNat) = some (a, b))
    (hj : judgeDir s (defineRefusal s (toHandle f.handle) (some (a, b))) = none) :
    takeDefine tk f s =
      takeDirJob .define ⟨.define (f.entry a b), toHandle f.handle, tk⟩ (s.markCopies .reserved (f.entry a b)) := by
  have hlist : s.pageList = m := by rw [State.pageList, hm]; rfl
  simp only [takeDefine, hlist, hr, hj, Option.getD_some]

theorem defineRefusal_exists {runs : Option (Nat × Nat)} (he : (s.record h).entry ≠ none) :
    defineRefusal s h runs = some .existsAlready := by
  simp [defineRefusal, State.isDefined, Option.isSome_iff_ne_none.2 he]

theorem defineRefusal_noSpace (he : (s.record h).entry = none) : defineRefusal s h none = some .noSpace := by
  simp [defineRefusal, State.isDefined, he]

theorem defineRefusal_none {runs : Nat × Nat} (he : (s.record h).entry = none) :
    defineRefusal s h (some runs) = none := by
  simp [defineRefusal, State.isDefined, he]

end

/-- Settles O30. -/
theorem defineIsTakenOrRefused : Obligations.DefineIsTakenOrRefused := by
  unfold Obligations.DefineIsTakenOrRefused
  constructor
  · intro s p t serial h label kind k size hold r0 r1 r2 m a b hpl hdev hport hslot he hg hk hhold hlabel h0 h1 h2 hm
      ha hb
    have hkind : toKind k = some kind := by
      rcases hk with ⟨rfl, rfl, -⟩ | ⟨rfl, rfl, -⟩ <;> rfl
    have hsize : 1 ≤ size.toNat := by
      rcases hk with ⟨-, -, h1, -⟩ | ⟨-, -, rfl⟩
      exacts [h1, Nat.le_of_ble_eq_true rfl]
    have hrange : defineInRange ⟨handleByte h, label, k, size, hold, ⟨r0, r1, r2⟩⟩ = true := by
      refine (defineInRange_iff _).2 ⟨?_, hhold, hlabel, h0, h1, h2⟩
      rcases hk with ⟨rfl, -, h1, h240⟩ | ⟨rfl, -, rfl⟩
      exacts [.inl ⟨rfl, h1, h240⟩, .inr ⟨rfl, rfl⟩]
    have hreq := State.oldestRequest_eq hpl.1 hpl.2 (parseReq_define (handleByte h) k size hold r0 r1 r2 label)
    have hexec := exec_taken hreq (admission_define hdev hport (isHandle_handleByte h) hrange)
    have hrun := allocate_eq (one_le_pagesPerCopy _ hsize) ha hb
    have hjudge : judgeDir (handOver p s) (defineRefusal (handOver p s) h (some (a.val, b.val))) = none :=
      judgeDir_taken (s := handOver p s) hslot (defineRefusal_none (s := handOver p s) he) hg
    have htake := takeDefine_taken (s := handOver p s) (tk := ⟨p, t, serial⟩) (m := m)
      (f := ⟨handleByte h, label, k, size, hold, ⟨r0, r1, r2⟩⟩) hm (a := a.val) (b := b.val) hrun
      (by rw [toHandle_handleByte]; exact hjudge)
    let x : RecEntry :=
      { label := label, kind := kind, size := size, holdLimit := hold,
        rights := ⟨⟨r0.getLsbD 0, r0.getLsbD 1, r0.getLsbD 2⟩, ⟨r1.getLsbD 0, r1.getLsbD 1, r1.getLsbD 2⟩,
          ⟨r2.getLsbD 0, r2.getLsbD 1, r2.getLsbD 2⟩⟩,
        frozen := false, stamp := 0#32, pageA := a, pageB := b }
    have hentry : DefineFields.entry ⟨handleByte h, label, k, size, hold, ⟨r0, r1, r2⟩⟩ a.val b.val = x := by
      rw [DefineFields.entry, hkind, show Fin.ofNat 2048 a.val = a from Fin.ofNat_val_eq_self a,
        show Fin.ofNat 2048 b.val = b from Fin.ofNat_val_eq_self b]
      rfl
    refine ⟨markCopies .reserved x m, ?_, fun page => pageCond_markCopies_taken (cond := .reserved) nofun x m page⟩
    refine hexec.trans (congrArg Host.Outcome.next (htake.trans ?_))
    rw [hentry, toHandle_handleByte, takeDirJob_eq, handOver_eq_handed]
    have hmap : ((handed s p).markCopies .reserved x).pageMap = some (markCopies .reserved x m) :=
      congrArg (Option.map _) hm
    rw [hmap]
    rfl
  · intro s p t h label k size hold r0 r1 r2 m hask hdev hport hk hhold hlabel h0 h1 h2 hm
    obtain ⟨serial, hpl⟩ := hask
    have hsize : 1 ≤ size.toNat := by
      rcases hk with ⟨-, h1, -⟩ | ⟨-, rfl⟩
      exacts [h1, Nat.le_of_ble_eq_true rfl]
    have hrange : defineInRange ⟨handleByte h, label, k, size, hold, ⟨r0, r1, r2⟩⟩ = true :=
      (defineInRange_iff _).2 ⟨hk, hhold, hlabel, h0, h1, h2⟩
    have hreq := State.oldestRequest_eq hpl.1 hpl.2 (parseReq_define (handleByte h) k size hold r0 r1 r2 label)
    have hexec := exec_taken hreq (admission_define hdev hport (isHandle_handleByte h) hrange)
    have hanswer : ∀ c, judgeDir (handOver p s)
        (defineRefusal (handOver p s) h (allocate m (pagesPerCopy size.toNat))) = some c →
        exec (.define p) s = .next (answered s p t c []) := fun c hc => by
      refine hexec.trans (congrArg Host.Outcome.next ?_)
      rw [← complete_handOver_eq_answered hpl.2]
      exact takeDefine_answered (s := handOver p s) (m := m) hm (by rw [toHandle_handleByte]; exact hc)
    refine ⟨fun hslot => ?_, fun hslot he => ?_, fun hslot he hno => ?_, fun a b hslot he hg ha hb => ?_⟩
    · exact hanswer _ (judgeDir_busy (s := handOver p s) hslot)
    · exact hanswer _ (judgeDir_refused (s := handOver p s) hslot (defineRefusal_exists (s := handOver p s) he))
    · refine hanswer _ (judgeDir_refused (s := handOver p s) hslot ?_)
      rw [pagesPerCopy, allocate_none (one_le_pagesPerCopy _ hsize) hno]
      exact defineRefusal_noSpace (s := handOver p s) he
    · refine hanswer _ (judgeDir_spent (s := handOver p s) hslot ?_ hg)
      rw [pagesPerCopy, allocate_eq (one_le_pagesPerCopy _ hsize) ha hb]
      exact defineRefusal_none (s := handOver p s) he

/-! ### DEVICE-INFO -/

/-- What the two numbers carried over the first `n` pages of the record area say: the run that ends there, and the
longest run so far. -/
def RunsMeasured (cond : Nat → PageCond) (n : Nat) (acc : Nat × Nat) : Prop :=
  acc.1 ≤ n ∧ (∀ page, 64 + n - acc.1 ≤ page → page < 64 + n → cond page = .free)
    ∧ (acc.1 < n → cond (64 + n - acc.1 - 1) ≠ .free)
    ∧ (acc.2 = 0 ∨ ∃ q, 64 ≤ q ∧ q + acc.2 ≤ 64 + n ∧ ∀ i, i < acc.2 → cond (q + i) = .free)
    ∧ ∀ q, 64 ≤ q → q + acc.2 + 1 ≤ 64 + n → ∃ i, i < acc.2 + 1 ∧ cond (q + i) ≠ .free

theorem runsMeasured_step {m : List (Nat × PageCond)} {n : Nat} {acc : Nat × Nat}
    (h : RunsMeasured (pageCond m) n acc) : RunsMeasured (pageCond m) (n + 1) (runStep m acc (64 + n)) := by
  obtain ⟨cur, best⟩ := acc
  obtain ⟨hle, hcur, hbefore, hbest, hmax⟩ := h
  simp only at hle hcur hbefore hbest hmax
  rw [runStep]
  split
  next hfree =>
    have hfree : pageCond m (64 + n) = .free := beq_iff_eq.1 hfree
    have hcur' : ∀ page, 64 + (n + 1) - (cur + 1) ≤ page → page < 64 + (n + 1) → pageCond m page = .free := by
      intro page h1 h2
      rcases Nat.lt_or_ge page (64 + n) with hp | hp
      · exact hcur page (by omega) hp
      · rw [show page = 64 + n by omega]
        exact hfree
    refine ⟨by simp only; omega, hcur', fun hlt => ?_, ?_, fun q h64 hq => ?_⟩
    · simp only at hlt ⊢
      rw [show 64 + (n + 1) - (cur + 1) - 1 = 64 + n - cur - 1 by omega]
      exact hbefore (by omega)
    · rcases Nat.le_total best (cur + 1) with hb | hb
      · refine .inr ⟨64 + n - cur, by omega, by simp only [max_eq_right hb]; omega, fun i hi => ?_⟩
        simp only [max_eq_right hb] at hi
        exact hcur' _ (by omega) (by omega)
      · simp only [max_eq_left hb]
        refine hbest.imp_right fun ⟨q, h1, h2, h3⟩ => ⟨q, h1, by omega, h3⟩
    · simp only at hq ⊢
      rcases Nat.lt_or_ge (64 + n) (q + max best (cur + 1) + 1) with hlast | hlast
      · have hlt : cur < n := by omega
        refine ⟨64 + n - cur - 1 - q, by omega, ?_⟩
        rw [show q + (64 + n - cur - 1 - q) = 64 + n - cur - 1 by omega]
        exact hbefore hlt
      · obtain ⟨i, hi, hnf⟩ := hmax q h64 (by omega)
        exact ⟨i, by omega, hnf⟩
  next hnot =>
    have hnot : pageCond m (64 + n) ≠ .free := fun hf => hnot (beq_iff_eq.2 hf)
    refine ⟨Nat.zero_le _, fun page h1 h2 => absurd h1 (by simp only; omega), fun _ => hnot, ?_, fun q h64 hq => ?_⟩
    · exact hbest.imp_right fun ⟨q, h1, h2, h3⟩ => ⟨q, h1, by omega, h3⟩
    · simp only at hq ⊢
      rcases Nat.lt_or_ge (64 + n) (q + best + 1) with hlast | hlast
      · exact ⟨64 + n - q, by omega, by rwa [show q + (64 + n - q) = 64 + n by omega]⟩
      · exact hmax q h64 hlast

theorem runsMeasured_foldl (m : List (Nat × PageCond)) (n : Nat) :
    RunsMeasured (pageCond m) n ((List.range' 64 n).foldl (runStep m) (0, 0)) := by
  induction n with
  | zero => exact ⟨Nat.le_refl _, fun _ h1 h2 => absurd h2 (Nat.not_lt.2 h1), nofun, .inl rfl, fun q h1 h2 => by
      have h2 : q + 0 + 1 ≤ 64 + 0 := h2
      omega⟩
  | succ n ih =>
    rw [List.range'_1_concat, List.foldl_append]
    exact runsMeasured_step ih

theorem freeRun_shorter {cond : Nat → PageCond} {n k q : Nat} (h : FreeRun cond n q) (hk : k ≤ n) :
    FreeRun cond k q := by
  obtain ⟨h64, hend, hfree⟩ := h
  exact ⟨h64, by omega, fun i hi => hfree i (by omega)⟩

/-- The longest run of FREE pages is the one measured (08, R153). -/
theorem State.largestRun_eq {s : State} {m : List (Nat × PageCond)} {longest : Nat} (hm : s.pageMap = some m)
    (hrun : longest = 0 ∨ ∃ q, FreeRun (pageCond m) longest q) (hmax : ∀ q, ¬ FreeRun (pageCond m) (longest + 1) q) :
    s.largestRun = longest := by
  obtain ⟨-, -, -, hbest, hlong⟩ := runsMeasured_foldl m 1984
  simp only [State.largestRun, hm]
  show ((List.range' 64 1984).foldl (runStep m) (0, 0)).2 = longest
  generalize ((List.range' 64 1984).foldl (runStep m) (0, 0)).2 = best at hbest hlong
  rcases Nat.lt_trichotomy best longest with hlt | heq | hgt
  · obtain ⟨q, hq⟩ := hrun.resolve_left (by omega)
    obtain ⟨h64, hend, hfree⟩ := freeRun_shorter hq (k := best + 1) hlt
    obtain ⟨i, hi, hnot⟩ := hlong q h64 (by omega)
    exact absurd (hfree i hi) hnot
  · exact heq
  · obtain ⟨q, h64, hend, hfree⟩ := hbest.resolve_left (by omega)
    have hq : FreeRun (pageCond m) best q := ⟨h64, hend, hfree⟩
    exact absurd (freeRun_shorter hq hgt) (hmax q)

theorem State.freePages_eq {s : State} {m : List (Nat × PageCond)} (hm : s.pageMap = some m) :
    s.freePages = ((List.range 2048).filter fun page => decide (64 ≤ page) && (pageCond m page == .free)).length := by
  have hsplit : List.range 2048 = List.range' 0 64 ++ recordArea := by
    rw [List.range_eq_range', recordArea]
    exact (List.range'_append_1 (s := 0) (m := 64) (n := 1984)).symm
  have hlow : (List.range' 0 64).filter (fun page => decide (64 ≤ page) && (pageCond m page == .free)) = [] := by
    rw [List.filter_eq_nil_iff]
    intro page hp
    rw [List.mem_range'_1] at hp
    simp only [Bool.and_eq_true, decide_eq_true_eq]
    omega
  have harea : recordArea.filter (fun page => decide (64 ≤ page) && (pageCond m page == .free))
      = recordArea.filter fun page => pageCond m page == .free := by
    refine List.filter_congr fun page hp => ?_
    rw [recordArea, List.mem_range'_1] at hp
    rw [decide_eq_true hp.1, Bool.true_and]
  simp only [State.freePages, hm]
  rw [hsplit, List.filter_append, hlow, List.nil_append, harea]

theorem portOrNoneByte_configPort (s : State) : portOrNoneByte s.configPort = configByte s := by
  rw [configByte]
  cases s.configPort with
  | none => rfl
  | some p => cases p <;> rfl

theorem infoBody_eq (s : State) :
    infoBody s = [devStateByte s.dev, 0x01#8, 0x9C#8, 0x01#8, configByte s] ++ be4 s.infoFigures.dirGen
      ++ [BitVec.ofNat 8 s.infoFigures.records] ++ be2 (BitVec.ofNat 16 s.infoFigures.freePages)
      ++ be2 (BitVec.ofNat 16 s.infoFigures.largestRun)
      ++ [BitVec.ofNat 8 s.infoFigures.freeEntries, BitVec.ofNat 8 s.infoFigures.queueLength] := by
  rw [infoBody, portOrNoneByte_configPort]
  rfl

theorem State.infoFigures_standing {s : State}
    (h : s.dev = .ready ∨ (s.dev = .clearing ∧ ∀ x, s.clear = some x → x.phase = .draining)) :
    s.infoFigures = s.standingFigures := by
  rcases h with hdev | ⟨hdev, hc⟩
  · simp only [State.infoFigures, hdev]
  · simp only [State.infoFigures, hdev]
    split
    next tk hclear => exact absurd (hc _ hclear) nofun
    next => rfl

/-- Settles O33. -/
theorem deviceInfoReportsTheDevice : Obligations.DeviceInfoReportsTheDevice := by
  unfold Obligations.DeviceInfoReportsTheDevice
  intro s p t hask
  obtain ⟨serial, hpl⟩ := hask
  have hreq := State.oldestRequest_eq hpl.1 hpl.2 (show parseReq 0x40#8 [] = some .deviceInfo from rfl)
  have hexec : exec (.deviceInfo p) s = .next (answered s p t .ok (infoBody s)) := by
    have hadm := admission_passed (p := p) (r := .deviceInfo) (kindAllowed_always s.dev).1 nofun rfl rfl rfl rfl rfl
    exact (exec_taken hreq hadm).trans (congrArg Host.Outcome.next (complete_handOver_eq_answered hpl.2 _ _))
  rw [hexec, infoBody_eq]
  refine ⟨fun m longest hdev hm hrun hmax => ?_, fun hdev => ?_, fun hdev => ?_, fun tk hdev hclear => ?_⟩
  · have hbyte : devStateByte s.dev = if s.dev = .ready then 0x01#8 else 0x03#8 := by
      rcases hdev with hdev | ⟨hdev, -⟩ <;> rw [hdev] <;> rfl
    rw [State.infoFigures_standing hdev, State.standingFigures, State.freePages_eq hm,
      State.largestRun_eq hm hrun hmax, hbyte]
    simp only [List.append_assoc, List.cons_append, List.nil_append]
    rfl
  · simp only [State.infoFigures, hdev]
    rfl
  · simp only [State.infoFigures, hdev]
    rfl
  · simp only [State.infoFigures, hdev, hclear]
    rfl

end Sys2Proof.Machine

/-! PROOF. The bus transactions (07, R119 to R125, R130 to R133; 10, R171 to R177): what a port drives, the placing of
a request frame, and the three fetches. -/

namespace Sys2Proof.Machine

open Sys2Proof.Safety
set_option deprecated.oldSectionVars true

/-! ### What a port drives -/

theorem driveWritten_eq (p : Port) (n : Nat) (s : State) :
    driveWritten p n s = s.setPort p { s.port p with bus := busWritten s p n } := by
  rw [driveWritten, busWritten]
  split <;> rfl

theorem driveItem_eq (p : Port) (item : List Byte) (n : Nat) (s : State) :
    driveItem p item n s = s.setPort p { s.port p with bus := busReturned s p item n } := by
  rw [driveItem, busReturned]
  split <;> rfl

theorem readDue_of_selected {s : State} {p : Port} {sel : Selection} (h : Selected s p sel) :
    readDue s p sel = true := by
  rcases h with h | h <;> simp [readDue, h]

/-! ### SUBMIT -/

theorem byteAt_append_length (l : List Byte) (c : Byte) {i : Nat} (hi : l.length = i) : byteAt (l ++ [c]) i = c := by
  subst hi
  simp [byteAt]

theorem judgeFrame_requestFrame (t : Tag) (kind : Byte) {body : List Byte} (hb : body.length ≤ 40) :
    judgeFrame (requestFrame t kind body) = some ⟨t, kind, body⟩ := by
  have ht := t.isLt
  have hlen : (BitVec.ofNat 8 body.length).toNat = body.length := by
    rw [BitVec.toNat_ofNat]
    omega
  have htag : (BitVec.ofNat 8 t.val).toNat = t.val := by
    rw [BitVec.toNat_ofNat]
    omega
  have hfront : (requestFrame t kind body).take (3 + body.length)
      = [BitVec.ofNat 8 t.val, kind, BitVec.ofNat 8 body.length] ++ body :=
    List.take_left' (by simp; omega)
  have hcheck : byteAt (requestFrame t kind body) (3 + body.length)
      = crc8 ([BitVec.ofNat 8 t.val, kind, BitVec.ofNat 8 body.length] ++ body) := by
    exact byteAt_append_length _ _ (by simp; omega)
  have h0 : (byteAt (requestFrame t kind body) 0).toNat = t.val := htag
  have h2 : (byteAt (requestFrame t kind body) 2).toNat = body.length := hlen
  have hslice : slice (requestFrame t kind body) 3 body.length = body := List.take_left' rfl
  have hn : (requestFrame t kind body).length = 4 + body.length := by
    simp [requestFrame]
    omega
  rw [judgeFrame]
  simp only [h0, h2, ht, dite_true, hfront, hcheck, hslice, hn, hb, and_self, if_true]
  rfl

theorem requestFrame_of_judgeFrame {frame : List Byte} {g : GoodFrame} (h : judgeFrame frame = some g) :
    g.body.length ≤ 40 ∧ frame = requestFrame g.tag g.kind g.body := by
  rw [judgeFrame] at h
  split at h
  next htag =>
    split at h
    next hgood =>
      obtain ⟨hlen40, hlen, hcheck⟩ := hgood
      generalize hn : (byteAt frame 2).toNat = n at *
      obtain ⟨b0, b1, b2, rest, rfl⟩ : ∃ b0 b1 b2 rest, frame = b0 :: b1 :: b2 :: rest := by
        match frame, hlen with
        | b0 :: b1 :: b2 :: rest, _ => exact ⟨b0, b1, b2, rest, rfl⟩
        | [], hl => simp at hl; omega
        | [_], hl => simp at hl; omega
        | [_, _], hl => simp at hl; omega
      simp only [Option.some.injEq] at h
      subst h
      have hrest : rest.length = n + 1 := by
        simp only [List.length_cons] at hlen
        omega
      have hbody : slice (b0 :: b1 :: b2 :: rest) 3 n = rest.take n := rfl
      have hb2 : b2 = BitVec.ofNat 8 n := by
        apply BitVec.eq_of_toNat_eq
        rw [BitVec.toNat_ofNat, Nat.mod_eq_of_lt (by omega)]
        exact hn
      have hb0 : b0 = BitVec.ofNat 8 b0.toNat :=
        ((BitVec.ofNat_toNat 8 b0).trans (BitVec.setWidth_eq b0)).symm
      have hlast : rest = rest.take n ++ [byteAt rest n] := by
        have hdrop : rest.drop n = [byteAt rest n] := by
          rw [List.drop_eq_getElem_cons (by omega), List.drop_of_length_le (by omega), byteAt,
            List.getD_eq_getElem?_getD, List.getElem?_eq_getElem (by omega)]
          rfl
        rw [← hdrop, List.take_append_drop]
      have htake : (b0 :: b1 :: b2 :: rest).take (3 + n) = [b0, b1, b2] ++ rest.take n := by
        rw [Nat.add_comm]
        rfl
      have hbyte : byteAt (b0 :: b1 :: b2 :: rest) (3 + n) = byteAt rest n := by
        rw [Nat.add_comm]
        rfl
      rw [htake, hbyte] at hcheck
      have hlen' : (rest.take n).length = n := by
        rw [List.length_take]
        omega
      simp only [hbody, hlen']
      refine ⟨hlen40, ?_⟩
      rw [requestFrame, hlen', ← hb2]
      show b0 :: b1 :: b2 :: rest = ([BitVec.ofNat 8 b0.toNat, b1, b2] ++ rest.take n)
        ++ [crc8 ([BitVec.ofNat 8 b0.toNat, b1, b2] ++ rest.take n)]
      rw [← hb0, hcheck, List.append_assoc, ← hlast]
      rfl
    next => cases h
  next => cases h

theorem isPortReset_iff {t : Tag} {kind : Byte} {body : List Byte} :
    isPortReset ⟨t, kind, body⟩ = true ↔ kind = 0x42#8 ∧ body = [] := by
  simp [isPortReset]

/-- A request placed on a port that has just driven its bus (07, R125, R126). -/
theorem placeRequest_driven (s : State) (p : Port) (b : BusRecord) (g : GoodFrame) :
    placeRequest p g (s.setPort p { s.port p with bus := b }) =
      { s with serial := s.serial + 1 }.setPort p
        { s.port p with
          slots := (s.port p).slots.set g.tag.val (.pending s.serial g.kind g.body) g.tag.isLt
          fifo := (s.port p).fifo.filter fun u => u != g.tag
          handOrder := (s.port p).handOrder.filter (fun u => u != g.tag) ++ [g.tag]
          bus := b } := by
  simp only [placeRequest, State.setPort_port_same]
  simp only [State.setPort, PerPort.set_set]

/-- Settles O9. -/
theorem submitPlacesAGoodFrame : Obligations.SubmitPlacesAGoodFrame := by
  unfold Obligations.SubmitPlacesAGoodFrame
  constructor
  · intro s p frame hact hbad
    have hjudge : judgeFrame frame = none := by
      cases hg : judgeFrame frame with
      | none => rfl
      | some g =>
        obtain ⟨hlen, hframe⟩ := requestFrame_of_judgeFrame hg
        exact absurd hframe (hbad g.tag g.kind g.body hlen)
    show execSubmit p frame s = _
    simp only [execSubmit, hact, if_true, hjudge, driveWritten_eq, setFrameError, State.setPort_port_same,
      State.setPort_setPort]
  · intro s p t kind body hact hlen
    have hexec : exec (.submit p (requestFrame t kind body)) s =
        .next (tagCheck p ⟨t, kind, body⟩ (s.setPort p { s.port p with bus := busWritten s p (4 + body.length) })) := by
      have hn : (requestFrame t kind body).length = 4 + body.length := by
        simp [requestFrame]
        omega
      show execSubmit p (requestFrame t kind body) s = _
      simp only [execSubmit, hact, if_true, judgeFrame_requestFrame t kind hlen, driveWritten_eq, hn]
    rw [hexec, tagCheck]
    simp only [State.setPort_port_same, isPortReset_iff]
    constructor
    · intro hfree
      rw [if_pos hfree, placeRequest_driven]
    · intro hfull hreset
      rw [if_neg (not_or.2 ⟨hfull, hreset⟩), setTagCollision, State.setPort_port_same, State.setPort_setPort]

/-! ### Fetches -/

theorem emptyAnswer_eq : emptyAnswer = [0x00#8, 0x00#8, 0xD7#8] := by
  simp [emptyAnswer, withCheck, crc8, crc8Step, crc8Bit, BitVec.msb_eq_getLsbD_last]

theorem responseFrame_length (t : Tag) (r : Response) : (responseFrame t r).length = 4 + r.body.length := by
  simp [responseFrame, withCheck]
  omega

/-- Settles O10. -/
theorem fetchResponseReturnsOldest : Obligations.FetchResponseReturnsOldest := by
  unfold Obligations.FetchResponseReturnsOldest
  intro s p n hact hsel
  have hdue := readDue_of_selected hsel
  constructor
  · intro hempty
    have hhead : (s.port p).headResponse = none := by simp only [PortState.headResponse, hempty]
    show execFetchResponse p n s = _
    simp only [execFetchResponse, hact, hdue, if_true, hhead, driveItem_eq, emptyAnswer_eq]
  · intro t rest r hfifo hslot
    have hhead : (s.port p).headResponse = some (t, r) := by simp only [PortState.headResponse, hfifo, hslot]
    refine ⟨responseFrame t r, rfl, ?_⟩
    show execFetchResponse p n s = _
    simp only [execFetchResponse, hact, hdue, if_true, hhead, driveItem_eq, responseFrame_length]
    split
    · rw [removeResponse, State.setPort_port_same, State.setPort_setPort, hfifo]
      rfl
    · rfl

theorem removeNotice_eq {x : PortState} {c : Notice} {rest : List Notice} (hx : x.notices = c :: rest) :
    x.removeNotice =
      { x with notices := if x.lost = 0x00#8 then rest else rest ++ [.lost x.lost], lost := 0x00#8 } := by
  rw [PortState.removeNotice, hx]
  split
  next hlost => simp only [hlost]; rfl
  next hlost => rfl

/-- Settles O11. -/
theorem fetchNoticeReturnsOldest : Obligations.FetchNoticeReturnsOldest := by
  unfold Obligations.FetchNoticeReturnsOldest
  intro s p n hact hsel
  have hdue := readDue_of_selected hsel
  constructor
  · intro hempty
    show execFetchNotice p n s = _
    simp only [execFetchNotice, hact, hdue, if_true, hempty, driveItem_eq, emptyAnswer_eq]
  · intro c rest hnotices
    refine ⟨_, noticeFrame c, rfl, ?_, ?_⟩
    · cases c <;> rfl
    · show execFetchNotice p n s = _
      simp only [execFetchNotice, hact, hdue, if_true, hnotices, driveItem_eq]
      split
      · rw [State.setPort_port_same, State.setPort_setPort, removeNotice_eq (c := c) (rest := rest) rfl]
      · rfl

theorem statusFirst_toNat {s : State} {p : Port} (hfifo : (s.port p).fifo.length ≤ 4) :
    (s.statusFirst p).toNat =
      64 * (match s.dev with | .starting => 0 | .ready => 1 | .damaged => 2 | .clearing => 3)
        + 8 * (s.port p).fifo.length + (if (s.port p).notices = [] then 0 else 4)
        + (if (s.port p).frameError then 2 else 0) + (if (s.port p).tagCollision then 1 else 0) := by
  have hdev : (devStateBits s.dev).toNat =
      match s.dev with | .starting => 0 | .ready => 1 | .damaged => 2 | .clearing => 3 := by
    cases s.dev <;> rfl
  have hcount : (BitVec.ofNat 3 (s.port p).doneCount).toNat = (s.port p).fifo.length := by
    rw [BitVec.toNat_ofNat]
    exact Nat.mod_eq_of_lt (by simp only [PortState.doneCount]; omega)
  have hnotice : (BitVec.ofBool (!(s.port p).notices.isEmpty)).toNat = if (s.port p).notices = [] then 0 else 1 := by
    cases (s.port p).notices <;> rfl
  have herror : (BitVec.ofBool (s.port p).frameError).toNat = if (s.port p).frameError then 1 else 0 := by
    cases (s.port p).frameError <;> rfl
  have hcollision : (BitVec.ofBool (s.port p).tagCollision).toNat = if (s.port p).tagCollision then 1 else 0 := by
    cases (s.port p).tagCollision <;> rfl
  rw [State.statusFirst]
  simp only [toNat_append_eq_mul_add, hdev, hcount, hnotice, herror, hcollision]
  split <;> split <;> split <;> omega

/-- Settles O12. -/
theorem statusReportsAndClearsFlags : Obligations.StatusReportsAndClearsFlags := by
  unfold Obligations.StatusReportsAndClearsFlags
  intro s p n hact hsel hfifo
  refine ⟨s.statusFirst p, statusFirst_toNat hfifo, ?_⟩
  show execStatus p n s = _
  simp only [execStatus, hact, readDue_of_selected hsel, if_true, driveItem_eq, State.statusBytes]
  split
  · rw [clearFlags, State.setPort_port_same, State.setPort_setPort]
  · rfl

/-! ### Code bytes -/

theorem toTransKind_unknown {code : Byte} (h1 : code ≠ 0xC1#8) (h2 : code ≠ 0xC2#8) (h3 : code ≠ 0xC3#8)
    (h4 : code ≠ 0xC4#8) : toTransKind code = none := by
  simp only [toTransKind, h1, h2, h3, h4, if_false]

/-- On an I2C port the address byte says whether the transaction writes or reads (07, R119, R123; 10, R171). -/
theorem State.busCommand_i2c {s : State} {p : Port} (hi2c : s.isI2C p = true) {write read : Byte}
    (hw : Straps.addressByte s.straps false = write) (hr : Straps.addressByte s.straps true = read)
    (address : Byte) (rest : List Byte) (n : Nat) :
    s.busCommand p (address :: rest) n =
      if address = write then i2cWriteCommand p rest
      else if address = read then some (itemCommand p (s.port p).selection n) else none := by
  simp only [State.busCommand, hi2c, if_true, hw, hr]

theorem State.busCommand_spi {s : State} {p : Port} (hspi : s.isI2C p = false) (sent : List Byte) (n : Nat) :
    s.busCommand p sent n = spiCommand p sent := by
  simp only [State.busCommand, hspi, Bool.false_eq_true, if_false]

theorem exec_unknownCode {s : State} {code : Byte} (p : Port) (extra : Nat) (hact : s.active = true)
    (hcode : toTransKind code = none) :
    exec (.unknownCodeByte p code extra) s = .next
      (s.setPort p
        { s.port p with
          frameError := true
          bus := if s.isI2C p then ⟨[], true :: List.replicate (extra + 1) false⟩
            else ⟨List.replicate (extra + 1) 0xFF#8, []⟩ }) := by
  show execUnknownCodeByte p code extra s = _
  simp only [execUnknownCodeByte, hact, if_true, hcode, Option.isSome_none, Bool.false_eq_true, if_false]
  split <;> simp only [setBus, setFrameError, State.setPort_port_same, State.setPort_setPort]

theorem exec_readSelection_i2c {s : State} (p : Port) (sel : Selection) (extra : Nat) (hact : s.active = true)
    (hi2c : s.isI2C p = true) :
    exec (.readSelection p sel extra) s = .next
      (s.setPort p
        { s.port p with
          selection := sel
          frameError := if extra = 0 then (s.port p).frameError else true
          bus := ⟨[], List.replicate (extra + 2) true⟩ }) := by
  show execReadSelection p sel extra s = _
  simp only [execReadSelection, hact, hi2c, if_true, driveWritten_eq, busWritten, State.setPort_port_same,
    State.setPort_setPort]
  split
  next h => simp only [h]
  next h => simp only [setFrameError, State.setPort_port_same, State.setPort_setPort]

/-- Settles O13. -/
theorem codeByteSelectsTheTransaction : Obligations.CodeByteSelectsTheTransaction := by
  unfold Obligations.CodeByteSelectsTheTransaction
  refine ⟨?_, ?_, ?_, ?_⟩
  · intro s p code extra hact h1 h2 h3 h4
    exact exec_unknownCode p extra hact (toTransKind_unknown h1 h2 h3 h4)
  · intro s p sel extra hact hi2c
    exact exec_readSelection_i2c p sel extra hact hi2c
  · intro s p rest n hspi
    simp only [State.busCommand_spi hspi]
    refine ⟨rfl, rfl, rfl, rfl, rfl, fun code h1 h2 h3 h4 => ?_⟩
    simp only [spiCommand, toTransKind_unknown h1 h2 h3 h4]
  · intro s p write read rest n hi2c haddr
    have hbytes : Straps.addressByte s.straps false = write ∧ Straps.addressByte s.straps true = read
        ∧ read ≠ write := by
      rcases haddr with ⟨ha, rfl, rfl⟩ | ⟨ha, rfl, rfl⟩ <;>
        exact ⟨by rw [Straps.addressByte, Straps.address, ha]; rfl,
          by rw [Straps.addressByte, Straps.address, ha]; rfl, nofun⟩
    obtain ⟨hw, hr, hne⟩ := hbytes
    simp only [State.busCommand_i2c hi2c hw hr, if_true, if_neg hne]
    refine ⟨rfl, rfl, rfl, rfl, rfl, fun code h1 h2 h3 h4 => ?_, ?_, fun address hnw hnr => ?_⟩
    · simp only [i2cWriteCommand, toTransKind_unknown h1 h2 h3 h4]
    · rfl
    · rw [if_neg hnw, if_neg hnr]

/-! ### Inactive ports -/

theorem exec_inactive {c : Instr} {s : State} {p : Port} (hact : s.active = false) (hc : transactionPort c = some p) :
    exec c s = .next (driveInactive p s) := by
  have hf : ¬ s.active = true := by simp [hact]
  cases c <;> simp only [transactionPort, Option.some.injEq, reduceCtorEq] at hc <;> subst hc
  case unknownCodeByte code extra => exact if_neg hf
  case submit frame => exact if_neg hf
  case fetchResponse n => exact if_neg hf
  case fetchNotice n => exact if_neg hf
  case status n => exact if_neg hf
  case readSelection sel extra => exact if_neg hf

/-- Settles O14. -/
theorem inactivePortsTakeNothing : Obligations.InactivePortsTakeNothing := by
  unfold Obligations.InactivePortsTakeNothing
  intro c s p hact hc
  refine ⟨_, exec_inactive hact hc, rfl, fun q => ?_⟩
  have hoff : (driveInactive p s).active = false := hact
  simp only [State.attnLow, hoff, Bool.false_and]

end Sys2Proof.Machine

/-! PROOF. Admission (08): the first check that fails answers, and the token check of the lease requests. -/

namespace Sys2Proof.Machine

open Sys2Proof.Safety
set_option deprecated.oldSectionVars true

/-! ### The first check that fails, in READY -/

section
variable {s : State} {p : Port} {r : Req} (hdev : s.dev = .ready)
  (hport : configOnly r.kind = true → s.configPort = some p)
include hdev hport

theorem admission_noRecord (hh : handlePasses s p r = false) : admission s p r = some .noRecord := by
  rw [admission_ready hdev hport, hh]
  rfl

theorem admission_noRight (hh : handlePasses s p r = true) (hr : rightPasses s p r = false) :
    admission s p r = some .denied := by
  rw [admission_ready hdev hport, hh, hr]
  rfl

theorem admission_frozen (hh : handlePasses s p r = true) (hr : rightPasses s p r = true)
    (hf : frozenPasses s r = false) : admission s p r = some .frozen := by
  rw [admission_ready hdev hport, hh, hr, hf]
  rfl

theorem admission_range (hh : handlePasses s p r = true) (hr : rightPasses s p r = true)
    (hf : frozenPasses s r = true) (hrange : rangePasses s r = false) : admission s p r = some .range := by
  rw [admission_ready hdev hport, hh, hr, hf, hrange]
  rfl

theorem admission_wrongKind (hh : handlePasses s p r = true) (hr : rightPasses s p r = true)
    (hf : frozenPasses s r = true) (hrange : rangePasses s r = true) (hk : kindPasses s r = false) :
    admission s p r = some .wrongKind := by
  rw [admission_ready hdev hport, hh, hr, hf, hrange, hk]
  rfl

end

/-! ### Handle bytes and the rights they are judged against -/

theorem eq_handleByte {b : Byte} {h : Handle} (hb : h.val = b.toNat) : b = handleByte h := by
  rw [handleByte, hb, BitVec.ofNat_toNat, BitVec.setWidth_eq]

section
variable {s : State} {p : Port} {b : Byte} {h : Handle} {x : RecEntry}

/-- The handle byte names no record for the rights given. -/
theorem needVisible_false {rights : Handle → Rights}
    (hn : 48 ≤ b.toNat ∨ ∀ h : Handle, h.val = b.toNat → ∀ x, Defined s h x → (rights h).visible = false) :
    needVisible s b rights = false := by
  rw [needVisible]
  cases hb : isHandle b with
  | false => rfl
  | true =>
    have hlt : b.toNat < 48 := of_decide_eq_true hb
    have hval : (toHandle b).val = b.toNat := Nat.mod_eq_of_lt hlt
    cases hx : (s.record (toHandle b)).entry with
    | none => simp [State.isDefined, hx]
    | some x => simp [hn.resolve_left (by omega) (toHandle b) hval x hx]

theorem isDefined_false {s : State} {b : Byte}
    (hn : 48 ≤ b.toNat ∨ ∀ h : Handle, h.val = b.toNat → (s.record h).entry = none) :
    (isHandle b && s.isDefined (toHandle b)) = false := by
  cases hb : isHandle b with
  | false => rfl
  | true =>
    have hlt : b.toNat < 48 := of_decide_eq_true hb
    have hval : (toHandle b).val = b.toNat := Nat.mod_eq_of_lt hlt
    simp [State.isDefined, hn.resolve_left (by omega) (toHandle b) hval]

theorem not_visible_of_not_sees (hx : Defined s h x) (hs : ¬ Sees x p) : (s.rightsOf h p).visible = false := by
  rw [State.rightsOf_eq hx, Bool.eq_false_iff]
  exact fun hv => hs ((Rights.visible_iff _).1 hv)

theorem visible_of_sees (hx : Defined s h x) (hs : Sees x p) : (s.rightsOf h p).visible = true := by
  rw [State.rightsOf_eq hx]
  exact (Rights.visible_iff _).2 hs

/-- A token that is live for no lease on the record leaves the current rights (08, R146). -/
theorem State.rightsFor_current {t : Token} (hn : ∀ e l, Live s p t.entry t.count e l → l.handle ≠ h) :
    s.rightsFor p h t = s.rightsOf h p :=
  State.rightsFor_other fun e l hl => hn e l (State.live_of_liveLease hl)

/-- The right that a READ or ADD needs, from the current rights or from a live lease on the record (08, R146). -/
theorem State.rightsFor_of {entry count : Byte} {right : Rights → Bool} (hx : Defined s h x)
    (hr : (∀ e l, Live s p entry count e l → l.handle ≠ h) ∧ right (x.rights.get p) = true
      ∨ ∃ e l, Live s p entry count e l ∧ l.handle = h ∧ right l.grantRights = true) :
    right (s.rightsFor p h ⟨entry, count⟩) = true := by
  rcases hr with ⟨hn, hr⟩ | ⟨e, l, hl, rfl, hr⟩
  · rw [State.rightsFor_current (t := ⟨entry, count⟩) hn, State.rightsOf_eq hx, hr]
  · rw [State.rightsFor_live hl, hr]

/-- A request judged against the current rights is one of the four kinds whose handle is seen through them. -/
theorem handlePasses_judged {r : Req} (hj : JudgedByCurrent s p b r) (hx : Defined s h x) (hb : h.val = b.toNat) :
    handlePasses s p r = (s.rightsOf h p).visible := by
  have hhandle : (isHandle b && s.isDefined (toHandle b)) = true := by
    rw [isHandle_of_val hb, toHandle_of_val hb, State.isDefined_of hx]
    rfl
  cases r with
  | read c t o n =>
    obtain ⟨rfl, hn⟩ := hj
    rw [handlePasses, needVisible, hhandle, toHandle_of_val hb, Bool.true_and,
      State.rightsFor_current fun e l hl hh => hn e l hl (by rw [hh, hb])]
  | add c t d =>
    obtain ⟨rfl, hn⟩ := hj
    rw [handlePasses, needVisible, hhandle, toHandle_of_val hb, Bool.true_and,
      State.rightsFor_current fun e l hl hh => hn e l hl (by rw [hh, hb])]
  | acquire c w =>
    obtain rfl : c = b := hj
    rw [handlePasses, needVisible, hhandle, toHandle_of_val hb, Bool.true_and]
  | watch c m th f =>
    obtain rfl : c = b := hj
    rw [handlePasses, needVisible, hhandle, toHandle_of_val hb, Bool.true_and]
  | _ => exact hj.elim

theorem handlePasses_judged_false {r : Req} (hj : JudgedByCurrent s p b r)
    (hn : 48 ≤ b.toNat ∨ ∀ h : Handle, h.val = b.toNat → ∀ x, Defined s h x → ¬ Sees x p) :
    handlePasses s p r = false := by
  have hcurrent : 48 ≤ b.toNat ∨ ∀ h : Handle, h.val = b.toNat → ∀ x, Defined s h x →
      (s.rightsOf h p).visible = false :=
    hn.imp_right fun hn h hb x hx => not_visible_of_not_sees hx (hn h hb x hx)
  cases r with
  | read c t o n =>
    obtain ⟨rfl, hl⟩ := hj
    refine needVisible_false (rights := fun h => s.rightsFor p h t) (hcurrent.imp_right fun hv h hb x hx => ?_)
    rw [State.rightsFor_current fun e l hlive hh => hl e l hlive (by rw [hh, hb])]
    exact hv h hb x hx
  | add c t d =>
    obtain ⟨rfl, hl⟩ := hj
    refine needVisible_false (rights := fun h => s.rightsFor p h t) (hcurrent.imp_right fun hv h hb x hx => ?_)
    rw [State.rightsFor_current fun e l hlive hh => hl e l hlive (by rw [hh, hb])]
    exact hv h hb x hx
  | acquire c w =>
    obtain rfl : c = b := hj
    exact needVisible_false hcurrent
  | watch c m th f =>
    obtain rfl : c = b := hj
    exact needVisible_false hcurrent
  | _ => exact hj.elim

theorem configOnly_judged {r : Req} (hj : JudgedByCurrent s p b r) : configOnly r.kind = false := by
  cases r with
  | read | acquire | add | watch => rfl
  | _ => exact hj.elim

/-- The right of step 5 under the current rights (08, R147). -/
theorem rightPasses_judged {r : Req} (hj : JudgedByCurrent s p b r) (hx : Defined s h x) (hb : h.val = b.toNat) :
    rightPasses s p r =
      match r with
      | .read .. => (x.rights.get p).read
      | .watch .. => (x.rights.get p).watch
      | _ => (x.rights.get p).update := by
  cases r with
  | read c t o n =>
    obtain ⟨rfl, hn⟩ := hj
    rw [rightPasses, toHandle_of_val hb, State.rightsFor_current fun e l hl hh => hn e l hl (by rw [hh, hb]),
      State.rightsOf_eq hx]
  | add c t d =>
    obtain ⟨rfl, hn⟩ := hj
    rw [rightPasses, toHandle_of_val hb, State.rightsFor_current fun e l hl hh => hn e l hl (by rw [hh, hb]),
      State.rightsOf_eq hx]
  | acquire c w =>
    obtain rfl : c = b := hj
    rw [rightPasses, toHandle_of_val hb, State.rightsOf_eq hx]
  | watch c m th f =>
    obtain rfl : c = b := hj
    rw [rightPasses, toHandle_of_val hb, State.rightsOf_eq hx]
  | _ => exact hj.elim

theorem admission_judged_noRight {r : Req} (hdev : s.dev = .ready) (hj : JudgedByCurrent s p b r)
    (hb : h.val = b.toNat) (hx : Defined s h x) (hs : Sees x p)
    (hno : (∃ k o n, r = .read b k o n ∧ (x.rights.get p).read = false)
      ∨ (∃ w, r = .acquire b w ∧ (x.rights.get p).update = false)
      ∨ (∃ k d, r = .add b k d ∧ (x.rights.get p).update = false)
      ∨ (∃ m th f, r = .watch b m th f ∧ (x.rights.get p).watch = false)) :
    admission s p r = some .denied := by
  refine admission_noRight hdev (by rw [configOnly_judged hj]; nofun)
    ((handlePasses_judged hj hx hb).trans (visible_of_sees hx hs)) ((rightPasses_judged hj hx hb).trans ?_)
  rcases hno with ⟨k, o, n, rfl, hr⟩ | ⟨w, rfl, hr⟩ | ⟨k, d, rfl, hr⟩ | ⟨m, th, f, rfl, hr⟩
  all_goals exact hr

theorem admission_judged_frozen {r : Req} (hdev : s.dev = .ready) (hj : JudgedByCurrent s p b r)
    (hb : h.val = b.toNat) (hx : Defined s h x) (hf : x.frozen = true) (hu : (x.rights.get p).update = true)
    (hr : (∃ w, r = .acquire b w) ∨ ∃ k d, r = .add b k d) : admission s p r = some .frozen := by
  have hfrozen : (!(s.entryOf (toHandle b)).frozen) = false := by
    rw [toHandle_of_val hb, State.entryOf_eq hx, hf]
    rfl
  have hhandle := (handlePasses_judged hj hx hb).trans (visible_of_sees hx (.inr (.inl hu)))
  have hright := rightPasses_judged hj hx hb
  have hconfig := configOnly_judged hj
  rcases hr with ⟨w, rfl⟩ | ⟨k, d, rfl⟩
  all_goals exact admission_frozen hdev (by rw [hconfig]; nofun) hhandle (hright.trans hu) hfrozen

theorem admission_read_range {t : Token} {o n : Byte} (hdev : s.dev = .ready) (hx : Defined s h x)
    (hr : (s.rightsFor p h t).read = true)
    (hout : n.toNat = 0 ∨ 32 < n.toNat ∨ x.size.toNat < o.toNat + n.toNat) :
    admission s p (.read (handleByte h) t o n) = some .range := by
  refine admission_range hdev nofun
    (needVisible_of (rights := fun h => s.rightsFor p h t) hx ((Rights.visible_iff _).2 (.inl hr))) ?_ rfl ?_
  · simpa [rightPasses, toHandle_handleByte] using hr
  · rw [Bool.eq_false_iff]
    simp only [rangePasses, toHandle_handleByte, State.entryOf_eq hx, ne_eq, Bool.and_eq_true, decide_eq_true_eq]
    omega

theorem admission_add_frozen {t : Token} (hdev : s.dev = .ready) (hx : Defined s h x) (hf : x.frozen = true)
    (hu : (s.rightsFor p h t).update = true) (d : Word32) :
    admission s p (.add (handleByte h) t d) = some .frozen := by
  refine admission_frozen hdev nofun
    (needVisible_of (rights := fun h => s.rightsFor p h t) hx ((Rights.visible_iff _).2 (.inr (.inl hu)))) ?_ ?_
  · simpa [rightPasses, toHandle_handleByte] using hu
  · simp [frozenPasses, toHandle_handleByte, State.entryOf_eq hx, hf]

theorem admission_add_plain {t : Token} (hdev : s.dev = .ready) (hx : Defined s h x) (hf : x.frozen = false)
    (hk : x.kind = .plain) (hu : (s.rightsFor p h t).update = true) (d : Word32) :
    admission s p (.add (handleByte h) t d) = some .wrongKind := by
  refine admission_wrongKind hdev nofun
    (needVisible_of (rights := fun h => s.rightsFor p h t) hx ((Rights.visible_iff _).2 (.inr (.inl hu)))) ?_ ?_ rfl ?_
  · simpa [rightPasses, toHandle_handleByte] using hu
  · simp [frozenPasses, toHandle_handleByte, State.entryOf_eq hx, hf]
  · simp [kindPasses, toHandle_handleByte, State.entryOf_eq hx, hk]

theorem watch_passes_to_range (hx : Defined s h x) (hw : (x.rights.get p).watch = true) (m f : Byte) (th : Word32) :
    handlePasses s p (.watch (handleByte h) m th f) = true ∧ rightPasses s p (.watch (handleByte h) m th f) = true := by
  have hr := State.rightsOf_eq hx p
  refine ⟨needVisible_of (rights := fun k => s.rightsOf k p) hx ?_, ?_⟩
  · exact (Rights.visible_iff _).2 (.inr (.inr (hr ▸ hw)))
  · simpa [rightPasses, toHandle_handleByte, hr] using hw

theorem toSelf_isSome_iff (f : Byte) : (toSelf f).isSome = true ↔ f.toNat ≤ 1 := by
  rw [toSelf]
  split
  next h => subst h; exact iff_of_true rfl (by simp)
  next h0 =>
    split
    next h => subst h; exact iff_of_true rfl (by simp)
    next h1 =>
      refine iff_of_false nofun fun hle => ?_
      rcases Nat.le_one_iff_eq_zero_or_eq_one.1 hle with hf | hf
      · exact h0 (BitVec.eq_of_toNat_eq hf)
      · exact h1 (BitVec.eq_of_toNat_eq hf)

theorem toMode_isSome_iff (m : Byte) (th : Word32) : (toMode m th).isSome = true ↔ 1 ≤ m.toNat ∧ m.toNat ≤ 3 := by
  rw [toMode]
  split
  next h => subst h; exact iff_of_true rfl (by simp)
  next h1 =>
    split
    next h => subst h; exact iff_of_true rfl (by simp)
    next h2 =>
      split
      next h => subst h; exact iff_of_true rfl (by simp)
      next h3 =>
        refine iff_of_false nofun fun hm => ?_
        have hne : ∀ k : Byte, m ≠ k → m.toNat ≠ k.toNat := fun k hk he => hk (BitVec.eq_of_toNat_eq he)
        have e1 : m.toNat ≠ 1 := hne _ h1
        have e2 : m.toNat ≠ 2 := hne _ h2
        have e3 : m.toNat ≠ 3 := hne _ h3
        omega

theorem admission_watch_range {m f : Byte} {th : Word32} (hdev : s.dev = .ready) (hx : Defined s h x)
    (hw : (x.rights.get p).watch = true) (hout : m = 0x00#8 ∨ 3 < m.toNat ∨ 1 < f.toNat) :
    admission s p (.watch (handleByte h) m th f) = some .range := by
  obtain ⟨hhandle, hright⟩ := watch_passes_to_range hx hw m f th
  refine admission_range hdev nofun hhandle hright rfl ?_
  rw [Bool.eq_false_iff]
  simp only [rangePasses, ne_eq, Bool.and_eq_true, toMode_isSome_iff, toSelf_isSome_iff]
  rintro ⟨hm, hf⟩
  rcases hout with rfl | hm' | hf'
  · simp at hm
  · omega
  · omega

theorem admission_watch_plain {m f : Byte} {th : Word32} (hdev : s.dev = .ready) (hx : Defined s h x)
    (hw : (x.rights.get p).watch = true) (hm : m = 0x02#8 ∨ m = 0x03#8) (hf : f.toNat ≤ 1) (hk : x.kind = .plain) :
    admission s p (.watch (handleByte h) m th f) = some .wrongKind := by
  obtain ⟨hhandle, hright⟩ := watch_passes_to_range hx hw m f th
  have hself := (toSelf_isSome_iff f).2 hf
  refine admission_wrongKind hdev nofun hhandle hright rfl ?_ ?_
  · rcases hm with rfl | rfl <;> exact hself
  · have hkind : ((s.entryOf (toHandle (handleByte h))).kind == .counter) = false := by
      rw [toHandle_handleByte, State.entryOf_eq hx, hk]
      rfl
    rcases hm with rfl | rfl <;> exact hkind

theorem rights_out_of_range {rs : PerPort Byte} (hout : ∃ q, 8 ≤ (rs.get q).toNat) :
    (rightsInRange rs.p0 && rightsInRange rs.p1 && rightsInRange rs.p2) = false := by
  rw [Bool.eq_false_iff]
  simp only [ne_eq, Bool.and_eq_true, rightsInRange_iff]
  rintro ⟨⟨h0, h1⟩, h2⟩
  obtain ⟨q, hq⟩ := hout
  cases q <;> simp only [PerPort.get] at hq <;> omega

theorem defineInRange_false {f : DefineFields}
    (hout : ¬ ((f.kind = 0x01#8 ∧ 1 ≤ f.size.toNat ∧ f.size.toNat ≤ 240) ∨ (f.kind = 0x02#8 ∧ f.size = 0x04#8))
      ∨ f.holdLimit = 0x00#8 ∨ (∃ c ∈ be4 f.label, c.toNat < 0x20 ∨ 0x7E < c.toNat)
      ∨ ∃ q, 8 ≤ (f.rights.get q).toNat) : defineInRange f = false := by
  rw [Bool.eq_false_iff, ne_eq, defineInRange_iff]
  rintro ⟨hkind, hhold, hlabel, h0, h1, h2⟩
  rcases hout with hno | hno | ⟨c, hc, hno⟩ | ⟨q, hq⟩
  · exact hno hkind
  · exact hhold hno
  · have := hlabel c hc
    omega
  · cases q <;> simp only [PerPort.get] at hq <;> omega

end

/-- Settles O52. -/
theorem admissionRefusesInOrder : Obligations.AdmissionRefusesInOrder := by
  unfold Obligations.AdmissionRefusesInOrder
  intro s p tk r h
  refine ⟨?notReady, ?config, ?noRecord, ?noRight, ?frozen, ?inquire, ?define, ?entry, ?addFrozen, ?readRange,
    ?stage, ?cancel, ?watch, ?defineRange, ?setRights, ?addPlain⟩
  case notReady =>
    intro hk
    exact exec_refused h (admission_notReady (Bool.eq_false_iff.2 fun ha => hk ((kindAllowed_iff _ _).1 ha)))
  case config =>
    intro hk hport hmem
    refine exec_refused h (admission_config ((kindAllowed_iff _ _).2 hk) ?_ hport)
    revert hmem
    cases r.kind <;> simp [configOnly]
  case noRecord =>
    intro hdev b hj hn
    exact exec_refused h (admission_noRecord hdev (by rw [configOnly_judged hj]; nofun) (handlePasses_judged_false hj hn))
  case noRight =>
    intro hdev b k x hj hb hx hs hno
    exact exec_refused h (admission_judged_noRight hdev hj hb hx hs hno)
  case frozen =>
    intro hdev b k x hj hb hx hf hu hr
    exact exec_refused h (admission_judged_frozen hdev hj hb hx hf hu hr)
  case inquire =>
    rintro hdev b rfl hn
    refine exec_refused h (admission_noRecord hdev nofun ?_)
    rw [handlePasses]
    cases hb : isHandle b with
    | false => rfl
    | true =>
      have hlt : b.toNat < 48 := of_decide_eq_true hb
      cases hx : (s.record (toHandle b)).entry with
      | none => simp [State.isDefined, hx]
      | some x =>
        obtain ⟨hc, hs⟩ := hn.resolve_left (by omega) (toHandle b) (Nat.mod_eq_of_lt hlt) x hx
        simp [hc, not_visible_of_not_sees hx hs]
  case define =>
    rintro hdev hport f rfl hb
    exact exec_refused h (admission_noRecord hdev (fun _ => hport) (decide_eq_false (by omega)))
  case entry =>
    intro hdev hport b hc hn
    have hfalse := isDefined_false hn
    cases r with
    | retire c =>
      obtain rfl : c = b := hc
      exact exec_refused h (admission_noRecord hdev (fun _ => hport) hfalse)
    | setRights c rs =>
      obtain rfl : c = b := hc
      exact exec_refused h (admission_noRecord hdev (fun _ => hport) hfalse)
    | freeze c =>
      obtain rfl : c = b := hc
      exact exec_refused h (admission_noRecord hdev (fun _ => hport) hfalse)
    | _ => exact hc.elim
  case addFrozen =>
    rintro hdev b entry count d e l x rfl hl hb hu hx hf
    obtain rfl := eq_handleByte hb
    have hexec := exec_refused h (admission_add_frozen hdev hx hf (by rw [State.rightsFor_live hl]; exact hu) d)
    rwa [commandOf, Token.isZero_of_live hl] at hexec
  case readRange =>
    rintro hdev b entry count o n k x rfl hb hx hr hout
    obtain rfl := eq_handleByte hb
    exact exec_refused h (admission_read_range hdev hx (State.rightsFor_of (right := Rights.read) hx hr) hout)
  case stage =>
    rintro hdev entry count o d rfl ho hu
    refine exec_refused h (admission_range hdev nofun rfl ?_ rfl (decide_eq_false (by omega)))
    rw [rightPasses, tokenUpdate]
    split
    next e l hl => exact hu e l (State.live_of_liveLease hl)
    next => rfl
  case cancel =>
    rintro hdev b rfl hb
    exact exec_refused h (admission_range hdev nofun rfl rfl rfl (decide_eq_false (by omega)))
  case watch =>
    rintro hdev b m th f k x rfl hb hx hw
    obtain rfl := eq_handleByte hb
    exact ⟨fun hout => exec_refused h (admission_watch_range hdev hx hw hout),
      fun hm hf hk => exec_refused h (admission_watch_plain hdev hx hw hm hf hk)⟩
  case defineRange =>
    rintro hdev hport f rfl hb hout
    exact exec_refused h
      (admission_range hdev (fun _ => hport) (decide_eq_true hb) rfl rfl (defineInRange_false hout))
  case setRights =>
    rintro hdev hport b rs k x rfl hb hx hout
    obtain rfl := eq_handleByte hb
    have hhandle : (isHandle (handleByte k) && s.isDefined (toHandle (handleByte k))) = true := by
      simp [isHandle_handleByte, toHandle_handleByte, State.isDefined_of hx]
    exact exec_refused h (admission_range hdev (fun _ => hport) hhandle rfl rfl (rights_out_of_range hout))
  case addPlain =>
    rintro hdev b entry count d k x rfl hb hx hf hk hu
    obtain rfl := eq_handleByte hb
    exact exec_refused h
      (admission_add_plain hdev hx hf hk (State.rightsFor_of (right := Rights.update) hx hu) d)

/-! ### The token check -/

section
variable {s : State} {p : Port} {tk : Ticket} {r : Req} {entry count : Byte}
  (h : s.oldestRequest p = some (tk, r))
include h

theorem withLease_gone (hn : ∀ e l, ¬ Live s p entry count e l) (act : EntryNo → Lease → State → State) :
    withLease p tk ⟨entry, count⟩ act (handOver p s) = answered s p tk.tag .leaseGone [] := by
  rw [← complete_oldest h, withLease, handOver_liveLease]
  split
  next e l hl => exact absurd (State.live_of_liveLease hl) (hn e l)
  next => rfl

theorem withLeaseOn_gone {k : Handle} (hn : ∀ e l, Live s p entry count e l → l.handle ≠ k)
    (act : EntryNo → Lease → State → State) :
    withLeaseOn p tk ⟨entry, count⟩ k act (handOver p s) = answered s p tk.tag .leaseGone [] := by
  rw [← complete_oldest h, withLeaseOn, handOver_liveLease]
  split
  next e l hl => rw [if_neg (hn e l (State.live_of_liveLease hl))]
  next => rfl

end

theorem tokenUpdate_gone {s : State} {p : Port} {entry count : Byte} (hn : ∀ e l, ¬ Live s p entry count e l) :
    tokenUpdate s p ⟨entry, count⟩ = true := by
  rw [tokenUpdate]
  split
  next e l hl => exact absurd (State.live_of_liveLease hl) (hn e l)
  next => rfl

/-- The four requests that name a lease alone pass to the token check, and a COMMITTING lease is BUSY (03, R44; 04,
R74). -/
theorem exec_token_taken {s : State} {p : Port} {tk : Ticket} {r : Req} {entry count : Byte}
    (h : s.oldestRequest p = some (tk, r)) (hdev : s.dev = .ready)
    (hr : (∃ o d, r = .stage ⟨entry, count⟩ o d ∧ o.toNat ≤ 239) ∨ r = .commit ⟨entry, count⟩
       ∨ r = .release ⟨entry, count⟩ ∨ r = .renew ⟨entry, count⟩)
    (hu : tokenUpdate s p ⟨entry, count⟩ = true) :
    ∃ act : EntryNo → Lease → State → State,
      exec (commandOf p r) s = .next (withLease p tk ⟨entry, count⟩ act (handOver p s))
        ∧ ∀ e l u, l.phase = .committing → act e l u = complete tk .busy [] u := by
  have hkind : ∀ k, kindAllowed s.dev (some k) = true := fun k => by rw [hdev]; rfl
  rcases hr with ⟨o, d, rfl, ho⟩ | rfl | rfl | rfl
  · refine ⟨_, exec_taken h (admission_passed (hkind _) nofun rfl hu rfl (decide_eq_true ho) rfl), fun e l u hl => ?_⟩
    simp only [takeStage, hl]
  · refine ⟨_, exec_taken h (admission_passed (hkind _) nofun rfl hu rfl rfl rfl), fun e l u hl => ?_⟩
    simp only [takeCommit, hl]
  · refine ⟨_, exec_taken h (admission_passed (hkind _) nofun rfl hu rfl rfl rfl), fun e l u hl => ?_⟩
    simp only [takeRelease, hl]
  · refine ⟨_, exec_taken h (admission_passed (hkind _) nofun rfl hu rfl rfl rfl), fun e l u hl => ?_⟩
    simp only [takeRenew, hl]

/-- Settles O53. -/
theorem tokenCheckGuardsTheLease : Obligations.TokenCheckGuardsTheLease := by
  unfold Obligations.TokenCheckGuardsTheLease
  constructor
  · intro s p tk r entry count h hdev hr
    constructor
    · intro hn
      obtain ⟨act, hexec, -⟩ := exec_token_taken h hdev hr (tokenUpdate_gone hn)
      rw [hexec, withLease_gone h hn]
    · intro e l hl hu hphase
      obtain ⟨act, hexec, hbusy⟩ := exec_token_taken h hdev hr ((tokenUpdate_live hl).trans hu)
      rw [hexec, withLease_live hl, hbusy e l _ hphase, complete_oldest h]
  · intro s p tk r b entry count k x h hdev hb hx hzero
    have hz : Token.isZero ⟨entry, count⟩ = false := by
      rw [Bool.eq_false_iff]
      simpa [Token.isZero] using hzero
    obtain rfl := eq_handleByte hb
    constructor
    · rintro o n rfl
      have hcmd : commandOf p (.read (handleByte k) ⟨entry, count⟩ o n) = .readWithToken p := by rw [commandOf, hz]; rfl
      constructor
      · intro hn hr h1 h32 hsize
        have hadm := admission_read (t := ⟨entry, count⟩) hdev hx
          (by rw [State.rightsFor_current (t := ⟨entry, count⟩) hn, State.rightsOf_eq hx]; exact hr) h1 h32 hsize
        rw [← hcmd, exec_taken h hadm]
        simp only [ownerOf, hz, Bool.false_eq_true, if_false, toHandle_handleByte]
        rw [withLeaseOn_gone h hn]
      · rintro e l hl rfl hu hr
        have hadm : admission s p (.read (handleByte l.handle) ⟨entry, count⟩ o n) = some .denied := by
          have hrights := State.rightsFor_live hl
          refine admission_noRight hdev nofun
            (needVisible_of (rights := fun h => s.rightsFor p h ⟨entry, count⟩) hx ?_) ?_
          · rw [hrights]
            exact (Rights.visible_iff _).2 (.inr (.inl hu))
          · rw [rightPasses, toHandle_handleByte, hrights, hr]
        rw [← hcmd, exec_refused h hadm]
    · rintro d rfl hk hf
      have hcmd : commandOf p (.add (handleByte k) ⟨entry, count⟩ d) = .addWithToken p := by rw [commandOf, hz]; rfl
      constructor
      · intro hn hu
        have hadm := admission_add (t := ⟨entry, count⟩) hdev hx hk hf
          (by rw [State.rightsFor_current (t := ⟨entry, count⟩) hn, State.rightsOf_eq hx]; exact hu) d
        rw [← hcmd, exec_taken h hadm]
        simp only [ownerOf, hz, Bool.false_eq_true, if_false, toHandle_handleByte]
        rw [withLeaseOn_gone h hn]
      · rintro e l hl rfl hu hphase
        have hadm := admission_add (t := ⟨entry, count⟩) hdev hx hk hf
          (by rw [State.rightsFor_live hl]; exact hu) d
        rw [← hcmd, exec_taken h hadm]
        simp only [ownerOf, hz, Bool.false_eq_true, if_false, toHandle_handleByte]
        rw [withLeaseOn_live hl, ← complete_oldest h]
        simp only [takeTokenAdd, hphase]

end Sys2Proof.Machine

/-! PROOF. Power, RESETn and the start-up scan (09): what a device reset leaves of the store, the directory and the
copies that the scan chooses, and the page map it builds. -/

namespace Sys2Proof.Machine

open Sys2Proof.Safety
set_option deprecated.oldSectionVars true

/-! ### Device reset -/

/-- The state that a device reset leaves: that of `State.reset` but for what is kept (09, R156). -/
theorem startValues_eq (s : State) :
    startValues s = { State.reset with
      pending := s.pending, serial := s.serial, store := (abandonErase (abandonPage s)).store
      freeIndex := (abandonErase (abandonPage s)).freeIndex
      straps := s.straps, supply := s.supply, resetLow := s.resetLow } := by
  rw [startValues, abandon_frame]
  rfl

/-- Each device reset starts the device afresh, its store left as the abandoned operations leave it (09, R156). -/
theorem exec_deviceReset_afresh (c : Instr) (s : State) : isDeviceReset c = true →
    ∃ t, exec c s = .next t
      ∧ t = { State.reset with
                pending := s.pending, serial := s.serial, store := t.store, freeIndex := t.freeIndex
                straps := (match c with
                  | .powerUp x => if s.resetLow then s.straps else x
                  | .resetnRelease x => if s.supply then x else s.straps
                  | _ => s.straps)
                supply := (match c with
                  | .powerUp _ => true
                  | .powerLoss => false
                  | _ => s.supply)
                resetLow := (match c with
                  | .resetnAssert => true
                  | .resetnRelease _ => false
                  | _ => s.resetLow) }
      ∧ t.store = (abandonErase (abandonPage s)).store := by
  intro hc
  cases c with
  | powerUp x =>
    refine ⟨sampleStraps x { startValues s with supply := true }, rfl, ?_, ?_⟩
    · rw [sampleStraps_frame, startValues_eq]
      have hact : ({ startValues s with supply := true } : State).active = !s.resetLow := by
        rw [startValues_eq, State.active]
        exact Bool.true_and _
      rw [startValues_eq] at hact
      rw [hact]
      cases s.resetLow <;> rfl
    · rw [sampleStraps_frame, startValues_eq]
  | powerLoss => exact ⟨{ startValues s with supply := false }, rfl, by rw [startValues_eq], by rw [startValues_eq]⟩
  | resetnAssert => exact ⟨{ startValues s with resetLow := true }, rfl, by rw [startValues_eq], by rw [startValues_eq]⟩
  | resetnRelease x =>
    refine ⟨sampleStraps x { startValues s with resetLow := false }, rfl, ?_, ?_⟩
    · rw [sampleStraps_frame, startValues_eq]
      have hact : ({ startValues s with resetLow := false } : State).active = s.supply := by
        rw [startValues_eq, State.active]
        exact Bool.and_true _
      rw [startValues_eq] at hact
      rw [hact]
    · rw [sampleStraps_frame, startValues_eq]
  | _ => simp [isDeviceReset] at hc

theorem abandonErase_eq_self {s : State} (h : ∀ x, s.clear = some x → x.phase = .draining) : abandonErase s = s := by
  rw [abandonErase]
  split
  next tk hc => exact absurd (h _ hc) nofun
  next => rfl

theorem pageInProgress_none {s : State} (h : s.queue = [] ∨ s.engine = .idle) : s.pageInProgress = none := by
  rcases h with h | h
  · simp only [State.pageInProgress, h]
  · simp only [State.pageInProgress, h]
    split <;> rfl

theorem abandonPage_eq_self {s : State} (h : s.queue = [] ∨ s.engine = .idle) : abandonPage s = s := by
  simp only [abandonPage, pageInProgress_none h]

theorem abandonPage_clear (s : State) : (abandonPage s).clear = s.clear := by rw [abandonPage_frame]

/-- Of the store, only the page of the operation in progress may change (02, R26). -/
theorem abandonPage_read {s : State} {j : Job} {rest : List Job} (hq : s.queue = j :: rest) {a : Nat}
    (ha : a / 32 ≠ (match s.engine with | .programming pos _ => j.pageAt pos | _ => j.headerPage)) :
    Memory.read (abandonPage s).store a = Memory.read s.store a := by
  cases he : s.engine with
  | idle => rw [abandonPage_eq_self (.inr he)]
  | programming pos retry =>
    rw [he] at ha
    simp only [abandonPage, State.pageInProgress, hq, he]
    exact spoilPage_read _ _ _ ha
  | erasing pos failing =>
    rw [he] at ha
    simp only [abandonPage, State.pageInProgress, hq, he]
    exact spoilPage_read _ _ _ ha

/-- Settles O5. -/
theorem deviceResetStartsAfresh : Obligations.DeviceResetStartsAfresh := by
  unfold Obligations.DeviceResetStartsAfresh
  intro c s hc
  obtain ⟨t, hexec, ht, hstore⟩ := exec_deviceReset_afresh c s hc
  refine ⟨t, hexec, ht.trans rfl, fun hclear hidle => ?_, fun hclear j rest hq a ha => ?_,
    fun tk n hclear hidle hn a ha => ?_⟩
  · rw [hstore, abandonErase_eq_self (by rwa [abandonPage_clear]), abandonPage_eq_self hidle]
  · rw [hstore, abandonErase_eq_self (by rwa [abandonPage_clear])]
    exact abandonPage_read hq ha
  · rw [hstore, abandonPage_eq_self hidle]
    exact abandonErase_read hclear hn ha

/-- Settles O6: the sweeps pass the whole record area before they come to page 0. -/
theorem recordAreaIsErasedFirst : Obligations.RecordAreaIsErasedFirst := by
  unfold Obligations.RecordAreaIsErasedFirst
  intro c s tk hc hclear hqueue
  obtain ⟨t, hexec, -, hstore⟩ := exec_deviceReset_afresh c s hc
  rw [abandonPage_eq_self (.inl hqueue)] at hstore
  refine ⟨t, hexec, ?_⟩
  rintro ⟨a, hsys, hchanged⟩ b hb hb'
  generalize hn : Config.freeSweep s.freeIndex % 2049 = n
  have hreach : 1984 ≤ n := by
    by_contra hlt
    refine hchanged ?_
    have hnot : sweptWithin n (a / 32) = false := decide_eq_false (by omega)
    rw [hstore, abandonErase_read hclear hn.symm (.inr (by rw [sweepPage]; omega)), hnot]
    rfl
  have hswept : sweptWithin n (b / 32) = true := decide_eq_true (by omega)
  rw [hstore, abandonErase_read hclear hn.symm (.inl hswept), if_pos hswept]

/-! ### The choice of a directory and of copies -/

theorem regionCond_valid_iff {store : List Host.Cell} {c : Copy} :
    regionCond store c = .valid ↔ regionValid store c = true := by
  rw [regionCond]
  constructor
  · intro h
    split at h
    · cases h
    next =>
      split at h
      next hv => exact hv
      next => cases h
  · intro hv
    have he : regionErased store c = false := by
      simp only [regionValid, Bool.and_eq_true, Bool.not_eq_true'] at hv
      obtain ⟨⟨⟨⟨⟨he, -⟩, -⟩, -⟩, -⟩, -⟩ := hv
      exact he
    rw [he, hv]
    rfl

theorem regionCond_erased_iff {store : List Host.Cell} {c : Copy} :
    regionCond store c = .erased ↔ regionErased store c = true := by
  rw [regionCond]
  constructor
  · intro h
    split at h
    next he => exact he
    next => split at h <;> cases h
  · intro he
    rw [if_pos he]

theorem chooseDirectory_region {store : List Host.Cell} {c : Copy} (hc : regionCond store c = .valid)
    (ho : regionCond store (other c) ≠ .valid ∨ regionGen store (other c) < regionGen store c
      ∨ (regionGen store (other c) = regionGen store c ∧ c = .a)) :
    chooseDirectory store = .region c := by
  rw [regionCond_valid_iff] at hc
  rw [ne_eq, regionCond_valid_iff, Bool.not_eq_true] at ho
  cases c with
  | a =>
    have ho : regionValid store .b = false ∨ regionGen store .b < regionGen store .a
        ∨ (regionGen store .b = regionGen store .a ∧ Copy.a = .a) := ho
    rw [chooseDirectory, hc]
    cases hb : regionValid store .b with
    | false => rfl
    | true =>
      rw [hb] at ho
      have hle : ¬ (regionGen store .a).toNat < (regionGen store .b).toNat := by
        rcases ho with h | h | ⟨h, -⟩
        · cases h
        · exact Nat.not_lt.2 (Nat.le_of_lt (BitVec.lt_def.1 h))
        · rw [h]
          exact Nat.lt_irrefl _
      exact if_neg hle
  | b =>
    have ho : regionValid store .a = false ∨ regionGen store .a < regionGen store .b
        ∨ (regionGen store .a = regionGen store .b ∧ Copy.b = .a) := ho
    rw [chooseDirectory, hc]
    cases ha : regionValid store .a with
    | false => rfl
    | true =>
      rw [ha] at ho
      rcases ho with h | h | ⟨-, h⟩
      · cases h
      · exact if_pos (BitVec.lt_def.1 h)
      · cases h

theorem chooseDirectory_nothing {store : List Host.Cell} (h : ∀ c, regionCond store c = .erased) :
    chooseDirectory store = .nothing := by
  have hv : ∀ c, regionValid store c = false := fun c => by
    rw [Bool.eq_false_iff, ne_eq, ← regionCond_valid_iff, h c]
    nofun
  have he := fun c => regionCond_erased_iff.1 (h c)
  rw [chooseDirectory, hv .a, hv .b, he .a, he .b]
  rfl

theorem chooseDirectory_damaged {store : List Host.Cell} (hv : ∀ c, regionCond store c ≠ .valid)
    (hs : ∃ c, regionCond store c = .spoiled) : chooseDirectory store = .damaged := by
  have hv' : ∀ c, regionValid store c = false := fun c => by
    rw [Bool.eq_false_iff, ne_eq, ← regionCond_valid_iff]
    exact hv c
  have he : (regionErased store .a && regionErased store .b) = false := by
    obtain ⟨c, hc⟩ := hs
    have hne : regionErased store c = false := by
      rw [Bool.eq_false_iff, ne_eq, ← regionCond_erased_iff, hc]
      nofun
    cases c <;> simp [hne]
  rw [chooseDirectory, hv' .a, hv' .b, he]
  rfl

theorem chooseCopy_some {store : List Host.Cell} {h : Handle} {x : RecEntry} {k : Copy}
    (hk : copyValid store h x (x.firstPage k) = true)
    (ho : copyValid store h x (x.firstPage (other k)) = false
      ∨ copyGen store (x.firstPage (other k)) < copyGen store (x.firstPage k)
      ∨ (copyGen store (x.firstPage (other k)) = copyGen store (x.firstPage k) ∧ k = .a)) :
    chooseCopy store h x = some k := by
  cases k with
  | a =>
    have hk : copyValid store h x x.pageA.val = true := hk
    have ho : copyValid store h x x.pageB.val = false ∨ copyGen store x.pageB.val < copyGen store x.pageA.val
        ∨ (copyGen store x.pageB.val = copyGen store x.pageA.val ∧ Copy.a = .a) := ho
    rw [chooseCopy, hk]
    cases hb : copyValid store h x x.pageB.val with
    | false => rfl
    | true =>
      rw [hb] at ho
      have hle : ¬ (copyGen store x.pageA.val).toNat < (copyGen store x.pageB.val).toNat := by
        rcases ho with h | h | ⟨h, -⟩
        · cases h
        · exact Nat.not_lt.2 (Nat.le_of_lt (BitVec.lt_def.1 h))
        · rw [h]
          exact Nat.lt_irrefl _
      exact if_neg hle
  | b =>
    have hk : copyValid store h x x.pageB.val = true := hk
    have ho : copyValid store h x x.pageA.val = false ∨ copyGen store x.pageA.val < copyGen store x.pageB.val
        ∨ (copyGen store x.pageA.val = copyGen store x.pageB.val ∧ Copy.b = .a) := ho
    rw [chooseCopy, hk]
    cases ha : copyValid store h x x.pageA.val with
    | false => rfl
    | true =>
      rw [ha] at ho
      rcases ho with h | h | ⟨-, h⟩
      · cases h
      · exact if_pos (BitVec.lt_def.1 h)
      · cases h

theorem chooseCopy_none {store : List Host.Cell} {h : Handle} {x : RecEntry}
    (hn : ∀ k, copyValid store h x (x.firstPage k) = false) : chooseCopy store h x = none := by
  have ha : copyValid store h x x.pageA.val = false := hn .a
  have hb : copyValid store h x x.pageB.val = false := hn .b
  rw [chooseCopy, ha, hb]

/-! ### The end of the scan -/

section
variable {s : State} (hact : s.active = true) (hdev : s.dev = .starting)
include hact hdev

theorem exec_scanEnd_region {c : Copy} (hc : chooseDirectory s.store = .region c) :
    exec .scanEnd s = .next (postAll (.ready .ready) { takeRegion c s with dev := .ready }) := by
  show execScanEnd s = _
  simp only [execScanEnd, hact, hdev, and_self, if_true, hc]

theorem exec_scanEnd_nothing (hc : chooseDirectory s.store = .nothing) :
    exec .scanEnd s = .next (postAll (.ready .ready) { takeEmpty s with dev := .ready }) := by
  show execScanEnd s = _
  simp only [execScanEnd, hact, hdev, and_self, if_true, hc]

theorem exec_scanEnd_damaged (hc : chooseDirectory s.store = .damaged) :
    exec .scanEnd s = .next (postAll (.ready .damaged) { s with dev := .damaged }) := by
  show execScanEnd s = _
  simp only [execScanEnd, hact, hdev, and_self, if_true, hc]

end

theorem takeRegion_record (c : Copy) (s : State) (h : Handle) :
    (takeRegion c s).record h = scanRecord s.store h ((takeRegion c s).record h).entry := by
  have hr : (takeRegion c s).record h
      = scanRecord s.store h ((readEntries (regionBytes s.store c)).getD h.val none) := tabulate_get _ h
  rw [hr, scanRecord_entry]

theorem takeEmpty_record (s : State) (h : Handle) : (takeEmpty s).record h = RecState.blank := vector_get_replicate _ h

theorem scanRecord_gen (store : List Host.Cell) (h : Handle) (x : RecEntry) :
    (scanRecord store h (some x)).gen = (chooseCopy store h x).elim 0#32 fun c => copyGen store (x.firstPage c) := rfl

/-- What the scan leaves of each record, READY (09, R160 to R162). -/
theorem scanRecord_blank (store : List Host.Cell) (h : Handle) (x : Option RecEntry) :
    scanRecord store h x = { RecState.blank with
      entry := (scanRecord store h x).entry, active := (scanRecord store h x).active
      gen := (scanRecord store h x).gen } := by
  cases x <;> rfl

theorem scanned_of_blank {r : RecState} (hr : r = RecState.blank) :
    r = { RecState.blank with entry := r.entry, active := r.active, gen := r.gen }
      ∧ (r.entry = none → r = RecState.blank) := by
  subst hr
  exact ⟨rfl, fun _ => rfl⟩

/-- Settles O7. -/
theorem scanChoosesDirectoryAndCopies : Obligations.ScanChoosesDirectoryAndCopies := by
  unfold Obligations.ScanChoosesDirectoryAndCopies
  intro s hact hdev
  have hposted : ∀ (u : State) (n : Notice) (q : Port), (postAll n u).port q = posted (u.port q) [n] :=
    fun u n q => (postAll_port n u q).trans (posted_singleton _ n).symm
  cases hchoice : chooseDirectory s.store with
  | region c =>
    refine ⟨_, exec_scanEnd_region hact hdev hchoice, rfl, fun p => hposted _ _ p, ?_, ?_, ?_, ?_, ?_⟩
    · intro k hk ho
      obtain rfl : c = k := by
        have hc := hchoice.symm.trans (chooseDirectory_region hk ho)
        injection hc
      refine ⟨rfl, rfl, rfl, fun h => ⟨takeRegion_entriesRead c s h, fun x hx k' hk' ho' => ?_⟩⟩
      have hrec : (takeRegion c s).record h = scanRecord s.store h (some x) :=
        (takeRegion_record c s h).trans (congrArg (scanRecord s.store h) hx)
      have hch := chooseCopy_some hk' ho'
      show ((takeRegion c s).record h).active = some k' ∧ ((takeRegion c s).record h).gen = _
      rw [hrec, scanRecord_gen, hch]
      exact ⟨hch, rfl⟩
    · intro h x _ hx hn
      have hrec : (takeRegion c s).record h = scanRecord s.store h (some x) :=
        (takeRegion_record c s h).trans (congrArg (scanRecord s.store h) hx)
      have hch := chooseCopy_none hn
      show ((takeRegion c s).record h).active = none ∧ ((takeRegion c s).record h).gen = 0#32
      rw [hrec, scanRecord_gen, hch]
      exact ⟨hch, rfl⟩
    · intro _ h
      show (takeRegion c s).record h = _ ∧ (((takeRegion c s).record h).entry = none → (takeRegion c s).record h = _)
      constructor
      · exact (takeRegion_record c s h) ▸ scanRecord_blank s.store h _
      · intro hnone
        rw [takeRegion_record, hnone]
        rfl
    · intro he
      rw [chooseDirectory_nothing he] at hchoice
      cases hchoice
    · intro hv hs
      rw [chooseDirectory_damaged hv hs] at hchoice
      cases hchoice
  | nothing =>
    refine ⟨_, exec_scanEnd_nothing hact hdev hchoice, rfl, fun p => hposted _ _ p, ?_, ?_, ?_, ?_, ?_⟩
    · intro k hk ho
      rw [chooseDirectory_region hk ho] at hchoice
      cases hchoice
    · intro h x _ hx
      have hx : ((takeEmpty s).record h).entry = some x := hx
      rw [takeEmpty_record] at hx
      cases hx
    · exact fun _ h => scanned_of_blank (takeEmpty_record s h)
    · exact fun _ => ⟨rfl, rfl, rfl, fun h => congrArg RecState.entry (takeEmpty_record s h)⟩
    · intro hv hs
      rw [chooseDirectory_damaged hv hs] at hchoice
      cases hchoice
  | damaged =>
    have hne : DevState.damaged ≠ .ready := nofun
    refine ⟨_, exec_scanEnd_damaged hact hdev hchoice, rfl, fun p => hposted _ _ p, ?_, fun _ _ hready => absurd hready hne,
      fun hready => absurd hready hne, ?_, ?_⟩
    · intro k hk ho
      rw [chooseDirectory_region hk ho] at hchoice
      cases hchoice
    · intro he
      rw [chooseDirectory_nothing he] at hchoice
      cases hchoice
    · exact fun _ _ => ⟨rfl, rfl⟩

/-! ### The page map of the scan -/

/-- Some entry of the list has a run that holds the page. -/
def entriesCover (entries : List (Option RecEntry)) (page : Nat) : Prop :=
  ∃ x, some x ∈ entries ∧ ∃ k, InRun (pagesPerCopy x.size.toNat) (x.firstPage k) page

theorem pageCond_markCopies_inUse (x : RecEntry) (m : List (Nat × PageCond)) (page : Nat) :
    ((∃ k, InRun (pagesPerCopy x.size.toNat) (x.firstPage k) page) → pageCond (markCopies .inUse x m) page = .inUse)
      ∧ ((¬ ∃ k, InRun (pagesPerCopy x.size.toNat) (x.firstPage k) page) →
        pageCond (markCopies .inUse x m) page = pageCond m page) := by
  rw [pageCond_markCopies_taken (cond := .inUse) nofun]
  constructor
  · rintro ⟨k, hk⟩
    rw [if_pos]
    cases k
    exacts [.inl hk, .inr hk]
  · intro hn
    rw [if_neg]
    rintro (ha | hb)
    exacts [hn ⟨.a, ha⟩, hn ⟨.b, hb⟩]

theorem pageCond_mapOfEntries (entries : List (Option RecEntry)) (page : Nat) :
    (entriesCover entries page → pageCond (mapOfEntries entries) page = .inUse)
      ∧ (¬ entriesCover entries page → pageCond (mapOfEntries entries) page = .free) := by
  have hfold : ∀ (l : List (Option RecEntry)) (m : List (Nat × PageCond)),
      (entriesCover l page ∨ pageCond m page = .inUse →
        pageCond (l.foldl (fun m x => x.elim m fun y => markCopies .inUse y m) m) page = .inUse)
      ∧ (¬ entriesCover l page →
        pageCond (l.foldl (fun m x => x.elim m fun y => markCopies .inUse y m) m) page = pageCond m page) := by
    intro l
    induction l with
    | nil => exact fun m => ⟨fun h => h.resolve_left fun ⟨x, hx, _⟩ => absurd hx List.not_mem_nil, fun _ => rfl⟩
    | cons x l ih =>
      intro m
      rw [List.foldl_cons]
      obtain ⟨hin, hout⟩ := ih (x.elim m fun y => markCopies .inUse y m)
      cases x with
      | none =>
        constructor
        · rintro (⟨y, hy, hk⟩ | hm)
          · exact hin (.inl ⟨y, (List.mem_cons.1 hy).resolve_left nofun, hk⟩)
          · exact hin (.inr hm)
        · exact fun hn => hout fun ⟨y, hy, hk⟩ => hn ⟨y, List.mem_cons_of_mem _ hy, hk⟩
      | some z =>
        obtain ⟨hzin, hzout⟩ := pageCond_markCopies_inUse z m page
        constructor
        · rintro (⟨y, hy, hk⟩ | hm)
          · rcases List.mem_cons.1 hy with heq | hy
            · obtain rfl : y = z := Option.some.inj heq
              exact hin (.inr (hzin hk))
            · exact hin (.inl ⟨y, hy, hk⟩)
          · by_cases hz : ∃ k, InRun (pagesPerCopy z.size.toNat) (z.firstPage k) page
            · exact hin (.inr (hzin hz))
            · exact hin (.inr ((hzout hz).trans hm))
        · intro hn
          rw [hout fun ⟨y, hy, hk⟩ => hn ⟨y, List.mem_cons_of_mem _ hy, hk⟩]
          exact hzout fun hz => hn ⟨z, List.mem_cons_self, hz⟩
  obtain ⟨hin, hout⟩ := hfold entries []
  exact ⟨fun h => hin (.inl h), hout⟩

theorem readEntries_getD (b : List Byte) (h : Handle) :
    (readEntries b).getD h.val none = readEntry (slice b (16 + 16 * h.val) 16) := by
  have hlt := h.isLt
  simp [readEntries, entrySlice, List.getD_eq_getElem?_getD, hlt]

theorem mem_readEntries {b : List Byte} {x : RecEntry} :
    some x ∈ readEntries b ↔ ∃ h : Handle, readEntry (slice b (16 + 16 * h.val) 16) = some x := by
  simp only [readEntries, entrySlice, List.mem_map, List.mem_range]
  constructor
  · rintro ⟨i, hi, hx⟩
    exact ⟨⟨i, hi⟩, hx⟩
  · rintro ⟨h, hx⟩
    exact ⟨h.val, h.isLt, hx⟩

theorem entriesCover_takeRegion (c : Copy) (s : State) (page : Nat) :
    entriesCover (readEntries (regionBytes s.store c)) page ↔
      ∃ h x, ((takeRegion c s).record h).entry = some x
        ∧ ∃ k, InRun (pagesPerCopy x.size.toNat) (x.firstPage k) page := by
  constructor
  · rintro ⟨x, hx, hk⟩
    obtain ⟨h, hh⟩ := mem_readEntries.1 hx
    exact ⟨h, x, (takeRegion_entriesRead c s h).trans hh, hk⟩
  · rintro ⟨h, x, hx, hk⟩
    exact ⟨x, mem_readEntries.2 ⟨h, (takeRegion_entriesRead c s h).symm.trans hx⟩, hk⟩

/-- Settles O8. -/
theorem scanRebuildsPageMap : Obligations.ScanRebuildsPageMap := by
  unfold Obligations.ScanRebuildsPageMap
  intro s t hact hdev hexec hready
  cases hchoice : chooseDirectory s.store with
  | region c =>
    rw [exec_scanEnd_region hact hdev hchoice] at hexec
    injection hexec with ht
    subst ht
    refine ⟨mapOfEntries (readEntries (regionBytes s.store c)), rfl, fun page => ?_⟩
    obtain ⟨hin, hout⟩ := pageCond_mapOfEntries (readEntries (regionBytes s.store c)) page
    rw [entriesCover_takeRegion] at hin hout
    exact ⟨hin, hout⟩
  | nothing =>
    rw [exec_scanEnd_nothing hact hdev hchoice] at hexec
    injection hexec with ht
    subst ht
    refine ⟨[], rfl, fun page => ⟨?_, fun _ => rfl⟩⟩
    rintro ⟨h, x, hx, -⟩
    have hx : ((takeEmpty s).record h).entry = some x := hx
    rw [takeEmpty_record] at hx
    cases hx
  | damaged =>
    rw [exec_scanEnd_damaged hact hdev hchoice] at hexec
    injection hexec with ht
    subst ht
    exact absurd hready (show DevState.damaged ≠ .ready from nofun)

end Sys2Proof.Machine

/-! PROOF. The page runs stay disjoint (02, R24; 01, R7): what each command does to the runs of the copies and of a
pending DEFINE, to the page map, and to the number of directory jobs. -/

namespace Sys2Proof.Machine

open Sys2Proof.Safety
set_option deprecated.oldSectionVars true

/-! ### The command of a request, and what it does -/

/-- The commands that hand over a request of a known kind. -/
def isRequest : Instr → Bool
  | .readCommitted _ | .readWithToken _ | .acquire _ | .stage _ | .addWithToken _ | .addWithoutToken _ | .commit _
  | .release _ | .renew _ | .cancel _ | .watch _ | .unwatch _ | .inquire _ | .define _ | .retire _ | .setRights _
  | .freeze _ | .deviceInfo _ | .setAttention _ | .portReset _ | .factoryClear _ => true
  | _ => false

/-- A request command hands over the oldest placed request when that is of its kind, and does nothing otherwise. -/
theorem exec_request_cases {c : Instr} (hc : isRequest c = true) (s : State) :
    exec c s = .next s ∨ ∃ p tk r, commandOf p r = c ∧ s.oldestRequest p = some (tk, r) := by
  cases c with
  | readCommitted p =>
    show execReadCommitted p s = _ ∨ _
    rw [execReadCommitted]
    split
    next tk b t o n h =>
      split
      next hz => exact .inr ⟨p, tk, .read b t o n, if_pos hz, h⟩
      next => exact .inl rfl
    next => exact .inl rfl
  | readWithToken p =>
    show execReadWithToken p s = _ ∨ _
    rw [execReadWithToken]
    split
    next tk b t o n h =>
      split
      next => exact .inl rfl
      next hz => exact .inr ⟨p, tk, .read b t o n, if_neg hz, h⟩
    next => exact .inl rfl
  | addWithToken p =>
    show execAddWithToken p s = _ ∨ _
    rw [execAddWithToken]
    split
    next tk b t d h =>
      split
      next => exact .inl rfl
      next hz => exact .inr ⟨p, tk, .add b t d, if_neg hz, h⟩
    next => exact .inl rfl
  | addWithoutToken p =>
    show execAddWithoutToken p s = _ ∨ _
    rw [execAddWithoutToken]
    split
    next tk b t d h =>
      split
      next hz => exact .inr ⟨p, tk, .add b t d, if_pos hz, h⟩
      next => exact .inl rfl
    next => exact .inl rfl
  | acquire p =>
    show execAcquire p s = _ ∨ _
    rw [execAcquire]
    split
    next h => exact .inr ⟨p, _, _, rfl, h⟩
    next => exact .inl rfl
  | stage p =>
    show execStage p s = _ ∨ _
    rw [execStage]
    split
    next h => exact .inr ⟨p, _, _, rfl, h⟩
    next => exact .inl rfl
  | commit p =>
    show execCommit p s = _ ∨ _
    rw [execCommit]
    split
    next h => exact .inr ⟨p, _, _, rfl, h⟩
    next => exact .inl rfl
  | release p =>
    show execRelease p s = _ ∨ _
    rw [execRelease]
    split
    next h => exact .inr ⟨p, _, _, rfl, h⟩
    next => exact .inl rfl
  | renew p =>
    show execRenew p s = _ ∨ _
    rw [execRenew]
    split
    next h => exact .inr ⟨p, _, _, rfl, h⟩
    next => exact .inl rfl
  | cancel p =>
    show execCancel p s = _ ∨ _
    rw [execCancel]
    split
    next h => exact .inr ⟨p, _, _, rfl, h⟩
    next => exact .inl rfl
  | watch p =>
    show execWatch p s = _ ∨ _
    rw [execWatch]
    split
    next h => exact .inr ⟨p, _, _, rfl, h⟩
    next => exact .inl rfl
  | unwatch p =>
    show execUnwatch p s = _ ∨ _
    rw [execUnwatch]
    split
    next h => exact .inr ⟨p, _, _, rfl, h⟩
    next => exact .inl rfl
  | inquire p =>
    show execInquire p s = _ ∨ _
    rw [execInquire]
    split
    next h => exact .inr ⟨p, _, _, rfl, h⟩
    next => exact .inl rfl
  | define p =>
    show execDefine p s = _ ∨ _
    rw [execDefine]
    split
    next h => exact .inr ⟨p, _, _, rfl, h⟩
    next => exact .inl rfl
  | retire p =>
    show execRetire p s = _ ∨ _
    rw [execRetire]
    split
    next h => exact .inr ⟨p, _, _, rfl, h⟩
    next => exact .inl rfl
  | setRights p =>
    show execSetRights p s = _ ∨ _
    rw [execSetRights]
    split
    next h => exact .inr ⟨p, _, _, rfl, h⟩
    next => exact .inl rfl
  | freeze p =>
    show execFreeze p s = _ ∨ _
    rw [execFreeze]
    split
    next h => exact .inr ⟨p, _, _, rfl, h⟩
    next => exact .inl rfl
  | deviceInfo p =>
    show execDeviceInfo p s = _ ∨ _
    rw [execDeviceInfo]
    split
    next h => exact .inr ⟨p, _, _, rfl, h⟩
    next => exact .inl rfl
  | setAttention p =>
    show execSetAttention p s = _ ∨ _
    rw [execSetAttention]
    split
    next h => exact .inr ⟨p, _, _, rfl, h⟩
    next => exact .inl rfl
  | portReset p =>
    show execPortReset p s = _ ∨ _
    rw [execPortReset]
    split
    next h => exact .inr ⟨p, _, _, rfl, h⟩
    next => exact .inl rfl
  | factoryClear p =>
    show execFactoryClear p s = _ ∨ _
    rw [execFactoryClear]
    split
    next h => exact .inr ⟨p, _, _, rfl, h⟩
    next => exact .inl rfl
  | _ => exact absurd hc (by simp [isRequest])

/-- The same by its outcome: nothing, a refusal, or the act of the request's owner (08, R141). -/
theorem exec_request_outcome {c : Instr} {s t : State} (hc : isRequest c = true) (h : exec c s = .next t) :
    t = s ∨ ∃ p tk r, commandOf p r = c ∧ s.oldestRequest p = some (tk, r)
      ∧ ((∃ code, t = complete tk code [] (handOver p s))
        ∨ admission s p r = none ∧ t = ownerOf p tk r (handOver p s)) := by
  rcases exec_request_cases hc s with hsame | ⟨p, tk, r, hcmd, hreq⟩
  · rw [hsame] at h
    cases h
    exact .inl rfl
  · refine .inr ⟨p, tk, r, hcmd, hreq, ?_⟩
    rw [← hcmd, exec_commandOf hreq] at h
    cases h
    cases ha : admission s p r with
    | some code => exact .inl ⟨code, serve_refused ((admission_handOver s p p r).trans ha)⟩
    | none => exact .inr ⟨rfl, serve_taken ((admission_handOver s p p r).trans ha)⟩

/-! ### Runs by their owner -/

/-- The runs of the copies of a handle, or of the DEFINE in the directory job slot. -/
def runsOf (s : State) : Option Handle → List Run
  | some h => (s.record h).entry.elim [] entryRuns
  | none => pendingRuns s

theorem mem_allRuns {s : State} {r : Run} : r ∈ allRuns s ↔ ∃ o, r ∈ runsOf s o := by
  rw [allRuns, List.mem_append, List.mem_flatMap]
  constructor
  · rintro (⟨h, -, hr⟩ | hr)
    exacts [⟨some h, hr⟩, ⟨none, hr⟩]
  · rintro ⟨o, hr⟩
    cases o with
    | some h => exact .inl ⟨h, List.mem_finRange h, hr⟩
    | none => exact .inr hr

theorem runsApart_iff {r q : Run} : runsApart r q = true ↔ r.1 + r.2 ≤ q.1 ∨ q.1 + q.2 ≤ r.1 := by
  simp [runsApart]

theorem runsApart_symm {r q : Run} (h : runsApart r q = true) : runsApart q r = true := by
  rw [runsApart_iff] at h ⊢
  exact h.symm

theorem allApart_iff (l : List Run) : allApart l = true ↔ l.Pairwise fun r q => runsApart r q = true := by
  induction l with
  | nil => exact iff_of_true rfl List.Pairwise.nil
  | cons r l ih => rw [allApart, Bool.and_eq_true, List.all_eq_true, ih, List.pairwise_cons]

/-- Runs apart, told owner by owner. -/
theorem allApart_allRuns_iff {s : State} :
    allApart (allRuns s) = true ↔
      (∀ o, (runsOf s o).Pairwise fun r q => runsApart r q = true)
        ∧ ∀ o o', o ≠ o' → ∀ r ∈ runsOf s o, ∀ q ∈ runsOf s o', runsApart r q = true := by
  have hsymm : Std.Symm fun h k : Handle =>
      ∀ r ∈ runsOf s (some h), ∀ q ∈ runsOf s (some k), runsApart r q = true :=
    ⟨fun h k hk r hr q hq => runsApart_symm (hk q hq r hr)⟩
  rw [allApart_iff, allRuns, List.pairwise_append, List.pairwise_flatMap]
  constructor
  · rintro ⟨⟨heach, hhandles⟩, hpending, hcross⟩
    have hhandles : allHandles.Pairwise fun h k : Handle =>
      ∀ r ∈ runsOf s (some h), ∀ q ∈ runsOf s (some k), runsApart r q = true := hhandles
    have hcross' : ∀ h, ∀ r ∈ runsOf s (some h), ∀ q ∈ runsOf s none, runsApart r q = true := fun h r hr q hq =>
      hcross r (List.mem_flatMap.2 ⟨h, List.mem_finRange h, hr⟩) q hq
    refine ⟨fun o => ?_, fun o o' hne r hr q hq => ?_⟩
    · cases o with
      | some h => exact heach h (List.mem_finRange h)
      | none => exact hpending
    · match o, o' with
      | some h, some k =>
        exact hhandles.forall (List.mem_finRange h) (List.mem_finRange k) (fun hk => hne (congrArg some hk)) r hr q hq
      | some h, none => exact hcross' h r hr q hq
      | none, some k => exact runsApart_symm (hcross' k q hq r hr)
      | none, none => exact absurd rfl hne
  · rintro ⟨heach, hcross⟩
    refine ⟨⟨fun h _ => heach (some h), ?_⟩, heach none, fun r hr q hq => ?_⟩
    · exact (List.nodup_finRange 48).pairwise_of_forall_ne fun h _ k _ hne =>
        hcross (some h) (some k) fun hk => hne (Option.some.inj hk)
    · obtain ⟨h, -, hr⟩ := List.mem_flatMap.1 hr
      exact hcross (some h) none nofun r hr q hq

theorem pagesPerCopy_pos (size : Nat) : 1 ≤ pagesPerCopy size := by
  rw [pagesPerCopy]
  omega

/-- Runs that are apart share no page. -/
theorem not_inRun_of_apart {r q : Run} {page : Nat} (h : runsApart r q = true) (hr : InRun r.2 r.1 page) :
    ¬ InRun q.2 q.1 page := by
  rw [runsApart_iff] at h
  omega

/-! ### The invariant with a queue in hand -/

/-- The invariant with the jobs `q` in place of the commit queue: at a job end, and while a factory clear removes the
unstarted jobs, the jobs that count for the directory job slot are not those of the queue. -/
abbrev RunsFor (q : List Job) (s : State) : Prop := RunsDisjoint { s with queue := q }

theorem RunsFor.count {q : List Job} {s : State} (hs : RunsFor q s) :
    (q.filter Job.isDirectory).length = if s.dirSlot.isSome then 1 else 0 := hs.slot

/-- The runs of `t` are runs of `s`, each with one owner. -/
theorem RunsFor.of_owners {q q' : List Job} {s t : State} (hs : RunsFor q s) (σ : Option Handle → Option Handle)
    (hσ : Function.Injective σ) (hruns : ∀ o, runsOf t o = runsOf s (σ o) ∨ runsOf t o = [])
    (htaken : ∀ m', t.pageMap = some m' → ∀ o, runsOf t o ≠ [] → ∃ m, s.pageMap = some m ∧
      ∀ r ∈ runsOf s (σ o), ∀ page, InRun r.2 r.1 page → pageCond m page ≠ .free → pageCond m' page ≠ .free)
    (hfresh : ∀ h, t.definePending h = true → (t.record h).entry = none)
    (hslot : (q'.filter Job.isDirectory).length = if t.dirSlot.isSome then 1 else 0)
    (hstarting : t.dev = .starting → t.dirSlot = none) (hready : t.dev = .ready → t.pageMap ≠ none)
    (herasing : ∀ c, t.clear = some c → c.phase = .erasing → t.pageMap ≠ none) : RunsFor q' t := by
  have hmem : ∀ o, ∀ r ∈ runsOf t o, r ∈ runsOf s (σ o) := fun o r hr => by
    rcases hruns o with h | h
    · rwa [h] at hr
    · rw [h] at hr
      exact absurd hr List.not_mem_nil
  obtain ⟨heach, hcross⟩ := allApart_allRuns_iff.1 hs.apart
  refine ⟨allApart_allRuns_iff.2 ⟨fun o => ?_, fun o o' hne r hr k hk => ?_⟩, fun r hr => ?_, fun m' hm' r hr page h1 h2 => ?_,
    hfresh, hslot, hstarting, hready, herasing⟩
  · show (runsOf t o).Pairwise _
    rcases hruns o with h | h
    · rw [h]
      exact heach (σ o)
    · rw [h]
      exact List.Pairwise.nil
  · exact hcross (σ o) (σ o') (fun h => hne (hσ h)) r (hmem o r hr) k (hmem o' k hk)
  · obtain ⟨o, hr⟩ := mem_allRuns.1 hr
    exact hs.inArea r (mem_allRuns.2 ⟨σ o, hmem o r hr⟩)
  · obtain ⟨o, hr⟩ := mem_allRuns.1 hr
    have hr' := hmem o r hr
    obtain ⟨m, hm, hkeep⟩ := htaken m' hm' o (List.ne_nil_of_mem hr)
    exact hkeep r hr' page ⟨h1, h2⟩ (hs.taken m hm r (mem_allRuns.2 ⟨σ o, hr'⟩) page h1 h2)

theorem runsOf_congr {s t : State} (hentry : ∀ h, (t.record h).entry = (s.record h).entry)
    (hslot : t.dirSlot = s.dirSlot) (o : Option Handle) : runsOf t o = runsOf s o := by
  cases o with
  | some h => rw [runsOf, runsOf, hentry]
  | none => rw [runsOf, runsOf, pendingRuns, pendingRuns, hslot]

/-- What the invariant does not look at may change. -/
theorem RunsFor.of_same {q q' : List Job} {s t : State} (hs : RunsFor q s)
    (hentry : ∀ h, (t.record h).entry = (s.record h).entry) (hslot : t.dirSlot = s.dirSlot)
    (hmap : t.pageMap = s.pageMap)
    (hcount : (q'.filter Job.isDirectory).length = (q.filter Job.isDirectory).length)
    (hstarting : t.dev = .starting → t.dirSlot = none) (hready : t.dev = .ready → t.pageMap ≠ none)
    (herasing : ∀ c, t.clear = some c → c.phase = .erasing → t.pageMap ≠ none) : RunsFor q' t := by
  refine hs.of_owners id Function.injective_id (fun o => .inl (runsOf_congr hentry hslot o)) (fun m' hm' o _ => ?_)
    (fun h hd => ?_) ?_ hstarting hready herasing
  · exact ⟨m', hmap ▸ hm', fun r _ page _ hne => hne⟩
  · rw [State.definePending, hslot] at hd
    rw [hentry]
    exact hs.fresh h hd
  · rw [hcount, hslot]
    exact hs.count

theorem RunsFor.of_acts {q : List Job} {s t : State} (hs : RunsFor q s) (ha : Acts s t) : RunsFor q t :=
  hs.of_same ha.entry ha.dirSlot ha.pageMap rfl
    (fun hd => ha.dirSlot.trans (hs.starting (ha.toKeeps.dev.symm.trans hd)))
    (fun hd => by rw [ha.pageMap]; exact hs.ready (ha.toKeeps.dev.symm.trans hd))
    (fun c hc hp => by rw [ha.pageMap]; exact hs.erasing c (ha.clear.symm.trans hc) hp)

theorem RunsFor.of_count {q q' : List Job} {s : State} (hs : RunsFor q s)
    (hcount : (q'.filter Job.isDirectory).length = (q.filter Job.isDirectory).length) : RunsFor q' s :=
  hs.of_same (fun _ => rfl) rfl rfl hcount hs.starting hs.ready hs.erasing

theorem runsFor_queue {s : State} : RunsFor s.queue s ↔ RunsDisjoint s := Iff.rfl

theorem runsDisjoint_of_same {s t : State} (hs : RunsDisjoint s) (hentry : ∀ h, (t.record h).entry = (s.record h).entry)
    (hslot : t.dirSlot = s.dirSlot) (hmap : t.pageMap = s.pageMap)
    (hcount : (t.queue.filter Job.isDirectory).length = (s.queue.filter Job.isDirectory).length)
    (hstarting : t.dev = .starting → t.dirSlot = none) (hready : t.dev = .ready → t.pageMap ≠ none)
    (herasing : ∀ c, t.clear = some c → c.phase = .erasing → t.pageMap ≠ none) : RunsDisjoint t :=
  runsFor_queue.1 ((runsFor_queue.2 hs).of_same hentry hslot hmap hcount hstarting hready herasing)

theorem runsDisjoint_of_acts {s t : State} (hs : RunsDisjoint s) (ha : Acts s t) : RunsDisjoint t :=
  ((runsFor_queue.2 hs).of_acts ha).of_count (congrArg List.length ha.jobs)

/-! ### The directory job: undone, taken, committed -/

theorem undoTaking_entry (j : DirJob) (s : State) (h : Handle) :
    ((undoTaking j s).record h).entry = (s.record h).entry := by
  have hset : ∀ (u : State) (x : RecState), x.entry = (u.record j.handle).entry →
      ((u.setRecord j.handle x).record h).entry = (u.record h).entry := fun u x hx => by
    rw [State.setRecord_record]
    split
    next heq => rw [hx, heq]
    next => rfl
  rw [undoTaking]
  cases j.op with
  | define x => rfl
  | retire => exact hset { s with dirSlot := none } _ rfl
  | setRights r => rfl
  | freeze => exact hset { s with dirSlot := none } _ rfl

theorem undoTaking_pageMap (j : DirJob) (s : State) :
    (undoTaking j s).pageMap = match j.op with
      | .define x => s.pageMap.map (markCopies .free x)
      | _ => s.pageMap := by
  rw [undoTaking]
  cases j.op <;> rfl

theorem pendingRuns_of_define {s : State} {j : DirJob} {x : RecEntry} (hj : s.dirSlot = some j) (hop : j.op = .define x) :
    pendingRuns s = entryRuns x := by
  obtain ⟨op, h, tk⟩ := j
  obtain rfl : op = .define x := hop
  rw [pendingRuns, hj]

/-- Outside its run, a marking leaves every page's condition, whatever the map. -/
theorem pageCond_markRun_outside (cond : PageCond) (first len : Nat) (m : List (Nat × PageCond)) {page : Nat}
    (h : ¬ InRun len first page) : pageCond (markRun cond first len m) page = pageCond m page := by
  induction len generalizing first m with
  | zero => rfl
  | succ len ih =>
    rw [markRun, ih _ _ (by omega)]
    exact sparseGet_put_ne m cond (by omega)

theorem pageCond_markCopies_outside (cond : PageCond) (x : RecEntry) (m : List (Nat × PageCond)) {page : Nat}
    (h : ∀ r ∈ entryRuns x, ¬ InRun r.2 r.1 page) : pageCond (markCopies cond x m) page = pageCond m page := by
  rw [markCopies, pageCond_markRun_outside _ _ _ _ (h _ (List.mem_cons_of_mem _ List.mem_cons_self)),
    pageCond_markRun_outside _ _ _ _ (h _ List.mem_cons_self)]

/-- The taking of a directory job is undone: its reservation, if any, is gone (01, R9, R12). -/
theorem RunsFor.undo {q q' : List Job} {s : State} {j : DirJob} (hs : RunsFor q s) (hj : s.dirSlot = some j)
    (hq : q'.filter Job.isDirectory = []) : RunsFor q' (undoTaking j s) := by
  have hslot : (undoTaking j s).dirSlot = none := by rw [undoTaking_frame]
  have hdev : (undoTaking j s).dev = s.dev := by rw [undoTaking_frame]
  have hclear : (undoTaking j s).clear = s.clear := by rw [undoTaking_frame]
  have hmapne : s.pageMap ≠ none → (undoTaking j s).pageMap ≠ none := fun hm => by
    rw [undoTaking_pageMap]
    cases j.op with
    | define x => simpa using hm
    | _ => exact hm
  refine hs.of_owners id Function.injective_id (fun o => ?_) (fun m' hm' o hne => ?_) (fun h hd => ?_) ?_
    (fun _ => hslot) (fun hd => hmapne (hs.ready (hdev ▸ hd)))
    (fun c hc hp => hmapne (hs.erasing c (hclear ▸ hc) hp))
  · cases o with
    | some h => exact .inl (congrArg (fun x => Option.elim x [] entryRuns) (undoTaking_entry j s h))
    | none => exact .inr (by rw [runsOf, pendingRuns, hslot])
  · rw [undoTaking_pageMap] at hm'
    cases hop : j.op with
    | define x =>
      rw [hop] at hm'
      obtain ⟨m, hm, rfl⟩ := Option.map_eq_some_iff.1 hm'
      refine ⟨m, hm, fun r hr page hpage hnf => ?_⟩
      have hpend : runsOf s none = entryRuns x := pendingRuns_of_define hj hop
      have ho : o ≠ none := by
        rintro rfl
        exact hne (by rw [runsOf, pendingRuns, hslot])
      rw [pageCond_markCopies_outside _ _ _ fun k hk => ?_]
      · exact hnf
      · exact not_inRun_of_apart ((allApart_allRuns_iff.1 hs.apart).2 o none ho r hr k (hpend ▸ hk)) hpage
    | _ =>
      rw [hop] at hm'
      exact ⟨m', hm', fun r _ page _ hnf => hnf⟩
  · rw [State.definePending, hslot] at hd
    cases hd
  · rw [hq, hslot]
    rfl

/-- A job whose taking reserves no page: RETIRE, SET-RIGHTS and FREEZE (01, R15, R17, R19). -/
theorem RunsFor.take {q q' : List Job} {s t : State} {j : DirJob} (hs : RunsFor q s)
    (hop : ∀ x, j.op ≠ .define x) (hj : t.dirSlot = some j) (hentry : ∀ h, (t.record h).entry = (s.record h).entry)
    (hmap : t.pageMap = s.pageMap) (hdev : t.dev = s.dev) (hclear : t.clear = s.clear) (hready : s.dev = .ready)
    (hq : (q'.filter Job.isDirectory).length = 1) : RunsFor q' t := by
  have hpend : pendingRuns t = [] := by
    obtain ⟨op, h, tk⟩ := j
    rw [pendingRuns, hj]
    cases op with
    | define x => exact absurd rfl (hop x)
    | _ => rfl
  have hpending : ∀ h, t.definePending h = false := fun h => by
    obtain ⟨op, k, tk⟩ := j
    rw [State.definePending, hj]
    cases op with
    | define x => exact absurd rfl (hop x)
    | _ => rfl
  refine hs.of_owners id Function.injective_id (fun o => ?_) (fun m' hm' o _ => ?_) (fun h hd => ?_) ?_
    (fun hd => ?_) (fun _ => ?_) (fun c hc hp => ?_)
  · cases o with
    | some h => exact .inl (congrArg (fun x => Option.elim x [] entryRuns) (hentry h))
    | none => exact .inr hpend
  · exact ⟨m', hmap ▸ hm', fun r _ page _ hne => hne⟩
  · rw [hpending h] at hd
    cases hd
  · rw [hq, hj]
    rfl
  · rw [hdev, hready] at hd
    cases hd
  · rw [hmap]
    exact hs.ready hready
  · rw [hmap]
    exact hs.erasing c (hclear ▸ hc) hp

/-- A DEFINE reserves two runs of FREE pages, which no copy has (01, R8, R13). -/
theorem RunsFor.reserve {q q' : List Job} {s : State} {m : List (Nat × PageCond)} {x : RecEntry} {h : Handle}
    {tk : Ticket} (hs : RunsFor q s) (hm : s.pageMap = some m)
    (ha : FreeRun (pageCond m) (pagesPerCopy x.size.toNat) x.pageA.val)
    (hb : FreeRun (pageCond (markRun .reserved x.pageA.val (pagesPerCopy x.size.toNat) m))
      (pagesPerCopy x.size.toNat) x.pageB.val)
    (he : (s.record h).entry = none) (hready : s.dev = .ready) (hq : (q'.filter Job.isDirectory).length = 1) :
    RunsFor q' { s.markCopies .reserved x with dirSlot := some ⟨.define x, h, tk⟩ } := by
  have hlen := pagesPerCopy_pos x.size.toNat
  obtain ⟨ha64, haend, hafree⟩ := ha
  obtain ⟨hb64, hbend, hbfree⟩ := hb
  have hab : runsApart (x.pageA.val, pagesPerCopy x.size.toNat) (x.pageB.val, pagesPerCopy x.size.toNat) = true := by
    rw [runsApart_iff]
    by_contra hover
    have hpage : ∃ i, i < pagesPerCopy x.size.toNat
        ∧ InRun (pagesPerCopy x.size.toNat) x.pageA.val (x.pageB.val + i) := by
      simp only [not_or, Nat.not_le] at hover
      rcases Nat.le_total x.pageA.val x.pageB.val with hle | hle
      · exact ⟨0, by omega, by omega⟩
      · exact ⟨x.pageA.val - x.pageB.val, by omega, by omega⟩
    obtain ⟨i, hi, hin⟩ := hpage
    have hcond := hbfree i hi
    rw [pageCond_markRun_taken (cond := .reserved) nofun, if_pos hin] at hcond
    cases hcond
  have hbfree' : ∀ i, i < pagesPerCopy x.size.toNat → pageCond m (x.pageB.val + i) = .free := fun i hi => by
    have hcond := hbfree i hi
    rw [pageCond_markRun_taken (cond := .reserved) nofun] at hcond
    split at hcond
    · cases hcond
    · exact hcond
  have hnewfree : ∀ r ∈ entryRuns x, ∀ page, InRun r.2 r.1 page → pageCond m page = .free := by
    intro r hr page hpage
    rcases List.mem_cons.1 hr with rfl | hr
    · rw [← Nat.add_sub_of_le hpage.1]
      exact hafree _ (by omega)
    · obtain rfl := List.mem_singleton.1 hr
      rw [← Nat.add_sub_of_le hpage.1]
      exact hbfree' _ (by omega)
  have hnewpos : ∀ r ∈ entryRuns x, 1 ≤ r.2 ∧ runInArea r = true := by
    intro r hr
    rcases List.mem_cons.1 hr with rfl | hr
    · exact ⟨hlen, by simp only [runInArea, Bool.and_eq_true, decide_eq_true_eq]; omega⟩
    · obtain rfl := List.mem_singleton.1 hr
      exact ⟨hlen, by simp only [runInArea, Bool.and_eq_true, decide_eq_true_eq]; omega⟩
  have hold : ∀ k, ∀ r ∈ runsOf s (some k), ∀ n ∈ entryRuns x, runsApart r n = true := by
    intro k r hr n hn
    have hr' : r ∈ allRuns { s with queue := q } := mem_allRuns.2 ⟨some k, hr⟩
    obtain ⟨hpos, -⟩ := hs.inArea r hr'
    obtain ⟨hnpos, -⟩ := hnewpos n hn
    rw [runsApart_iff]
    by_contra hover
    simp only [not_or, Nat.not_le] at hover
    rcases Nat.le_total r.1 n.1 with hle | hle
    · exact hs.taken m hm r hr' n.1 hle (by omega) (hnewfree n hn n.1 ⟨Nat.le_refl _, by omega⟩)
    · exact hs.taken m hm r hr' r.1 (Nat.le_refl _) (by omega) (hnewfree n hn r.1 ⟨hle, by omega⟩)
  obtain ⟨heach, hcross⟩ := allApart_allRuns_iff.1 hs.apart
  have hmap : (s.markCopies .reserved x).pageMap = some (markCopies .reserved x m) := congrArg (Option.map _) hm
  refine ⟨allApart_allRuns_iff.2 ⟨fun o => ?_, fun o o' hne r hr k hk => ?_⟩, fun r hr => ?_, fun m' hm' r hr page h1 h2 => ?_,
    fun k hk => ?_, ?_, fun hd => ?_, fun _ => ?_, fun _ _ _ => ?_⟩
  · cases o with
    | some k => exact heach (some k)
    | none =>
      show (entryRuns x).Pairwise _
      exact List.pairwise_cons.2 ⟨fun r hr => by rw [List.mem_singleton.1 hr]; exact hab, List.pairwise_singleton _ _⟩
  · match o, o' with
    | some i, some j => exact hcross (some i) (some j) hne r hr k hk
    | some i, none => exact hold i r hr k hk
    | none, some j => exact runsApart_symm (hold j k hk r hr)
    | none, none => exact absurd rfl hne
  · obtain ⟨o, hr⟩ := mem_allRuns.1 hr
    cases o with
    | some k => exact hs.inArea r (mem_allRuns.2 ⟨some k, hr⟩)
    | none => exact hnewpos r hr
  · obtain rfl : markCopies .reserved x m = m' := Option.some.inj (hmap.symm.trans hm')
    rw [pageCond_markCopies_taken (cond := .reserved) nofun]
    split
    · nofun
    next hout =>
      obtain ⟨o, hr⟩ := mem_allRuns.1 hr
      cases o with
      | some k => exact hs.taken m hm r (mem_allRuns.2 ⟨some k, hr⟩) page h1 h2
      | none =>
        refine absurd ?_ hout
        rcases List.mem_cons.1 hr with rfl | hr
        · exact .inl ⟨h1, h2⟩
        · obtain rfl := List.mem_singleton.1 hr
          exact .inr ⟨h1, h2⟩
  · obtain rfl : h = k := beq_iff_eq.1 hk
    exact he
  · exact hq
  · exact absurd (hready.symm.trans hd) nofun
  · exact fun hnone => absurd (hmap.symm.trans hnone) nofun
  · exact fun hnone => absurd (hmap.symm.trans hnone) nofun

/-- A directory job ends, so that nothing is pending: the entries keep their runs or are gone. -/
theorem RunsFor.settle {q q' : List Job} {s t : State} (hs : RunsFor q s) (hslot : t.dirSlot = none)
    (hq : q'.filter Job.isDirectory = []) (hruns : ∀ h, runsOf t (some h) = runsOf s (some h) ∨ runsOf t (some h) = [])
    (hmap : s.pageMap ≠ none → t.pageMap ≠ none) (hdev : t.dev = s.dev) (hclear : t.clear = s.clear)
    (htaken : ∀ m', t.pageMap = some m' → ∀ h, runsOf t (some h) ≠ [] → ∃ m, s.pageMap = some m ∧
      ∀ r ∈ runsOf s (some h), ∀ page, InRun r.2 r.1 page → pageCond m page ≠ .free → pageCond m' page ≠ .free) :
    RunsFor q' t := by
  have hnone : runsOf t none = [] := by rw [runsOf, pendingRuns, hslot]
  refine hs.of_owners id Function.injective_id (fun o => ?_) (fun m' hm' o hne => ?_) (fun h hd => ?_) ?_
    (fun _ => hslot) (fun hd => hmap (hs.ready (hdev.symm.trans hd)))
    (fun c hc hp => hmap (hs.erasing c (hclear.symm.trans hc) hp))
  · cases o with
    | some h => exact hruns h
    | none => exact .inr hnone
  · cases o with
    | some h => exact htaken m' hm' h hne
    | none => exact absurd hnone hne
  · rw [State.definePending, hslot] at hd
    cases hd
  · rw [hq, hslot]
    rfl

/-- A page of a run lies in the record area, so it is outside the runs of the empty entry, whose first page is 0. -/
theorem RunsFor.outside_blank {q : List Job} {s : State} (hs : RunsFor q s) {o : Option Handle} {r : Run}
    (hr : r ∈ runsOf s o) {page : Nat} (hpage : InRun r.2 r.1 page) : ∀ k ∈ entryRuns RecEntry.blank, ¬ InRun k.2 k.1 page := by
  obtain ⟨-, harea⟩ := hs.inArea r (mem_allRuns.2 ⟨o, hr⟩)
  have h64 : 64 ≤ r.1 := by
    rw [runInArea, Bool.and_eq_true, decide_eq_true_eq] at harea
    exact harea.1
  intro k hk hin
  have hk0 : k = (0, 1) := by
    rcases List.mem_cons.1 hk with rfl | hk
    · rfl
    · exact List.mem_singleton.1 hk
  subst hk0
  omega

/-- Freeing the pages of an entry leaves the runs of every other owner taken. -/
theorem RunsFor.markFree_keeps {q : List Job} {s : State} (hs : RunsFor q s) {h k : Handle} (hk : k ≠ h)
    (m : List (Nat × PageCond)) {r : Run} (hr : r ∈ runsOf s (some k)) {page : Nat} (hpage : InRun r.2 r.1 page) :
    pageCond (markCopies .free (s.entryOf h) m) page = pageCond m page := by
  refine pageCond_markCopies_outside _ _ _ fun n hn => ?_
  cases he : (s.record h).entry with
  | none =>
    rw [State.entryOf, he, Option.getD_none] at hn
    exact hs.outside_blank hr hpage n hn
  | some x =>
    rw [State.entryOf, he, Option.getD_some] at hn
    have hmem : n ∈ runsOf s (some h) := by rwa [runsOf, he, Option.elim_some]
    exact not_inRun_of_apart
      ((allApart_allRuns_iff.1 hs.apart).2 (some k) (some h) (fun heq => hk (Option.some.inj heq)) r hr n hmem) hpage

theorem runsOf_setRecord {s : State} {h k : Handle} {x : RecState} :
    runsOf (s.setRecord h x) (some k) = if k = h then x.entry.elim [] entryRuns else runsOf s (some k) := by
  rw [runsOf, State.setRecord_record]
  split
  next heq => rw [if_pos heq.symm]
  next hne => rw [if_neg fun heq => hne heq.symm, runsOf]

/-- The DEFINE commit point: the reservation becomes the runs of the new entry (01, R14). -/
theorem RunsFor.defined {q q' : List Job} {s : State} {j : DirJob} {x : RecEntry} {c : Option Copy} {gen : Word32}
    (hs : RunsFor q s) (hj : s.dirSlot = some j) (hop : j.op = .define x) (hq : q'.filter Job.isDirectory = []) :
    RunsFor q' ((State.setRecord { s with activeDir := c, dirGen := gen, dirSlot := none } j.handle
      { RecState.blank with entry := some { x with stamp := gen } }).markCopies .inUse x) := by
  have hpend : runsOf s none = entryRuns x := pendingRuns_of_define hj hop
  have hmapne : s.pageMap ≠ none → s.pageMap.map (markCopies .inUse x) ≠ none := fun hm => by simpa using hm
  refine hs.of_owners (Equiv.swap (some j.handle) none) (Equiv.injective _) (fun o => ?_) (fun m' hm' o _ => ?_)
    (fun _ hd => absurd hd nofun) ?_ (fun _ => rfl) (fun hd => hmapne (hs.ready hd)) (fun c hc hp => hmapne (hs.erasing c hc hp))
  · cases o with
    | none => exact .inr rfl
    | some k =>
      refine .inl (runsOf_setRecord.trans ?_)
      split
      next heq => rw [heq, Equiv.swap_apply_left, hpend]; rfl
      next hne =>
        have hsame : Equiv.swap (some j.handle) none (some k) = some k :=
          Equiv.swap_apply_of_ne_of_ne (fun heq => hne (Option.some.inj heq)) nofun
        rw [hsame]
        rfl
  · obtain ⟨m, hm, rfl⟩ := Option.map_eq_some_iff.1 (show s.pageMap.map (markCopies .inUse x) = some m' from hm')
    refine ⟨m, hm, fun r _ page _ hnf => ?_⟩
    rw [pageCond_markCopies_taken (cond := .inUse) nofun]
    split
    · nofun
    · exact hnf
  · rw [hq]
    rfl

/-- The RETIRE commit point: the runs of the entry are FREE, and those of the others are as before (01, R16). -/
theorem RunsFor.retired {q q' : List Job} {s : State} {h : Handle} {c : Option Copy} {gen : Word32}
    (hs : RunsFor q s) (hq : q'.filter Job.isDirectory = []) :
    RunsFor q' ((State.markCopies { s with activeDir := c, dirGen := gen, dirSlot := none } .free (s.entryOf h)).setRecord h
      RecState.blank) := by
  refine hs.settle rfl hq (fun k => ?_) (fun hm => ?_) rfl rfl (fun m' hm' k hne => ?_)
  · rw [runsOf_setRecord]
    split
    · exact .inr rfl
    · exact .inl rfl
  · show s.pageMap.map _ ≠ none
    simpa using hm
  · obtain ⟨m, hm, rfl⟩ := Option.map_eq_some_iff.1 (show s.pageMap.map (markCopies .free (s.entryOf h)) = some m' from hm')
    have hkh : k ≠ h := by
      rintro rfl
      exact hne (runsOf_setRecord.trans (if_pos rfl))
    refine ⟨m, hm, fun r hr page hpage hnf => ?_⟩
    rw [hs.markFree_keeps hkh m hr hpage]
    exact hnf

/-- The commit points of SET-RIGHTS and FREEZE leave every entry its runs (01, R18, R20). -/
theorem RunsFor.changed {q q' : List Job} {s : State} {h : Handle} {c : Option Copy} {gen : Word32} {x : RecState}
    {f : RecEntry → RecEntry} (hs : RunsFor q s) (hq : q'.filter Job.isDirectory = [])
    (hx : x.entry = (s.record h).entry.map f) (hf : ∀ y, entryRuns (f y) = entryRuns y) :
    RunsFor q' (State.setRecord { s with activeDir := c, dirGen := gen, dirSlot := none } h x) := by
  have hruns : ∀ k, runsOf (State.setRecord { s with activeDir := c, dirGen := gen, dirSlot := none } h x) (some k)
      = runsOf s (some k) := fun k => by
    rw [runsOf_setRecord]
    split
    next heq =>
      rw [hx, heq, runsOf]
      cases (s.record h).entry with
      | none => rfl
      | some y => exact hf y
    next => rfl
  exact hs.settle rfl hq (fun k => .inl (hruns k)) id rfl rfl
    (fun m' hm' k _ => ⟨m', hm', fun r _ page _ hnf => hnf⟩)

/-- The directory commit point (05, R95), with the directory job gone from the queue. -/
theorem RunsFor.dirCommitPoint {q : List Job} {s : State} {j : DirJob} (hs : RunsFor q s) (hj : s.dirSlot = some j)
    (hq : s.queue.filter Job.isDirectory = []) (c : Copy) (gen : Word32) : RunsDisjoint (dirCommitPoint c gen s) := by
  obtain ⟨op, h, tk⟩ := j
  simp only [Machine.dirCommitPoint, hj]
  cases op with
  | define x => exact runsDisjoint_of_acts (hs.defined hj rfl hq) (acts_complete _ _ _ _)
  | retire =>
    exact runsDisjoint_of_acts (hs.retired hq) ((acts_retireWatches h _).trans (acts_complete _ _ _ _))
  | setRights r =>
    have hcore := hs.changed (q' := s.queue) (h := h) (c := some c) (gen := gen)
      (x := { s.record h with entry := (s.record h).entry.map fun y => { y with rights := r } }) hq rfl fun _ => rfl
    refine runsDisjoint_of_acts (runsFor_queue.1 hcore) (.trans ?_ ((acts_answerAll _ _ _).trans (acts_complete _ _ _ _)))
    exact (acts_removeWatches _ _).trans ((acts_setWaiters h _ _).trans (acts_leaveAllocIfEmpty h _))
  | freeze =>
    exact runsDisjoint_of_acts (hs.changed (f := fun y => { y with frozen := true }) hq rfl fun _ => rfl)
      ((acts_answerAll _ _ _).trans (acts_complete _ _ _ _))

/-- A directory job that is undone, with the job gone from the queue. -/
theorem RunsFor.undone {q : List Job} {s : State} {j : DirJob} (hs : RunsFor q s) (hj : s.dirSlot = some j)
    (hq : s.queue.filter Job.isDirectory = []) : RunsDisjoint (undoTaking j s) := by
  have hqueue : (undoTaking j s).queue = s.queue := by rw [undoTaking_frame]
  exact runsFor_queue.1 (hs.undo hj (by rw [hqueue, hq]))

/-! ### The commands -/

/-- The directory job is the only one of the queue that counts, so the slot is occupied, and the rest of the queue holds
none. -/
theorem RunsFor.slot_of_job {q rest : List Job} {s : State} {j : Job} (hs : RunsFor q s) (hq : q = j :: rest)
    (hj : j.isDirectory = true) : (∃ d, s.dirSlot = some d) ∧ rest.filter Job.isDirectory = [] := by
  have hcount := hs.count
  rw [hq, List.filter_cons_of_pos hj, List.length_cons] at hcount
  cases hslot : s.dirSlot with
  | none => simp [hslot] at hcount
  | some d =>
    refine ⟨⟨d, rfl⟩, List.eq_nil_of_length_eq_zero ?_⟩
    simpa [hslot] using hcount

theorem RunsFor.drop_record {q : List Job} {s : State} {j : Job} (hs : RunsFor (j :: q) s) (hj : j.isDirectory = false) :
    RunsFor q s := by
  refine hs.of_count ?_
  rw [List.filter_cons_of_neg (by rw [hj]; nofun)]

/-- Nothing is defined and nothing is pending: there are no runs. -/
theorem runsDisjoint_of_blank {s : State} (hentry : ∀ h, (s.record h).entry = none) (hslot : s.dirSlot = none)
    (hq : s.queue.filter Job.isDirectory = []) (hready : s.dev = .ready → s.pageMap ≠ none)
    (herasing : ∀ c, s.clear = some c → c.phase = .erasing → s.pageMap ≠ none) : RunsDisjoint s := by
  have hruns : allRuns s = [] := by
    refine List.eq_nil_iff_forall_not_mem.2 fun r hr => ?_
    obtain ⟨o, hr⟩ := mem_allRuns.1 hr
    cases o with
    | some h => rw [runsOf, hentry] at hr; exact List.not_mem_nil hr
    | none => rw [runsOf, pendingRuns, hslot] at hr; exact List.not_mem_nil hr
  refine ⟨by rw [hruns]; rfl, fun r hr => ?_, fun m _ r hr => ?_, fun h _ => hentry h, ?_, fun _ => hslot, hready, herasing⟩
  · rw [hruns] at hr
    exact absurd hr List.not_mem_nil
  · rw [hruns] at hr
    exact absurd hr List.not_mem_nil
  · rw [SlotMatchesQueue, hq, hslot]
    rfl

theorem runsDisjoint_reportDrained {s : State} (hs : RunsDisjoint s) : RunsDisjoint (reportDrained s) := by
  rw [reportDrained]
  split
  next tk hc =>
    split
    next hq =>
      have hslot : s.dirSlot = none := by
        have hcount : (s.queue.filter Job.isDirectory).length = if s.dirSlot.isSome then 1 else 0 := hs.slot
        rw [hq] at hcount
        cases hd : s.dirSlot with
        | none => rfl
        | some d => simp [hd] at hcount
      refine runsDisjoint_of_blank (fun h => ?_) hslot ?_ (fun _ => nofun) (fun _ _ _ => nofun)
      · exact congrArg RecState.entry (vector_get_replicate RecState.blank h)
      · show s.queue.filter _ = _
        rw [hq]
        rfl
    next => exact hs
  next => exact hs

theorem runsDisjoint_recordCommitPoint {s : State} (hs : RunsDisjoint s) (e : EntryNo) (h : Handle) (c : Copy)
    (gen : Word32) : RunsDisjoint (recordCommitPoint e h c gen s) := by
  have hcore : RunsDisjoint (s.setRecord h { s.record h with active := some c, gen := gen }) := by
    refine runsDisjoint_of_same hs (fun k => ?_) rfl rfl rfl hs.starting hs.ready hs.erasing
    rw [State.setRecord_record]
    split
    next heq => rw [heq]
    next => rfl
  rw [recordCommitPoint]
  split
  · exact hcore
  · exact runsDisjoint_of_acts hcore ((acts_evaluateWatches _ _).trans (acts_endLease _ _ _ _))

theorem runsDisjoint_raiseFaultCount {s : State} (hs : RunsDisjoint s) (h : Handle) : RunsDisjoint (raiseFaultCount h s) := by
  refine runsDisjoint_of_same hs (fun k => ?_) rfl rfl rfl hs.starting hs.ready hs.erasing
  rw [raiseFaultCount, State.setRecord_record]
  split
  next heq => rw [heq]
  next => rfl

/-- A job's commit point, the job gone from the queue (05, R92, R95). -/
theorem RunsFor.commitPoint {s : State} {j : Job} (hs : RunsFor (j :: s.queue) s) : RunsDisjoint (commitPoint j s) := by
  refine runsDisjoint_reportDrained (runsDisjoint_of_acts ?_ (acts_startNext _))
  cases j with
  | record e h c first pages gen =>
    exact runsDisjoint_recordCommitPoint (runsFor_queue.1 (hs.drop_record rfl)) e h c gen
  | directory kind c gen =>
    obtain ⟨⟨d, hd⟩, hq⟩ := hs.slot_of_job rfl rfl
    exact hs.dirCommitPoint hd hq c gen

/-- The end of a failed job, the job gone from the queue (05, R90). -/
theorem RunsFor.jobFault {s : State} {j : Job} (hs : RunsFor (j :: s.queue) s) (failing : Nat) :
    RunsDisjoint (jobFault j failing s) := by
  refine runsDisjoint_reportDrained (runsDisjoint_of_acts ?_ (acts_startNext _))
  cases j with
  | record e h c first pages gen =>
    exact runsDisjoint_of_acts (runsDisjoint_raiseFaultCount (runsFor_queue.1 (hs.drop_record rfl)) h)
      ((acts_postFault _ _ _).trans (acts_recordFault e _))
  | directory kind c gen =>
    obtain ⟨⟨d, hd⟩, hq⟩ := hs.slot_of_job rfl rfl
    have ha := acts_postFault (.directory kind c gen) failing s
    have hd' := ha.dirSlot.trans hd
    show RunsDisjoint (dirFault (postFault (.directory kind c gen) failing s))
    rw [dirFault, hd']
    exact runsDisjoint_of_acts ((hs.of_acts ha).undone hd' (ha.jobs.trans hq))
      ((acts_freezeReturn _ _).trans (acts_complete _ _ _ _))

theorem exec_pageMatch_runs {s t : State} (hs : RunsDisjoint s) (h : exec .pageMatch s = .next t) : RunsDisjoint t := by
  have h : execPageMatch s = .next t := h
  rw [execPageMatch] at h
  split at h
  next pos retry j rest heng hq =>
    split at h
    next =>
      split at h
      · injection h with h
        subst h
        exact runsDisjoint_of_same hs (fun _ => rfl) rfl rfl rfl hs.starting hs.ready hs.erasing
      · injection h with h
        subst h
        refine RunsFor.commitPoint ?_
        exact (runsFor_queue.2 hs).of_same (fun _ => rfl) rfl rfl (by rw [hq]) hs.starting hs.ready hs.erasing
    next => cases h
  next =>
    injection h with h
    exact h ▸ hs

theorem exec_eraseEnd_runs {s t : State} (hs : RunsDisjoint s) (h : exec .eraseEnd s = .next t) : RunsDisjoint t := by
  have h : execEraseEnd s = .next t := h
  rw [execEraseEnd] at h
  split at h
  next pos failing j rest heng hq =>
    split at h
    next =>
      injection h with h
      subst h
      refine RunsFor.jobFault ?_ failing
      exact (runsFor_queue.2 hs).of_same (fun _ => rfl) rfl rfl (by rw [hq]) hs.starting hs.ready hs.erasing
    next => cases h
  next =>
    injection h with h
    exact h ▸ hs

theorem exec_pageMismatch_runs {s t : State} (hs : RunsDisjoint s) (h : exec .pageMismatch s = .next t) :
    RunsDisjoint t := by
  rcases exec_pageMismatch_eq h with rfl | ⟨page, whole, x, rfl⟩
  · exact hs
  · obtain ⟨m, hm, -⟩ := spoilPage_cases page whole s
    rw [hm]
    exact runsDisjoint_of_same hs (fun _ => rfl) rfl rfl rfl hs.starting hs.ready hs.erasing

theorem exec_deviceReset_runs {c : Instr} {s t : State} (hc : isDeviceReset c = true) (h : exec c s = .next t) :
    RunsDisjoint t := by
  obtain ⟨u, hu, ht, -⟩ := exec_deviceReset_afresh c s hc
  obtain rfl : t = u := by rw [hu] at h; cases h; rfl
  rw [ht]
  exact runsDisjoint_of_blank (fun k => congrArg RecState.entry (reset_record k)) rfl rfl nofun nofun

theorem exec_bulkEraseEnd_runs {s t : State} (hs : RunsDisjoint s) (h : exec .bulkEraseEnd s = .next t) :
    RunsDisjoint t := by
  have h : execBulkEraseEnd s = .next t := h
  rw [execBulkEraseEnd] at h
  split at h
  next tk hc =>
    injection h with h
    subst h
    refine runsDisjoint_of_acts ?_ ((acts_postAll _ _).trans (acts_complete _ _ _ _))
    exact runsDisjoint_of_same hs (fun _ => rfl) rfl rfl rfl nofun (fun _ => hs.erasing _ hc rfl) nofun
  next =>
    injection h with h
    exact h ▸ hs

/-- The runs of a valid region are within the record area and apart (02, R40). -/
theorem runs_of_regionValid {store : List Host.Cell} {c : Copy} (hv : regionValid store c = true) :
    (∀ x, some x ∈ readEntries (regionBytes store c) → ∀ r ∈ entryRuns x, runInArea r = true)
      ∧ allApart ((readEntries (regionBytes store c)).flatMap fun x => x.elim [] entryRuns) = true := by
  simp only [regionValid, Bool.and_eq_true] at hv
  obtain ⟨⟨-, hrange⟩, hapart⟩ := hv
  refine ⟨fun x hx r hr => ?_, hapart⟩
  have hin := List.all_eq_true.1 hrange _ hx
  simp only [Option.all_some, entryInRange, Bool.and_eq_true] at hin
  exact List.all_eq_true.1 hin.2 r hr

/-- The entries that the scan takes, handle by handle, are those of the region in their order. -/
theorem readEntries_eq_map (b : List Byte) :
    readEntries b = allHandles.map fun h => readEntry (slice b (16 + 16 * h.val) 16) := by
  rw [readEntries, ← List.map_coe_finRange_eq_range, List.map_map]
  rfl

theorem takeRegion_runs {s : State} {c : Copy} (hv : regionValid s.store c = true) (hslot : s.dirSlot = none)
    (hq : s.queue.filter Job.isDirectory = []) : RunsDisjoint { takeRegion c s with dev := .ready } := by
  obtain ⟨harea, hapart⟩ := runs_of_regionValid hv
  have hruns : allRuns { takeRegion c s with dev := .ready }
      = (readEntries (regionBytes s.store c)).flatMap fun x => x.elim [] entryRuns := by
    have hpend : pendingRuns { takeRegion c s with dev := .ready } = [] := by
      show pendingRuns (takeRegion c s) = []
      rw [pendingRuns, show (takeRegion c s).dirSlot = s.dirSlot from rfl, hslot]
    rw [allRuns, hpend, List.append_nil, readEntries_eq_map, List.flatMap_map]
    refine List.flatMap_congr fun h _ => ?_
    exact congrArg (fun x => Option.elim x [] entryRuns) (takeRegion_entriesRead c s h)
  have hmem : ∀ r ∈ allRuns { takeRegion c s with dev := .ready }, ∃ x, some x ∈ readEntries (regionBytes s.store c)
      ∧ r ∈ entryRuns x := by
    intro r hr
    rw [hruns] at hr
    obtain ⟨o, ho, hr⟩ := List.mem_flatMap.1 hr
    cases o with
    | none => exact absurd hr List.not_mem_nil
    | some x => exact ⟨x, ho, hr⟩
  refine ⟨by rw [hruns]; exact hapart, fun r hr => ?_, fun m hm r hr page h1 h2 => ?_, fun h hd => ?_, ?_, nofun,
    fun _ => nofun, fun _ _ _ => nofun⟩
  · obtain ⟨x, hx, hr⟩ := hmem r hr
    refine ⟨?_, harea x hx r hr⟩
    rcases List.mem_cons.1 hr with rfl | hr
    · exact pagesPerCopy_pos _
    · rw [List.mem_singleton.1 hr]
      exact pagesPerCopy_pos _
  · obtain rfl : mapOfEntries (readEntries (regionBytes s.store c)) = m := Option.some.inj hm
    obtain ⟨x, hx, hr⟩ := hmem r hr
    rw [(pageCond_mapOfEntries _ page).1 ⟨x, hx, ?_⟩]
    · nofun
    · rcases List.mem_cons.1 hr with rfl | hr
      · exact ⟨.a, h1, h2⟩
      · obtain rfl := List.mem_singleton.1 hr
        exact ⟨.b, h1, h2⟩
  · have hd : State.definePending s h = true := hd
    rw [State.definePending, hslot] at hd
    cases hd
  · show (s.queue.filter _).length = if s.dirSlot.isSome then 1 else 0
    rw [hq, hslot]
    rfl

theorem exec_scanEnd_runs {s t : State} (hs : RunsDisjoint s) (h : exec .scanEnd s = .next t) : RunsDisjoint t := by
  have h : execScanEnd s = .next t := h
  rw [execScanEnd] at h
  split at h
  next hcond =>
    have hslot := hs.starting hcond.2
    have hq : s.queue.filter Job.isDirectory = [] := by
      have hcount : (s.queue.filter Job.isDirectory).length = if s.dirSlot.isSome then 1 else 0 := hs.slot
      rw [hslot] at hcount
      exact List.eq_nil_of_length_eq_zero hcount
    cases hchoice : chooseDirectory s.store with
    | region c =>
      rw [hchoice] at h
      injection h with h
      subst h
      have hv : regionValid s.store c = true := by
        rw [chooseDirectory] at hchoice
        split at hchoice
        · split at hchoice <;> cases hchoice <;> assumption
        · cases hchoice
          assumption
        · cases hchoice
          assumption
        · split at hchoice <;> cases hchoice
      exact runsDisjoint_of_acts (takeRegion_runs hv hslot hq) (acts_postAll _ _)
    | nothing =>
      rw [hchoice] at h
      injection h with h
      subst h
      refine runsDisjoint_of_acts ?_ (acts_postAll _ _)
      exact runsDisjoint_of_blank (fun k => congrArg RecState.entry (takeEmpty_record s k)) hslot hq (fun _ => nofun)
        (fun _ _ _ => nofun)
    | damaged =>
      rw [hchoice] at h
      injection h with h
      subst h
      refine runsDisjoint_of_acts ?_ (acts_postAll _ _)
      exact runsDisjoint_of_same hs (fun _ => rfl) rfl rfl rfl nofun nofun hs.erasing
  next =>
    injection h with h
    exact h ▸ hs

/-! ### The directory requests, PORT-RESET and FACTORY-CLEAR -/

theorem judgeDir_none {s : State} {refuse : Option Status} (h : judgeDir s refuse = none) :
    s.dirSlot = none ∧ refuse = none := by
  unfold judgeDir at h
  split at h
  · cases h
  next hslot =>
    refine ⟨by simpa using hslot, ?_⟩
    cases refuse with
    | none => rfl
    | some c => cases h

/-- The commit queue with a directory job joined to it, when the slot was empty. -/
theorem count_joined {s : State} (hs : RunsDisjoint s) (hslot : s.dirSlot = none) (kind : DirKind) (c : Copy)
    (gen : Word32) : ((s.queue ++ [Job.directory kind c gen]).filter Job.isDirectory).length = 1 := by
  have hcount : (s.queue.filter Job.isDirectory).length = if s.dirSlot.isSome then 1 else 0 := hs.slot
  rw [hslot] at hcount
  rw [List.filter_append, List.length_append, hcount]
  rfl

/-- The runs that a DEFINE finds (01, R8). -/
theorem allocate_spec {m : List (Nat × PageCond)} {len a b : Nat} (h : allocate m len = some (a, b)) :
    FreeRun (pageCond m) len a ∧ FreeRun (pageCond (markRun .reserved a len m)) len b := by
  rw [allocate] at h
  split at h
  · cases h
  next a' ha =>
    split at h
    · cases h
    next b' hb =>
      cases h
      exact ⟨findRun_spec ha, findRun_spec hb⟩

theorem runsDisjoint_joined {s : State} {j : Job} {d : DirJob} (hs : RunsFor (s.queue ++ [j]) { s with dirSlot := some d }) :
    RunsDisjoint (withJob { s with dirSlot := some d } j) :=
  runsDisjoint_of_same hs (fun _ => rfl) rfl rfl rfl hs.starting hs.ready hs.erasing

theorem entry_of_defineRefusal {s : State} {h : Handle} {runs : Option (Nat × Nat)} (hn : defineRefusal s h runs = none) :
    (s.record h).entry = none := by
  rw [defineRefusal, State.isDefined] at hn
  split at hn
  · cases hn
  next hd => simpa using hd

theorem takeDefine_runs {s : State} (hs : RunsDisjoint s) (hdev : s.dev = .ready) (tk : Ticket) (f : DefineFields) :
    RunsDisjoint (takeDefine tk f s) := by
  obtain ⟨m, hm⟩ := Option.ne_none_iff_exists'.1 (hs.ready hdev)
  cases hruns : allocate m (pagesPerCopy f.size.toNat) with
  | none =>
    cases hj : judgeDir s (defineRefusal s (toHandle f.handle) (allocate m (pagesPerCopy f.size.toNat))) with
    | some c =>
      rw [takeDefine_answered hm hj]
      exact runsDisjoint_of_acts hs (acts_complete _ _ _ _)
    | none =>
      obtain ⟨-, hn⟩ := judgeDir_none hj
      rw [hruns, defineRefusal] at hn
      split at hn <;> cases hn
  | some ab =>
    obtain ⟨a, b⟩ := ab
    cases hj : judgeDir s (defineRefusal s (toHandle f.handle) (some (a, b))) with
    | some c =>
      rw [takeDefine_answered hm (by rw [hruns]; exact hj)]
      exact runsDisjoint_of_acts hs (acts_complete _ _ _ _)
    | none =>
      obtain ⟨hslot, hn⟩ := judgeDir_none hj
      have hentry := entry_of_defineRefusal hn
      rw [takeDefine_taken hm hruns hj, takeDirJob_eq]
      obtain ⟨ha, hb⟩ := allocate_spec hruns
      have hpage : ∀ {a : Nat}, a + pagesPerCopy f.size.toNat ≤ 2048 → (Fin.ofNat 2048 a).val = a := fun {a} h =>
        Nat.mod_eq_of_lt (by have := pagesPerCopy_pos f.size.toNat; omega)
      have hfa : (f.entry a b).pageA.val = a := hpage ha.2.1
      have hfb : (f.entry a b).pageB.val = b := hpage hb.2.1
      refine runsDisjoint_joined ((runsFor_queue.2 hs).reserve hm ?_ ?_ hentry hdev (count_joined hs hslot _ _ _))
      · rw [hfa]
        exact ha
      · rw [hfa, hfb]
        exact hb

/-- RETIRE, SET-RIGHTS and FREEZE, taken: nothing the invariant looks at changes but the slot and the queue. -/
theorem takeDirJob_runs {s t : State} {kind : DirKind} {d : DirJob} (hs : RunsDisjoint s) (hdev : s.dev = .ready)
    (hslot : s.dirSlot = none) (hop : ∀ x, d.op ≠ .define x) (hentry : ∀ h, (t.record h).entry = (s.record h).entry)
    (hmap : t.pageMap = s.pageMap) (hdev' : t.dev = s.dev) (hclear : t.clear = s.clear) (hq : t.queue = s.queue) :
    RunsDisjoint (takeDirJob kind d t) := by
  rw [takeDirJob_eq]
  refine runsFor_queue.1 ((runsFor_queue.2 hs).take hop rfl hentry hmap hdev' hclear hdev ?_)
  show ((t.queue ++ [_]).filter Job.isDirectory).length = 1
  rw [hq]
  exact count_joined hs hslot _ _ _

theorem takeRetire_runs {s : State} (hs : RunsDisjoint s) (hdev : s.dev = .ready) (tk : Ticket) (h : Handle) :
    RunsDisjoint (takeRetire tk h s) := by
  rw [takeRetire]
  split
  · exact runsDisjoint_of_acts hs (acts_complete _ _ _ _)
  next hj =>
    refine takeDirJob_runs hs hdev (judgeDir_none hj).1 (fun _ => nofun) (fun k => ?_) rfl rfl rfl rfl
    rw [State.setRecord_record]
    split
    next heq => rw [heq]
    next => rfl

theorem takeSetRights_runs {s : State} (hs : RunsDisjoint s) (hdev : s.dev = .ready) (tk : Ticket) (h : Handle)
    (r : PerPort Rights) : RunsDisjoint (takeSetRights tk h r s) := by
  rw [takeSetRights]
  split
  · exact runsDisjoint_of_acts hs (acts_complete _ _ _ _)
  · exact runsDisjoint_of_acts hs (acts_complete _ _ _ _)
  next hj => exact takeDirJob_runs hs hdev (judgeDir_none hj).1 (fun _ => nofun) (fun _ => rfl) rfl rfl rfl rfl

theorem takeFreeze_runs {s : State} (hs : RunsDisjoint s) (hdev : s.dev = .ready) (tk : Ticket) (h : Handle) :
    RunsDisjoint (takeFreeze tk h s) := by
  rw [takeFreeze]
  split
  · exact runsDisjoint_of_acts hs (acts_complete _ _ _ _)
  next hj =>
    refine takeDirJob_runs hs hdev (judgeDir_none hj).1 (fun _ => nofun) (fun k => ?_) rfl rfl rfl rfl
    show ((s.setRecord h _).record k).entry = _
    rw [State.setRecord_record]
    split
    next heq => rw [heq]
    next => rfl

/-- The slot's job is the only directory job, so that none is left when one that has not started is removed. -/
theorem unstarted_directory_gone {s : State} {d : DirJob} (hslot : SlotMatchesQueue s) (hd : s.dirSlot = some d)
    (hany : s.unstarted.any Job.isDirectory = true) :
    (removeUnstarted Job.isDirectory s).queue.filter Job.isDirectory = [] := by
  obtain ⟨j, hj, hdir⟩ := List.any_eq_true.1 hany
  rw [SlotMatchesQueue, hd] at hslot
  have hcount : (s.queue.filter Job.isDirectory).length = 1 := hslot
  rw [← List.take_append_drop 1 s.queue, List.filter_append, List.length_append] at hcount
  have hlast : 0 < ((s.queue.drop 1).filter Job.isDirectory).length :=
    List.length_pos_of_mem (List.mem_filter.2 ⟨hj, hdir⟩)
  show (s.queue.take 1 ++ (s.queue.drop 1).filter fun j => !Job.isDirectory j).filter Job.isDirectory = []
  rw [List.filter_append, List.filter_filter, List.eq_nil_of_length_eq_zero (l := (s.queue.take 1).filter _) (by omega)]
  simp

/-- A directory job that has not started is removed (01, R12). -/
theorem resetDirJob_runs {s : State} (hs : RunsDisjoint s) (p : Port) : RunsDisjoint (resetDirJob p s) := by
  unfold resetDirJob
  split
  · exact hs
  next d hd =>
    split
    next hcond =>
      exact runsDisjoint_of_acts (RunsFor.undone (q := s.queue) (s := removeUnstarted Job.isDirectory s) hs hd
        (unstarted_directory_gone hs.slot hd hcond.2)) (acts_freezeReturn d _)
    next => exact hs

theorem takePortReset_runs {s : State} (hs : RunsDisjoint s) (tk : Ticket) : RunsDisjoint (takePortReset tk s) := by
  refine runsDisjoint_of_acts (resetDirJob_runs ?_ tk.port) (acts_complete _ _ _ _)
  have hport : RunsDisjoint (s.setPort tk.port ((s.port tk.port).reset tk.tag)) :=
    runsDisjoint_of_same hs (fun _ => rfl) rfl rfl rfl hs.starting hs.ready hs.erasing
  exact runsDisjoint_of_acts hport
    (((acts_removePortWaiters _ _).trans (acts_resetEntries _ _)).trans (acts_removeWatches _ _))

theorem clearJob_queue (s : State) (j : Job) : (clearJob s j).queue = s.queue := by
  unfold clearJob
  split
  · split
    · rfl
    next l _ =>
      cases l.answer with
      | none => rfl
      | some tk => rw [completeIf, complete_frame]; rfl
  · split
    · rfl
    · rw [complete_frame, undoTaking_frame]

/-- A factory clear removes the unstarted jobs one after another: those still to come count with the queue. -/
theorem RunsFor.clearJobs {q js : List Job} {s : State} (hs : RunsFor (q ++ js) s) : RunsFor q (js.foldl clearJob s) := by
  induction js generalizing s with
  | nil => rwa [List.append_nil] at hs
  | cons j js ih =>
    refine ih ?_
    have hs : RunsFor (j :: (q ++ js)) s := hs.of_count (List.Perm.length_eq (List.perm_middle.filter _)).symm
    cases j with
    | record e h c first pages gen =>
      have hs := hs.drop_record rfl
      simp only [clearJob]
      split
      · exact hs
      · exact hs.of_acts ((acts_freeLease e s).trans (acts_completeIf _ _ _ _))
    | directory kind c gen =>
      obtain ⟨⟨d, hd⟩, hq⟩ := hs.slot_of_job rfl rfl
      simp only [clearJob, hd]
      exact (hs.undo hd hq).of_acts (acts_complete _ _ _ _)

theorem clearJobs_queue (s : State) : (Machine.clearJobs s).queue = s.queue.take 1 := by
  have hfold : ∀ (js : List Job) (u : State), (js.foldl clearJob u).queue = u.queue := by
    intro js
    induction js with
    | nil => exact fun u => rfl
    | cons j js ih => exact fun u => (ih _).trans (clearJob_queue u j)
  exact hfold _ _

theorem clearJobs_runs {s : State} (hs : RunsDisjoint s) : RunsDisjoint (Machine.clearJobs s) := by
  have hcount : RunsFor (s.queue.take 1 ++ s.unstarted) s :=
    (runsFor_queue.2 hs).of_count (by rw [State.unstarted, List.take_append_drop])
  refine runsFor_queue.1 ?_
  rw [clearJobs_queue]
  exact RunsFor.clearJobs (s := { s with queue := s.queue.take 1 }) hcount

theorem takeFactoryClear_runs {s : State} (hs : RunsDisjoint s) (tk : Ticket) : RunsDisjoint (takeFactoryClear tk s) := by
  rw [takeFactoryClear]
  refine runsDisjoint_reportDrained ?_
  have hstart : RunsDisjoint { s with dev := .clearing, clear := some ⟨tk, .draining⟩ } :=
    runsDisjoint_of_same hs (fun _ => rfl) rfl rfl rfl nofun nofun (fun c hc hp => by cases hc; cases hp)
  refine clearJobs_runs ?_
  exact runsDisjoint_of_acts (runsDisjoint_of_acts hstart (acts_clearAllWaiters _)) (.foldl acts_revokeEntry allEntries _)

theorem kindServed_of_admission {s : State} {p : Port} {r : Req} (h : admission s p r = none) :
    KindServed s.dev r.kind := by
  rw [← kindAllowed_iff]
  by_contra hk
  rw [admission_notReady (Bool.eq_false_iff.2 hk)] at h
  cases h

/-- The requests that take or remove a directory job. -/
theorem exec_request_runs {c : Instr} {s t : State} (hc : isRequest c = true) (ho : isOrdinary c = false)
    (hs : RunsDisjoint s) (h : exec c s = .next t) : RunsDisjoint t := by
  rcases exec_request_outcome hc h with rfl | ⟨p, tk, r, rfl, hreq, ⟨code, rfl⟩ | ⟨ha, rfl⟩⟩
  · exact hs
  · exact runsDisjoint_of_acts hs ((acts_handOver p s).trans (acts_complete _ _ _ _))
  · have hs' : RunsDisjoint (handOver p s) := runsDisjoint_of_acts hs (acts_handOver p s)
    have hready : r.kind ≠ .deviceInfo → r.kind ≠ .setAttention → r.kind ≠ .portReset → r.kind ≠ .factoryClear →
        (handOver p s).dev = .ready := fun h1 h2 h3 h4 => by
      rcases kindServed_of_admission ha with h | h | h | h | ⟨-, h⟩
      exacts [h, absurd h h1, absurd h h2, absurd h h3, absurd h h4]
    cases r with
    | define f => exact takeDefine_runs hs' (hready nofun nofun nofun nofun) tk f
    | retire b => exact takeRetire_runs hs' (hready nofun nofun nofun nofun) tk _
    | setRights b r => exact takeSetRights_runs hs' (hready nofun nofun nofun nofun) tk _ _
    | freeze b => exact takeFreeze_runs hs' (hready nofun nofun nofun nofun) tk _
    | portReset => exact takePortReset_runs hs' tk
    | factoryClear => exact takeFactoryClear_runs hs' tk
    | read b t o n => simp only [commandOf] at ho; split at ho <;> cases ho
    | add b t d => simp only [commandOf] at ho; split at ho <;> cases ho
    | _ => cases ho

theorem exec_runsDisjoint {c : Instr} {s t : State} (hs : RunsDisjoint s) (h : exec c s = .next t) : RunsDisjoint t := by
  by_cases ho : isOrdinary c = true
  · obtain ⟨u, hu, ha⟩ := exec_acts ho s
    obtain rfl : t = u := by rw [hu] at h; cases h; rfl
    exact runsDisjoint_of_acts hs ha
  have ho := Bool.eq_false_iff.2 ho
  by_cases hreset : isDeviceReset c = true
  · exact exec_deviceReset_runs hreset h
  by_cases hreq : isRequest c = true
  · exact exec_request_runs hreq ho hs h
  cases c with
  | scanEnd => exact exec_scanEnd_runs hs h
  | bulkEraseEnd => exact exec_bulkEraseEnd_runs hs h
  | pageMatch => exact exec_pageMatch_runs hs h
  | pageMismatch => exact exec_pageMismatch_runs hs h
  | eraseEnd => exact exec_eraseEnd_runs hs h
  | powerUp | powerLoss | resetnAssert | resetnRelease => exact absurd rfl hreset
  | define | retire | setRights | freeze | portReset | factoryClear => exact absurd rfl hreq
  | _ => cases ho

/-- Settles O59: an invariant of every command, by what it does to the runs, the page map and the directory jobs. -/
theorem everyStepKeepsRunsDisjoint : Obligations.EveryStepKeepsRunsDisjoint := by
  unfold Obligations.EveryStepKeepsRunsDisjoint
  intro s t hs h
  refine step_induction (P := RunsDisjoint) (fun s l hs => ?_) (fun s hs => runsDisjoint_of_acts hs (acts_tick s))
    (fun c s t hexec hs => exec_runsDisjoint hs hexec) hs h
  exact runsDisjoint_of_same hs (fun _ => rfl) rfl rfl rfl hs.starting hs.ready hs.erasing

end Sys2Proof.Machine

/-! PROOF. The lease table and the queues stay consistent (03, R48, R51): what the invariant looks at, the reservation of
a freed entry while it is granted onward, and every command. -/

namespace Sys2Proof.Machine

open Sys2Proof.Safety
set_option deprecated.oldSectionVars true

/-! ### What the invariant looks at -/

/-- The part of a lease entry that the invariant looks at. -/
def leaseView (s : State) (e : EntryNo) : Option (Handle × LeasePhase) := (s.lease e).lease.map fun l => (l.handle, l.phase)

/-- What the invariant looks at of a record but for its waiters. -/
def recordFlags (s : State) (h : Handle) : Bool × Bool × Bool :=
  ((s.record h).entry.isSome, (s.record h).freezePending, (s.record h).retirePending)

/-- What the invariant looks at but for the waiters and the allocation queue. -/
def leaseFrame (s : State) :
    (EntryNo → Option (Handle × LeasePhase)) × (Handle → Bool × Bool × Bool) × Option DirJob × List Job × Option ClearSlot
      × DevState :=
  (leaseView s, recordFlags s, s.dirSlot, s.queue, s.clear, s.dev)

/-- All that the invariant looks at. -/
def leaseTables (s : State) :=
  (leaseFrame s, s.allocQueue, fun h => (s.record h).waiters.isEmpty)

theorem leasedHandle_eq_view (s : State) (e : EntryNo) : leasedHandle s e = (leaseView s e).map Prod.fst := by
  rw [leasedHandle, leaseView, Option.map_map]
  rfl

theorem leaseView_none {s : State} {e : EntryNo} : leaseView s e = none ↔ (s.lease e).lease = none := by
  rw [leaseView, Option.map_eq_none_iff]

theorem leaseView_of {s : State} {e : EntryNo} {l : Lease} (hl : (s.lease e).lease = some l) :
    leaseView s e = some (l.handle, l.phase) := by
  rw [leaseView, hl]
  rfl

theorem leasedHandle_of {s : State} {e : EntryNo} {l : Lease} (hl : (s.lease e).lease = some l) :
    leasedHandle s e = some l.handle := by
  rw [leasedHandle, hl]
  rfl

/-- Waiters are withdrawn, or none: the allocation queue keeps the records that still have some. -/
theorem leasesConsistent_fewerWaiters {s t : State} (hs : LeasesConsistent s) (hframe : leaseFrame t = leaseFrame s)
    (hfewer : ∀ h, (s.record h).waiters = [] → (t.record h).waiters = []) (honce : t.allocQueue.Nodup)
    (hqueued : ∀ h, h ∈ t.allocQueue ↔ h ∈ s.allocQueue ∧ (t.record h).waiters ≠ []) : LeasesConsistent t := by
  simp only [leaseFrame, Prod.mk.injEq] at hframe
  obtain ⟨hview, hflags, hslot, hqueue, hclear, hdev⟩ := hframe
  have hflags : ∀ k, recordFlags t k = recordFlags s k := fun k => congrFun hflags k
  simp only [recordFlags, Prod.mk.injEq] at hflags
  have hleased : ∀ e, leasedHandle t e = leasedHandle s e := fun e => by
    rw [leasedHandle_eq_view, leasedHandle_eq_view, hview]
  have hunl : ∀ k, Unleased t k ↔ Unleased s k := fun k => forall_congr' fun e => by rw [hleased]
  have hnone : ∀ e, (t.lease e).lease = none ↔ (s.lease e).lease = none := fun e => by
    rw [← leaseView_none, ← leaseView_none, hview]
  have hphase : ∀ e l, (t.lease e).lease = some l → ∃ l', (s.lease e).lease = some l' ∧ l'.phase = l.phase := fun e l hl => by
    have hv := leaseView_of hl
    rw [hview, leaseView, Option.map_eq_some_iff] at hv
    obtain ⟨l', hl', heq⟩ := hv
    exact ⟨l', hl', congrArg Prod.snd heq⟩
  have hentry : ∀ k, (t.record k).entry = none ↔ (s.record k).entry = none := fun k => by
    rw [← Option.not_isSome_iff_eq_none, ← Option.not_isSome_iff_eq_none, (hflags k).1]
  have hfp : ∀ k, (t.record k).freezePending = (s.record k).freezePending := fun k => (hflags k).2.1
  have hrp : ∀ k, (t.record k).retirePending = (s.record k).retirePending := fun k => (hflags k).2.2
  exact {
    unique := fun k e e' h1 h2 => hs.unique k e e' (hleased e ▸ h1) (hleased e' ▸ h2)
    once := honce
    queued := fun k => by
      rw [hqueued, hs.queued, hunl, hfp]
      exact ⟨fun ⟨⟨h1, _, h3⟩, h4⟩ => ⟨h1, h4, h3⟩, fun ⟨h1, h4, h3⟩ => ⟨⟨h1, fun h => h4 (hfewer k h), h3⟩, h4⟩⟩
    empty := fun e he => List.eq_nil_iff_forall_not_mem.2 fun k hk => by
      have hmem := ((hqueued k).1 hk).1
      rw [hs.empty e ((hnone e).1 he)] at hmem
      exact List.not_mem_nil hmem
    freezing := fun k hk => by rw [hunl, hslot]; exact hs.freezing k (hfp k ▸ hk)
    retiring := fun k hk => by
      obtain ⟨h1, h2, h3⟩ := hs.retiring k (hrp k ▸ hk)
      exact ⟨(hunl k).2 h1, hfewer k h2, hslot ▸ h3⟩
    freezeSlot := fun k tk hk => by rw [hfp]; exact hs.freezeSlot k tk (hslot ▸ hk)
    retireSlot := fun k tk hk => by rw [hrp]; exact hs.retireSlot k tk (hslot ▸ hk)
    undefined := fun k hk => by
      obtain ⟨h1, h2⟩ := hs.undefined k ((hentry k).1 hk)
      exact ⟨(hunl k).2 h1, hfewer k h2⟩
    fresh := fun k hk => by
      rw [State.definePending, hslot] at hk
      exact (hentry k).2 (hs.fresh k hk)
    committing := fun e l hl hp => by
      obtain ⟨l', hl', hp'⟩ := hphase e l hl
      rw [hqueue]
      exact hs.committing e l' hl' (hp'.trans hp)
    slot := by rw [SlotMatchesQueue, hqueue, hslot]; exact hs.slot
    clearing := fun hc => by
      rw [hclear] at hc
      obtain ⟨hd, hw, hl⟩ := hs.clearing hc
      refine ⟨hdev.trans hd, fun k => hfewer k (hw k), fun e l he => ?_⟩
      obtain ⟨l', hl', hp'⟩ := hphase e l he
      exact hp'.symm.trans (hl e l' hl')
    starting := fun hd => by
      obtain ⟨hl, hw, hq, hd⟩ := hs.starting (hdev.symm.trans hd)
      exact ⟨fun e => (hnone e).2 (hl e), fun k => hfewer k (hw k), hqueue.trans hq, hslot.trans hd⟩ }

/-- The invariant is about the tables alone. -/
theorem leasesConsistent_of_tables {s t : State} (h : leaseTables t = leaseTables s) (hs : LeasesConsistent s) :
    LeasesConsistent t := by
  simp only [leaseTables, Prod.mk.injEq] at h
  obtain ⟨hframe, halloc, hwaiters⟩ := h
  have hwait : ∀ k, (t.record k).waiters = [] ↔ (s.record k).waiters = [] := fun k => by
    rw [← List.isEmpty_iff, ← List.isEmpty_iff, congrFun hwaiters k]
  refine leasesConsistent_fewerWaiters hs hframe (fun k => (hwait k).2) (by rw [halloc]; exact hs.once) fun k => ?_
  rw [halloc, ne_eq, hwait]
  exact ⟨fun hk => ⟨hk, ((hs.queued k).1 hk).2.1⟩, fun hk => hk.1⟩

/-- A port's change is none of the tables. -/
theorem tables_ports (s : State) (x : PerPort PortState) : leaseTables { s with ports := x } = leaseTables s := rfl

theorem leasesConsistent_same {s t : State} (hs : LeasesConsistent s) (h : leaseTables t = leaseTables s) :
    LeasesConsistent t := leasesConsistent_of_tables h hs

theorem tables_complete (tk : Ticket) (code : Status) (body : List Byte) (s : State) :
    leaseTables (complete tk code body s) = leaseTables s := by
  rw [complete_frame]
  rfl

theorem tables_completeIf (tk : Option Ticket) (code : Status) (body : List Byte) (s : State) :
    leaseTables (completeIf tk code body s) = leaseTables s := by
  cases tk with
  | none => rfl
  | some tk => exact tables_complete tk code body s

theorem tables_answerAll (code : Status) (ws : List Waiter) (s : State) :
    leaseTables (answerAll code ws s) = leaseTables s := by
  rw [answerAll_frame]
  rfl

/-- A lease entry changed in what the invariant does not look at. -/
theorem tables_setLease {s : State} {e : EntryNo} {x : LeaseEntry}
    (h : (x.lease.map fun l => (l.handle, l.phase)) = leaseView s e) : leaseTables (s.setLease e x) = leaseTables s := by
  have hview : leaseView (s.setLease e x) = leaseView s := by
    funext i
    rw [leaseView, State.setLease_lease]
    split
    next heq => exact h.trans (congrArg (leaseView s) heq)
    next => rfl
  simp only [leaseTables, leaseFrame, hview]
  rfl

/-! ### One lease entry changed -/

/-- The part of the invariant's tables that a change of one lease entry leaves. -/
def flagFrame (s : State) : (Handle → Bool × Bool × Bool) × Option DirJob × Option ClearSlot × DevState :=
  (recordFlags s, s.dirSlot, s.clear, s.dev)

/-- One entry gets another lease or none, and the queues follow. -/
theorem leasesConsistent_change {s t : State} (hs : LeasesConsistent s) (e : EntryNo) (hframe : flagFrame t = flagFrame s)
    (hother : ∀ e', e' ≠ e → leaseView t e' = leaseView s e')
    (hcount : (t.queue.filter Job.isDirectory).length = (s.queue.filter Job.isDirectory).length)
    (hjobs : ∀ e', e' ≠ e → ∀ j ∈ s.queue, Job.isRecordOf e' j = true → j ∈ t.queue)
    (hnew : ∀ l, (t.lease e).lease = some l → (∀ e', e' ≠ e → leasedHandle s e' ≠ some l.handle)
      ∧ (s.record l.handle).entry ≠ none ∧ (s.record l.handle).freezePending = false
      ∧ (s.record l.handle).retirePending = false
      ∧ (l.phase = .committing → ∃ j ∈ t.queue, Job.isRecordOf e j = true))
    (hwait : ∀ k, (t.record k).waiters ≠ [] → (s.record k).waiters ≠ []
      ∨ (s.record k).entry ≠ none ∧ (s.record k).retirePending = false)
    (honce : t.allocQueue.Nodup)
    (hqueued : ∀ k, k ∈ t.allocQueue ↔ Unleased t k ∧ (t.record k).waiters ≠ [] ∧ (s.record k).freezePending = false)
    (hempty : ∀ e', (t.lease e').lease = none → t.allocQueue = [])
    (hclearing : s.clear ≠ none → (∀ k, (t.record k).waiters = []) ∧ ∀ l, (t.lease e).lease = some l → l.phase = .committing)
    (hstarting : s.dev = .starting → (t.lease e).lease = none ∧ (∀ k, (t.record k).waiters = []) ∧ t.queue = []) :
    LeasesConsistent t := by
  simp only [flagFrame, Prod.mk.injEq] at hframe
  obtain ⟨hflags, hslot, hclear, hdev⟩ := hframe
  have hflags : ∀ k, recordFlags t k = recordFlags s k := fun k => congrFun hflags k
  simp only [recordFlags, Prod.mk.injEq] at hflags
  have hentry : ∀ k, (t.record k).entry = none ↔ (s.record k).entry = none := fun k => by
    rw [← Option.not_isSome_iff_eq_none, ← Option.not_isSome_iff_eq_none, (hflags k).1]
  have hfp : ∀ k, (t.record k).freezePending = (s.record k).freezePending := fun k => (hflags k).2.1
  have hrp : ∀ k, (t.record k).retirePending = (s.record k).retirePending := fun k => (hflags k).2.2
  have hleased : ∀ e', e' ≠ e → leasedHandle t e' = leasedHandle s e' := fun e' he => by
    rw [leasedHandle_eq_view, leasedHandle_eq_view, hother e' he]
  have hsame : ∀ e', e' ≠ e → ∀ l, (t.lease e').lease = some l →
      ∃ l', (s.lease e').lease = some l' ∧ l'.phase = l.phase := fun e' he l hl => by
    have hv := leaseView_of hl
    rw [hother e' he, leaseView, Option.map_eq_some_iff] at hv
    obtain ⟨l', hl', heq⟩ := hv
    exact ⟨l', hl', congrArg Prod.snd heq⟩
  have hnone : ∀ e', e' ≠ e → ((t.lease e').lease = none ↔ (s.lease e').lease = none) := fun e' he => by
    rw [← leaseView_none, ← leaseView_none, hother e' he]
  have hnewHandle : ∀ k, leasedHandle t e = some k → ∃ l, (t.lease e).lease = some l ∧ l.handle = k := fun k hk =>
    Option.map_eq_some_iff.1 hk
  -- A record that the change does not lease is leased after it only when it was before.
  have hstill : ∀ k, Unleased s k → ((s.record k).entry = none ∨ (s.record k).freezePending = true
      ∨ (s.record k).retirePending = true) → Unleased t k := fun k hu hk e' => by
    by_cases he : e' = e
    · subst he
      intro hk'
      obtain ⟨l, hl, rfl⟩ := hnewHandle k hk'
      obtain ⟨-, h1, h2, h3, -⟩ := hnew l hl
      rcases hk with h | h | h
      · exact h1 h
      · exact absurd (h2.symm.trans h) nofun
      · exact absurd (h3.symm.trans h) nofun
    · rw [hleased e' he]
      exact hu e'
  have hnowait : ∀ k, (s.record k).waiters = [] → ((s.record k).entry = none ∨ (s.record k).retirePending = true) →
      (t.record k).waiters = [] := fun k hw hk => by
    by_contra hne
    rcases hwait k hne with h | ⟨h1, h2⟩
    · exact h hw
    · exact hk.elim h1 fun h => absurd (h2.symm.trans h) nofun
  exact {
    unique := fun k e1 e2 h1 h2 => by
      by_cases he1 : e1 = e <;> by_cases he2 : e2 = e
      · rw [he1, he2]
      · rw [he1] at h1
        obtain ⟨l, hl, rfl⟩ := hnewHandle k h1
        exact absurd (hleased e2 he2 ▸ h2) ((hnew l hl).1 e2 he2)
      · rw [he2] at h2
        obtain ⟨l, hl, rfl⟩ := hnewHandle k h2
        exact absurd (hleased e1 he1 ▸ h1) ((hnew l hl).1 e1 he1)
      · exact hs.unique k e1 e2 (hleased e1 he1 ▸ h1) (hleased e2 he2 ▸ h2)
    once := honce
    queued := fun k => by rw [hqueued, hfp]
    empty := hempty
    freezing := fun k hk => by
      rw [hfp] at hk
      obtain ⟨hu, hd⟩ := hs.freezing k hk
      exact ⟨hstill k hu (.inr (.inl hk)), hslot ▸ hd⟩
    retiring := fun k hk => by
      rw [hrp] at hk
      obtain ⟨hu, hw, hd⟩ := hs.retiring k hk
      exact ⟨hstill k hu (.inr (.inr hk)), hnowait k hw (.inr hk), hslot ▸ hd⟩
    freezeSlot := fun k tk hk => by rw [hfp]; exact hs.freezeSlot k tk (hslot ▸ hk)
    retireSlot := fun k tk hk => by rw [hrp]; exact hs.retireSlot k tk (hslot ▸ hk)
    undefined := fun k hk => by
      rw [hentry] at hk
      obtain ⟨hu, hw⟩ := hs.undefined k hk
      exact ⟨hstill k hu (.inl hk), hnowait k hw (.inl hk)⟩
    fresh := fun k hk => by
      rw [State.definePending, hslot] at hk
      exact (hentry k).2 (hs.fresh k hk)
    committing := fun e' l hl hp => by
      by_cases he : e' = e
      · subst he
        exact (hnew l hl).2.2.2.2 hp
      · obtain ⟨l', hl', hp'⟩ := hsame e' he l hl
        obtain ⟨j, hj, hrec⟩ := hs.committing e' l' hl' (hp'.trans hp)
        exact ⟨j, hjobs e' he j hj hrec, hrec⟩
    slot := by rw [SlotMatchesQueue, hcount, hslot]; exact hs.slot
    clearing := fun hc => by
      rw [hclear] at hc
      obtain ⟨hd, -, hl⟩ := hs.clearing hc
      obtain ⟨hw, hp⟩ := hclearing hc
      refine ⟨hdev.trans hd, hw, fun e' l he' => ?_⟩
      by_cases he : e' = e
      · subst he
        exact hp l he'
      · obtain ⟨l', hl', hp'⟩ := hsame e' he l he'
        exact hp'.symm.trans (hl e' l' hl')
    starting := fun hd => by
      rw [hdev] at hd
      obtain ⟨hl, -, -, hds⟩ := hs.starting hd
      obtain ⟨hnone', hw, hq⟩ := hstarting hd
      refine ⟨fun e' => ?_, hw, hq, hslot.trans hds⟩
      by_cases he : e' = e
      · rw [he]
        exact hnone'
      · exact (hnone e' he).2 (hl e') }

/-! ### A freed entry that is being granted onward -/

/-- The lease that stands for a freed entry until it is granted onward: the record still counts as leased. -/
def reservation (h : Handle) : Lease where
  phase := .held
  handle := h
  holder := .p0
  form := .explicit
  timer := none
  renewals := 0
  modified := false
  answer := none
  grantRights := ⟨false, false, false⟩

/-- The state with the lease of a freed entry put back. -/
def putBack (s : State) (e : EntryNo) (h : Handle) : State := s.setLease e { s.lease e with lease := some (reservation h) }

/-- Entry `e` has been freed from record `h` and is not yet granted onward: the invariant holds with its lease put back. -/
abbrev Reserved (s : State) (e : EntryNo) (h : Handle) : Prop :=
  (s.lease e).lease = none ∧ LeasesConsistent (putBack s e h)

theorem putBack_lease_same (s : State) (e : EntryNo) (h : Handle) :
    ((putBack s e h).lease e).lease = some (reservation h) := by
  rw [putBack, State.setLease_lease_same]

theorem putBack_lease_ne (s : State) {e e' : EntryNo} (h : Handle) (he : e' ≠ e) :
    (putBack s e h).lease e' = s.lease e' := by
  rw [putBack, State.setLease_lease, if_neg (Ne.symm he)]

theorem leasedHandle_putBack_ne (s : State) {e e' : EntryNo} (h : Handle) (he : e' ≠ e) :
    leasedHandle (putBack s e h) e' = leasedHandle s e' := by
  rw [leasedHandle, leasedHandle, putBack_lease_ne s h he]

theorem leasedHandle_putBack_same (s : State) (e : EntryNo) (h : Handle) : leasedHandle (putBack s e h) e = some h := by
  rw [leasedHandle, putBack_lease_same]
  rfl

namespace Reserved

variable {s t : State} {e : EntryNo} {h k : Handle}

theorem free (hs : Reserved s e h) : (s.lease e).lease = none := hs.1
theorem consistent (hs : Reserved s e h) : LeasesConsistent (putBack s e h) := hs.2

/-- The entry's record is leased by no other entry. -/
theorem only (hs : Reserved s e h) (e' : EntryNo) (he : e' ≠ e) : leasedHandle s e' ≠ some h := fun hl =>
  he (hs.consistent.unique h e' e ((leasedHandle_putBack_ne s h he).trans hl) (leasedHandle_putBack_same s e h))

theorem not_unleased (s : State) (e : EntryNo) (h : Handle) : ¬ Unleased (putBack s e h) h := fun hu =>
  hu e (leasedHandle_putBack_same s e h)

theorem not_queued (hs : Reserved s e h) : h ∉ s.allocQueue := fun hq =>
  not_unleased s e h ((hs.consistent.queued h).1 hq).1

theorem defined (hs : Reserved s e h) : (s.record h).entry ≠ none := fun hn =>
  not_unleased s e h (hs.consistent.undefined h hn).1

theorem freezePending (hs : Reserved s e h) : (s.record h).freezePending = false :=
  Bool.eq_false_iff.2 fun hf => not_unleased s e h (hs.consistent.freezing h hf).1

theorem retirePending (hs : Reserved s e h) : (s.record h).retirePending = false :=
  Bool.eq_false_iff.2 fun hf => not_unleased s e h (hs.consistent.retiring h hf).1

theorem clear (hs : Reserved s e h) : s.clear = none := by
  by_contra hc
  exact absurd ((hs.consistent.clearing hc).2.2 e _ (putBack_lease_same s e h)) nofun

theorem running (hs : Reserved s e h) : s.dev ≠ .starting := fun hd =>
  absurd ((hs.consistent.starting hd).1 e) (by rw [putBack_lease_same]; nofun)

/-- What is not of the tables may change. -/
theorem of_tables (hs : Reserved s e h) (ht : leaseTables t = leaseTables s) : Reserved t e h := by
  have hview : leaseView t e = leaseView s e := by
    simp only [leaseTables, leaseFrame, Prod.mk.injEq] at ht
    exact congrFun ht.1.1 e
  refine ⟨leaseView_none.1 (hview.trans (leaseView_none.2 hs.free)), leasesConsistent_of_tables ?_ hs.consistent⟩
  simp only [leaseTables, leaseFrame, Prod.mk.injEq] at ht ⊢
  obtain ⟨⟨hv, hf, hd, hq, hc, hdev⟩, ha, hw⟩ := ht
  refine ⟨⟨funext fun e' => ?_, hf, hd, hq, hc, hdev⟩, ha, hw⟩
  by_cases he : e' = e
  · rw [he, leaseView, leaseView, putBack_lease_same, putBack_lease_same]
  · rw [leaseView, leaseView, putBack_lease_ne t h he, putBack_lease_ne s h he]
    exact congrFun hv e'

end Reserved

/-- Entry `e`, reserved for record `h`, is leased on record `k`, or left FREE; the queues follow. -/
theorem leasesConsistent_of_reserved {s t : State} {e : EntryNo} {h : Handle} (hs : Reserved s e h)
    (hframe : flagFrame t = flagFrame s) (hother : ∀ e', e' ≠ e → leaseView t e' = leaseView s e')
    (hqueue : ∃ js, t.queue = s.queue ++ js ∧ js.filter Job.isDirectory = [])
    (hnew : ∀ l, (t.lease e).lease = some l → (∀ e', e' ≠ e → leasedHandle s e' ≠ some l.handle)
      ∧ (s.record l.handle).entry ≠ none ∧ (s.record l.handle).freezePending = false
      ∧ (s.record l.handle).retirePending = false
      ∧ (l.phase = .committing → ∃ j ∈ t.queue, Job.isRecordOf e j = true))
    (hwait : ∀ k, (t.record k).waiters ≠ [] → (s.record k).waiters ≠ [])
    (honce : t.allocQueue.Nodup)
    (hqueued : ∀ k, k ∈ t.allocQueue ↔ Unleased t k ∧ (t.record k).waiters ≠ [] ∧ (s.record k).freezePending = false)
    (hempty : ∀ e', (t.lease e').lease = none → t.allocQueue = []) : LeasesConsistent t := by
  obtain ⟨js, hq, hjs⟩ := hqueue
  refine leasesConsistent_change hs.consistent e hframe (fun e' he => ?_) ?_ (fun e' _ j hj _ => ?_) (fun l hl => ?_)
    (fun k hk => .inl (hwait k hk)) honce hqueued hempty (fun hc => absurd hs.clear hc) (fun hd => absurd hd hs.running)
  · rw [hother e' he, leaseView, leaseView, putBack_lease_ne s h he]
  · show _ = (s.queue.filter Job.isDirectory).length
    rw [hq, List.filter_append, hjs, List.append_nil]
  · rw [hq]
    exact List.mem_append_left js hj
  · obtain ⟨h1, h2⟩ := hnew l hl
    refine ⟨fun e' he => ?_, h2⟩
    rw [leasedHandle_putBack_ne s h he]
    exact h1 e' he

/-! ### Grants to waiters -/

theorem unleased_congr {s t : State} (h : ∀ e, leasedHandle t e = leasedHandle s e) (k : Handle) :
    Unleased t k ↔ Unleased s k := forall_congr' fun e => by rw [h]

theorem recordFlags_setWaiters (s : State) (h : Handle) (ws : List Waiter) :
    recordFlags (s.setWaiters h ws) = recordFlags s := by
  funext k
  rw [recordFlags, recordFlags, State.setWaiters, State.setRecord_record]
  split
  next heq => rw [heq]
  next => rfl

theorem setWaiters_waiters (s : State) (h k : Handle) (ws : List Waiter) :
    ((s.setWaiters h ws).record k).waiters = if k = h then ws else (s.record k).waiters := by
  rw [State.setWaiters, State.setRecord_record]
  split
  next heq => rw [if_pos heq.symm]
  next hne => rw [if_neg (Ne.symm hne)]

theorem refused_waiters (s : State) (h k : Handle) (ws rest : List Waiter) :
    ((Safety.refused s h ws rest).record k).waiters = if k = h then rest else (s.record k).waiters := by
  rw [Safety.refused, answeredAll_record, setWaiters_waiters]

theorem refused_frame (s : State) (h : Handle) (ws rest : List Waiter) :
    leaseFrame (Safety.refused s h ws rest) = leaseFrame s ∧ (Safety.refused s h ws rest).allocQueue = s.allocQueue := by
  rw [Safety.refused, answeredAll_frame]
  refine ⟨?_, rfl⟩
  show (leaseView s, recordFlags (s.setWaiters h rest), s.dirSlot, s.queue, s.clear, s.dev) = leaseFrame s
  rw [recordFlags_setWaiters]
  rfl

theorem refused_tables_alloc (s : State) (h : Handle) (ws rest : List Waiter) (q : List Handle) :
    leaseTables { Safety.refused s h ws rest with allocQueue := q }
      = leaseTables (Safety.refused { s with allocQueue := q } h ws rest) := by
  have hright := refused_frame { s with allocQueue := q } h ws rest
  rw [leaseTables, leaseTables, hright.1, hright.2]
  refine Prod.ext (refused_frame s h ws rest).1 (Prod.ext rfl (funext fun j => ?_))
  exact congrArg List.isEmpty ((refused_waiters s h j ws rest).trans
    (refused_waiters { s with allocQueue := q } h j ws rest).symm)

theorem emptied_frame (s : State) (hs : List Handle) :
    leaseFrame (emptied s hs) = leaseFrame s ∧ (emptied s hs).allocQueue = s.allocQueue := by
  induction hs generalizing s with
  | nil => exact ⟨rfl, rfl⟩
  | cons h hs ih =>
    rw [emptied_cons]
    obtain ⟨h1, h2⟩ := ih (Safety.refused s h (s.record h).waiters [])
    obtain ⟨h3, h4⟩ := refused_frame s h (s.record h).waiters []
    exact ⟨h1.trans h3, h2.trans h4⟩

theorem emptied_waiters (s : State) (hs : List Handle) (k : Handle) :
    ((emptied s hs).record k).waiters = if k ∈ hs then [] else (s.record k).waiters := by
  induction hs generalizing s with
  | nil => rw [if_neg List.not_mem_nil]; rfl
  | cons h hs ih =>
    rw [emptied_cons, ih, refused_waiters]
    by_cases hk : k ∈ hs
    · rw [if_pos hk, if_pos (List.mem_cons_of_mem h hk)]
    · rw [if_neg hk]
      by_cases hkh : k = h
      · rw [if_pos hkh, if_pos (hkh ▸ List.mem_cons_self)]
      · rw [if_neg hkh, if_neg fun hm => (List.mem_cons.1 hm).elim hkh hk]

/-- What a grant does to the tables: the entry is leased on the record, and an implicit grant queues its record job. -/
theorem grantedTo_tables (s : State) (e : EntryNo) (h : Handle) (x : RecEntry) (w : Waiter) :
    flagFrame (grantedTo s e h x w) = flagFrame s ∧ (grantedTo s e h x w).allocQueue = s.allocQueue
      ∧ (∀ e', e' ≠ e → leaseView (grantedTo s e h x w) e' = leaseView s e')
      ∧ ∃ l js, ((grantedTo s e h x w).lease e).lease = some l ∧ l.handle = h
        ∧ (grantedTo s e h x w).queue = s.queue ++ js ∧ js.filter Job.isDirectory = []
        ∧ (l.phase = .committing → ∃ j ∈ js, Job.isRecordOf e j = true) := by
  obtain ⟨tk, type⟩ := w
  cases type with
  | acquire left =>
    simp only [grantedTo]
    rw [answeredIf_frame]
    refine ⟨rfl, rfl, fun e' he => ?_, ?_⟩
    · show Option.map _ ((s.setLease e _).lease e').lease = _
      rw [State.setLease_lease, if_neg (Ne.symm he)]
      rfl
    · have hl := congrArg LeaseEntry.lease (State.setLease_lease_same s e ⟨(s.lease e).issue + 1#8,
        some (Lease.mk .held h tk.port .explicit (some x.holdLimit.toNat) 0 false none (x.rights.get tk.port))⟩)
      exact ⟨_, [], hl, rfl, (List.append_nil s.queue).symm, rfl, nofun⟩
  | add delta =>
    simp only [grantedTo]
    refine ⟨rfl, rfl, fun e' he => ?_, ?_⟩
    · show Option.map _ ((s.setLease e _).lease e').lease = _
      rw [State.setLease_lease, if_neg (Ne.symm he)]
      rfl
    · have hl := congrArg LeaseEntry.lease (State.setLease_lease_same s e ⟨(s.lease e).issue + 1#8,
        some (Lease.mk .committing h tk.port .implicit none 0 true (some tk) (x.rights.get tk.port))⟩)
      exact ⟨_, _, hl, rfl, rfl, rfl, fun _ => ⟨_, List.mem_singleton_self _, beq_self_eq_true e⟩⟩

theorem unleased_putBack_ne {s : State} {e : EntryNo} {h j : Handle} (hj : j ≠ h) (hu : Unleased s j) :
    Unleased (putBack s e h) j := fun e' hl => by
  by_cases he : e' = e
  · rw [he, leasedHandle_putBack_same] at hl
    exact hj (Option.some.inj hl).symm
  · exact hu e' ((leasedHandle_putBack_ne s h he).symm.trans hl)

theorem unleased_of_putBack {s : State} {e : EntryNo} {h j : Handle} (hfree : (s.lease e).lease = none)
    (hu : Unleased (putBack s e h) j) : Unleased s j := fun e' hl => by
  by_cases he : e' = e
  · rw [he, leasedHandle, hfree] at hl
    cases hl
  · exact hu e' ((leasedHandle_putBack_ne s h he).trans hl)

namespace Reserved

variable {s : State} {e : EntryNo} {h k : Handle}

/-- The entry is granted: the lease on its record is a real one again. -/
theorem granted {q : List Handle} (hs : Reserved { s with allocQueue := q } e k) (x : RecEntry) (w : Waiter) :
    LeasesConsistent { grantedTo s e k x w with allocQueue := q } := by
  obtain ⟨hframe, -, hother, l, js, hl, hk, hq, hjs, hjob⟩ := grantedTo_tables s e k x w
  have hleased : ∀ e', leasedHandle { grantedTo s e k x w with allocQueue := q } e'
      = leasedHandle (putBack { s with allocQueue := q } e k) e' := fun e' => by
    by_cases he : e' = e
    · rw [he, leasedHandle_putBack_same]
      exact (leasedHandle_of hl).trans (congrArg some hk)
    · rw [leasedHandle_putBack_ne _ _ he]
      show leasedHandle (grantedTo s e k x w) e' = leasedHandle s e'
      rw [leasedHandle_eq_view, leasedHandle_eq_view, hother e' he]
  refine leasesConsistent_of_reserved hs hframe hother ⟨js, hq, hjs⟩ (fun l' hl' => ?_) (fun j => ?_)
    hs.consistent.once (fun j => ?_) (fun e' hfree => ?_)
  · obtain rfl : l' = l := Option.some.inj (hl'.symm.trans hl)
    rw [hk]
    refine ⟨hs.only, hs.defined, hs.freezePending, hs.retirePending, fun hp => ?_⟩
    obtain ⟨j, hj, hrec⟩ := hjob hp
    refine ⟨j, ?_, hrec⟩
    show j ∈ (grantedTo s e k x w).queue
    rw [hq]
    exact List.mem_append_right _ hj
  · show ((grantedTo s e k x w).record j).waiters ≠ [] → _
    rw [grantedTo_record]
    exact id
  · rw [unleased_congr hleased]
    show j ∈ q ↔ _ ∧ ((grantedTo s e k x w).record j).waiters ≠ [] ∧ _
    rw [grantedTo_record]
    exact hs.consistent.queued j
  · have he : e' ≠ e := by
      rintro rfl
      exact absurd (hl.symm.trans hfree) nofun
    refine hs.consistent.empty e' ?_
    rw [putBack_lease_ne _ _ he]
    exact leaseView_none.1 ((hother e' he).symm.trans (leaseView_none.2 hfree))

theorem granted_self (hs : Reserved s e k) (x : RecEntry) (w : Waiter) : LeasesConsistent (grantedTo s e k x w) := by
  have hg := Reserved.granted (s := s) (q := s.allocQueue) hs x w
  rw [← (grantedTo_tables s e k x w).2.1] at hg
  exact hg

/-- The wait queue of the record itself may change: it is not in the allocation queue. -/
theorem wait (hs : Reserved s e h) (ws : List Waiter) : Reserved (s.setWaiters h ws) e h := by
  have hwait : ∀ j, ((putBack (s.setWaiters h ws) e h).record j).waiters = if j = h then ws else (s.record j).waiters :=
    fun j => setWaiters_waiters s h j ws
  have hview : leaseView (putBack (s.setWaiters h ws) e h) = leaseView (putBack s e h) := rfl
  refine ⟨hs.free, leasesConsistent_change hs.consistent e ?_ (fun _ _ => congrFun hview _) rfl (fun _ _ _ hj _ => hj)
    (fun l hl => ?_) (fun k hk => ?_) hs.consistent.once (fun k => ?_) hs.consistent.empty
    (fun hc => absurd hs.clear hc) (fun hd => absurd hd hs.running)⟩
  · show (recordFlags (s.setWaiters h ws), s.dirSlot, s.clear, s.dev) = flagFrame s
    rw [recordFlags_setWaiters]
    rfl
  · obtain rfl : reservation h = l := Option.some.inj ((putBack_lease_same _ e h).symm.trans hl)
    refine ⟨fun e' he => ?_, hs.defined, hs.freezePending, hs.retirePending, nofun⟩
    rw [leasedHandle_putBack_ne _ _ he]
    exact hs.only e' he
  · rw [hwait] at hk
    split at hk
    next heq =>
      rw [heq]
      exact .inr ⟨hs.defined, hs.retirePending⟩
    next => exact .inl hk
  · rw [hwait]
    show k ∈ s.allocQueue ↔ Unleased (putBack s e h) k ∧ _
    split
    next heq =>
      subst heq
      exact iff_of_false hs.not_queued fun hk => not_unleased s e k hk.1
    next => exact hs.consistent.queued k

/-- The waiters ahead in the queue of the record itself are refused. -/
theorem refuse (hs : Reserved s e h) (before after : List Waiter) : Reserved (Safety.refused s h before after) e h := by
  refine (hs.wait after).of_tables ?_
  rw [Safety.refused, answeredAll_frame]
  rfl

/-- The records at the head of the allocation queue, all of whose waiters are refused, leave it. -/
theorem empty {spents rest : List Handle} (hs : Reserved s e h) (hq : s.allocQueue = spents ++ rest) :
    Reserved { emptied s spents with allocQueue := rest } e h := by
  obtain ⟨hframe, -⟩ := emptied_frame s spents
  simp only [leaseFrame, Prod.mk.injEq] at hframe
  obtain ⟨hview, hrest⟩ := hframe
  refine ⟨leaseView_none.1 ((congrFun hview e).trans (leaseView_none.2 hs.free)), ?_⟩
  have hwait : ∀ j, ((putBack { emptied s spents with allocQueue := rest } e h).record j).waiters
      = if j ∈ spents then [] else (s.record j).waiters := fun j => emptied_waiters s spents j
  have hnodup : (spents ++ rest).Nodup := hq ▸ hs.consistent.once
  refine leasesConsistent_fewerWaiters hs.consistent ?_ (fun j hj => ?_) (List.Nodup.of_append_right hnodup) (fun j => ?_)
  · simp only [leaseFrame, Prod.mk.injEq]
    refine ⟨funext fun e' => ?_, hrest⟩
    by_cases he : e' = e
    · rw [he, leaseView_of (putBack_lease_same _ e h), leaseView_of (putBack_lease_same _ e h)]
    · rw [leaseView, leaseView, putBack_lease_ne _ _ he, putBack_lease_ne _ _ he]
      exact congrFun hview e'
  · rw [hwait]
    split
    · rfl
    · exact hj
  · rw [hwait]
    show j ∈ rest ↔ j ∈ s.allocQueue ∧ _
    rw [hq]
    constructor
    · intro hj
      have hnot : j ∉ spents := fun hs => List.disjoint_of_nodup_append hnodup hs hj
      rw [if_neg hnot]
      have hmem : j ∈ (putBack s e h).allocQueue := by
        show j ∈ s.allocQueue
        rw [hq]
        exact List.mem_append_right _ hj
      exact ⟨List.mem_append_right _ hj, ((hs.consistent.queued j).1 hmem).2.1⟩
    · rintro ⟨hj, hne⟩
      by_cases hs : j ∈ spents
      · rw [if_pos hs] at hne
        exact absurd rfl hne
      · exact (List.mem_append.1 hj).resolve_left hs

/-- The entry passes to the record at the head of the allocation queue; its old record joins the tail when it has
waiters. -/
theorem pass {rest : List Handle} (hs : Reserved s e h) (hq : s.allocQueue = k :: rest) :
    Reserved { s with allocQueue := if (s.record h).waiters ≠ [] then rest ++ [h] else rest } e k := by
  have hqk : k ∈ (putBack s e h).allocQueue := by
    show k ∈ s.allocQueue
    rw [hq]
    exact List.mem_cons_self
  obtain ⟨hku, hkw, hkf⟩ := (hs.consistent.queued k).1 hqk
  have hnodup : (k :: rest).Nodup := hq ▸ hs.consistent.once
  have hhk : h ≠ k := fun heq => hs.not_queued (by rw [heq]; exact hqk)
  have hhrest : h ∉ rest := fun hm => hs.not_queued (by rw [hq]; exact List.mem_cons_of_mem k hm)
  refine ⟨hs.free, leasesConsistent_of_reserved hs rfl (fun e' he => ?_) ⟨[], (List.append_nil _).symm, rfl⟩
    (fun l hl => ?_) (fun _ => id) ?_ (fun j => ?_) (fun e' hfree => ?_)⟩
  · rw [leaseView, leaseView, putBack_lease_ne _ _ he]
    rfl
  · obtain rfl : reservation k = l := Option.some.inj ((putBack_lease_same _ e k).symm.trans hl)
    refine ⟨fun e' he hl' => ?_, fun hn => hkw (hs.consistent.undefined k hn).2, hkf,
      Bool.eq_false_iff.2 fun hr => hkw (hs.consistent.retiring k hr).2.1, nofun⟩
    exact hku e' ((leasedHandle_putBack_ne s h he).trans hl')
  · show (if _ then _ else _ : List Handle).Nodup
    split
    · exact List.nodup_append.2 ⟨(List.nodup_cons.1 hnodup).2, List.nodup_singleton h, fun a ha b hb => by
        rw [List.mem_singleton.1 hb]
        exact fun heq => hhrest (heq ▸ ha)⟩
    · exact (List.nodup_cons.1 hnodup).2
  · have hmem : j ∈ (if (s.record h).waiters ≠ [] then rest ++ [h] else rest)
        ↔ j ∈ rest ∨ j = h ∧ (s.record h).waiters ≠ [] := by
      split
      next hw => rw [List.mem_append, List.mem_singleton]; exact ⟨fun hj => hj.imp_right fun h => ⟨h, hw⟩, fun hj => hj.imp_right And.left⟩
      next hw => exact ⟨.inl, fun hj => hj.resolve_right fun hj => hw hj.2⟩
    refine hmem.trans ?_
    have hu : Unleased (putBack { s with allocQueue := if (s.record h).waiters ≠ [] then rest ++ [h] else rest } e k) j
        ↔ j ≠ k ∧ Unleased s j := by
      constructor
      · exact fun hu => ⟨fun heq => not_unleased _ e k (heq ▸ hu), unleased_of_putBack hs.free hu⟩
      · exact fun ⟨hjk, hu⟩ => unleased_putBack_ne hjk hu
    rw [hu]
    have hqueued : j ∈ s.allocQueue ↔ _ := hs.consistent.queued j
    rw [hq, List.mem_cons] at hqueued
    constructor
    · rintro (hj | ⟨rfl, hw⟩)
      · obtain ⟨h1, h2, h3⟩ := hqueued.1 (.inr hj)
        exact ⟨⟨fun heq => (List.nodup_cons.1 hnodup).1 (heq ▸ hj), unleased_of_putBack hs.free h1⟩, h2, h3⟩
      · refine ⟨⟨hhk, fun e' hl => ?_⟩, hw, hs.freezePending⟩
        by_cases he : e' = e
        · rw [he, leasedHandle, hs.free] at hl
          cases hl
        · exact hs.only e' he hl
    · rintro ⟨⟨hjk, hu⟩, hw, hf⟩
      by_cases hjh : j = h
      · exact .inr ⟨hjh, hjh ▸ hw⟩
      · exact .inl ((hqueued.2 ⟨unleased_putBack_ne hjh hu, hw, hf⟩).resolve_left hjk)
  · have he : e' ≠ e := by
      rintro rfl
      exact absurd ((putBack_lease_same _ e' k).symm.trans hfree) nofun
    have hnil : s.allocQueue = [] := hs.consistent.empty e' (by
      rw [putBack_lease_ne _ _ he] at hfree ⊢
      exact hfree)
    rw [hq] at hnil
    cases hnil

/-- Nothing waits for the entry: it stays FREE. -/
theorem left (hs : Reserved s e h) (hq : s.allocQueue = []) (hw : (s.record h).waiters = []) : LeasesConsistent s := by
  refine leasesConsistent_of_reserved hs rfl (fun _ _ => rfl) ⟨[], (List.append_nil _).symm, rfl⟩
    (fun l hl => absurd (hs.free.symm.trans hl) nofun) (fun _ => id) hs.consistent.once (fun j => ?_) (fun _ _ => hq)
  refine iff_of_false (hq ▸ List.not_mem_nil) fun ⟨hu, hj, hf⟩ => ?_
  have hjh : j ≠ h := fun heq => hj (heq ▸ hw)
  have hmem : j ∈ s.allocQueue := (hs.consistent.queued j).2 ⟨unleased_putBack_ne hjh hu, hj, hf⟩
  rw [hq] at hmem
  exact List.not_mem_nil hmem

end Reserved

/-! ### The freeing of an entry -/

/-- A list has a first element that fails a test, unless all pass it. -/
theorem exists_first_failing {α : Type} {p : α → Prop} {l : List α} (h : ¬ ∀ a ∈ l, p a) :
    ∃ before a after, l = before ++ a :: after ∧ (∀ b ∈ before, p b) ∧ ¬ p a := by
  induction l with
  | nil => exact absurd (fun a ha => absurd ha List.not_mem_nil) h
  | cons a l ih =>
    by_cases ha : p a
    · obtain ⟨before, b, after, rfl, hb, hn⟩ := ih fun hl => h fun c hc => (List.mem_cons.1 hc).elim (· ▸ ha) (hl c)
      exact ⟨a :: before, b, after, rfl, fun c hc => (List.mem_cons.1 hc).elim (· ▸ ha) (hb c), hn⟩
    · exact ⟨[], a, l, rfl, fun b hb => absurd hb List.not_mem_nil, ha⟩

/-- A reserved entry is granted onward (03, R56). -/
theorem Reserved.grantedOnward {s t : State} {e : EntryNo} {h : Handle} (hs : Reserved s e h)
    (ht : GrantedOnward s e h t) : LeasesConsistent t := by
  by_cases hall : ∀ j ∈ s.allocQueue, AllSpent s j
  · have hempty := hs.empty (List.append_nil s.allocQueue).symm
    by_cases hown : AllSpent s h
    · rw [(ht.none hs.not_queued hall).2 hs.freezePending hown]
      refine (hempty.refuse (s.record h).waiters []).left ?_ ?_
      · rw [(refused_frame _ h _ []).2]
      · rw [refused_waiters, if_pos rfl]
    · obtain ⟨before, w, after, hw, hb, hn⟩ := exists_first_failing hown
      obtain ⟨x, hx⟩ := Option.ne_none_iff_exists'.1 hs.defined
      rw [ht.own before w after x hs.not_queued hall hs.freezePending hw hb hn hx]
      exact (hempty.refuse before after).granted_self x w
  · obtain ⟨spents, k, rest, hq, hspent, hk⟩ := exists_first_failing hall
    obtain ⟨before, w, after, hw, hb, hn⟩ := exists_first_failing hk
    have hnodup : (spents ++ k :: rest).Nodup := hq ▸ hs.consistent.once
    have hks : k ∉ spents := fun hm => List.disjoint_of_nodup_append hnodup hm List.mem_cons_self
    have hhs : h ∉ spents := fun hm => hs.not_queued (by rw [hq]; exact List.mem_append_left _ hm)
    have hpass := (hs.empty hq).pass rfl
    obtain ⟨x, hx⟩ := Option.ne_none_iff_exists'.1 hpass.defined
    have hrecord : ∀ j, j ∉ spents → (emptied s spents).record j = s.record j := fun j hj => emptied_record s spents j hj
    have hx : Defined s k x := (congrArg RecState.entry (hrecord k hks)).symm.trans hx
    have halloc : (if (s.record h).waiters ≠ [] ∧ (s.record h).freezePending = false then rest ++ [h] else rest)
        = if ((emptied s spents).record h).waiters ≠ [] then rest ++ [h] else rest := by
      rw [hrecord h hhs, hs.freezePending]
      simp only [and_true]
    rw [ht.queued spents k rest before w after x hq hs.not_queued hks hspent hw hb hn hx, halloc]
    exact Reserved.granted (Reserved.of_tables (hpass.refuse before after)
      (refused_tables_alloc (emptied s spents) k before after _)) x w

theorem grantOnward_consistent {s : State} {e : EntryNo} {h : Handle} (hs : Reserved s e h) :
    LeasesConsistent (grantOnward e h s) := hs.grantedOnward (grantOnward_spec s e h)

/-- What the invariant says of a lease. -/
theorem lease_facts {s : State} {e : EntryNo} {l : Lease} (hs : LeasesConsistent s) (hl : (s.lease e).lease = some l) :
    (∀ e', e' ≠ e → leasedHandle s e' ≠ some l.handle) ∧ (s.record l.handle).entry ≠ none
      ∧ (s.record l.handle).freezePending = false ∧ (s.record l.handle).retirePending = false
      ∧ (l.phase = .committing → ∃ j ∈ s.queue, Job.isRecordOf e j = true) := by
  have hnu : ¬ Unleased s l.handle := fun hu => hu e (leasedHandle_of hl)
  exact ⟨fun e' he hl' => he (hs.unique l.handle e' e hl' (leasedHandle_of hl)), fun hn => hnu (hs.undefined _ hn).1,
    Bool.eq_false_iff.2 fun hf => hnu (hs.freezing _ hf).1, Bool.eq_false_iff.2 fun hr => hnu (hs.retiring _ hr).1,
    hs.committing e l hl⟩

/-- A lease is ended: the entry is free, and reserved for its record until it is granted onward. -/
theorem reserved_of_freed {s t : State} {e : EntryNo} {l : Lease} (hs : LeasesConsistent s)
    (hl : (s.lease e).lease = some l) (hclear : s.clear = none) (hframe : flagFrame t = flagFrame s)
    (hfree : (t.lease e).lease = none) (hother : ∀ e', e' ≠ e → leaseView t e' = leaseView s e')
    (halloc : t.allocQueue = s.allocQueue) (hwait : ∀ k, (t.record k).waiters = (s.record k).waiters)
    (hcount : (t.queue.filter Job.isDirectory).length = (s.queue.filter Job.isDirectory).length)
    (hjobs : ∀ e', e' ≠ e → ∀ j ∈ s.queue, Job.isRecordOf e' j = true → j ∈ t.queue) : Reserved t e l.handle := by
  have hleased : ∀ e', leasedHandle (putBack t e l.handle) e' = leasedHandle s e' := fun e' => by
    by_cases he : e' = e
    · rw [he, leasedHandle_putBack_same, leasedHandle_of hl]
    · rw [leasedHandle_putBack_ne _ _ he, leasedHandle_eq_view, leasedHandle_eq_view, hother e' he]
  refine ⟨hfree, leasesConsistent_change hs e hframe (fun e' he => ?_) hcount hjobs (fun l' hl' => ?_)
    (fun k hk => .inl ?_) (halloc ▸ hs.once) (fun k => ?_) (fun e' hnone => ?_) (fun hc => absurd hclear hc)
    (fun hd => absurd ((hs.starting hd).1 e) (by rw [hl]; nofun))⟩
  · rw [leaseView, putBack_lease_ne _ _ he]
    exact hother e' he
  · obtain rfl : reservation l.handle = l' := Option.some.inj ((putBack_lease_same _ e _).symm.trans hl')
    obtain ⟨h1, h2, h3, h4, -⟩ := lease_facts hs hl
    exact ⟨h1, h2, h3, h4, nofun⟩
  · rw [← hwait]
    exact hk
  · rw [unleased_congr hleased]
    show k ∈ t.allocQueue ↔ _ ∧ (t.record k).waiters ≠ [] ∧ _
    rw [halloc, hwait]
    exact hs.queued k
  · have he : e' ≠ e := by
      rintro rfl
      exact absurd ((putBack_lease_same _ e' _).symm.trans hnone) nofun
    rw [putBack_lease_ne _ _ he] at hnone
    show t.allocQueue = []
    rw [halloc]
    exact hs.empty e' (leaseView_none.1 ((hother e' he).symm.trans (leaseView_none.2 hnone)))

/-- A lease is ended where nothing waits at all. -/
theorem leasesConsistent_freed {s t : State} {e : EntryNo} (hs : LeasesConsistent s)
    (hw : ∀ k, (s.record k).waiters = []) (hframe : flagFrame t = flagFrame s)
    (hfree : (t.lease e).lease = none) (hother : ∀ e', e' ≠ e → leaseView t e' = leaseView s e')
    (halloc : t.allocQueue = s.allocQueue) (hwait : ∀ k, (t.record k).waiters = (s.record k).waiters)
    (hcount : (t.queue.filter Job.isDirectory).length = (s.queue.filter Job.isDirectory).length)
    (hjobs : ∀ e', e' ≠ e → ∀ j ∈ s.queue, Job.isRecordOf e' j = true → j ∈ t.queue)
    (hstarting : s.dev = .starting → t.queue = []) : LeasesConsistent t := by
  have hnil : s.allocQueue = [] := List.eq_nil_iff_forall_not_mem.2 fun k hk => ((hs.queued k).1 hk).2.1 (hw k)
  have hw' : ∀ k, (t.record k).waiters = [] := fun k => (hwait k).trans (hw k)
  refine leasesConsistent_change hs e hframe hother hcount hjobs (fun l hl => absurd (hfree.symm.trans hl) nofun)
    (fun k hk => absurd (hw' k) hk) (halloc ▸ hs.once) (fun k => ?_) (fun _ _ => halloc.trans hnil)
    (fun _ => ⟨hw', fun l hl => absurd (hfree.symm.trans hl) nofun⟩) (fun hd => ⟨hfree, hw', hstarting hd⟩)
  rw [halloc, hnil]
  exact iff_of_false List.not_mem_nil fun h => h.2.1 (hw' k)

end Sys2Proof.Machine

/-! PROOF. Every command keeps the lease table and the queues consistent (03, R48, R51). -/

namespace Sys2Proof.Machine

open Sys2Proof.Safety
set_option deprecated.oldSectionVars true

/-! ### Requests about leases and waiters -/

section

variable {s t : State} {e : EntryNo} {h : Handle} {l : Lease}

theorem freeLease_lease (s : State) (e : EntryNo) : ((freeLease e s).lease e).lease = none := by
  show ((s.setLease e _).lease e).lease = none
  rw [State.setLease_lease_same]

theorem leaseView_freeLease (s : State) {e e' : EntryNo} (he : e' ≠ e) :
    leaseView (freeLease e s) e' = leaseView s e' := by
  show Option.map _ ((s.setLease e _).lease e').lease = _
  rw [State.setLease_lease, if_neg (Ne.symm he)]
  rfl

/-- A lease is ended, with its job when it had one, and its entry granted onward (03, R56). -/
theorem endLease_consistent (hs : LeasesConsistent s) (hl : (s.lease e).lease = some l) (x : PerPort PortState)
    {q : List Job} (hcount : (q.filter Job.isDirectory).length = (s.queue.filter Job.isDirectory).length)
    (hjobs : ∀ e', e' ≠ e → ∀ j ∈ s.queue, Job.isRecordOf e' j = true → j ∈ q) :
    LeasesConsistent (grantOnward e l.handle { freeLease e s with ports := x, queue := q }) := by
  by_cases hclear : s.clear = none
  · exact grantOnward_consistent (reserved_of_freed hs hl hclear rfl (freeLease_lease s e)
      (fun e' he => leaseView_freeLease s he) rfl (fun _ => rfl) hcount hjobs)
  · obtain ⟨-, hw, -⟩ := hs.clearing hclear
    have hnil : s.allocQueue = [] := List.eq_nil_iff_forall_not_mem.2 fun k hk => ((hs.queued k).1 hk).2.1 (hw k)
    rw [grantOnward_none e (by exact hnil) (by exact hw _)]
    exact leasesConsistent_freed hs hw rfl (freeLease_lease s e) (fun e' he => leaseView_freeLease s he) rfl
      (fun _ => rfl) hcount hjobs fun hd => absurd ((hs.starting hd).1 e) (by rw [hl]; nofun)

/-- The freeing of an entry alone, whatever the ports are told before the grant. -/
theorem grantOnward_of_lease (hs : LeasesConsistent s) (hl : (s.lease e).lease = some l) (x : PerPort PortState) :
    LeasesConsistent (grantOnward e l.handle { freeLease e s with ports := x }) :=
  endLease_consistent hs hl x rfl fun _ _ _ hj _ => hj

/-- A FREE entry is reserved for a FREE record, to be granted at once. -/
theorem reserved_of_free (hs : LeasesConsistent s) (hfree : (s.lease e).lease = none) (hu : Unleased s h)
    (hentry : (s.record h).entry ≠ none) (hf : (s.record h).freezePending = false)
    (hr : (s.record h).retirePending = false) (hclear : s.clear = none) (hdev : s.dev ≠ .starting) : Reserved s e h := by
  have hnil := hs.empty e hfree
  refine ⟨hfree, leasesConsistent_change hs e rfl (fun e' he => ?_) rfl (fun _ _ _ hj _ => hj) (fun l hl => ?_)
    (fun _ hk => .inl hk) hs.once (fun k => ?_) (fun _ _ => hnil) (fun hc => absurd hclear hc) (fun hd => absurd hd hdev)⟩
  · rw [leaseView, putBack_lease_ne _ _ he]
    rfl
  · obtain rfl : reservation h = l := Option.some.inj ((putBack_lease_same _ e h).symm.trans hl)
    exact ⟨fun e' _ => hu e', hentry, hf, hr, nofun⟩
  · show k ∈ s.allocQueue ↔ _
    rw [hnil]
    refine iff_of_false List.not_mem_nil fun ⟨hk, hw, hf⟩ => ?_
    have hmem := (hs.queued k).2 ⟨unleased_of_putBack hfree hk, hw, hf⟩
    rw [hnil] at hmem
    exact List.not_mem_nil hmem

theorem entryAtOnce_spec (he : s.entryAtOnce h = some e) :
    (s.lease e).lease = none ∧ Unleased s h ∧ (s.record h).waiters = [] := by
  rw [State.entryAtOnce] at he
  split at he
  next hc => exact ⟨State.lowestFree_spec he, State.recordFree_iff.1 hc.1, hc.2⟩
  next => cases he

/-- A request joins the wait queue of a record of which no entry can be granted at once (03, R52, R54). -/
theorem joinWaiters_consistent (hs : LeasesConsistent s) (hentry : (s.record h).entry ≠ none)
    (hf : (s.record h).freezePending = false) (hr : (s.record h).retirePending = false) (hclear : s.clear = none)
    (hdev : s.dev ≠ .starting) (hlater : s.entryAtOnce h = none) (w : Waiter) : LeasesConsistent (joinWaiters h w s) := by
  have hwait : ∀ k, ((joinWaiters h w s).record k).waiters
      = if k = h then (s.record h).waiters ++ [w] else (s.record k).waiters := fun k => by
    rw [joinWaiters_eq]
    exact setWaiters_waiters s h k _
  have halloc : (joinWaiters h w s).allocQueue
      = if s.recordFree h ∧ h ∉ s.allocQueue then s.allocQueue ++ [h] else s.allocQueue := by rw [joinWaiters_eq]
  have hview : leaseView (joinWaiters h w s) = leaseView s := by rw [joinWaiters_eq]; rfl
  have hunl : ∀ k, Unleased (joinWaiters h w s) k ↔ Unleased s k :=
    unleased_congr fun e => by rw [leasedHandle_eq_view, leasedHandle_eq_view, hview]
  refine leasesConsistent_change hs 0 ?_ (fun _ _ => congrFun hview _) ?_ (fun _ _ j hj _ => ?_) (fun l hl => ?_)
    (fun k hk => ?_) ?_ (fun k => ?_) (fun e' hfree => ?_) (fun hc => absurd hclear hc) (fun hd => absurd hd hdev)
  · rw [joinWaiters_eq]
    show (recordFlags (s.setWaiters h _), s.dirSlot, s.clear, s.dev) = flagFrame s
    rw [recordFlags_setWaiters]
    rfl
  · rw [joinWaiters_eq]
    rfl
  · rw [joinWaiters_eq]
    exact hj
  · rw [joinWaiters_eq] at hl ⊢
    exact lease_facts hs hl
  · rw [hwait] at hk
    split at hk
    next heq => rw [heq]; exact .inr ⟨hentry, hr⟩
    next => exact .inl hk
  · rw [halloc]
    split
    next hc =>
      exact List.nodup_append.2 ⟨hs.once, List.nodup_singleton h, fun a ha b hb => by
        rw [List.mem_singleton.1 hb]
        exact fun heq => hc.2 (heq ▸ ha)⟩
    next => exact hs.once
  · rw [halloc, hunl, hwait]
    by_cases hk : k = h
    · subst hk
      rw [if_pos rfl]
      have hne : (s.record k).waiters ++ [w] ≠ [] := List.append_ne_nil_of_right_ne_nil _ (List.cons_ne_nil w [])
      have hmem : k ∈ s.allocQueue → Unleased s k := fun hk => ((hs.queued k).1 hk).1
      by_cases hc : s.recordFree k ∧ k ∉ s.allocQueue
      · rw [if_pos hc]
        exact iff_of_true (List.mem_append_right _ List.mem_cons_self) ⟨State.recordFree_iff.1 hc.1, hne, hf⟩
      · rw [if_neg hc]
        refine ⟨fun hk => ⟨hmem hk, hne, hf⟩, fun ⟨hu, _, _⟩ => ?_⟩
        by_contra hk
        exact hc ⟨State.recordFree_iff.2 hu, hk⟩
    · rw [if_neg hk]
      refine Iff.trans ?_ (hs.queued k)
      split
      · rw [List.mem_append, List.mem_singleton]
        exact ⟨fun hm => hm.resolve_right hk, .inl⟩
      · exact Iff.rfl
  · have hfree : (s.lease e').lease = none :=
      leaseView_none.1 ((congrFun hview e').symm.trans (leaseView_none.2 hfree))
    have hnil := hs.empty e' hfree
    rw [halloc, if_neg, hnil]
    rintro ⟨hu, hnot⟩
    have hu := State.recordFree_iff.1 hu
    have hw : (s.record h).waiters = [] := by
      by_contra hw
      exact hnot ((hs.queued h).2 ⟨hu, hw, hf⟩)
    rw [State.entryAtOnce, if_pos ⟨State.recordFree_iff.2 hu, hw⟩, State.lowestFree] at hlater
    exact absurd (List.find?_eq_none.1 hlater e' (List.mem_finRange e')) (by rw [hfree]; exact fun hn => hn rfl)

/-- Waiters of one record are withdrawn (03, R59, R62, R66). -/
theorem leaveAllocIfEmpty_consistent (hs : LeasesConsistent s) (keep : Waiter → Bool) (hframe : leaseFrame t = leaseFrame s)
    (hrec : ∀ k, k ≠ h → (t.record k).waiters = (s.record k).waiters)
    (hown : (t.record h).waiters = (s.record h).waiters.filter keep) (halloc : t.allocQueue = s.allocQueue) :
    LeasesConsistent (leaveAllocIfEmpty h t) := by
  have hrecord : ∀ k, (leaveAllocIfEmpty h t).record k = t.record k := fun k => by
    rw [leaveAllocIfEmpty]
    split <;> rfl
  have hqueue : (leaveAllocIfEmpty h t).allocQueue
      = if (t.record h).waiters = [] then s.allocQueue.filter (fun x => x != h) else s.allocQueue := by
    rw [leaveAllocIfEmpty, ← halloc]
    split <;> rfl
  refine leasesConsistent_fewerWaiters hs ?_ (fun k hk => ?_) ?_ (fun k => ?_)
  · rw [← hframe, leaveAllocIfEmpty]
    split <;> rfl
  · rw [hrecord]
    by_cases hkh : k = h
    · rw [hkh] at hk ⊢
      rw [hown, hk]
      rfl
    · rw [hrec k hkh, hk]
  · rw [hqueue]
    split
    · exact hs.once.filter _
    · exact hs.once
  · rw [hqueue, hrecord]
    by_cases hkh : k = h
    · subst hkh
      split
      next hnil => rw [hnil]; simp
      next hne => exact ⟨fun hk => ⟨hk, hne⟩, And.left⟩
    · rw [hrec k hkh]
      have hmem : (k ∈ if (t.record h).waiters = [] then s.allocQueue.filter (fun x => x != h) else s.allocQueue)
          ↔ k ∈ s.allocQueue := by
        split
        · rw [List.mem_filter]
          exact ⟨And.left, fun hk => ⟨hk, bne_iff_ne.2 hkh⟩⟩
        · exact Iff.rfl
      rw [hmem]
      exact ⟨fun hk => ⟨hk, ((hs.queued k).1 hk).2.1⟩, And.left⟩

theorem leaseFrame_setWaiters (s : State) (h : Handle) (ws : List Waiter) : leaseFrame (s.setWaiters h ws) = leaseFrame s := by
  show (leaseView s, recordFlags (s.setWaiters h ws), _) = _
  rw [recordFlags_setWaiters]
  rfl

theorem dropWaiter_consistent (hs : LeasesConsistent s) (h : Handle) (p : Port) (u : Tag) :
    LeasesConsistent (dropWaiter h p u s) := by
  refine leaveAllocIfEmpty_consistent hs (fun w => !w.isOf p u) (leaseFrame_setWaiters s h _) (fun k hk => ?_) ?_ rfl
  · rw [setWaiters_waiters, if_neg hk]
  · rw [setWaiters_waiters, if_pos rfl]

theorem waitsLater (hs : LeasesConsistent s) (hdev : s.dev = .ready) : s.clear = none ∧ s.dev ≠ .starting :=
  ⟨by_contra fun hc => absurd (hdev.symm.trans (hs.clearing hc).1) nofun, by rw [hdev]; nofun⟩

theorem takeAcquire_consistent (hs : LeasesConsistent s) (hdev : s.dev = .ready) (hentry : (s.record h).entry ≠ none)
    (tk : Ticket) (wait : Byte) : LeasesConsistent (takeAcquire tk h wait s) := by
  have hanswer : ∀ code, LeasesConsistent (complete tk code [] s) := fun code =>
    leasesConsistent_of_tables (tables_complete tk code [] s) hs
  obtain ⟨hclear, hrunning⟩ := waitsLater hs hdev
  rw [takeAcquire]
  split
  · exact hanswer _
  next hr =>
    have hr := Bool.eq_false_iff.2 hr
    split
    · exact hanswer _
    next hf =>
      have hf := Bool.eq_false_iff.2 hf
      split
      · exact hanswer _
      · split
        next e he =>
          obtain ⟨hfree, hu, -⟩ := entryAtOnce_spec he
          obtain ⟨x, hx⟩ := Option.ne_none_iff_exists'.1 hentry
          rw [grantExplicit_eq s e h x tk 0 hx]
          exact (reserved_of_free hs hfree hu hentry hf hr hclear hrunning).granted_self x _
        next hnone =>
          split
          · exact hanswer _
          · exact joinWaiters_consistent hs hentry hf hr hclear hrunning hnone _

theorem takeFreeAdd_consistent (hs : LeasesConsistent s) (hdev : s.dev = .ready) (hentry : (s.record h).entry ≠ none)
    (tk : Ticket) (delta : Word32) : LeasesConsistent (takeFreeAdd tk h delta s) := by
  have hanswer : ∀ code, LeasesConsistent (complete tk code [] s) := fun code =>
    leasesConsistent_of_tables (tables_complete tk code [] s) hs
  obtain ⟨hclear, hrunning⟩ := waitsLater hs hdev
  rw [takeFreeAdd]
  split
  · exact hanswer _
  next hr =>
    have hr := Bool.eq_false_iff.2 hr
    split
    · exact hanswer _
    next hf =>
      have hf := Bool.eq_false_iff.2 hf
      split
      · exact hanswer _
      · split
        next e he =>
          obtain ⟨hfree, hu, -⟩ := entryAtOnce_spec he
          obtain ⟨x, hx⟩ := Option.ne_none_iff_exists'.1 hentry
          split
          · exact hanswer _
          · rw [grantImplicit_eq s e h x tk delta hx]
            exact (reserved_of_free hs hfree hu hentry hf hr hclear hrunning).granted_self x _
        next hnone => exact joinWaiters_consistent hs hentry hf hr hclear hrunning hnone _

/-- A record job is queued for a lease, which goes to COMMITTING (03, R63 case 3). -/
theorem beginCommit_consistent (hs : LeasesConsistent s) (hl : (s.lease e).lease = some l) (hdev : s.dev = .ready)
    (tk : Ticket) : LeasesConsistent (beginCommit tk e l s) := by
  obtain ⟨hclear, hrunning⟩ := waitsLater hs hdev
  obtain ⟨h1, h2, h3, h4, -⟩ := lease_facts hs hl
  have hother : ∀ e', e' ≠ e → leaseView (beginCommit tk e l s) e' = leaseView s e' := fun e' he => by
    rw [beginCommit, handJob_eq]
    show Option.map _ ((s.setLease e _).lease e').lease = _
    rw [State.setLease_lease, if_neg (Ne.symm he)]
    rfl
  have hown : ((beginCommit tk e l s).lease e).lease
      = some { l with phase := .committing, timer := none, answer := some tk } := by
    rw [beginCommit, handJob_eq]
    show ((s.setLease e _).lease e).lease = _
    rw [State.setLease_lease_same]
  have hleased : ∀ e', leasedHandle (beginCommit tk e l s) e' = leasedHandle s e' := fun e' => by
    by_cases he : e' = e
    · rw [he, leasedHandle_of hown, leasedHandle_of hl]
    · rw [leasedHandle_eq_view, leasedHandle_eq_view, hother e' he]
  obtain ⟨j, hq, hdir, hrec⟩ : ∃ j, (beginCommit tk e l s).queue = s.queue ++ [j] ∧ Job.isDirectory j = false
      ∧ Job.isRecordOf e j = true := by
    rw [beginCommit, handJob_eq]
    exact ⟨_, rfl, rfl, beq_self_eq_true e⟩
  have halloc : (beginCommit tk e l s).allocQueue = s.allocQueue := by rw [beginCommit, handJob_eq]; rfl
  have hrecord : (beginCommit tk e l s).records = s.records := by rw [beginCommit, handJob_eq]; rfl
  have hwait : ∀ k, (beginCommit tk e l s).record k = s.record k := fun k => congrArg (fun v => Vector.get v k) hrecord
  refine leasesConsistent_change hs e ?_ hother ?_ (fun e' _ i hi _ => ?_) (fun l' hl' => ?_) (fun k hk => .inl ?_) ?_
    (fun k => ?_) (fun e' hfree => ?_) (fun hc => absurd hclear hc) (fun hd => absurd hd hrunning)
  · rw [beginCommit, handJob_eq]
    rfl
  · rw [hq, List.filter_append, List.filter_cons_of_neg (by rw [hdir]; nofun), List.filter_nil, List.append_nil]
  · rw [hq]
    exact List.mem_append_left _ hi
  · obtain rfl := Option.some.inj (hown.symm.trans hl')
    refine ⟨h1, h2, h3, h4, fun _ => ⟨j, ?_, hrec⟩⟩
    rw [hq]
    exact List.mem_append_right _ List.mem_cons_self
  · rw [← hwait]
    exact hk
  · rw [halloc]
    exact hs.once
  · rw [halloc, unleased_congr hleased, hwait]
    exact hs.queued k
  · rw [halloc]
    refine hs.empty e' ?_
    have hn : leasedHandle (beginCommit tk e l s) e' = none := by rw [leasedHandle, hfree]; rfl
    rw [hleased, leasedHandle, Option.map_eq_none_iff] at hn
    exact hn

theorem takeCommit_consistent (hs : LeasesConsistent s) (hl : (s.lease e).lease = some l) (hdev : s.dev = .ready)
    (tk : Ticket) : LeasesConsistent (takeCommit tk e l s) := by
  rw [takeCommit]
  split
  · exact leasesConsistent_of_tables (tables_complete tk _ _ s) hs
  · split
    · rw [complete_frame]
      exact grantOnward_of_lease hs hl _
    · split
      · rw [complete_frame]
        exact grantOnward_of_lease hs hl _
      · exact beginCommit_consistent hs hl hdev tk

theorem takeRelease_consistent (hs : LeasesConsistent s) (hl : (s.lease e).lease = some l) (tk : Ticket) :
    LeasesConsistent (takeRelease tk e l s) := by
  rw [takeRelease]
  split
  · exact leasesConsistent_of_tables (tables_complete tk _ _ s) hs
  · rw [complete_frame]
    exact grantOnward_of_lease hs hl _

/-- A lease entry changed in its timer, its renewals or its marks. -/
theorem tables_leaseChanged (hl : (s.lease e).lease = some l) {x : LeaseEntry}
    (hx : ∃ l', x.lease = some l' ∧ l'.handle = l.handle ∧ l'.phase = l.phase) :
    leaseTables (s.setLease e x) = leaseTables s := by
  obtain ⟨l', hx, hh, hp⟩ := hx
  refine tables_setLease ?_
  rw [hx, leaseView, hl]
  simp only [Option.map_some, hh, hp]

theorem takeRenew_tables (hl : (s.lease e).lease = some l) (tk : Ticket) :
    leaseTables (takeRenew tk e l s) = leaseTables s := by
  rw [takeRenew]
  split
  · exact tables_complete tk _ _ s
  · split
    · exact (tables_complete tk _ _ _).trans (tables_leaseChanged hl ⟨_, rfl, rfl, rfl⟩)
    · exact tables_complete tk _ _ s

theorem writeBuffer_tables (hl : (s.lease e).lease = some l) (offset : Nat) (data : List Byte) :
    leaseTables (writeBuffer e l offset data s) = leaseTables s :=
  tables_leaseChanged (x := ⟨(s.lease e).issue, some { l with modified := true }⟩) hl ⟨_, rfl, rfl, rfl⟩

theorem takeStage_tables (hl : (s.lease e).lease = some l) (tk : Ticket) (offset : Byte) (data : List Byte) :
    leaseTables (takeStage tk offset data e l s) = leaseTables s := by
  rw [takeStage]
  split
  · exact tables_complete tk _ _ s
  · split
    · exact tables_complete tk _ _ s
    · exact (tables_complete tk _ _ _).trans (writeBuffer_tables hl _ _)

theorem takeTokenAdd_tables (hl : (s.lease e).lease = some l) (tk : Ticket) (delta : Word32) :
    leaseTables (takeTokenAdd tk delta e l s) = leaseTables s := by
  rw [takeTokenAdd]
  split
  · exact tables_complete tk _ _ s
  · exact (tables_complete tk _ _ _).trans (writeBuffer_tables hl _ _)

theorem takeCancel_consistent (hs : LeasesConsistent s) (tk : Ticket) (u : Tag) : LeasesConsistent (takeCancel tk u s) := by
  rw [takeCancel]
  split
  · exact leasesConsistent_of_tables (tables_complete tk _ _ s) hs
  · split
    next k w _ =>
      exact leasesConsistent_of_tables ((tables_complete tk _ _ _).trans (tables_complete w.ticket _ _ _))
        (dropWaiter_consistent hs k tk.port u)
    next => exact leasesConsistent_of_tables (tables_complete tk _ _ s) hs

/-- An act on a live lease, or LEASE_GONE. -/
theorem withLease_consistent (hs : LeasesConsistent s) {p : Port} {tk : Ticket} {b : Token}
    {act : EntryNo → Lease → State → State}
    (ha : ∀ e l, (s.lease e).lease = some l → LeasesConsistent (act e l s)) : LeasesConsistent (withLease p tk b act s) := by
  rw [withLease]
  split
  next e l hl => exact ha e l (State.live_of_liveLease hl).2.1
  next => exact leasesConsistent_of_tables (tables_complete tk _ _ s) hs

theorem withLeaseOn_consistent (hs : LeasesConsistent s) {p : Port} {tk : Ticket} {b : Token}
    {act : EntryNo → Lease → State → State}
    (ha : ∀ e l, (s.lease e).lease = some l → LeasesConsistent (act e l s)) :
    LeasesConsistent (withLeaseOn p tk b h act s) := by
  rw [withLeaseOn]
  split
  next e l hl =>
    split
    · exact ha e l (State.live_of_liveLease hl).2.1
    · exact leasesConsistent_of_tables (tables_complete tk _ _ s) hs
  next => exact leasesConsistent_of_tables (tables_complete tk _ _ s) hs

end

/-! ### Directory jobs taken, undone and committed -/

section

variable {s t : State} {j : DirJob}

/-- No record is freeze pending or retire pending while the directory job slot is empty. -/
theorem flags_of_noSlot (hs : LeasesConsistent s) (hslot : s.dirSlot = none) (k : Handle) :
    (s.record k).freezePending = false ∧ (s.record k).retirePending = false := by
  constructor
  · refine Bool.eq_false_iff.2 fun hf => ?_
    obtain ⟨-, tk, hd⟩ := hs.freezing k hf
    exact absurd (hslot.symm.trans hd) nofun
  · refine Bool.eq_false_iff.2 fun hr => ?_
    obtain ⟨-, -, tk, hd⟩ := hs.retiring k hr
    exact absurd (hslot.symm.trans hd) nofun

/-- A directory job is taken (01, R11): the slot holds it, its flag is set, and its job is queued. -/
theorem takeDir_consistent {kind : DirKind} {c : Copy} {gen : Word32} (hs : LeasesConsistent s) (hdev : s.dev = .ready)
    (hslot : s.dirSlot = none) (hview : leaseView t = leaseView s) (hd : t.dirSlot = some j) (hclear : t.clear = s.clear)
    (hdev' : t.dev = s.dev) (hqueue : t.queue = s.queue ++ [.directory kind c gen])
    (hentry : ∀ k, (t.record k).entry = (s.record k).entry) (hwait : ∀ k, (t.record k).waiters = (s.record k).waiters)
    (hfp : ∀ k, (t.record k).freezePending = true ↔ j.op = .freeze ∧ k = j.handle)
    (hrp : ∀ k, (t.record k).retirePending = true ↔ j.op = .retire ∧ k = j.handle)
    (hfreeze : j.op = .freeze → Unleased s j.handle)
    (hretire : j.op = .retire → Unleased s j.handle ∧ (s.record j.handle).waiters = [])
    (hdefine : ∀ x, j.op = .define x → (s.record j.handle).entry = none)
    (halloc : t.allocQueue = if j.op = .freeze then s.allocQueue.filter (fun k => k != j.handle) else s.allocQueue) :
    LeasesConsistent t := by
  obtain ⟨hclear', hrunning⟩ := waitsLater hs hdev
  have hleased : ∀ e, leasedHandle t e = leasedHandle s e := fun e => by
    rw [leasedHandle_eq_view, leasedHandle_eq_view, hview]
  have hunl := unleased_congr hleased
  have hsame : ∀ e l, (t.lease e).lease = some l → ∃ l', (s.lease e).lease = some l' ∧ l'.phase = l.phase := fun e l hl => by
    have hv := leaseView_of hl
    rw [hview, leaseView, Option.map_eq_some_iff] at hv
    obtain ⟨l', hl', heq⟩ := hv
    exact ⟨l', hl', congrArg Prod.snd heq⟩
  have hmem : ∀ k, k ∈ t.allocQueue ↔ k ∈ s.allocQueue ∧ (t.record k).freezePending = false := fun k => by
    rw [halloc, ← Bool.not_eq_true, hfp]
    split
    next hop =>
      rw [List.mem_filter, bne_iff_ne]
      exact and_congr_right fun _ => ⟨fun hk h => hk h.2, fun hk h => hk ⟨hop, h⟩⟩
    next hop => exact ⟨fun hk => ⟨hk, fun h => hop h.1⟩, And.left⟩
  exact {
    unique := fun k e e' h1 h2 => hs.unique k e e' (hleased e ▸ h1) (hleased e' ▸ h2)
    once := by
      rw [halloc]
      split
      · exact hs.once.filter _
      · exact hs.once
    queued := fun k => by
      rw [hmem, hunl, hwait, hs.queued, (flags_of_noSlot hs hslot k).1]
      exact ⟨fun ⟨⟨h1, h2, _⟩, h3⟩ => ⟨h1, h2, h3⟩, fun ⟨h1, h2, h3⟩ => ⟨⟨h1, h2, rfl⟩, h3⟩⟩
    empty := fun e he => by
      have hnone : (s.lease e).lease = none := by rw [← leaseView_none, ← hview, leaseView_none, he]
      refine List.eq_nil_iff_forall_not_mem.2 fun k hk => ?_
      have hk := ((hmem k).1 hk).1
      rw [hs.empty e hnone] at hk
      exact List.not_mem_nil hk
    freezing := fun k hk => by
      obtain ⟨hop, rfl⟩ := (hfp k).1 hk
      refine ⟨(hunl _).2 (hfreeze hop), j.ticket, ?_⟩
      rw [hd, ← hop]
    retiring := fun k hk => by
      obtain ⟨hop, rfl⟩ := (hrp k).1 hk
      obtain ⟨h1, h2⟩ := hretire hop
      refine ⟨(hunl _).2 h1, (hwait _).trans h2, j.ticket, ?_⟩
      rw [hd, ← hop]
    freezeSlot := fun k tk hk => by
      obtain rfl := Option.some.inj (hd.symm.trans hk)
      exact (hfp k).2 ⟨rfl, rfl⟩
    retireSlot := fun k tk hk => by
      obtain rfl := Option.some.inj (hd.symm.trans hk)
      exact (hrp k).2 ⟨rfl, rfl⟩
    undefined := fun k hk => by
      rw [hentry] at hk
      obtain ⟨h1, h2⟩ := hs.undefined k hk
      exact ⟨(hunl k).2 h1, (hwait k).trans h2⟩
    fresh := fun k hk => by
      rw [State.definePending, hd] at hk
      rw [hentry]
      obtain ⟨op, h, tk⟩ := j
      cases op with
      | define x =>
        obtain rfl : h = k := beq_iff_eq.1 hk
        exact hdefine x rfl
      | _ => cases hk
    committing := fun e l hl hp => by
      obtain ⟨l', hl', hp'⟩ := hsame e l hl
      obtain ⟨i, hi, hrec⟩ := hs.committing e l' hl' (hp'.trans hp)
      rw [hqueue]
      exact ⟨i, List.mem_append_left _ hi, hrec⟩
    slot := by
      have hcount : (s.queue.filter Job.isDirectory).length = if s.dirSlot.isSome then 1 else 0 := hs.slot
      rw [hslot] at hcount
      rw [SlotMatchesQueue, hqueue, hd, List.filter_append, List.length_append, hcount]
      rfl
    clearing := fun hc => absurd (hclear.trans hclear') hc
    starting := fun h => absurd (hdev'.symm.trans h) hrunning }

/-- A directory job ends: the slot is empty, no flag is set, and a record that is then undefined has no lease and no
waiter. -/
theorem leasesConsistent_settled (hs : LeasesConsistent s) (hd : s.dirSlot = some j) (hview : leaseView t = leaseView s)
    (hslot : t.dirSlot = none) (hclear : t.clear = s.clear) (hdev : t.dev = s.dev) (halloc : t.allocQueue = s.allocQueue)
    (hwait : ∀ k, (t.record k).waiters = [] ↔ (s.record k).waiters = [])
    (hflags : ∀ k, (t.record k).freezePending = false ∧ (t.record k).retirePending = false)
    (hundefined : ∀ k, (t.record k).entry = none → Unleased s k ∧ (s.record k).waiters = [])
    (hcount : t.queue.filter Job.isDirectory = [])
    (hjobs : ∀ i ∈ s.queue, Job.isDirectory i = false → i ∈ t.queue)
    (hfreeze : j.op = .freeze → (s.record j.handle).waiters = []) : LeasesConsistent t := by
  have hleased : ∀ e, leasedHandle t e = leasedHandle s e := fun e => by
    rw [leasedHandle_eq_view, leasedHandle_eq_view, hview]
  have hunl := unleased_congr hleased
  have hsame : ∀ e l, (t.lease e).lease = some l → ∃ l', (s.lease e).lease = some l' ∧ l'.phase = l.phase := fun e l hl => by
    have hv := leaseView_of hl
    rw [hview, leaseView, Option.map_eq_some_iff] at hv
    obtain ⟨l', hl', heq⟩ := hv
    exact ⟨l', hl', congrArg Prod.snd heq⟩
  exact {
    unique := fun k e e' h1 h2 => hs.unique k e e' (hleased e ▸ h1) (hleased e' ▸ h2)
    once := by rw [halloc]; exact hs.once
    queued := fun k => by
      rw [halloc, hunl, ne_eq, hwait, (hflags k).1, hs.queued]
      refine and_congr_right fun _ => and_congr_right fun hw => iff_of_true (Bool.eq_false_iff.2 fun hf => hw ?_) rfl
      obtain ⟨-, tk, hd'⟩ := hs.freezing k hf
      obtain rfl := Option.some.inj (hd.symm.trans hd')
      exact hfreeze rfl
    empty := fun e he => by
      rw [halloc]
      exact hs.empty e (by rw [← leaseView_none, ← hview, leaseView_none, he])
    freezing := fun k hk => absurd ((hflags k).1.symm.trans hk) nofun
    retiring := fun k hk => absurd ((hflags k).2.symm.trans hk) nofun
    freezeSlot := fun k tk hk => absurd (hslot.symm.trans hk) nofun
    retireSlot := fun k tk hk => absurd (hslot.symm.trans hk) nofun
    undefined := fun k hk => by
      obtain ⟨h1, h2⟩ := hundefined k hk
      exact ⟨(hunl k).2 h1, (hwait k).2 h2⟩
    fresh := fun k hk => by
      rw [State.definePending, hslot] at hk
      cases hk
    committing := fun e l hl hp => by
      obtain ⟨l', hl', hp'⟩ := hsame e l hl
      obtain ⟨i, hi, hrec⟩ := hs.committing e l' hl' (hp'.trans hp)
      exact ⟨i, hjobs i hi (isDirectory_of_isRecordOf hrec), hrec⟩
    slot := by
      rw [SlotMatchesQueue, hcount, hslot]
      rfl
    clearing := fun hc => by
      rw [hclear] at hc
      obtain ⟨hd', hw, hl⟩ := hs.clearing hc
      refine ⟨hdev.trans hd', fun k => (hwait k).2 (hw k), fun e l he => ?_⟩
      obtain ⟨l', hl', hp'⟩ := hsame e l he
      exact hp'.symm.trans (hl e l' hl')
    starting := fun h => absurd (hd.symm.trans (hs.starting (hdev.symm.trans h)).2.2.2) nofun }

/-- The wait queue of a freeze pending record may be emptied: it is not in the allocation queue. -/
theorem emptyFrozenWaiters {tk : Ticket} {h : Handle} (hs : LeasesConsistent s) (hd : s.dirSlot = some ⟨.freeze, h, tk⟩) :
    Unleased s h ∧ LeasesConsistent (s.setWaiters h []) := by
  have hf := hs.freezeSlot h tk hd
  refine ⟨(hs.freezing h hf).1, leasesConsistent_fewerWaiters hs (leaseFrame_setWaiters s h []) (fun k hk => ?_) hs.once
    (fun k => ?_)⟩
  · rw [setWaiters_waiters, hk, ite_self]
  · rw [setWaiters_waiters]
    show k ∈ s.allocQueue ↔ _
    split
    next heq =>
      subst heq
      exact iff_of_false (fun hk => absurd (((hs.queued k).1 hk).2.2.symm.trans hf) nofun) fun hk => hk.2 rfl
    next => exact ⟨fun hk => ⟨hk, ((hs.queued k).1 hk).2.1⟩, And.left⟩

/-- The undoing of a taking changes a record's flag alone (01, R12). -/
theorem undoTaking_record (j : DirJob) (s : State) (k : Handle) :
    (undoTaking j s).record k = undoneRecord j k (s.record k) := by
  have hset : ∀ x : RecState, (∀ r, r = s.record j.handle → undoneRecord j j.handle r = x) →
      (∀ k, k ≠ j.handle → undoneRecord j k (s.record k) = s.record k) →
      (State.setRecord { s with dirSlot := none } j.handle x).record k = undoneRecord j k (s.record k) := by
    intro x hx hne
    rw [State.setRecord_record]
    split
    next heq => rw [← heq]; exact (hx _ rfl).symm
    next hk => exact (hne k (Ne.symm hk)).symm
  obtain ⟨op, h, tk⟩ := j
  cases op with
  | define x => simp [undoTaking, undoneRecord, State.markCopies, State.record]
  | setRights r => simp [undoTaking, undoneRecord, State.record]
  | retire => exact hset _ (fun r hr => by simp [undoneRecord, hr, State.record]) fun k hk => by simp [undoneRecord, hk]
  | freeze => exact hset _ (fun r hr => by simp [undoneRecord, hr, State.record]) fun k hk => by simp [undoneRecord, hk]

/-- When the job in the slot is undone, no flag is left. -/
theorem undoneRecord_flags (hs : LeasesConsistent s) (hd : s.dirSlot = some j) (k : Handle) :
    (undoneRecord j k (s.record k)).freezePending = false ∧ (undoneRecord j k (s.record k)).retirePending = false := by
  constructor
  · show (if j.op = .freeze ∧ k = j.handle then false else (s.record k).freezePending) = false
    split
    · rfl
    next hne =>
      refine Bool.eq_false_iff.2 fun hf => hne ?_
      obtain ⟨-, tk, hd'⟩ := hs.freezing k hf
      obtain rfl := Option.some.inj (hd.symm.trans hd')
      exact ⟨rfl, rfl⟩
  · show (if j.op = .retire ∧ k = j.handle then false else (s.record k).retirePending) = false
    split
    · rfl
    next hne =>
      refine Bool.eq_false_iff.2 fun hr => hne ?_
      obtain ⟨-, -, tk, hd'⟩ := hs.retiring k hr
      obtain rfl := Option.some.inj (hd.symm.trans hd')
      exact ⟨rfl, rfl⟩

/-- A directory job is undone, its job gone from the queue, and no waiter is to be made eligible. -/
theorem undoTaking_consistent {q : List Job} (hs : LeasesConsistent s) (hd : s.dirSlot = some j)
    (hcount : q.filter Job.isDirectory = []) (hjobs : ∀ i ∈ s.queue, Job.isDirectory i = false → i ∈ q)
    (hfreeze : j.op = .freeze → (s.record j.handle).waiters = []) :
    LeasesConsistent (undoTaking j { s with queue := q }) := by
  have hframe := undoTaking_frame j { s with queue := q }
  have hrecord : ∀ k, (undoTaking j { s with queue := q }).record k = undoneRecord j k (s.record k) :=
    undoTaking_record j { s with queue := q }
  refine leasesConsistent_settled hs hd ?_ ?_ ?_ ?_ ?_ (fun k => ?_) (fun k => ?_) (fun k hk => ?_) ?_ ?_ hfreeze
  · rw [hframe]; rfl
  · rw [hframe]
  · rw [hframe]
  · rw [hframe]
  · rw [hframe]
  · rw [hrecord]; rfl
  · rw [hrecord]
    exact undoneRecord_flags hs hd k
  · rw [hrecord] at hk
    exact hs.undefined k hk
  · rw [hframe]
    exact hcount
  · rw [hframe]
    exact hjobs

theorem setWaiters_record_eq (s : State) (h k : Handle) (ws : List Waiter) :
    (s.setWaiters h ws).record k = { s.record k with waiters := if k = h then ws else (s.record k).waiters } := by
  rw [State.setWaiters, State.setRecord_record]
  split
  next heq => rw [heq, if_pos rfl]
  next hne => rw [if_neg (Ne.symm hne)]

theorem setWaiters_setWaiters (s : State) (h : Handle) (ws ws' : List Waiter) :
    (s.setWaiters h ws).setWaiters h ws' = s.setWaiters h ws' := by
  rw [State.setWaiters, State.setWaiters, State.setWaiters, State.setRecord_record_same]
  simp [State.setRecord]

/-- The waiters of a record that is no longer freeze pending are eligible again (01, R21). -/
theorem freezeReturn_freeze {h : Handle} {tk : Ticket} (ht : LeasesConsistent (t.setWaiters h [])) (hu : Unleased t h)
    (hflags : (t.record h).freezePending = false ∧ (t.record h).retirePending = false)
    (hentry : (t.record h).entry ≠ none) (hclear : t.clear = none) (hrunning : t.dev ≠ .starting)
    (hw : (t.record h).waiters ≠ []) : LeasesConsistent (freezeReturn ⟨.freeze, h, tk⟩ t) := by
  have hself : (t.setWaiters h []).setWaiters h (t.record h).waiters = t := by
    rw [setWaiters_setWaiters, State.setWaiters_self]
  have hfree : ∀ e, (t.lease e).lease = none → Reserved t e h := fun e he => by
    have hr : Reserved (t.setWaiters h []) e h := by
      refine reserved_of_free ht he hu ?_ ?_ ?_ hclear hrunning
      · rw [setWaiters_record_eq]
        exact hentry
      · rw [setWaiters_record_eq]
        exact hflags.1
      · rw [setWaiters_record_eq]
        exact hflags.2
    have := hr.wait (t.record h).waiters
    rwa [hself] at this
  simp only [freezeReturn, if_neg hw]
  split
  next e he =>
    have hr := hfree e (State.lowestFree_spec he)
    have hnil : t.allocQueue = [] := ht.empty e (State.lowestFree_spec he)
    by_cases hown : AllSpent t h
    · rw [grantFromQueue_allRefused e h _ t hown]
      refine (hr.refuse (t.record h).waiters []).left ?_ ?_
      · rw [(refused_frame t h _ []).2, hnil]
      · rw [refused_waiters, if_pos rfl]
    · obtain ⟨before, w, after, hw, hb, hn⟩ := exists_first_failing hown
      obtain ⟨x, hx⟩ := Option.ne_none_iff_exists'.1 hentry
      rw [hw, grantFromQueue_first e h before after w t x hb hn hx]
      exact (hr.refuse before after).granted_self x w
  next hnone =>
    have hall : ∀ e, (t.lease e).lease ≠ none := fun e he => by
      rw [State.lowestFree] at hnone
      exact absurd (List.find?_eq_none.1 hnone e (List.mem_finRange e)) (by rw [he]; exact fun hn => hn rfl)
    have hnot : h ∉ t.allocQueue := fun hm => by
      have hm : h ∈ (t.setWaiters h []).allocQueue := hm
      have := ((ht.queued h).1 hm).2.1
      rw [setWaiters_waiters, if_pos rfl] at this
      exact this rfl
    refine leasesConsistent_change ht 0 ?_ (fun _ _ => rfl) rfl (fun _ _ _ hi _ => hi) (fun l hl => lease_facts ht hl)
      (fun k hk => ?_) ?_ (fun k => ?_) (fun e he => absurd he (hall e)) (fun hc => absurd hclear hc)
      (fun hd => absurd hd hrunning)
    · show flagFrame t = (recordFlags (t.setWaiters h []), t.dirSlot, t.clear, t.dev)
      rw [recordFlags_setWaiters]
      rfl
    · have hk : (t.record k).waiters ≠ [] := hk
      rw [setWaiters_record_eq]
      by_cases hkh : k = h
      · subst hkh
        exact .inr ⟨hentry, hflags.2⟩
      · rw [if_neg hkh]
        exact .inl hk
    · refine List.nodup_append.2 ⟨ht.once, List.nodup_singleton h, fun a ha b hb => ?_⟩
      rw [List.mem_singleton.1 hb]
      exact fun heq => hnot (heq ▸ ha)
    · show k ∈ t.allocQueue ++ [h] ↔ Unleased t k ∧ (t.record k).waiters ≠ [] ∧ _
      have hq : k ∈ t.allocQueue ↔ _ := ht.queued k
      rw [setWaiters_record_eq] at hq ⊢
      rw [List.mem_append, List.mem_singleton]
      by_cases hkh : k = h
      · subst hkh
        exact iff_of_true (.inr rfl) ⟨hu, hw, hflags.1⟩
      · rw [if_neg hkh] at hq
        exact ⟨fun hk => hq.1 (hk.resolve_right hkh), fun hk => .inl (hq.2 hk)⟩

/-- A directory job ends without its commit point, its job gone from the queue (01, R12, R14, R16, R18, R21). -/
theorem undone_consistent {q : List Job} (hs : LeasesConsistent s) (hd : s.dirSlot = some j)
    (hcount : q.filter Job.isDirectory = []) (hjobs : ∀ i ∈ s.queue, Job.isDirectory i = false → i ∈ q) :
    LeasesConsistent (freezeReturn j (undoTaking j { s with queue := q })) := by
  by_cases hfreeze : j.op = .freeze → (s.record j.handle).waiters = []
  · have ht := undoTaking_consistent hs hd hcount hjobs hfreeze
    have hother := (freezeReturn_spec (undoTaking j { s with queue := q }) j).other ?_
    · rw [hother]
      exact ht
    · by_cases hop : j.op = .freeze
      · refine .inr ?_
        rw [undoTaking_record]
        exact hfreeze hop
      · exact .inl hop
  · obtain ⟨op, h, tk⟩ := j
    obtain ⟨hop, hw⟩ := Classical.not_imp.1 hfreeze
    obtain rfl : op = .freeze := hop
    have hw : (s.record h).waiters ≠ [] := hw
    have hframe := undoTaking_frame ⟨.freeze, h, tk⟩ { s with queue := q }
    have hrecord : ∀ k, (undoTaking ⟨.freeze, h, tk⟩ { s with queue := q }).record k
        = undoneRecord ⟨.freeze, h, tk⟩ k (s.record k) := undoTaking_record _ { s with queue := q }
    obtain ⟨hu, hs'⟩ := emptyFrozenWaiters hs hd
    have hview : leaseView (undoTaking ⟨.freeze, h, tk⟩ { s with queue := q }) = leaseView s := by rw [hframe]; rfl
    refine freezeReturn_freeze (leasesConsistent_settled hs' hd ?_ ?_ ?_ ?_ ?_ (fun k => ?_) (fun k => ?_) (fun k hk => ?_)
      ?_ ?_ fun _ => ?_) ?_ ?_ ?_ ?_ ?_ ?_
    · exact hview
    · show (undoTaking _ _).dirSlot = none
      rw [hframe]
    · show (undoTaking _ _).clear = s.clear
      rw [hframe]
    · show (undoTaking _ _).dev = s.dev
      rw [hframe]
    · show (undoTaking _ _).allocQueue = s.allocQueue
      rw [hframe]
    · rw [setWaiters_waiters, setWaiters_waiters, hrecord]
      rfl
    · rw [setWaiters_record_eq, hrecord]
      exact undoneRecord_flags hs hd k
    · rw [setWaiters_record_eq, hrecord] at hk
      refine hs'.undefined k ?_
      rw [setWaiters_record_eq]
      exact hk
    · show (undoTaking _ _).queue.filter _ = []
      rw [hframe]
      exact hcount
    · show ∀ i ∈ s.queue, _ → i ∈ (undoTaking _ _).queue
      rw [hframe]
      exact hjobs
    · rw [setWaiters_waiters, if_pos rfl]
    · exact (unleased_congr (fun e => by rw [leasedHandle_eq_view, leasedHandle_eq_view, hview]) h).2 hu
    · rw [hrecord]
      exact undoneRecord_flags hs hd h
    · rw [hrecord]
      exact fun hn => hw (hs.undefined h hn).2
    · rw [hframe]
      exact by_contra fun hc => hw ((hs.clearing hc).2.1 h)
    · rw [hframe]
      exact fun hdev => absurd (hd.symm.trans (hs.starting hdev).2.2.2) nofun
    · rw [hrecord]
      exact hw

end

end Sys2Proof.Machine

/-! PROOF. The events and the other requests that keep the lease table and the queues consistent (03, R48, R51). -/

namespace Sys2Proof.Machine

open Sys2Proof.Safety
set_option deprecated.oldSectionVars true

/-! ### Job ends -/

section

variable {s t : State} {j : DirJob} {e : EntryNo} {h : Handle}

theorem completeIf_frame (tk : Option Ticket) (code : Status) (body : List Byte) (s : State) :
    completeIf tk code body s = { s with ports := (completeIf tk code body s).ports } := by
  cases tk with
  | none => rfl
  | some tk => exact complete_frame tk code body s

/-- The pending flags name the job in the slot. -/
theorem flags_of_slot (hs : LeasesConsistent s) (hd : s.dirSlot = some j) :
    (∀ k, (s.record k).freezePending = true → j.op = .freeze ∧ k = j.handle)
      ∧ ∀ k, (s.record k).retirePending = true → j.op = .retire ∧ k = j.handle := by
  constructor
  · intro k hf
    obtain ⟨-, tk, hd'⟩ := hs.freezing k hf
    obtain rfl := Option.some.inj (hd.symm.trans hd')
    exact ⟨rfl, rfl⟩
  · intro k hr
    obtain ⟨-, -, tk, hd'⟩ := hs.retiring k hr
    obtain rfl := Option.some.inj (hd.symm.trans hd')
    exact ⟨rfl, rfl⟩

/-- A record changed in what the invariant does not look at. -/
theorem tables_setRecord {x : RecState} (he : x.entry.isSome = (s.record h).entry.isSome)
    (hf : x.freezePending = (s.record h).freezePending) (hr : x.retirePending = (s.record h).retirePending)
    (hw : x.waiters = (s.record h).waiters) : leaseTables (s.setRecord h x) = leaseTables s := by
  have hflags : recordFlags (s.setRecord h x) = recordFlags s := by
    funext k
    rw [recordFlags, recordFlags, State.setRecord_record]
    split
    next heq => rw [← heq, he, hf, hr]
    next => rfl
  have hwait : (fun k => ((s.setRecord h x).record k).waiters.isEmpty) = fun k => (s.record k).waiters.isEmpty := by
    funext k
    rw [State.setRecord_record]
    split
    next heq => rw [← heq, hw]
    next => rfl
  simp only [leaseTables, leaseFrame, hflags, hwait]
  rfl

/-- One record is replaced at the end of the directory job in the slot. -/
theorem settledRecord_consistent {x : RecState} {q : List Job} {c : Option Copy} {gen : Word32}
    {m : Option (List (Nat × PageCond))} (hs : LeasesConsistent s) (hd : s.dirSlot = some j)
    (hcount : q.filter Job.isDirectory = []) (hjobs : ∀ i ∈ s.queue, Job.isDirectory i = false → i ∈ q)
    (hx : x.freezePending = false ∧ x.retirePending = false) (hw : x.waiters = [] ↔ (s.record j.handle).waiters = [])
    (hentry : x.entry = none → Unleased s j.handle ∧ (s.record j.handle).waiters = [])
    (hfreeze : j.op = .freeze → (s.record j.handle).waiters = []) :
    LeasesConsistent (State.setRecord
      { s with queue := q, activeDir := c, dirGen := gen, dirSlot := none, pageMap := m } j.handle x) := by
  obtain ⟨hfp, hrp⟩ := flags_of_slot hs hd
  have hrecord : ∀ k, (State.setRecord { s with queue := q, activeDir := c, dirGen := gen, dirSlot := none, pageMap := m }
      j.handle x).record k = if j.handle = k then x else s.record k := fun k => State.setRecord_record _ _ _ _
  refine leasesConsistent_settled hs hd rfl rfl rfl rfl rfl (fun k => ?_) (fun k => ?_) (fun k hk => ?_) hcount hjobs hfreeze
  · rw [hrecord]
    split
    next heq => rw [← heq]; exact hw
    next => rfl
  · rw [hrecord]
    split
    · exact hx
    next hne =>
      exact ⟨Bool.eq_false_iff.2 fun hf => hne (hfp k hf).2.symm, Bool.eq_false_iff.2 fun hr => hne (hrp k hr).2.symm⟩
  · rw [hrecord] at hk
    split at hk
    next heq => rw [← heq]; exact hentry hk
    next => exact hs.undefined k hk

/-- The directory commit point (05, R95), its job gone from the queue. -/
theorem dirCommitPoint_consistent {q : List Job} (hs : LeasesConsistent s) (hd : s.dirSlot = some j)
    (hcount : q.filter Job.isDirectory = []) (hjobs : ∀ i ∈ s.queue, Job.isDirectory i = false → i ∈ q) (c : Copy)
    (gen : Word32) : LeasesConsistent (dirCommitPoint c gen { s with queue := q }) := by
  obtain ⟨hfp, hrp⟩ := flags_of_slot hs hd
  obtain ⟨op, h, tk⟩ := j
  simp only [dirCommitPoint, hd]
  cases op with
  | define x =>
    have hfresh : (s.record h).entry = none := hs.fresh h (by rw [State.definePending, hd]; exact beq_self_eq_true h)
    have hw := (hs.undefined h hfresh).2
    have hcore := settledRecord_consistent (m := s.pageMap.map (markCopies .inUse x)) (c := some c) (gen := gen)
      (x := { RecState.blank with entry := some { x with stamp := gen } }) hs hd hcount hjobs ⟨rfl, rfl⟩
      (iff_of_true rfl hw) nofun nofun
    exact leasesConsistent_of_tables (tables_complete tk _ _ _) hcore
  | retire =>
    obtain ⟨hu, hw, -⟩ := hs.retiring h (hs.retireSlot h tk hd)
    refine leasesConsistent_of_tables ((tables_complete tk _ _ _).trans ?_)
      (settledRecord_consistent (x := RecState.blank) (m := s.pageMap.map (markCopies .free (s.entryOf h))) (c := some c)
        (gen := gen) hs hd hcount hjobs ⟨rfl, rfl⟩ (iff_of_true rfl hw) (fun _ => ⟨hu, hw⟩) nofun)
    rw [retireWatches_frame]
    rfl
  | setRights r =>
    have hno : (s.record h).freezePending = false ∧ (s.record h).retirePending = false :=
      ⟨Bool.eq_false_iff.2 fun hf => absurd (hfp h hf).1 nofun, Bool.eq_false_iff.2 fun hr => absurd (hrp h hr).1 nofun⟩
    refine leasesConsistent_of_tables ((tables_complete tk _ _ _).trans (tables_answerAll _ _ _)) ?_
    have hcore := settledRecord_consistent (m := s.pageMap) (c := some c) (gen := gen)
      (x := { s.record h with entry := (s.record h).entry.map fun y => { y with rights := r } }) hs hd hcount hjobs hno
      Iff.rfl (fun hn => hs.undefined h (Option.map_eq_none_iff.1 hn)) nofun
    refine leaveAllocIfEmpty_consistent hcore (fun w => (r.get w.ticket.port).update) (leaseFrame_setWaiters _ _ _)
      (fun k hk => ?_) ?_ rfl
    · rw [setWaiters_waiters, if_neg hk]
      rfl
    · rw [setWaiters_waiters, if_pos rfl]
      rfl
  | freeze =>
    obtain ⟨hu, hs'⟩ := emptyFrozenWaiters hs hd
    refine leasesConsistent_of_tables ((tables_complete tk _ _ _).trans (tables_answerAll _ _ _)) ?_
    have hno : (s.record h).retirePending = false := Bool.eq_false_iff.2 fun hr => absurd (hrp h hr).1 nofun
    have hcore := settledRecord_consistent (m := s.pageMap) (c := some c) (gen := gen)
      (x := { s.record h with
        entry := (s.record h).entry.map fun y => { y with frozen := true }, freezePending := false, waiters := [] })
      hs' hd hcount hjobs ⟨rfl, hno⟩
      (iff_of_true rfl (by rw [setWaiters_waiters, if_pos rfl]))
      (fun _ => ⟨hu, by rw [setWaiters_waiters, if_pos rfl]⟩) (fun _ => by rw [setWaiters_waiters, if_pos rfl])
    have hsame : (State.setRecord { s.setWaiters h [] with
        queue := q, activeDir := some c, dirGen := gen, dirSlot := none, pageMap := s.pageMap } h
        { s.record h with
          entry := (s.record h).entry.map fun y => { y with frozen := true }, freezePending := false, waiters := [] })
        = State.setRecord { s with queue := q, activeDir := some c, dirGen := gen, dirSlot := none } h
        { s.record h with
          entry := (s.record h).entry.map fun y => { y with frozen := true }, freezePending := false, waiters := [] } := by
      simp [State.setRecord, State.setWaiters]
    have hcore : LeasesConsistent (State.setRecord _ h _) := hcore
    rw [hsame] at hcore
    exact hcore

/-- A record job leaves the queue, its lease being ended or gone. -/
theorem jobs_of_record {e : EntryNo} {h : Handle} {c : Copy} {first pages : Nat} {gen : Word32} {rest : List Job}
    (hq : s.queue = .record e h c first pages gen :: rest) :
    (rest.filter Job.isDirectory).length = (s.queue.filter Job.isDirectory).length
      ∧ ∀ e', e' ≠ e → ∀ i ∈ s.queue, Job.isRecordOf e' i = true → i ∈ rest := by
  rw [hq]
  refine ⟨rfl, fun e' he i hi hrec => (List.mem_cons.1 hi).resolve_left ?_⟩
  rintro rfl
  exact he (beq_iff_eq.1 hrec).symm

/-- A directory job leaves the queue. -/
theorem jobs_of_directory {kind : DirKind} {c : Copy} {gen : Word32} {rest : List Job} (hs : LeasesConsistent s)
    (hq : s.queue = .directory kind c gen :: rest) :
    (∃ d, s.dirSlot = some d) ∧ rest.filter Job.isDirectory = []
      ∧ ∀ i ∈ s.queue, Job.isDirectory i = false → i ∈ rest := by
  have hcount : (s.queue.filter Job.isDirectory).length = if s.dirSlot.isSome then 1 else 0 := hs.slot
  rw [hq, List.filter_cons_of_pos rfl, List.length_cons] at hcount
  rw [hq]
  cases hslot : s.dirSlot with
  | none => simp [hslot] at hcount
  | some d =>
    refine ⟨⟨d, rfl⟩, List.eq_nil_of_length_eq_zero (by simpa [hslot] using hcount), fun i hi hdir => ?_⟩
    exact (List.mem_cons.1 hi).resolve_left fun heq => by rw [heq] at hdir; cases hdir

/-- Without a lease on it, the entry's job may go. -/
theorem dropJob_consistent {q : List Job} (hs : LeasesConsistent s) (hfree : (s.lease e).lease = none)
    (hcount : (q.filter Job.isDirectory).length = (s.queue.filter Job.isDirectory).length)
    (hjobs : ∀ e', e' ≠ e → ∀ i ∈ s.queue, Job.isRecordOf e' i = true → i ∈ q)
    (hstarting : s.dev = .starting → q = []) : LeasesConsistent { s with queue := q } := by
  refine leasesConsistent_change hs e rfl (fun _ _ => rfl) hcount hjobs (fun l hl => absurd (hfree.symm.trans hl) nofun)
    (fun _ hk => .inl hk) hs.once hs.queued hs.empty (fun hc => ?_) (fun hd => ?_)
  · exact ⟨(hs.clearing hc).2.1, fun l hl => absurd (hfree.symm.trans hl) nofun⟩
  · exact ⟨hfree, (hs.starting hd).2.1, hstarting hd⟩

theorem reportDrained_consistent (hs : LeasesConsistent s) : LeasesConsistent (reportDrained s) := by
  rw [reportDrained]
  split
  next tk hc =>
    split
    next hq =>
      obtain ⟨hdev, hw, hl⟩ := hs.clearing (by rw [hc]; nofun)
      have hfree : ∀ e, (s.lease e).lease = none := fun e => by
        refine Option.eq_none_iff_forall_ne_some.2 fun l hle => ?_
        obtain ⟨j, hj, -⟩ := hs.committing e l hle (hl e l hle)
        rw [hq] at hj
        exact List.not_mem_nil hj
      have hunl : ∀ k, Unleased s k := fun k e => by
        rw [leasedHandle, hfree e]
        nofun
      have hblank : ∀ k, (drained tk s).record k = RecState.blank := fun k => vector_get_replicate RecState.blank k
      have hslot : s.dirSlot = none := by
        have hcount : (s.queue.filter Job.isDirectory).length = if s.dirSlot.isSome then 1 else 0 := hs.slot
        rw [hq] at hcount
        cases hd : s.dirSlot with
        | none => rfl
        | some d => simp [hd] at hcount
      have hnil : s.allocQueue = [] := List.eq_nil_iff_forall_not_mem.2 fun k hk => ((hs.queued k).1 hk).2.1 (hw k)
      exact {
        unique := fun k e e' h1 _ => absurd h1 (hunl k e)
        once := hs.once
        queued := fun k => by
          rw [hblank]
          exact iff_of_false (by show k ∉ s.allocQueue; rw [hnil]; exact List.not_mem_nil) fun hk => hk.2.1 rfl
        empty := fun _ _ => hnil
        freezing := fun k hk => by rw [hblank] at hk; cases hk
        retiring := fun k hk => by rw [hblank] at hk; cases hk
        freezeSlot := fun k tk hk => absurd (hslot.symm.trans hk) nofun
        retireSlot := fun k tk hk => absurd (hslot.symm.trans hk) nofun
        undefined := fun k _ => ⟨hunl k, by rw [hblank]; rfl⟩
        fresh := fun k _ => by rw [hblank]; rfl
        committing := fun e l hl' _ => absurd ((hfree e).symm.trans hl') nofun
        slot := hs.slot
        clearing := fun _ => ⟨hdev, fun k => by rw [hblank]; rfl, fun e l hl' => absurd ((hfree e).symm.trans hl') nofun⟩
        starting := fun hd => absurd (hdev.symm.trans hd) nofun }
    next => exact hs
  next => exact hs

theorem startNext_consistent (hs : LeasesConsistent s) : LeasesConsistent (startNext s) :=
  leasesConsistent_of_tables (by rw [startNext_eq]; rfl) hs

/-- A record job ends: its lease, if there is still one, is freed and granted onward (03, R64, R65). -/
theorem recordEnd_consistent {rest : List Job} {c : Copy} {first pages : Nat} {gen : Word32} {k : Handle}
    (hs : LeasesConsistent s) (hq : s.queue = .record e k c first pages gen :: rest) (x : PerPort PortState) :
    ((s.lease e).lease = none → LeasesConsistent { s with ports := x, queue := rest })
      ∧ ∀ l, (s.lease e).lease = some l →
        LeasesConsistent (grantOnward e l.handle { freeLease e s with ports := x, queue := rest }) := by
  obtain ⟨hcount, hjobs⟩ := jobs_of_record hq
  refine ⟨fun hfree => ?_, fun l hl => endLease_consistent hs hl x hcount hjobs⟩
  have hdrop := dropJob_consistent hs hfree hcount hjobs fun hd => by
    have := (hs.starting hd).2.2.1
    rw [hq] at this
    cases this
  exact leasesConsistent_same hdrop rfl

theorem commitPoint_consistent {i : Job} {rest : List Job} (hs : LeasesConsistent s) (hq : s.queue = i :: rest)
    (m : List Host.Cell) : LeasesConsistent (commitPoint i { s with store := m, queue := rest }) := by
  refine reportDrained_consistent (startNext_consistent ?_)
  cases i with
  | record e h c first pages gen =>
    have hs' : LeasesConsistent (State.setRecord { s with store := m } h { s.record h with active := some c, gen := gen }) :=
      leasesConsistent_of_tables (tables_setRecord (s := { s with store := m }) rfl rfl rfl rfl)
        (leasesConsistent_same hs rfl)
    show LeasesConsistent (recordCommitPoint e h c gen { s with store := m, queue := rest })
    rw [recordCommitPoint]
    split
    next hfree => exact (recordEnd_consistent hs' hq s.ports).1 hfree
    next l hl =>
      rw [endLease, evaluateWatches_frame]
      generalize State.ports (evaluateWatches _ _) = y
      rw [completeIf_frame]
      generalize State.ports (completeIf _ _ _ _) = z
      exact (recordEnd_consistent hs' hq z).2 l hl
  | directory kind c gen =>
    have hs' : LeasesConsistent { s with store := m } := leasesConsistent_same hs rfl
    obtain ⟨⟨d, hd⟩, hcount, hjobs⟩ := jobs_of_directory hs' hq
    exact dirCommitPoint_consistent hs' hd hcount hjobs c gen

theorem postFault_frame (j : Job) (failing : Nat) (s : State) :
    postFault j failing s = { s with ports := (postFault j failing s).ports } := by
  rw [postFault]
  split
  · exact postNotice_frame _ _ s
  · rfl

theorem jobFault_consistent {i : Job} {rest : List Job} (hs : LeasesConsistent s) (hq : s.queue = i :: rest)
    (m : List Host.Cell) (failing : Nat) : LeasesConsistent (jobFault i failing { s with store := m, queue := rest }) := by
  refine reportDrained_consistent (startNext_consistent ?_)
  cases i with
  | record e h c first pages gen =>
    have hs' : LeasesConsistent (raiseFaultCount h { s with store := m }) :=
      leasesConsistent_of_tables (tables_setRecord (s := { s with store := m }) rfl rfl rfl rfl)
        (leasesConsistent_same hs rfl)
    show LeasesConsistent (recordFault e (postFault _ failing (raiseFaultCount h { s with store := m, queue := rest })))
    rw [postFault_frame, recordFault]
    split
    next hfree => exact (recordEnd_consistent hs' hq _).1 hfree
    next l hl =>
      rw [endLease, completeIf_frame]
      exact (recordEnd_consistent hs' hq _).2 l hl
  | directory kind c gen =>
    show LeasesConsistent (dirFault (postFault _ failing { s with store := m, queue := rest }))
    rw [postFault_frame]
    generalize (postFault (Job.directory kind c gen) failing { s with store := m, queue := rest }).ports = x
    have hs' : LeasesConsistent { s with store := m, ports := x } := leasesConsistent_same hs rfl
    obtain ⟨⟨d, hd⟩, hcount, hjobs⟩ := jobs_of_directory hs' hq
    have hd' : s.dirSlot = some d := hd
    simp only [dirFault, hd']
    exact leasesConsistent_of_tables (tables_complete d.ticket _ _ _) (undone_consistent hs' hd hcount hjobs)

theorem exec_pageMatch_leases (hs : LeasesConsistent s) (h : exec .pageMatch s = .next t) : LeasesConsistent t := by
  have h : execPageMatch s = .next t := h
  rw [execPageMatch] at h
  split at h
  next pos retry j rest heng hq =>
    split at h
    next =>
      split at h
      · injection h with h
        subst h
        exact leasesConsistent_same hs rfl
      · injection h with h
        subst h
        exact commitPoint_consistent hs hq _
    next => cases h
  next =>
    injection h with h
    exact h ▸ hs

theorem exec_eraseEnd_leases (hs : LeasesConsistent s) (h : exec .eraseEnd s = .next t) : LeasesConsistent t := by
  have h : execEraseEnd s = .next t := h
  rw [execEraseEnd] at h
  split at h
  next pos failing j rest heng hq =>
    split at h
    next =>
      injection h with h
      subst h
      exact jobFault_consistent hs hq _ failing
    next => cases h
  next =>
    injection h with h
    exact h ▸ hs

theorem exec_pageMismatch_leases (hs : LeasesConsistent s) (h : exec .pageMismatch s = .next t) : LeasesConsistent t := by
  rcases exec_pageMismatch_eq h with rfl | ⟨page, whole, x, rfl⟩
  · exact hs
  · obtain ⟨m, hm, -⟩ := spoilPage_cases page whole s
    rw [hm]
    exact leasesConsistent_same hs rfl

end

end Sys2Proof.Machine

/-! PROOF. The other commands that keep the lease table and the queues consistent (03, R48, R51): the directory requests,
PORT-RESET, FACTORY-CLEAR, start-up, and the transactions. -/

namespace Sys2Proof.Machine

open Sys2Proof.Safety
set_option deprecated.oldSectionVars true

section

variable {s t : State}

/-! ### The directory requests -/

theorem leaseView_congr (h : t.leases = s.leases) : leaseView t = leaseView s := by
  funext e
  rw [leaseView, leaseView, State.lease, State.lease, h]

theorem tables_removeWatches (drop : Watch → Bool) (s : State) : leaseTables (removeWatches drop s) = leaseTables s := rfl

theorem takeDirJob_consistent {u : State} {kind : DirKind} {j : DirJob} (hs : LeasesConsistent s) (hdev : s.dev = .ready)
    (hslot : s.dirSlot = none)
    (hframe : (u.leases, u.clear, u.dev, u.queue) = (s.leases, s.clear, s.dev, s.queue))
    (hentry : ∀ k, (u.record k).entry = (s.record k).entry) (hwait : ∀ k, (u.record k).waiters = (s.record k).waiters)
    (hfp : ∀ k, (u.record k).freezePending = true ↔ j.op = .freeze ∧ k = j.handle)
    (hrp : ∀ k, (u.record k).retirePending = true ↔ j.op = .retire ∧ k = j.handle)
    (hfreeze : j.op = .freeze → Unleased s j.handle)
    (hretire : j.op = .retire → Unleased s j.handle ∧ (s.record j.handle).waiters = [])
    (hdefine : ∀ x, j.op = .define x → (s.record j.handle).entry = none)
    (halloc : u.allocQueue = if j.op = .freeze then s.allocQueue.filter (fun k => k != j.handle) else s.allocQueue) :
    LeasesConsistent (takeDirJob kind j u) := by
  simp only [Prod.mk.injEq] at hframe
  obtain ⟨hleases, hclear, hdev', hqueue⟩ := hframe
  have hview : leaseView u = leaseView s := leaseView_congr hleases
  rw [takeDirJob_eq]
  refine takeDir_consistent (j := j) (kind := kind) (c := target u.activeDir) (gen := u.dirGen + 1#32) hs hdev hslot hview rfl hclear hdev' ?_ hentry hwait hfp hrp hfreeze hretire hdefine
    halloc
  exact congrArg (fun q => q ++ [Job.directory kind (target u.activeDir) (u.dirGen + 1#32)]) hqueue

/-- No flag is set while the slot is empty. -/
theorem noFlags (hs : LeasesConsistent s) (hslot : s.dirSlot = none) (k : Handle) {P Q : Prop} (hP : ¬ P) (hQ : ¬ Q) :
    ((s.record k).freezePending = true ↔ P) ∧ ((s.record k).retirePending = true ↔ Q) := by
  obtain ⟨hf, hr⟩ := flags_of_noSlot hs hslot k
  rw [hf, hr]
  exact ⟨iff_of_false nofun hP, iff_of_false nofun hQ⟩

theorem takeDefine_consistent (hs : LeasesConsistent s) (hdev : s.dev = .ready) (tk : Ticket) (f : DefineFields) :
    LeasesConsistent (takeDefine tk f s) := by
  simp only [takeDefine]
  split
  · exact leasesConsistent_of_tables (tables_complete tk _ _ s) hs
  next hj =>
    obtain ⟨hslot, hn⟩ := judgeDir_none hj
    generalize f.entry _ _ = x
    have hop : DirOp.define x ≠ .freeze ∧ DirOp.define x ≠ .retire := ⟨(by simp), (by simp)⟩
    exact takeDirJob_consistent hs hdev hslot rfl (fun _ => rfl) (fun _ => rfl)
      (fun k => (noFlags hs hslot k (fun h => hop.1 h.1) not_false).1)
      (fun k => (noFlags hs hslot k not_false (fun h => hop.2 h.1)).2) (fun h => absurd h hop.1) (fun h => absurd h hop.2)
      (fun _ _ => entry_of_defineRefusal hn) (if_neg hop.1).symm

theorem takeSetRights_consistent (hs : LeasesConsistent s) (hdev : s.dev = .ready) (tk : Ticket) (h : Handle)
    (r : PerPort Rights) : LeasesConsistent (takeSetRights tk h r s) := by
  rw [takeSetRights]
  split
  · exact leasesConsistent_of_tables (tables_complete tk _ _ s) hs
  · exact leasesConsistent_of_tables (tables_complete tk _ _ s) hs
  next hj =>
    obtain ⟨hslot, -⟩ := judgeDir_none hj
    have hop : DirOp.setRights r ≠ .freeze ∧ DirOp.setRights r ≠ .retire ∧ ∀ x, DirOp.setRights r ≠ .define x :=
      ⟨(by simp), (by simp), fun x => by simp⟩
    exact takeDirJob_consistent hs hdev hslot rfl (fun _ => rfl) (fun _ => rfl)
      (fun k => (noFlags hs hslot k (fun h => hop.1 h.1) not_false).1)
      (fun k => (noFlags hs hslot k not_false (fun h => hop.2.1 h.1)).2) (fun h => absurd h hop.1)
      (fun h => absurd h hop.2.1) (fun x h => absurd h (hop.2.2 x)) (if_neg hop.1).symm

theorem takeRetire_consistent (hs : LeasesConsistent s) (hdev : s.dev = .ready) (tk : Ticket) (h : Handle) :
    LeasesConsistent (takeRetire tk h s) := by
  rw [takeRetire]
  split
  · exact leasesConsistent_of_tables (tables_complete tk _ _ s) hs
  next hj =>
    obtain ⟨hslot, hn⟩ := judgeDir_none hj
    have hfree : s.recordFree h ∧ (s.record h).waiters = [] := by
      rw [retireRefusal] at hn
      split at hn
      · cases hn
      · split at hn
        next hc => exact hc
        next => cases hn
    have hrecord : ∀ k, (s.setRecord h { s.record h with retirePending := true }).record k
        = { s.record k with retirePending := if k = h then true else (s.record k).retirePending } := fun k => by
      rw [State.setRecord_record]
      split
      next heq => rw [← heq, if_pos rfl]
      next hne => rw [if_neg (Ne.symm hne)]
    have hop : DirOp.retire ≠ .freeze ∧ ∀ x, DirOp.retire ≠ .define x := ⟨(by simp), fun x => by simp⟩
    refine takeDirJob_consistent hs hdev hslot rfl (fun k => ?_) (fun k => ?_) (fun k => ?_) (fun k => ?_)
      (fun h => absurd h hop.1) (fun _ => ⟨State.recordFree_iff.1 hfree.1, hfree.2⟩) (fun x h => absurd h (hop.2 x))
      (if_neg hop.1).symm
    · rw [hrecord]
    · rw [hrecord]
    · rw [hrecord]
      exact (noFlags hs hslot k (fun h => hop.1 h.1) not_false).1
    · rw [hrecord]
      show (if k = h then true else (s.record k).retirePending) = true ↔ _
      rw [(flags_of_noSlot hs hslot k).2]
      simp

theorem takeFreeze_consistent (hs : LeasesConsistent s) (hdev : s.dev = .ready) (tk : Ticket) (h : Handle) :
    LeasesConsistent (takeFreeze tk h s) := by
  rw [takeFreeze]
  split
  · exact leasesConsistent_of_tables (tables_complete tk _ _ s) hs
  next hj =>
    obtain ⟨hslot, hn⟩ := judgeDir_none hj
    have hfree : s.recordFree h = true := by
      rw [freezeRefusal] at hn
      split at hn
      · cases hn
      · split at hn
        next hc => exact hc
        next => cases hn
    have hrecord : ∀ k, (leaveAlloc h (s.setRecord h { s.record h with freezePending := true })).record k
        = { s.record k with freezePending := if k = h then true else (s.record k).freezePending } := fun k => by
      show (s.setRecord h _).record k = _
      rw [State.setRecord_record]
      split
      next heq => rw [← heq, if_pos rfl]
      next hne => rw [if_neg (Ne.symm hne)]
    have hop : DirOp.freeze ≠ .retire ∧ ∀ x, DirOp.freeze ≠ .define x := ⟨(by simp), fun x => by simp⟩
    refine takeDirJob_consistent hs hdev hslot rfl (fun k => ?_) (fun k => ?_) (fun k => ?_) (fun k => ?_)
      (fun _ => State.recordFree_iff.1 hfree) (fun h => absurd h hop.1) (fun x h => absurd h (hop.2 x)) (if_pos rfl).symm
    · rw [hrecord]
    · rw [hrecord]
    · rw [hrecord]
      show (if k = h then true else (s.record k).freezePending) = true ↔ _
      rw [(flags_of_noSlot hs hslot k).1]
      simp
    · rw [hrecord]
      exact (noFlags hs hslot k not_false (fun h => hop.1 h.1)).2

/-! ### PORT-RESET -/

theorem removePortWaiters_consistent (hs : LeasesConsistent s) (p : Port) : LeasesConsistent (removePortWaiters p s) := by
  have hflags : recordFlags (removePortWaiters p s) = recordFlags s := by
    funext k
    rw [recordFlags, recordFlags, removePortWaiters_record]
  refine leasesConsistent_fewerWaiters hs ?_ (fun k hk => ?_) (hs.once.filter _) (fun k => ?_)
  · simp only [leaseFrame, hflags]
    rfl
  · rw [removePortWaiters_record, hk]
    rfl
  · show k ∈ s.allocQueue.filter (fun h => !((removePortWaiters p s).record h).waiters.isEmpty) ↔ _
    rw [List.mem_filter, Bool.not_eq_true', ← Bool.not_eq_true, List.isEmpty_iff]

/-- One entry of the port that is reset (03, R67 step 2). -/
theorem resetEntry_consistent (hs : LeasesConsistent s) (p : Port) (e : EntryNo) : LeasesConsistent (resetEntry p s e) := by
  unfold resetEntry
  split
  · exact hs
  next l hl =>
    split
    · split
      · exact grantOnward_of_lease hs hl s.ports
      · split
        · refine endLease_consistent hs hl s.ports (q := (removeUnstarted (Job.isRecordOf e) s).queue) ?_ fun e' he i hi hrec => ?_
          · exact congrArg List.length (acts_removeUnstarted e s).jobs
          · rw [← List.take_append_drop 1 s.queue] at hi
            refine List.mem_append.2 ((List.mem_append.1 hi).imp_right fun hi => List.mem_filter.2 ⟨hi, ?_⟩)
            have hne : Job.isRecordOf e i ≠ true := fun hrec' => by
              cases i with
              | record e'' h c first pages gen => exact he ((beq_iff_eq.1 hrec).symm.trans (beq_iff_eq.1 hrec'))
              | directory kind c gen => cases hrec
            rw [Bool.eq_false_iff.2 hne]
            rfl
        · exact hs
    · exact hs

theorem resetDirJob_consistent (hs : LeasesConsistent s) (p : Port) : LeasesConsistent (resetDirJob p s) := by
  unfold resetDirJob
  split
  · exact hs
  next d hd =>
    split
    next hcond =>
      have hrest : removeUnstarted Job.isDirectory s = { s with queue := (removeUnstarted Job.isDirectory s).queue } := rfl
      rw [hrest]
      refine undone_consistent hs hd
        (unstarted_directory_gone hs.slot hd hcond.2) fun i hi hdir => ?_
      rw [← List.take_append_drop 1 s.queue] at hi
      refine List.mem_append.2 ((List.mem_append.1 hi).imp_right fun hi => List.mem_filter.2 ⟨hi, ?_⟩)
      rw [hdir]
      rfl
    next => exact hs

theorem takePortReset_consistent (hs : LeasesConsistent s) (tk : Ticket) : LeasesConsistent (takePortReset tk s) := by
  have hfold : ∀ (es : List EntryNo) (u : State), LeasesConsistent u →
      LeasesConsistent (es.foldl (resetEntry tk.port) u) := by
    intro es
    induction es with
    | nil => exact fun u hu => hu
    | cons e es ih => exact fun u hu => ih _ (resetEntry_consistent hu tk.port e)
  have hport : LeasesConsistent (s.setPort tk.port ((s.port tk.port).reset tk.tag)) := leasesConsistent_same hs rfl
  have hentries := hfold allEntries _ (removePortWaiters_consistent hport tk.port)
  refine leasesConsistent_of_tables (tables_complete tk _ _ _) (resetDirJob_consistent ?_ tk.port)
  exact leasesConsistent_of_tables (tables_removeWatches _ _) hentries

/-! ### FACTORY-CLEAR -/

/-- The entry is HELD. -/
def isHeld (x : LeaseEntry) : Bool := x.lease.any fun l => l.phase == .held

theorem clearWaiters_eq (s : State) (h : Handle) :
    clearWaiters s h = { s.setWaiters h [] with ports := (clearWaiters s h).ports } := by
  rw [clearWaiters, answerAll_frame]

/-- Every wait queue of the list is emptied, and nothing else of the tables changes. -/
theorem clearWaiters_fold (hs : List Handle) (s : State) :
    leaseFrame (hs.foldl clearWaiters s) = leaseFrame s
      ∧ ∀ k, ((hs.foldl clearWaiters s).record k).waiters = if k ∈ hs then [] else (s.record k).waiters := by
  induction hs generalizing s with
  | nil => exact ⟨rfl, fun k => (if_neg List.not_mem_nil).symm⟩
  | cons h hs ih =>
    have hframe : leaseFrame (clearWaiters s h) = leaseFrame s := by
      rw [clearWaiters_eq]
      exact leaseFrame_setWaiters s h []
    have hwait : ∀ k, ((clearWaiters s h).record k).waiters = if k = h then [] else (s.record k).waiters := fun k => by
      rw [clearWaiters_eq]
      exact setWaiters_waiters s h k []
    obtain ⟨h1, h2⟩ := ih (clearWaiters s h)
    refine ⟨h1.trans hframe, fun k => (h2 k).trans ?_⟩
    rw [hwait]
    by_cases hk : k ∈ hs
    · rw [if_pos hk, if_pos (List.mem_cons_of_mem h hk)]
    · rw [if_neg hk]
      by_cases hkh : k = h
      · rw [if_pos hkh, if_pos (hkh ▸ List.mem_cons_self)]
      · rw [if_neg hkh, if_neg fun hm => (List.mem_cons.1 hm).elim hkh hk]

theorem clearAllWaiters_tables (s : State) :
    leaseFrame (clearAllWaiters s) = leaseFrame s ∧ (clearAllWaiters s).allocQueue = []
      ∧ ∀ k, ((clearAllWaiters s).record k).waiters = [] := by
  obtain ⟨h1, h2⟩ := clearWaiters_fold allHandles s
  rw [clearAllWaiters]
  generalize allHandles.foldl clearWaiters s = u at h1 h2 ⊢
  exact ⟨h1, rfl, fun k => (h2 k).trans (if_pos (List.mem_finRange k))⟩

/-- A HELD entry is freed, and nothing else of the tables changes (03, R69 step 2). -/
theorem revokeEntry_eq (s : State) (e : EntryNo) :
    revokeEntry s e = if isHeld (s.lease e) then { freeLease e s with ports := (revokeEntry s e).ports } else s := by
  unfold revokeEntry
  split
  next hl => rw [isHeld, hl]; rfl
  next l hl =>
    rw [isHeld, hl]
    split
    next hp => rw [Option.any_some, hp]; rfl
    next hp =>
      rw [Option.any_some, hp, postNotice_frame]
      rfl

theorem revokeEntry_lease (s : State) (e e' : EntryNo) :
    (revokeEntry s e).lease e' = if e' = e ∧ isHeld (s.lease e) = true then { s.lease e with lease := none } else s.lease e' := by
  rw [revokeEntry_eq]
  split
  next hheld =>
    show (s.setLease e _).lease e' = _
    rw [State.setLease_lease]
    by_cases he : e' = e
    · rw [if_pos he.symm, if_pos ⟨he, hheld⟩]
    · rw [if_neg (Ne.symm he), if_neg fun h => he h.1]
  next hheld => rw [if_neg fun h => hheld h.2]

/-- After the entries of the list have been revoked, none of them is HELD. -/
theorem revokeEntry_fold (es : List EntryNo) (s : State) (e : EntryNo) :
    (es.foldl revokeEntry s).lease e = if e ∈ es ∧ isHeld (s.lease e) = true then { s.lease e with lease := none } else s.lease e := by
  induction es generalizing s with
  | nil => rw [if_neg fun h => List.not_mem_nil h.1]; rfl
  | cons e' es ih =>
    rw [List.foldl_cons, ih]
    by_cases he : e = e'
    · subst he
      have hown : (revokeEntry s e).lease e = if isHeld (s.lease e) then { s.lease e with lease := none } else s.lease e := by
        rw [revokeEntry_lease]
        simp only [true_and]
      rw [hown]
      by_cases hheld : isHeld (s.lease e) = true
      · rw [if_pos hheld, if_neg fun h => absurd h.2 nofun, if_pos ⟨List.mem_cons_self, hheld⟩]
      · rw [if_neg hheld, if_neg fun h => hheld h.2, if_neg fun h => hheld h.2]
    · have hother : (revokeEntry s e').lease e = s.lease e := by rw [revokeEntry_lease, if_neg fun h => he h.1]
      rw [hother]
      simp only [List.mem_cons, he, false_or]

theorem allEntries_revoked (s : State) (e : EntryNo) (l : Lease)
    (hl : ((allEntries.foldl revokeEntry s).lease e).lease = some l) : (s.lease e).lease = some l ∧ l.phase = .committing := by
  rw [revokeEntry_fold] at hl
  split at hl
  · cases hl
  next hne =>
    refine ⟨hl, ?_⟩
    cases hp : l.phase with
    | committing => rfl
    | held => exact absurd ⟨List.mem_finRange e, by rw [isHeld, hl, Option.any_some, hp]; rfl⟩ hne

/-- The device state and the clear slot change where nothing waits and nothing is HELD, or where no clear is carried
out. -/
theorem leasesConsistent_devChanged {d : DevState} {c : Option ClearSlot} (hs : LeasesConsistent s) (hd : d ≠ .starting)
    (hc : c ≠ none → d = .clearing ∧ (∀ h : Handle, (s.record h).waiters = []) ∧
      ∀ e l, (s.lease e).lease = some l → l.phase = .committing) : LeasesConsistent { s with dev := d, clear := c } where
  unique := hs.unique
  once := hs.once
  queued := hs.queued
  empty := hs.empty
  freezing := hs.freezing
  retiring := hs.retiring
  freezeSlot := hs.freezeSlot
  retireSlot := hs.retireSlot
  undefined := hs.undefined
  fresh := hs.fresh
  committing := hs.committing
  slot := hs.slot
  clearing := hc
  starting := fun h => absurd h hd

/-- Where nothing waits, the revocation of a HELD entry keeps the invariant, the clear slot left out of account. -/
theorem revokeEntry_consistent (hs : LeasesConsistent { s with clear := none }) (hw : ∀ k, (s.record k).waiters = [])
    (hdev : s.dev ≠ .starting) (e : EntryNo) : LeasesConsistent { revokeEntry s e with clear := none } := by
  rw [revokeEntry_eq]
  split
  · generalize State.ports (revokeEntry s e) = x
    exact leasesConsistent_freed (t := { freeLease e s with ports := x, clear := none }) hs hw rfl (freeLease_lease s e)
      (fun e' he => leaseView_freeLease s he) rfl (fun _ => rfl) rfl (fun _ _ _ hj _ => hj) (fun hd => absurd hd hdev)
  · exact hs

theorem revokeEntry_rest (s : State) (e : EntryNo) :
    (∀ k, (revokeEntry s e).record k = s.record k) ∧ (revokeEntry s e).dev = s.dev ∧ (revokeEntry s e).clear = s.clear
      ∧ (revokeEntry s e).queue = s.queue := by
  rw [revokeEntry_eq]
  split
  · exact ⟨fun _ => rfl, rfl, rfl, rfl⟩
  · exact ⟨fun _ => rfl, rfl, rfl, rfl⟩

theorem revokeEntries_consistent (es : List EntryNo) (hs : LeasesConsistent { s with clear := none })
    (hw : ∀ k, (s.record k).waiters = []) (hdev : s.dev ≠ .starting) :
    LeasesConsistent { es.foldl revokeEntry s with clear := none }
      ∧ (∀ k, ((es.foldl revokeEntry s).record k).waiters = []) ∧ (es.foldl revokeEntry s).dev = s.dev
      ∧ (es.foldl revokeEntry s).clear = s.clear := by
  induction es generalizing s with
  | nil => exact ⟨hs, hw, rfl, rfl⟩
  | cons e es ih =>
    obtain ⟨hrec, hd, hc, -⟩ := revokeEntry_rest s e
    obtain ⟨h1, h2, h3, h4⟩ := ih (revokeEntry_consistent hs hw hdev e) (fun k => (congrArg RecState.waiters (hrec k)).trans (hw k))
      (by rw [hd]; exact hdev)
    exact ⟨h1, h2, h3.trans hd, h4.trans hc⟩

theorem undoTaking_queue_clear (d : DirJob) (s : State) (x : PerPort PortState) (q : List Job) :
    leaseTables { undoTaking d s with ports := x, queue := q, clear := none }
      = leaseTables (undoTaking d { s with queue := q, clear := none }) := by
  obtain ⟨op, h, tk⟩ := d
  cases op <;> rfl

/-- A record job that has not started is removed: its lease, if there is one, is freed (03, R69 step 3). -/
theorem clearJob_record_consistent {e : EntryNo} {h : Handle} {c : Copy} {first pages : Nat} {gen : Word32}
    {q js : List Job} (hs : LeasesConsistent { s with queue := q ++ .record e h c first pages gen :: js, clear := none })
    (hw : ∀ k, (s.record k).waiters = []) (hdev : s.dev ≠ .starting) :
    LeasesConsistent { clearJob s (.record e h c first pages gen) with queue := q ++ js, clear := none } := by
  have hcount : ((q ++ js).filter Job.isDirectory).length
      = ((q ++ .record e h c first pages gen :: js).filter Job.isDirectory).length := by
    rw [List.filter_append, List.filter_append]
    rfl
  have hjobs : ∀ e', e' ≠ e → ∀ i ∈ q ++ .record e h c first pages gen :: js, Job.isRecordOf e' i = true → i ∈ q ++ js := by
    intro e' he i hi hrec
    refine List.mem_append.2 ((List.mem_append.1 hi).imp_right fun hi => (List.mem_cons.1 hi).resolve_left ?_)
    rintro rfl
    exact he (beq_iff_eq.1 hrec).symm
  simp only [clearJob]
  split
  next hfree => exact dropJob_consistent hs hfree hcount hjobs fun hd => absurd hd hdev
  next l hl =>
    rw [completeIf_frame]
    generalize State.ports (completeIf _ _ _ _) = x
    exact leasesConsistent_freed (t := { freeLease e s with ports := x, queue := q ++ js, clear := none }) hs hw rfl
      (freeLease_lease s e) (fun e' he => leaseView_freeLease s he) rfl (fun _ => rfl) hcount hjobs
      (fun hd => absurd hd hdev)

/-- The directory job, when it has not started, is undone (01, R12). -/
theorem clearJob_directory_consistent {kind : DirKind} {c : Copy} {gen : Word32} {q js : List Job}
    (hs : LeasesConsistent { s with queue := q ++ .directory kind c gen :: js, clear := none })
    (hw : ∀ k, (s.record k).waiters = []) :
    LeasesConsistent { clearJob s (.directory kind c gen) with queue := q ++ js, clear := none } := by
  have hcount : ((q ++ .directory kind c gen :: js).filter Job.isDirectory).length = if s.dirSlot.isSome then 1 else 0 :=
    hs.slot
  rw [(List.Perm.length_eq (List.perm_middle.filter _)), List.filter_cons_of_pos rfl, List.length_cons] at hcount
  cases hd : s.dirSlot with
  | none => simp [hd] at hcount
  | some d =>
    have hnone : (q ++ js).filter Job.isDirectory = [] := List.eq_nil_of_length_eq_zero (by simpa [hd] using hcount)
    have hundo := undoTaking_consistent (q := q ++ js) hs hd hnone (fun i hi hdir => ?_) (fun _ => hw _)
    · simp only [clearJob, hd]
      rw [complete_frame]
      generalize State.ports (complete _ _ _ _) = x
      exact leasesConsistent_of_tables (undoTaking_queue_clear d s x (q ++ js)) hundo
    · refine List.mem_append.2 ((List.mem_append.1 hi).imp_right fun hi => (List.mem_cons.1 hi).resolve_left ?_)
      rintro rfl
      cases hdir

/-- What the removal of a job leaves. -/
theorem clearJob_rest (s : State) (j : Job) :
    (∀ k, ((clearJob s j).record k).waiters = (s.record k).waiters) ∧ (clearJob s j).dev = s.dev
      ∧ (clearJob s j).clear = s.clear
      ∧ ∀ e l, ((clearJob s j).lease e).lease = some l → (s.lease e).lease = some l := by
  cases j with
  | record e h c first pages gen =>
    simp only [clearJob]
    split
    · exact ⟨fun _ => rfl, rfl, rfl, fun _ _ hl => hl⟩
    · rw [completeIf_frame]
      refine ⟨fun _ => rfl, rfl, rfl, fun e' l' hl' => ?_⟩
      have hl' : ((s.setLease e { s.lease e with lease := none }).lease e').lease = some l' := hl'
      rw [State.setLease_lease] at hl'
      split at hl'
      · cases hl'
      · exact hl'
  | directory kind c gen =>
    simp only [clearJob]
    split
    · exact ⟨fun _ => rfl, rfl, rfl, fun _ _ hl => hl⟩
    next d _ =>
      rw [complete_frame]
      have hframe := undoTaking_frame d s
      refine ⟨fun k => ?_, ?_, ?_, fun e l hl => ?_⟩
      · show ((undoTaking d s).record k).waiters = _
        rw [undoTaking_record]
        rfl
      · show (undoTaking d s).dev = _
        rw [hframe]
      · show (undoTaking d s).clear = _
        rw [hframe]
      · have hl : ((undoTaking d s).lease e).lease = some l := hl
        rw [hframe] at hl
        exact hl

theorem clearJobs_fold_consistent (q js : List Job) (hs : LeasesConsistent { s with queue := q ++ js, clear := none })
    (hw : ∀ k, (s.record k).waiters = []) (hdev : s.dev ≠ .starting) :
    LeasesConsistent { js.foldl clearJob s with queue := q, clear := none }
      ∧ (∀ k, ((js.foldl clearJob s).record k).waiters = []) ∧ (js.foldl clearJob s).dev = s.dev
      ∧ (js.foldl clearJob s).clear = s.clear
      ∧ ∀ e l, ((js.foldl clearJob s).lease e).lease = some l → (s.lease e).lease = some l := by
  induction js generalizing s with
  | nil =>
    rw [List.append_nil] at hs
    exact ⟨hs, hw, rfl, rfl, fun _ _ hl => hl⟩
  | cons j js ih =>
    obtain ⟨hrec, hd, hc, hl⟩ := clearJob_rest s j
    have hnext : LeasesConsistent { clearJob s j with queue := q ++ js, clear := none } := by
      cases j with
      | record e h c first pages gen => exact clearJob_record_consistent hs hw hdev
      | directory kind c gen => exact clearJob_directory_consistent hs hw
    obtain ⟨h1, h2, h3, h4, h5⟩ := ih hnext (fun k => (hrec k).trans (hw k)) (by rw [hd]; exact hdev)
    exact ⟨h1, h2, h3.trans hd, h4.trans hc, fun e l he => hl e l (h5 e l he)⟩

theorem takeFactoryClear_consistent (hs : LeasesConsistent s) (hdev : s.dev = .ready ∨ s.dev = .damaged) (tk : Ticket) :
    LeasesConsistent (takeFactoryClear tk s) := by
  have hclear : s.clear = none := by_contra fun hc => by
    rcases hdev with h | h <;> exact absurd (h.symm.trans (hs.clearing hc).1) nofun
  rw [takeFactoryClear]
  refine reportDrained_consistent ?_
  have hstart : LeasesConsistent { s with dev := .clearing, clear := none } :=
    leasesConsistent_devChanged hs nofun (fun h => absurd rfl h)
  obtain ⟨hframe, hnil, hw⟩ := clearAllWaiters_tables { s with dev := .clearing, clear := some ⟨tk, .draining⟩ }
  generalize clearAllWaiters _ = u at hframe hnil hw ⊢
  simp only [leaseFrame, Prod.mk.injEq] at hframe
  obtain ⟨hview, hflags, hslot, hqueue, hclear', hdev'⟩ := hframe
  have hu : LeasesConsistent { u with clear := none } := by
    refine leasesConsistent_fewerWaiters hstart ?_ (fun k _ => hw k) ?_ (fun k => ?_)
    · simp only [leaseFrame, Prod.mk.injEq]
      exact ⟨hview, hflags, hslot, hqueue, trivial, hdev'⟩
    · show u.allocQueue.Nodup
      rw [hnil]
      exact List.nodup_nil
    · show k ∈ u.allocQueue ↔ _ ∧ (u.record k).waiters ≠ []
      rw [hnil, hw]
      exact iff_of_false List.not_mem_nil fun h => h.2 rfl
  have hheld := allEntries_revoked u
  obtain ⟨hv, hvw, hvd, hvc⟩ := revokeEntries_consistent allEntries hu hw (by rw [hdev']; nofun)
  generalize allEntries.foldl revokeEntry u = v at hheld hv hvw hvd hvc ⊢
  have hsplit : LeasesConsistent { v with queue := v.queue.take 1 ++ v.unstarted, clear := none } := by
    rw [State.unstarted, List.take_append_drop]
    exact hv
  have hvd' : v.dev = .clearing := hvd.trans hdev'
  obtain ⟨h1, h2, h3, h4, h5⟩ := clearJobs_fold_consistent (s := { v with queue := v.queue.take 1 }) (v.queue.take 1) v.unstarted
    hsplit hvw (by show v.dev ≠ _; rw [hvd']; nofun)
  have hq := clearJobs_queue v
  rw [Machine.clearJobs] at hq ⊢
  generalize v.unstarted.foldl clearJob { v with queue := v.queue.take 1 } = w at h1 h2 h3 h4 h5 hq ⊢
  have hwd : w.dev = .clearing := h3.trans hvd'
  have hend := leasesConsistent_devChanged (d := .clearing) (c := w.clear) h1 nofun fun _ =>
    ⟨rfl, h2, fun e l hl => (hheld e l (h5 e l hl)).2⟩
  rw [← hq, ← hwd] at hend
  exact hend

/-! ### Start-up, the end of a bulk erase, and the expiries -/

/-- Nothing is leased, nothing waits and nothing is pending. -/
theorem leasesConsistent_blank (hfree : ∀ e, (s.lease e).lease = none) (halloc : s.allocQueue = [])
    (hrec : ∀ k, (s.record k).waiters = [] ∧ (s.record k).freezePending = false ∧ (s.record k).retirePending = false)
    (hslot : s.dirSlot = none) (hqueue : s.queue = []) (hclear : s.clear = none) : LeasesConsistent s := by
  have hunl : ∀ k, Unleased s k := fun k e => by
    rw [leasedHandle, hfree e]
    nofun
  exact {
    unique := fun k e _ h1 _ => absurd h1 (hunl k e)
    once := by rw [halloc]; exact List.nodup_nil
    queued := fun k => by
      rw [halloc]
      exact iff_of_false List.not_mem_nil fun h => h.2.1 (hrec k).1
    empty := fun _ _ => halloc
    freezing := fun k hk => absurd ((hrec k).2.1.symm.trans hk) nofun
    retiring := fun k hk => absurd ((hrec k).2.2.symm.trans hk) nofun
    freezeSlot := fun k tk hk => absurd (hslot.symm.trans hk) nofun
    retireSlot := fun k tk hk => absurd (hslot.symm.trans hk) nofun
    undefined := fun k _ => ⟨hunl k, (hrec k).1⟩
    fresh := fun k hk => by
      rw [State.definePending, hslot] at hk
      cases hk
    committing := fun e l hl _ => absurd ((hfree e).symm.trans hl) nofun
    slot := by
      rw [SlotMatchesQueue, hqueue, hslot]
      rfl
    clearing := fun hc => absurd hclear hc
    starting := fun _ => ⟨hfree, fun k => (hrec k).1, hqueue, hslot⟩ }

theorem exec_deviceReset_leases {c : Instr} (hc : isDeviceReset c = true) (h : exec c s = .next t) : LeasesConsistent t := by
  obtain ⟨u, hu, ht, -⟩ := exec_deviceReset_afresh c s hc
  obtain rfl : t = u := by rw [hu] at h; cases h; rfl
  rw [ht]
  refine leasesConsistent_blank (fun e => congrArg LeaseEntry.lease (reset_lease e)) rfl (fun k => ?_) rfl rfl rfl
  have hblank : State.reset.record k = RecState.blank := reset_record k
  exact ⟨congrArg RecState.waiters hblank, congrArg RecState.freezePending hblank, congrArg RecState.retirePending hblank⟩

theorem exec_scanEnd_leases (hs : LeasesConsistent s) (h : exec .scanEnd s = .next t) : LeasesConsistent t := by
  have h : execScanEnd s = .next t := h
  rw [execScanEnd] at h
  split at h
  next hcond =>
    obtain ⟨hfree, hw, hqueue, hslot⟩ := hs.starting hcond.2
    have hclear : s.clear = none := by_contra fun hc => absurd (hcond.2.symm.trans (hs.clearing hc).1) nofun
    have halloc := hs.empty 0 (hfree 0)
    have hpost : ∀ (n : Notice) (u : State), LeasesConsistent u → LeasesConsistent (postAll n u) := fun n u hu =>
      leasesConsistent_same hu (by rw [postAll_frame]; rfl)
    cases hchoice : chooseDirectory s.store with
    | region c =>
      rw [hchoice] at h
      injection h with h
      subst h
      refine hpost _ _ (leasesConsistent_blank hfree halloc (fun k => ?_) hslot hqueue hclear)
      have hrec : ({ takeRegion c s with dev := .ready } : State).record k = _ := takeRegion_record c s k
      rw [hrec, scanRecord_blank]
      exact ⟨rfl, rfl, rfl⟩
    | nothing =>
      rw [hchoice] at h
      injection h with h
      subst h
      refine hpost _ _ (leasesConsistent_blank hfree halloc (fun k => ?_) hslot hqueue hclear)
      have hrec : ({ takeEmpty s with dev := .ready } : State).record k = _ := takeEmpty_record s k
      rw [hrec]
      exact ⟨rfl, rfl, rfl⟩
    | damaged =>
      rw [hchoice] at h
      injection h with h
      subst h
      exact hpost _ _ (leasesConsistent_blank hfree halloc
        (fun k => ⟨hw k, (flags_of_noSlot hs hslot k).1, (flags_of_noSlot hs hslot k).2⟩) hslot hqueue hclear)
  next =>
    injection h with h
    exact h ▸ hs

theorem exec_bulkEraseEnd_leases (hs : LeasesConsistent s) (h : exec .bulkEraseEnd s = .next t) : LeasesConsistent t := by
  have h : execBulkEraseEnd s = .next t := h
  rw [execBulkEraseEnd] at h
  split at h
  next tk hc =>
    injection h with h
    subst h
    have hready := leasesConsistent_devChanged (d := .ready) (c := none) hs nofun fun h => absurd rfl h
    refine leasesConsistent_of_tables (tables_complete tk _ _ _) (leasesConsistent_same hready ?_)
    rw [postAll_frame]
    rfl
  next =>
    injection h with h
    exact h ▸ hs

theorem exec_holdExpiry_leases {e : EntryNo} (hs : LeasesConsistent s) (h : exec (.holdExpiry e) s = .next t) :
    LeasesConsistent t := by
  have h : execHoldExpiry e s = .next t := h
  rw [execHoldExpiry] at h
  split at h
  next l hl =>
    split at h
    · injection h with h
      subst h
      rw [postNotice_frame]
      exact grantOnward_of_lease hs hl _
    · injection h with h
      exact h ▸ hs
  next =>
    injection h with h
    exact h ▸ hs

theorem exec_waitExpiry_leases {p : Port} {u : Tag} (hs : LeasesConsistent s) (h : exec (.waitExpiry p u) s = .next t) :
    LeasesConsistent t := by
  have h : execWaitExpiry p u s = .next t := h
  rw [execWaitExpiry] at h
  split at h
  next k w hw =>
    split at h
    · injection h with h
      subst h
      exact leasesConsistent_of_tables (tables_complete w.ticket _ _ _) (dropWaiter_consistent hs k p u)
    · injection h with h
      exact h ▸ hs
  next =>
    injection h with h
    exact h ▸ hs

theorem tick_tables (s : State) : leaseTables (tick s) = leaseTables s := by
  have hview : leaseView (tick s) = leaseView s := by
    funext e
    rw [leaseView, tick_lease, tickLease, Option.map_map, leaseView]
    rfl
  have hflags : recordFlags (tick s) = recordFlags s := by
    funext k
    rw [recordFlags, tick_record, recordFlags]
  have hwait : (fun k => ((tick s).record k).waiters.isEmpty) = fun k => (s.record k).waiters.isEmpty := by
    funext k
    rw [tick_record]
    show ((s.record k).waiters.map tickWaiter).isEmpty = _
    rw [List.isEmpty_map]
  simp only [leaseTables, leaseFrame, hview, hflags, hwait]
  rfl

/-! ### Transactions and requests -/

theorem tables_setPort (p : Port) (x : PortState) (s : State) : leaseTables (s.setPort p x) = leaseTables s := rfl

theorem tables_driveItem (p : Port) (item : List Byte) (n : Nat) (s : State) :
    leaseTables (driveItem p item n s) = leaseTables s := by
  rw [driveItem]
  split <;> rfl

theorem tables_driveWritten (p : Port) (n : Nat) (s : State) : leaseTables (driveWritten p n s) = leaseTables s := by
  rw [driveWritten]
  split <;> rfl

/-- A transaction is none of the tables. -/
theorem exec_transaction_tables {c : Instr} {p : Port} (hc : transactionPort c = some p) (h : exec c s = .next t) :
    leaseTables t = leaseTables s := by
  cases c with
  | unknownCodeByte q code extra =>
    have h : execUnknownCodeByte q code extra s = .next t := h
    rw [execUnknownCodeByte] at h
    split at h
    · split at h
      · cases h
        rfl
      · injection h with h
        subst h
        refine (tables_setPort _ _ _).trans ?_
        split <;> rfl
    · injection h with h
      exact h ▸ rfl
  | submit q frame =>
    have h : execSubmit q frame s = .next t := h
    simp only [execSubmit] at h
    split at h
    · split at h
      · injection h with h
        exact h ▸ (tables_setPort _ _ _).trans (tables_driveWritten q _ s)
      · injection h with h
        subst h
        refine Eq.trans ?_ (tables_driveWritten q frame.length s)
        rw [tagCheck]
        split <;> rfl
    · injection h with h
      exact h ▸ rfl
  | fetchResponse q n =>
    have h : execFetchResponse q n s = .next t := h
    simp only [execFetchResponse] at h
    split at h
    · split at h
      · split at h
        · injection h with h
          exact h ▸ tables_driveItem q _ n s
        · split at h
          · injection h with h
            exact h ▸ (tables_setPort _ _ _).trans (tables_driveItem q _ n s)
          · injection h with h
            exact h ▸ tables_driveItem q _ n s
      · cases h
        rfl
    · injection h with h
      exact h ▸ rfl
  | fetchNotice q n =>
    have h : execFetchNotice q n s = .next t := h
    simp only [execFetchNotice] at h
    split at h
    · split at h
      · split at h
        · injection h with h
          exact h ▸ tables_driveItem q _ n s
        · split at h
          · injection h with h
            exact h ▸ (tables_setPort _ _ _).trans (tables_driveItem q _ n s)
          · injection h with h
            exact h ▸ tables_driveItem q _ n s
      · cases h
        rfl
    · injection h with h
      exact h ▸ rfl
  | status q n =>
    have h : execStatus q n s = .next t := h
    simp only [execStatus] at h
    split at h
    · split at h
      · split at h
        · injection h with h
          exact h ▸ (tables_setPort _ _ _).trans (tables_driveItem q _ n s)
        · injection h with h
          exact h ▸ tables_driveItem q _ n s
      · cases h
        rfl
    · injection h with h
      exact h ▸ rfl
  | readSelection q sel extra =>
    have h : execReadSelection q sel extra s = .next t := h
    simp only [execReadSelection] at h
    split at h
    · split at h
      · split at h
        · injection h with h
          exact h ▸ (tables_setPort _ _ _).trans (tables_driveWritten q extra s)
        · injection h with h
          exact h ▸ ((tables_setPort _ _ _).trans (tables_setPort _ _ _)).trans (tables_driveWritten q extra s)
      · cases h
        rfl
    · injection h with h
      exact h ▸ rfl
  | _ => cases hc

theorem handlePasses_of_admission {p : Port} {r : Req} (h : admission s p r = none) : handlePasses s p r = true := by
  rw [admission] at h
  split at h
  · cases h
  · split at h
    · cases h
    · split at h
      · cases h
      next hn => simpa using hn

theorem defined_of_needVisible {b : Byte} {rights : Handle → Rights} (h : needVisible s b rights = true) :
    (s.record (toHandle b)).entry ≠ none := by
  rw [needVisible, Bool.and_eq_true, Bool.and_eq_true] at h
  exact Option.isSome_iff_ne_none.1 h.1.2

/-- The owner of an admitted request keeps the invariant. -/
theorem ownerOf_consistent {p : Port} {tk : Ticket} {r : Req} (hs : LeasesConsistent s) (ha : admission s p r = none) :
    LeasesConsistent (ownerOf p tk r s) := by
  have hanswer : ∀ code body u, leaseTables u = leaseTables s → LeasesConsistent (complete tk code body u) :=
    fun code body u hu => leasesConsistent_of_tables ((tables_complete tk code body u).trans hu) hs
  have hserved := kindServed_of_admission ha
  have hready : r.kind ≠ .deviceInfo → r.kind ≠ .setAttention → r.kind ≠ .portReset → r.kind ≠ .factoryClear →
      s.dev = .ready := fun h1 h2 h3 h4 => by
    rcases hserved with h | h | h | h | ⟨-, h⟩
    exacts [h, absurd h h1, absurd h h2, absurd h h3, absurd h h4]
  have hpasses := handlePasses_of_admission ha
  cases r with
  | read b t o n =>
    rw [ownerOf]
    split
    · exact hanswer _ _ _ rfl
    · exact withLeaseOn_consistent hs fun e l _ => hanswer _ _ _ rfl
  | acquire b w =>
    have hvisible : needVisible s b (fun h => s.rightsOf h p) = true := hpasses
    exact takeAcquire_consistent hs (hready nofun nofun nofun nofun) (defined_of_needVisible hvisible) tk w
  | stage t o d =>
    exact withLease_consistent hs fun e l hl => leasesConsistent_of_tables (takeStage_tables hl tk o d) hs
  | add b t d =>
    rw [ownerOf]
    split
    · have hvisible : needVisible s b (fun h => s.rightsFor p h t) = true := hpasses
      exact takeFreeAdd_consistent hs (hready nofun nofun nofun nofun) (defined_of_needVisible hvisible) tk d
    · exact withLeaseOn_consistent hs fun e l hl => leasesConsistent_of_tables (takeTokenAdd_tables hl tk d) hs
  | commit t => exact withLease_consistent hs fun e l hl => takeCommit_consistent hs hl (hready nofun nofun nofun nofun) tk
  | release t => exact withLease_consistent hs fun e l hl => takeRelease_consistent hs hl tk
  | renew t => exact withLease_consistent hs fun e l hl => leasesConsistent_of_tables (takeRenew_tables hl tk) hs
  | cancel b => exact takeCancel_consistent hs tk _
  | watch b m th x =>
    rw [ownerOf, takeWatch]
    split
    · exact hanswer _ _ _ rfl
    · split
      · exact hanswer _ _ _ rfl
      · exact hanswer _ _ _ rfl
  | unwatch b =>
    rw [ownerOf, takeUnwatch]
    split
    · split
      · exact hanswer _ _ _ rfl
      · exact hanswer _ _ _ rfl
    · exact hanswer _ _ _ rfl
  | inquire b => exact hanswer _ _ _ rfl
  | define f => exact takeDefine_consistent hs (hready nofun nofun nofun nofun) tk f
  | retire b => exact takeRetire_consistent hs (hready nofun nofun nofun nofun) tk _
  | setRights b r => exact takeSetRights_consistent hs (hready nofun nofun nofun nofun) tk _ _
  | freeze b => exact takeFreeze_consistent hs (hready nofun nofun nofun nofun) tk _
  | deviceInfo => exact hanswer _ _ _ rfl
  | setAttention m => exact hanswer _ _ _ rfl
  | portReset => exact takePortReset_consistent hs tk
  | factoryClear =>
    refine takeFactoryClear_consistent hs ?_ tk
    rcases hserved with h | h | h | h | ⟨h, -⟩
    exacts [.inl h, absurd h nofun, absurd h nofun, absurd h nofun, .inr h]

theorem exec_request_leases {c : Instr} (hc : isRequest c = true) (hs : LeasesConsistent s) (h : exec c s = .next t) :
    LeasesConsistent t := by
  rcases exec_request_outcome hc h with rfl | ⟨p, tk, r, rfl, hreq, ⟨code, rfl⟩ | ⟨ha, rfl⟩⟩
  · exact hs
  · exact leasesConsistent_of_tables (tables_complete tk code [] _) (leasesConsistent_same hs rfl)
  · exact ownerOf_consistent (s := handOver p s) (leasesConsistent_same hs rfl) ((admission_handOver s p p r).trans ha)

theorem exec_unknownRequestKind_tables {p : Port} (h : exec (.unknownRequestKind p) s = .next t) :
    leaseTables t = leaseTables s := by
  have h : execUnknownRequestKind p s = .next t := h
  rw [execUnknownRequestKind] at h
  split at h
  · split at h
    · cases h
      rfl
    · split at h
      · injection h with h
        exact h ▸ tables_complete _ _ _ (handOver p s)
      · injection h with h
        exact h ▸ tables_complete _ _ _ (handOver p s)
  · cases h
    rfl

theorem exec_leasesConsistent {c : Instr} (hs : LeasesConsistent s) (h : exec c s = .next t) : LeasesConsistent t := by
  by_cases hreset : isDeviceReset c = true
  · exact exec_deviceReset_leases hreset h
  by_cases hreq : isRequest c = true
  · exact exec_request_leases hreq hs h
  cases htr : transactionPort c with
  | some p => exact leasesConsistent_of_tables (exec_transaction_tables htr h) hs
  | none =>
    cases c with
    | scanEnd => exact exec_scanEnd_leases hs h
    | bulkEraseEnd => exact exec_bulkEraseEnd_leases hs h
    | pageMatch => exact exec_pageMatch_leases hs h
    | pageMismatch => exact exec_pageMismatch_leases hs h
    | eraseEnd => exact exec_eraseEnd_leases hs h
    | holdExpiry e => exact exec_holdExpiry_leases hs h
    | waitExpiry p u => exact exec_waitExpiry_leases hs h
    | unknownRequestKind p => exact leasesConsistent_of_tables (exec_unknownRequestKind_tables h) hs
    | powerUp | powerLoss | resetnAssert | resetnRelease => exact absurd rfl hreset
    | unknownCodeByte | submit | fetchResponse | fetchNotice | status | readSelection => cases htr
    | _ => exact absurd rfl hreq

end

/-- Settles O60: an invariant of every command, told by the tables it looks at and by the reservation of a freed entry
while it is granted onward. -/
theorem everyStepKeepsLeasesConsistent : Obligations.EveryStepKeepsLeasesConsistent := by
  unfold Obligations.EveryStepKeepsLeasesConsistent
  intro s t hs h
  exact step_induction (P := LeasesConsistent) (fun s l hs => leasesConsistent_same hs rfl)
    (fun s hs => leasesConsistent_of_tables (tick_tables s) hs) (fun c s t hexec hs => exec_leasesConsistent hs hexec) hs h

end Sys2Proof.Machine

/-! PROOF. The pages of a job (05, R87 to R89, R94; 02, R25, R28, R29, R39): what a page program and a mismatch leave in
the store, and what a finished copy reads as. -/

namespace Sys2Proof.Machine

open Sys2Proof.Safety
set_option deprecated.oldSectionVars true

/-! ### Slices and fills of byte lists -/

theorem slice_length (l : List Byte) (off n : Nat) : (slice l off n).length = min n (l.length - off) := by
  rw [slice, List.length_take, List.length_drop]

theorem slice_getD (l : List Byte) (off : Nat) {n i : Nat} (hi : i < n) (d : Byte) :
    (slice l off n).getD i d = l.getD (off + i) d := by
  simp [slice, List.getD_eq_getElem?_getD, hi]

theorem padTo_length (fill : Byte) (n : Nat) (l : List Byte) : (padTo fill n l).length = n := by
  simp only [padTo, List.length_append, List.length_take, List.length_replicate]
  omega

theorem padTo_getD (fill : Byte) {n i : Nat} (l : List Byte) (hi : i < n) :
    (padTo fill n l).getD i fill = l.getD i fill := by
  simp only [padTo, List.getD_eq_getElem?_getD]
  by_cases hl : i < l.length
  · rw [List.getElem?_append_left (by simp; omega), List.getElem?_take_of_lt hi]
  · rw [List.getElem?_append_right (by simp; omega), List.getElem?_eq_none (l := l) (by omega)]
    simp only [List.getElem?_replicate]
    split <;> rfl

theorem padTo_eq_append (fill : Byte) {n : Nat} {l : List Byte} (hl : l.length ≤ n) :
    padTo fill n l = l ++ List.replicate (n - l.length) fill := by
  rw [padTo, List.take_of_length_le hl]

theorem getD_append_right (l r : List Byte) (i : Nat) (d : Byte) : (l ++ r).getD (l.length + i) d = r.getD i d := by
  rw [List.getD_eq_getElem?_getD, List.getElem?_append_right (Nat.le_add_right _ _), Nat.add_sub_cancel_left,
    List.getD_eq_getElem?_getD]

/-- Bytes that read as those of a list are a slice of it. -/
theorem readBytes_eq_slice {m : List Host.Cell} {a off n : Nat} {l : List Byte} {d : Byte} (hl : off + n ≤ l.length)
    (h : ∀ i, i < off + n → Memory.read m (a + i) = l.getD i d) : Memory.readBytes m (a + off) n = slice l off n := by
  apply List.ext_getElem
  · simp only [Memory.readBytes, List.length_map, List.length_range, slice_length]
    omega
  · intro i h1 h2
    simp only [Memory.readBytes, List.length_map, List.length_range] at h1
    simp only [Memory.readBytes, List.getElem_map, List.getElem_range]
    rw [Nat.add_assoc, h (off + i) (by omega), ← slice_getD l off h1 d, List.getD_eq_getElem _ _ h2]

/-! ### The image of a job and its pages -/

theorem copyHeader_length (h : Handle) (size : Byte) (stamp gen : Word32) (data : List Byte) :
    (copyHeader h size stamp gen data).length = 16 := rfl

theorem jobImage_length (s : State) (j : Job) : (s.jobImage j).length = 32 * j.pages := by
  cases j with
  | record e h c first pages gen => exact padTo_length ..
  | directory k c gen => exact padTo_length ..

theorem Job.offsetAt_lt {j : Job} (hp : 1 ≤ j.pages) (pos : Nat) : j.offsetAt pos < j.pages := by
  rw [Job.offsetAt]
  split <;> omega

theorem jobPage_length (s : State) {j : Job} (hp : 1 ≤ j.pages) (pos : Nat) : (s.jobPage j pos).length = 32 := by
  have := Job.offsetAt_lt hp pos
  rw [State.jobPage, slice_length, jobImage_length]
  omega

/-- The store after the program of a job's page: that page holds its part of the job's image. -/
theorem read_programmed {s : State} {j : Job} {pos i : Nat} (hp : 1 ≤ j.pages) (hpage : j.pageAt pos < 2048) (hi : i < 32)
    (hwf : StoreCanonical s) :
    Memory.read (Memory.writePage s.store (j.pageAt pos) (s.jobPage j pos)) (32 * j.pageAt pos + i) =
      (s.jobImage j).getD (32 * j.offsetAt pos + i) 0xFF#8 := by
  have hlen := jobPage_length s hp pos
  rw [Memory.read_writePage_inside _ _ _ _ hpage hi hlen hwf, ← slice_getD _ _ hi 0xFF#8, ← State.jobPage,
    List.getD_eq_getElem _ _ (by omega), List.getD_eq_getElem _ _ (by omega)]

/-! ### PAGE_MATCH and PAGE_MISMATCH -/

section Engine

variable {s : State} {j : Job} {rest : List Job} {pos : Nat} {retry : Bool}

/-- A match before the last page: the next page is programmed (05, R89). -/
theorem exec_pageMatch_next (he : s.engine = .programming pos retry) (hq : s.queue = j :: rest) (hpage : j.pageAt pos < 2048)
    (hpos : pos < j.pages) :
    exec .pageMatch s =
      .next { s with
                store := Memory.writePage s.store (j.pageAt pos) (s.jobPage j pos)
                engine := .programming (pos + 1) false } := by
  show execPageMatch s = _
  simp only [execPageMatch, he, hq, if_pos hpage, if_pos hpos]

/-- The match of the last page, the header page: the commit point (05, R89, R92). -/
theorem exec_pageMatch_last (he : s.engine = .programming pos retry) (hq : s.queue = j :: rest)
    (hpage : j.pageAt pos < 2048) (hpos : j.pages ≤ pos) :
    exec .pageMatch s =
      .next (commitPoint j
        { s with store := Memory.writePage s.store (j.pageAt pos) (s.jobPage j pos), queue := rest }) := by
  show execPageMatch s = _
  simp only [execPageMatch, he, hq, if_pos hpage, if_neg (Nat.not_lt.mpr hpos)]

/-- Every match leaves in the store just the programmed page. -/
theorem exec_pageMatch_store (he : s.engine = .programming pos retry) (hq : s.queue = j :: rest)
    (hpage : j.pageAt pos < 2048) :
    ∃ t, exec .pageMatch s = .next t ∧ t.store = Memory.writePage s.store (j.pageAt pos) (s.jobPage j pos) := by
  by_cases hpos : pos < j.pages
  · exact ⟨_, exec_pageMatch_next he hq hpage hpos, rfl⟩
  · rw [exec_pageMatch_last he hq hpage (Nat.not_lt.mp hpos)]
    have hkeeps := (keeps_commitPoint j
      { s with store := Memory.writePage s.store (j.pageAt pos) (s.jobPage j pos), queue := rest }).store
    generalize commitPoint j _ = t at hkeeps ⊢
    exact ⟨t, rfl, hkeeps⟩

/-- Settles O42. -/
theorem mismatchRetriesOnceThenFails : Obligations.MismatchRetriesOnceThenFails := by
  unfold Obligations.MismatchRetriesOnceThenFails
  intro s j rest pos retry he hq hpage
  have hread := fun a ha => spoilPage_read (j.pageAt pos) (s.jobPage j pos) s (a := a) ha
  obtain ⟨m, hm, -⟩ := spoilPage_cases (j.pageAt pos) (s.jobPage j pos) s
  have hexec : exec .pageMismatch s =
      .next { s with
                store := m
                freeIndex := s.freeIndex + 32
                engine := if retry then .erasing pos (j.pageAt pos) else .programming pos true } := by
    show execPageMismatch s = _
    simp only [execPageMismatch, he, hq, if_pos hpage, hm]
    cases retry <;> rfl
  rw [hm] at hread
  exact ⟨_, hexec, rfl, hread⟩

end Engine

/-! ### The pages of a record copy -/

theorem jobImage_record_getD {s : State} {e : EntryNo} {h : Handle} {x : RecEntry} (c : Copy) (first : Nat) {pages i : Nat}
    (gen : Word32) (hx : Defined s h x) (hlen : (s.buffer e).bytes.length = 240) (hsize : x.size.toNat ≤ 240)
    (hi : 16 + i < 32 * pages) :
    (s.jobImage (.record e h c first pages gen)).getD (16 + i) 0xFF#8 =
      if i < x.size.toNat then (s.buffer e).bytes.getD i 0x00#8 else 0xFF#8 := by
  rw [State.jobImage, State.entryOf_eq hx, copyImage, padTo_getD _ _ hi]
  refine (getD_append_right (copyHeader h x.size x.stamp gen ((s.buffer e).bytes.take x.size.toNat)) _ i _).trans ?_
  rw [List.getD_eq_getElem?_getD]
  split
  · next hlt => rw [List.getElem?_take_of_lt hlt, List.getD_eq_getElem?_getD, List.getElem?_eq_getElem (by omega)]; rfl
  · next hge => rw [List.getElem?_eq_none (by simp; omega)]; rfl

/-- Settles O41. -/
theorem dataPageIsProgrammed : Obligations.DataPageIsProgrammed := by
  unfold Obligations.DataPageIsProgrammed
  intro s e h x c first pages pos gen retry rest he hq h1 hpos hpage hwf hx hlen hsize
  have hoff : (Job.record e h c first pages gen).offsetAt pos = pos := if_pos hpos
  have hat : (Job.record e h c first pages gen).pageAt pos = first + pos := by rw [Job.pageAt, hoff]; rfl
  refine ⟨_, exec_pageMatch_next he hq (by rw [hat]; exact hpage) hpos, rfl, fun i hi => ?_, fun a ha => ?_⟩
  · have hread := read_programmed (s := s) (j := .record e h c first pages gen) (pos := pos) (Nat.lt_of_le_of_lt (Nat.zero_le _) hpos)
      (by rw [hat]; exact hpage) hi hwf
    rw [hat, hoff] at hread
    rw [hat]
    refine hread.trans ?_
    rw [show 32 * pos + i = 16 + (32 * pos - 16 + i) by omega]
    exact jobImage_record_getD c first gen hx hlen hsize (by omega)
  · rw [hat]
    exact Memory.read_writePage_outside _ _ _ _ ha

end Sys2Proof.Machine

/-! PROOF. The image of a directory copy and the copies that a finished job leaves (02, R28 to R31, R34, R39 to R41):
an entry reads back, and a copy whose header page has matched is valid. -/

namespace Sys2Proof.Machine

open Sys2Proof.Safety
set_option deprecated.oldSectionVars true

/-- Two bytes of a word, read back (10, R170). -/
theorem word16At_be2 (w : BitVec 16) : w.extractLsb' 8 8 ++ w.extractLsb' 0 8 = w := by
  apply BitVec.eq_of_toNat_eq
  simp only [toNat_append_eq_mul_add, BitVec.extractLsb'_toNat, Nat.shiftRight_eq_div_pow]
  have := w.isLt
  omega

/-! ### An entry of a directory copy -/

theorem rightsBits_toNat (r : Rights) : (rightsBits r).toNat = rightsNumber r := by
  obtain ⟨read, update, watch⟩ := r
  cases read <;> cases update <;> cases watch <;> rfl

theorem rightsNumber_lt (r : Rights) : rightsNumber r < 8 := by
  rw [← rightsBits_toNat]
  exact (rightsBits r).isLt

theorem entryBits_toNat (x : RecEntry) : (entryBits x).toNat = entryNumber x := by
  have ha := x.pageA.isLt
  have hb := x.pageB.isLt
  have h0 := rightsNumber_lt x.rights.p0
  have h1 := rightsNumber_lt x.rights.p1
  have h2 := rightsNumber_lt x.rights.p2
  have hk : (BitVec.ofBool (x.kind == .counter)).toNat * 2 ^ 38 = if x.kind = .counter then 2 ^ 38 else 0 := by
    cases x.kind <;> rfl
  have hf : (BitVec.ofBool x.frozen).toNat * 2 ^ 37 = if x.frozen then 2 ^ 37 else 0 := by cases x.frozen <;> rfl
  rw [entryNumber, ← hk, ← hf, entryBits]
  simp only [toNat_append_eq_mul_add, rightsBits_toNat, BitVec.toNat_ofNat]
  omega

/-- The five bytes of the number that opens an entry in use (02, R39). -/
theorem entryBytes_eq_entryImage (x : Option RecEntry) : entryBytes x = entryImage x := by
  cases x with
  | none => rfl
  | some y =>
    have hbyte : ∀ k, (entryBits y).extractLsb' k 8 = BitVec.ofNat 8 (entryNumber y / 2 ^ k) := fun k => by
      apply BitVec.eq_of_toNat_eq
      rw [BitVec.extractLsb'_toNat, Nat.shiftRight_eq_div_pow, BitVec.toNat_ofNat, entryBits_toNat]
    have hlow := hbyte 0
    rw [Nat.pow_zero, Nat.div_one] at hlow
    simp only [entryBytes, entryImage, entryFront, hbyte 32, hbyte 24, hbyte 16, hbyte 8, hlow]

theorem bits_of_bytes (w : BitVec 40) :
    w.extractLsb' 32 8 ++ w.extractLsb' 24 8 ++ w.extractLsb' 16 8 ++ w.extractLsb' 8 8 ++ w.extractLsb' 0 8 = w := by
  apply BitVec.eq_of_toNat_eq
  simp only [toNat_append_eq_mul_add, BitVec.extractLsb'_toNat, Nat.shiftRight_eq_div_pow]
  have := w.isLt
  omega

theorem rightsBits_getLsbD (r : Rights) :
    (⟨(rightsBits r).getLsbD 0, (rightsBits r).getLsbD 1, (rightsBits r).getLsbD 2⟩ : Rights) = r := by
  obtain ⟨read, update, watch⟩ := r
  cases read <;> cases update <;> cases watch <;> rfl

theorem ofBool_getLsbD (b : Bool) : (BitVec.ofBool b).getLsbD 0 = b := by cases b <;> rfl

/-- The flags and the rights sets among the bits of an entry in use (02, R39). -/
theorem entryBits_flags (x : RecEntry) :
    (entryBits x).getLsbD 39 = true ∧ (entryBits x).getLsbD 38 = (x.kind == .counter)
      ∧ (entryBits x).getLsbD 37 = x.frozen := by
  simp only [entryBits, BitVec.getLsbD_append, Nat.reduceLT, Nat.reduceSub, ofBool_getLsbD, if_true, if_false, and_true]
  trivial

/-- Three bits of a number as a rights set: READ, UPDATE, WATCH from the least significant up. -/
abbrev rightsFrom (w : BitVec 40) (i : Nat) : Rights := ⟨w.getLsbD i, w.getLsbD (i + 1), w.getLsbD (i + 2)⟩

theorem entryBits_rights (x : RecEntry) :
    rightsFrom (entryBits x) 34 = x.rights.p0 ∧ rightsFrom (entryBits x) 31 = x.rights.p1
      ∧ rightsFrom (entryBits x) 28 = x.rights.p2 := by
  show (⟨(entryBits x).getLsbD 34, (entryBits x).getLsbD 35, (entryBits x).getLsbD 36⟩ : Rights) = _
    ∧ (⟨(entryBits x).getLsbD 31, (entryBits x).getLsbD 32, (entryBits x).getLsbD 33⟩ : Rights) = _
    ∧ (⟨(entryBits x).getLsbD 28, (entryBits x).getLsbD 29, (entryBits x).getLsbD 30⟩ : Rights) = _
  simp only [entryBits, BitVec.getLsbD_append, Nat.reduceLT, Nat.reduceSub, if_true, if_false, rightsBits_getLsbD, and_true]

theorem entryBits_pages (x : RecEntry) :
    ((entryBits x).extractLsb' 17 11).toFin = x.pageA ∧ ((entryBits x).extractLsb' 6 11).toFin = x.pageB := by
  have ha := x.pageA.isLt
  have hb := x.pageB.isLt
  have h0 := rightsNumber_lt x.rights.p0
  have h1 := rightsNumber_lt x.rights.p1
  have h2 := rightsNumber_lt x.rights.p2
  constructor
  all_goals
    apply Fin.ext
    rw [BitVec.val_toFin, BitVec.extractLsb'_toNat, Nat.shiftRight_eq_div_pow, entryBits_toNat, entryNumber]
    split <;> split <;> omega

theorem readEntry_entryBytes (x : Option RecEntry) : readEntry (entryBytes x) = x := by
  cases x with
  | none => rfl
  | some y =>
    have hw : byteAt (entryBytes (some y)) 0 ++ byteAt (entryBytes (some y)) 1 ++ byteAt (entryBytes (some y)) 2
        ++ byteAt (entryBytes (some y)) 3 ++ byteAt (entryBytes (some y)) 4 = entryBits y := bits_of_bytes (entryBits y)
    have hlabel : word32At (entryBytes (some y)) 5 = y.label := word32_be4 y.label
    have hstamp : word32At (entryBytes (some y)) 11 = y.stamp := word32_be4 y.stamp
    have hsize : byteAt (entryBytes (some y)) 9 = y.size := rfl
    have hlimit : byteAt (entryBytes (some y)) 10 = y.holdLimit := rfl
    obtain ⟨hpageA, hpageB⟩ := entryBits_pages y
    obtain ⟨hin, hkind, hfrozen⟩ := entryBits_flags y
    obtain ⟨hr0, hr1, hr2⟩ := entryBits_rights y
    rw [readEntry, hw, hlabel, hstamp, hsize, hlimit]
    have hcounter : (if (y.kind == .counter) = true then RecKind.counter else .plain) = y.kind := by cases y.kind <;> rfl
    simp only [hin, hkind, hfrozen, hpageA, hpageB, if_true, hr0, hr1, hr2, hcounter]

/-! ### The image of a directory copy -/

theorem entryImage_length (x : Option RecEntry) : (entryImage x).length = 16 := by cases x <;> rfl

theorem flatMap_entryImage_length (l : List (Option RecEntry)) : (l.flatMap entryImage).length = 16 * l.length := by
  induction l with
  | nil => rfl
  | cons x rest ih =>
    rw [List.flatMap_cons, List.length_append, entryImage_length, ih, List.length_cons]
    omega

/-- The 16 bytes at an entry's place in the entries of a directory copy. -/
theorem slice_flatMap_entryImage (l : List (Option RecEntry)) {i : Nat} (hi : i < l.length) :
    slice (l.flatMap entryImage) (16 * i) 16 = entryImage l[i] := by
  induction l generalizing i with
  | nil => exact absurd hi (Nat.not_lt_zero i)
  | cons x rest ih =>
    have hlen := entryImage_length x
    rw [List.flatMap_cons, slice]
    cases i with
    | zero =>
      rw [Nat.mul_zero, List.drop_zero, List.take_append_of_le_length (by omega), List.take_of_length_le (by omega)]
      rfl
    | succ k =>
      rw [show 16 * (k + 1) = (entryImage x).length + 16 * k by omega, List.drop_append,
        List.drop_eq_nil_of_le (by omega), Nat.add_sub_cancel_left, List.nil_append]
      exact ih (Nat.lt_of_succ_lt_succ hi)

/-- The 16 bytes of the header of a directory copy (02, R39). -/
theorem dirHeader_length (gen : Word32) (entries : List Byte) : (dirHeader gen entries).length = 16 := rfl

theorem directoryImage_eq (gen : Word32) (l : List (Option RecEntry)) :
    directoryImage gen l = dirHeader gen (l.flatMap entryImage) ++ l.flatMap entryImage ++ List.replicate 16 0xFF#8 := rfl

theorem dirImage_eq_directoryImage (gen : Word32) {l : List (Option RecEntry)} (hl : l.length = 48) :
    dirImage gen l = directoryImage gen l := by
  have hlen := flatMap_entryImage_length l
  have hbytes : l.flatMap entryBytes = l.flatMap entryImage := List.flatMap_congr fun x _ => entryBytes_eq_entryImage x
  have hall : (dirHeader gen (l.flatMap entryImage) ++ l.flatMap entryImage).length = 784 := by
    rw [List.length_append, dirHeader_length, hlen, hl]
  rw [dirImage, hbytes, directoryImage_eq, padTo_eq_append _ (by omega), hall]

theorem entriesWritten_length (s : State) (gen : Word32) : (entriesWritten s gen).length = 48 := by
  rw [entriesWritten, List.length_map, List.length_finRange]

theorem jobEntries_eq_entriesWritten (s : State) (gen : Word32) : s.jobEntries gen = entriesWritten s gen := rfl

theorem jobImage_directory (s : State) (k : DirKind) (c : Copy) (gen : Word32) :
    s.jobImage (.directory k c gen) = directoryImage gen (entriesWritten s gen) :=
  dirImage_eq_directoryImage gen (entriesWritten_length s gen)

theorem directoryJob_pageAt (k : DirKind) (c : Copy) (gen : Word32) {pos : Nat} (h1 : 1 ≤ pos) (h25 : pos ≤ 25) :
    (Job.directory k c gen).offsetAt pos = pos % 25
      ∧ (Job.directory k c gen).pageAt pos = regionPage c + pos % 25 := by
  have hoff : (Job.directory k c gen).offsetAt pos = pos % 25 := by
    rw [Job.offsetAt]
    split
    · next hlt => exact (Nat.mod_eq_of_lt hlt).symm
    · next hge => rw [show pos = 25 by simp only [Job.pages] at hge; omega]
  refine ⟨hoff, ?_⟩
  rw [Job.pageAt, hoff]
  rfl

/-- Settles O43. -/
theorem directoryPagesHoldTheDirectory : Obligations.DirectoryPagesHoldTheDirectory := by
  unfold Obligations.DirectoryPagesHoldTheDirectory
  refine ⟨fun x => by rw [← entryBytes_eq_entryImage, readEntry_entryBytes], ?_⟩
  intro s k c gen pos retry rest he hq h1 h25 hwf
  obtain ⟨hoff, hat⟩ := directoryJob_pageAt k c gen h1 h25
  have hpage : (Job.directory k c gen).pageAt pos < 2048 := by
    rw [hat]
    have := Nat.mod_lt pos (show 25 > 0 by omega)
    cases c <;> simp only [regionPage] <;> omega
  obtain ⟨t, hexec, hstore⟩ := exec_pageMatch_store he hq hpage
  refine ⟨t, hexec, fun hlt => ?_, fun i hi => ?_, fun a ha => ?_⟩
  · have hnext := (exec_pageMatch_next he hq hpage hlt).symm.trans hexec
    cases hnext
    rfl
  · have hread := read_programmed (s := s) (j := .directory k c gen) (show 1 ≤ 25 by omega) hpage hi hwf
    rw [← hstore, hat, hoff, jobImage_directory s k c gen] at hread
    exact hread
  · rw [hstore]
    exact Memory.read_writePage_outside _ _ _ _ (by rw [hat]; exact ha)

/-! ### A finished record copy -/

theorem recordImage_eq (h : Handle) (x : RecEntry) (gen : Word32) (data : List Byte) :
    recordImage h x gen data = copyHeader h x.size x.stamp gen data ++ data ++
      List.replicate (32 * pagesPerCopy x.size.toNat - (16 + data.length)) 0xFF#8 := by
  rw [← copyHeader_length h x.size x.stamp gen data, ← List.length_append]
  rfl

theorem copyImage_eq_recordImage {h : Handle} {x : RecEntry} {gen : Word32} {data : List Byte}
    (hdata : data.length = x.size.toNat) :
    copyImage h x.size x.stamp gen (pagesPerCopy x.size.toNat) data = recordImage h x gen data := by
  have hlen : (copyHeader h x.size x.stamp gen data ++ data).length = 16 + data.length := by
    rw [List.length_append, copyHeader_length]
  rw [copyImage, recordImage_eq, padTo_eq_append, hlen]
  rw [hlen, pagesPerCopy]
  omega

/-- Fifteen bytes and their check (02, R30). -/
theorem check_of_front {front : List Byte} (hlen : front.length = 15) :
    crc8 ((front ++ [crc8 front]).take 15) = byteAt (front ++ [crc8 front]) 15 := by
  rw [List.take_left' hlen, byteAt, ← hlen]
  exact (getD_append_right front [crc8 front] 0 0#8).symm

/-- The fields of a copy header (02, R29). -/
theorem copyHeader_fields (h : Handle) (size : Byte) (stamp gen : Word32) (data : List Byte) :
    let header := copyHeader h size stamp gen data
    crc8 (header.take 15) = byteAt header 15 ∧ byteAt header 0 = handleByte h ∧ byteAt header 1 = size
      ∧ word32At header 2 = stamp ∧ word32At header 6 = gen ∧ word16At header 10 = crc16 data := by
  simp only [copyHeader]
  generalize hcrc : crc16 data = check
  refine ⟨check_of_front rfl, ?_⟩
  generalize crc8 _ = last
  exact ⟨rfl, rfl, word32_be4 stamp, word32_be4 gen, word16At_be2 check⟩

/-- The last page of a record job is the header page (05, R88). -/
theorem recordJob_pageAt_last (e : EntryNo) (h : Handle) (c : Copy) (first pages : Nat) (gen : Word32) :
    (Job.record e h c first pages gen).offsetAt pages = 0 ∧ (Job.record e h c first pages gen).pageAt pages = first := by
  have hoff : (Job.record e h c first pages gen).offsetAt pages = 0 := if_neg (Nat.lt_irrefl pages)
  rw [Job.pageAt, hoff]
  exact ⟨rfl, rfl⟩

/-- A copy that holds the image of R28 and R29 is valid, at the image's generation, and its data read back
(02, R28 to R31). -/
theorem copy_of_image {m : List Host.Cell} {h : Handle} {x : RecEntry} {first : Nat} {gen : Word32} {data : List Byte}
    (hdata : data.length = x.size.toNat)
    (himage : ∀ i, i < 16 + x.size.toNat → Memory.read m (32 * first + i) = (recordImage h x gen data).getD i 0xFF#8) :
    copyValid m h x first = true ∧ copyGen m first = gen
      ∧ Memory.readBytes m (32 * first + 16) x.size.toNat = data := by
  rw [recordImage_eq] at himage
  have hhead : Memory.readBytes m (pageAddress first) 16 = copyHeader h x.size x.stamp gen data := by
    refine (readBytes_eq_slice (off := 0) ?_ fun i hi => himage i (by omega)).trans rfl
    simp only [List.length_append, copyHeader_length]
    omega
  have hbody : Memory.readBytes m (32 * first + 16) x.size.toNat = data := by
    refine (readBytes_eq_slice ?_ himage).trans ?_
    · simp only [List.length_append, copyHeader_length]
      omega
    · rw [slice, List.append_assoc, List.drop_left' (copyHeader_length ..), List.take_left' hdata]
  obtain ⟨hcheck, hhandle, hsize, hstamp, hgen, hcrc⟩ := copyHeader_fields h x.size x.stamp gen data
  have hbody' : copyData m first x.size.toNat = data := hbody
  refine ⟨?_, ?_, hbody⟩
  · simp only [copyValid, hhead, hbody', hcheck, hhandle, hsize, hstamp, hcrc, beq_self_eq_true, Bool.and_true]
  · rw [copyGen, headerGen, hhead, hgen]

/-! ### A finished directory region -/

/-- The fields of a directory header (02, R39). -/
theorem dirHeader_fields (gen : Word32) (entries : List Byte) :
    let header := dirHeader gen entries
    crc8 (header.take 15) = byteAt header 15 ∧ word32At header 0 = gen ∧ word16At header 4 = crc16 entries
      ∧ byteAt header 6 = 0x00#8 := by
  simp only [dirHeader]
  generalize crc16 entries = check
  refine ⟨check_of_front rfl, ?_⟩
  generalize crc8 _ = last
  exact ⟨word32_be4 gen, word16At_be2 check, rfl⟩

theorem byteAt_append_left {l : List Byte} (r : List Byte) {i : Nat} (hi : i < l.length) :
    byteAt (l ++ r) i = byteAt l i := by
  rw [byteAt, List.getD_eq_getElem?_getD, List.getElem?_append_left hi, byteAt, List.getD_eq_getElem?_getD]

theorem word32At_append_left {l : List Byte} (r : List Byte) {i : Nat} (hi : i + 3 < l.length) :
    word32At (l ++ r) i = word32At l i := by
  simp only [word32At]
  rw [byteAt_append_left r (by omega), byteAt_append_left r (by omega), byteAt_append_left r (by omega),
    byteAt_append_left r hi]

theorem word16At_append_left {l : List Byte} (r : List Byte) {i : Nat} (hi : i + 1 < l.length) :
    word16At (l ++ r) i = word16At l i := by
  rw [word16At, byteAt_append_left r (by omega), byteAt_append_left r hi, word16At]

theorem entryImage_check (x : Option RecEntry) : crc8 ((entryImage x).take 15) = byteAt (entryImage x) 15 := by
  cases x <;> exact check_of_front rfl

theorem readEntry_entryImage (x : Option RecEntry) : readEntry (entryImage x) = x := by
  rw [← entryBytes_eq_entryImage, readEntry_entryBytes]

/-- The entries at their places in the 784 bytes of a directory copy. -/
theorem entrySlice_image (gen : Word32) (l : List (Option RecEntry)) {i : Nat} (hi : i < l.length) :
    entrySlice (dirHeader gen (l.flatMap entryImage) ++ l.flatMap entryImage) i = entryImage l[i] := by
  rw [← slice_flatMap_entryImage l hi, entrySlice, slice, List.drop_append,
    List.drop_eq_nil_of_le (by rw [dirHeader_length]; omega), List.nil_append, dirHeader_length, Nat.add_sub_cancel_left]
  rfl

theorem readEntries_image (gen : Word32) {l : List (Option RecEntry)} (hl : l.length = 48) :
    readEntries (dirHeader gen (l.flatMap entryImage) ++ l.flatMap entryImage) = l := by
  apply List.ext_getElem
  · rw [readEntries, List.length_map, List.length_range, hl]
  · intro i h1 h2
    simp only [readEntries, List.getElem_map, List.getElem_range]
    rw [entrySlice_image gen l h2, readEntry_entryImage]

/-- A region that holds the image of R39, its entries in range with runs apart, is VALID, at the image's generation,
and its entries read back (02, R39 to R41). -/
theorem region_of_image {m : List Host.Cell} {c : Copy} {gen : Word32} {l : List (Option RecEntry)} (hl : l.length = 48)
    (hrange : ∀ x, some x ∈ l → entryInRange x = true)
    (hapart : allApart (l.flatMap fun y => y.elim [] entryRuns) = true)
    (himage : ∀ i, i < 784 → Memory.read m (32 * regionPage c + i) = (directoryImage gen l).getD i 0xFF#8) :
    regionCond m c = .valid ∧ regionGen m c = gen ∧ readEntries (regionBytes m c) = l := by
  have hbody := flatMap_entryImage_length l
  rw [hl] at hbody
  have hentry := fun i hi => entrySlice_image gen l (i := i) hi
  have hentries := readEntries_image gen hl
  obtain ⟨hcheck, hgen, hcrc, hzero⟩ := dirHeader_fields gen (l.flatMap entryImage)
  have hhead := dirHeader_length gen (l.flatMap entryImage)
  rw [directoryImage_eq] at himage
  generalize l.flatMap entryImage = body at *
  generalize dirHeader gen body = header at *
  have hbytes : regionBytes m c = header ++ body := by
    refine (readBytes_eq_slice (off := 0) ?_ fun i hi => himage i (by omega)).trans ?_
    · simp only [List.length_append, hhead, hbody]
      omega
    · rw [slice, List.drop_zero]
      exact List.take_left' (by rw [List.length_append, hhead, hbody])
  have herased : regionErased m c = false := by
    rw [regionErased, beq_eq_false_iff_ne]
    intro hpage
    have h6 := himage 6 (by omega)
    have hff : Memory.read m (32 * regionPage c + 6) = 0xFF#8 := congrArg (List.getD · 6 0x00#8) hpage
    have h0 : (header ++ body ++ List.replicate 16 0xFF#8).getD 6 0xFF#8 = 0x00#8 := by
      rw [← hzero, byteAt, List.append_assoc, List.getD_eq_getElem _ _ (by rw [List.length_append]; omega),
        List.getElem_append_left (by omega), List.getD_eq_getElem _ _ (by omega)]
    rw [hff, h0] at h6
    exact absurd h6 (by simp)
  have hvalid : regionValid m c = true := by
    simp only [regionValid, hbytes, hentries, herased, Bool.not_false, Bool.true_and, Bool.and_eq_true, beq_iff_eq,
      List.all_eq_true, List.mem_range]
    refine ⟨⟨⟨⟨?_, ?_⟩, fun i hi => ?_⟩, fun x hx => ?_⟩, hapart⟩
    · rw [List.take_append_of_le_length (by omega), byteAt_append_left _ (by omega), hcheck]
    · rw [List.drop_left' hhead, word16At_append_left _ (by omega), hcrc]
    · rw [hentry i (by omega), entryImage_check]
    · cases x with
      | none => rfl
      | some y => exact hrange y hx
  refine ⟨regionCond_valid_iff.mpr hvalid, ?_, by rw [hbytes, hentries]⟩
  rw [regionGen, hbytes, word32At_append_left _ (by omega), hgen]

/-- Settles O44. -/
theorem finishedCopyIsValid : Obligations.FinishedCopyIsValid := by
  unfold Obligations.FinishedCopyIsValid
  constructor
  · intro s e h x c first pages gen retry rest data he hq hpages hend hwf hx hlen h1 h240 hdata hbefore
    have hdlen : data.length = x.size.toNat := by
      rw [hdata, List.length_take]
      omega
    have hp : 1 ≤ pages := by omega
    obtain ⟨hoff, hat⟩ := recordJob_pageAt_last e h c first pages gen
    have himg : s.jobImage (.record e h c first pages gen) = recordImage h x gen data := by
      rw [State.jobImage, State.entryOf_eq hx, ← hdata, hpages]
      exact copyImage_eq_recordImage hdlen
    have hpage : (Job.record e h c first pages gen).pageAt pages < 2048 := by rw [hat]; omega
    obtain ⟨t, hexec, hstore⟩ := exec_pageMatch_store he hq hpage
    have hread : ∀ i, i < 32 * pages → Memory.read t.store (32 * first + i) = (recordImage h x gen data).getD i 0xFF#8 := by
      intro i hi
      rw [hstore]
      by_cases h32 : i < 32
      · have hprog := read_programmed (s := s) (j := .record e h c first pages gen) hp hpage h32 hwf
        rw [himg, hoff, Nat.mul_zero, Nat.zero_add] at hprog
        rw [← hprog, hat]
      · rw [Memory.read_writePage_outside _ _ _ _ (by rw [hat]; omega)]
        exact hbefore i (by omega) hi
    exact ⟨t, hexec, hread, copy_of_image hdlen fun i hi => hread i (by omega)⟩
  · intro s k c gen retry rest he hq hwf hrange hapart hbefore
    obtain ⟨hoff, hat⟩ := directoryJob_pageAt k c gen (pos := 25) (by omega) (by omega)
    rw [Nat.mod_self] at hoff hat
    have hpage : (Job.directory k c gen).pageAt 25 < 2048 := by
      rw [hat]
      cases c <;> simp only [regionPage] <;> omega
    obtain ⟨t, hexec, hstore⟩ := exec_pageMatch_store he hq hpage
    have hread : ∀ i, i < 784 → Memory.read t.store (32 * regionPage c + i) =
        (directoryImage gen (entriesWritten s gen)).getD i 0xFF#8 := by
      intro i hi
      rw [hstore]
      by_cases h32 : i < 32
      · have hprog := read_programmed (s := s) (j := .directory k c gen) (show 1 ≤ 25 by omega) hpage h32 hwf
        rw [jobImage_directory s k c gen, hoff, Nat.mul_zero, Nat.zero_add] at hprog
        rw [← hprog, hat]
        rfl
      · rw [Memory.read_writePage_outside _ _ _ _ (by rw [hat]; omega)]
        exact hbefore i (by omega) hi
    obtain ⟨hcond, hgen, hentries⟩ := region_of_image (entriesWritten_length s gen) hrange hapart hread
    exact ⟨t, hexec, hcond, hgen, fun h => by rw [← readEntries_getD, hentries]⟩

end Sys2Proof.Machine

/-! PROOF. The end of a record job (05, R90 to R93; 03, R64, R65; 06, R110 to R113): its commit point, the notices of the
watches, and its store fault. -/

namespace Sys2Proof.Machine

open Sys2Proof.Safety
set_option deprecated.oldSectionVars true

/-! ### The notices of a commit point -/

/-- The notice that watch `n` posts to port `q` at a commit point, if any (06, R110 to R113). -/
def noticeTo (c : CommitReport) (s : State) (q : Port) (n : WatchNo) : Option Notice :=
  match s.watchAt n with
  | none => none
  | some w => if w.port = q then watchNotice c n w else none

theorem selfPasses_iff {c : CommitReport} {w : Watch} : selfPasses c w = true ↔ c.port ≠ w.port ∨ w.self = true := by
  rw [selfPasses, Bool.or_eq_true, bne_iff_ne]

theorem dueNotices_eq (c : CommitReport) (s : State) (q : Port) :
    dueNotices s c.handle c.port c.gen (counterValue c.old) (counterValue c.new) q = allWatches.filterMap (noticeTo c s q) := by
  rw [dueNotices]
  refine List.filterMap_congr fun n _ => ?_
  rw [noticeTo]
  cases s.watchAt n with
  | none => rfl
  | some w =>
    by_cases hq : w.port = q
    · have hpass : (w.port = q ∧ w.handle = c.handle ∧ (c.port ≠ q ∨ w.self = true)) ↔
          w.handle = c.handle ∧ selfPasses c w = true := by
        rw [selfPasses_iff, hq]
        exact and_iff_right rfl
      simp only [if_pos hq, watchNotice, hpass]
      rfl
    · simp only [if_neg hq]
      exact if_neg fun h => hq h.1

theorem evaluateWatch_port (c : CommitReport) (s : State) (n : WatchNo) (q : Port) :
    (evaluateWatch c s n).port q = posted (s.port q) (noticeTo c s q n).toList := by
  rw [evaluateWatch, noticeTo]
  cases s.watchAt n with
  | none => rfl
  | some w =>
    simp only
    cases watchNotice c n w with
    | none => simp only [ite_self]; rfl
    | some x =>
      simp only [postNotice_port]
      split
      · next hq => rw [hq]; exact (posted_singleton _ _).symm
      · rfl

theorem posted_append (x : PortState) (ns ms : List Notice) : posted x (ns ++ ms) = posted (posted x ns) ms := by
  rw [posted, posted, posted, List.foldl_append]

theorem noticeTo_congr {c : CommitReport} {s t : State} (h : t.watches = s.watches) (q : Port) (n : WatchNo) :
    noticeTo c t q n = noticeTo c s q n := by
  rw [noticeTo, noticeTo, State.watchAt, State.watchAt, h]

theorem evaluateWatch_fold_port (c : CommitReport) (l : List WatchNo) (s : State) (q : Port) :
    (l.foldl (evaluateWatch c) s).port q = posted (s.port q) (l.filterMap (noticeTo c s q)) := by
  induction l generalizing s with
  | nil => rfl
  | cons n rest ih =>
    have hwatches : (evaluateWatch c s n).watches = s.watches := by rw [evaluateWatch_frame]
    rw [List.foldl_cons, ih, evaluateWatch_port, ← posted_append,
      List.filterMap_congr fun m _ => noticeTo_congr (c := c) hwatches q m]
    cases hn : noticeTo c s q n with
    | none => rw [List.filterMap_cons_none hn]; rfl
    | some x => rw [List.filterMap_cons_some hn]; rfl

theorem evaluateWatches_port (c : CommitReport) (s : State) (q : Port) :
    (evaluateWatches c s).port q =
      posted (s.port q) (dueNotices s c.handle c.port c.gen (counterValue c.old) (counterValue c.new) q) := by
  rw [dueNotices_eq, evaluateWatches, evaluateWatch_fold_port]

theorem post_slots (x : PortState) (n : Notice) : (x.post n).slots = x.slots ∧ (x.post n).fifo = x.fifo := by
  rw [PortState.post]
  split <;> exact ⟨rfl, rfl⟩

/-- Posting notices leaves the tag slots and the completion FIFO. -/
theorem posted_slots (x : PortState) (ns : List Notice) : (posted x ns).slots = x.slots ∧ (posted x ns).fifo = x.fifo := by
  rw [posted_eq_foldl]
  induction ns generalizing x with
  | nil => exact ⟨rfl, rfl⟩
  | cons n rest ih => exact ⟨(ih _).1.trans (post_slots x n).1, (ih _).2.trans (post_slots x n).2⟩

/-! ### What leaves the notice queues -/

/-- The notices and the lost counts of all ports are the same. -/
abbrev SameNotices (s t : State) : Prop :=
  ∀ q, (t.port q).notices = (s.port q).notices ∧ (t.port q).lost = (s.port q).lost

theorem SameNotices.refl (s : State) : SameNotices s s := fun _ => ⟨rfl, rfl⟩

theorem SameNotices.trans {s t u : State} (h : SameNotices s t) (k : SameNotices t u) : SameNotices s u :=
  fun q => ⟨(k q).1.trans (h q).1, (k q).2.trans (h q).2⟩

theorem SameNotices.of_ports {s t : State} (h : t.ports = s.ports) : SameNotices s t := fun q => by
  rw [State.port, State.port, h]
  exact ⟨rfl, rfl⟩

theorem complete_sameNotices (tk : Ticket) (code : Status) (body : List Byte) (s : State) :
    SameNotices s (complete tk code body s) := fun q => by
  obtain ⟨_, _, _, h⟩ | ⟨_, h⟩ := complete_cases tk code body s
  · rw [h, State.setPort_port]
    split
    · next hq => rw [← hq]; exact ⟨rfl, rfl⟩
    · exact ⟨rfl, rfl⟩
  · rw [h]
    exact ⟨rfl, rfl⟩

theorem completeIf_sameNotices (tk : Option Ticket) (code : Status) (body : List Byte) (s : State) :
    SameNotices s (completeIf tk code body s) := by
  cases tk with
  | none => exact .refl s
  | some tk => exact complete_sameNotices tk code body s

theorem grantExplicit_sameNotices (e : EntryNo) (h : Handle) (tk : Ticket) (s : State) :
    SameNotices s (grantExplicit e h tk s) := by
  refine .trans ?_ (complete_sameNotices _ _ _ _)
  exact .of_ports rfl

theorem grantImplicit_sameNotices (e : EntryNo) (h : Handle) (tk : Ticket) (delta : Word32) (s : State) :
    SameNotices s (grantImplicit e h tk delta s) := .of_ports (by rw [grantImplicit_frame])

theorem grantFromQueue_sameNotices (e : EntryNo) (h : Handle) (ws : List Waiter) (s : State) :
    SameNotices s (grantFromQueue e h ws s).1 := by
  induction ws generalizing s with
  | nil => exact .of_ports rfl
  | cons w ws ih =>
    rw [grantFromQueue]
    split
    · exact (SameNotices.of_ports (t := s.setWaiters h ws) rfl).trans (grantExplicit_sameNotices e h w.ticket _)
    · split
      · exact .trans (complete_sameNotices _ _ _ _) (ih _)
      · exact (SameNotices.of_ports (t := s.setWaiters h ws) rfl).trans (grantImplicit_sameNotices e h w.ticket _ _)

theorem grantFromAlloc_sameNotices (e : EntryNo) (hs : List Handle) (s : State) :
    SameNotices s (grantFromAlloc e hs s).1 := by
  induction hs generalizing s with
  | nil => exact .of_ports rfl
  | cons h hs ih =>
    have hq := grantFromQueue_sameNotices e h (s.record h).waiters s
    rw [grantFromAlloc]
    split
    · next heq => rw [heq] at hq; exact hq.trans (.of_ports rfl)
    · next heq => rw [heq] at hq; exact hq.trans (ih _)

theorem grantOnward_sameNotices (e : EntryNo) (h : Handle) (s : State) : SameNotices s (grantOnward e h s) := by
  have ha := grantFromAlloc_sameNotices e s.allocQueue s
  unfold grantOnward
  split
  · next heq =>
    rw [heq] at ha
    split
    · exact ha.trans (.of_ports rfl)
    · exact ha
  · next heq =>
    rw [heq] at ha
    split
    · exact ha
    · exact ha.trans (grantFromQueue_sameNotices e h _ _)

theorem endLease_sameNotices (e : EntryNo) (l : Lease) (answer : Status × List Byte) (s : State) :
    SameNotices s (endLease e l answer s) := by
  refine .trans ?_ (grantOnward_sameNotices _ _ _)
  exact .trans (.of_ports rfl) (completeIf_sameNotices _ _ _ _)

theorem startNext_ports (s : State) : (startNext s).ports = s.ports := by rw [startNext_eq]

theorem reportDrained_ports (s : State) : (reportDrained s).ports = s.ports := by
  rw [reportDrained]
  split
  · split <;> rfl
  · rfl

/-! ### The commit point of a record job -/

section Commit

variable {s : State} {e : EntryNo} {l : Lease} {h : Handle}

theorem recordCommitPoint_leased (hl : (s.lease e).lease = some l) (c : Copy) (gen : Word32) :
    recordCommitPoint e h c gen s =
      endLease e l (commitAnswer l (s.buffer e) gen)
        (evaluateWatches ⟨h, l.holder, gen, s.committedData h, (s.buffer e).bytes.take (s.entryOf h).size.toNat⟩
          (s.setRecord h { s.record h with active := some c, gen := gen })) := by
  simp only [recordCommitPoint, hl]

theorem commitPoint_record_notices (hl : (s.lease e).lease = some l) (c : Copy) (first pages : Nat) (gen : Word32) (q : Port) :
    let x := posted (s.port q)
      (dueNotices s h l.holder gen (counterValue (s.committedData h))
        (counterValue ((s.buffer e).bytes.take (s.entryOf h).size.toNat)) q)
    let t := commitPoint (.record e h c first pages gen) s
    (t.port q).notices = x.notices ∧ (t.port q).lost = x.lost := by
  intro x t
  have hends : SameNotices (recordCommitPoint e h c gen s) t := .of_ports ((reportDrained_ports _).trans (startNext_ports _))
  rw [recordCommitPoint_leased hl] at hends
  have hkept := SameNotices.trans (endLease_sameNotices _ _ _ _) hends q
  rw [evaluateWatches_port] at hkept
  exact hkept

/-- A program of a page outside the run of the active copy leaves the committed data. -/
theorem committedData_writePage {x : RecEntry} {page : Nat} (hx : Defined s h x) (bytes : List Byte) (rest : List Job)
    (hout : ∀ y, (s.record h).active = some y → ¬ InRun (pagesPerCopy x.size.toNat) (x.firstPage y) page) :
    State.committedData { s with store := Memory.writePage s.store page bytes, queue := rest } h = s.committedData h := by
  have hx' : Defined { s with store := Memory.writePage s.store page bytes, queue := rest } h x := hx
  rw [State.committedData, State.committedData, State.entryOf_eq hx, State.entryOf_eq hx']
  show (match (s.record h).active with | none => _ | some c => _) = _
  cases hactive : (s.record h).active with
  | none => rfl
  | some y =>
    have hne := hout y hactive
    simp only [copyData, Memory.readBytes, copyDataAddress, pageAddress]
    refine List.map_congr_left fun i hi => Memory.read_writePage_outside _ _ _ _ fun heq => hne ?_
    have := List.mem_range.mp hi
    rw [InRun, pagesPerCopy]
    omega

end Commit

/-- Settles O47. -/
theorem commitPointPostsWatchNotices : Obligations.CommitPointPostsWatchNotices := by
  unfold Obligations.CommitPointPostsWatchNotices
  intro s e l h x c first pages gen retry rest he hq hfirst hp hx hl hh hout
  obtain ⟨-, hat⟩ := recordJob_pageAt_last e h c first pages gen
  rw [exec_pageMatch_last he hq (by rw [hat]; exact hfirst) (Nat.le_refl pages)]
  have hnotices := commitPoint_record_notices (s := { s with
      store := Memory.writePage s.store ((Job.record e h c first pages gen).pageAt pages)
        (s.jobPage (.record e h c first pages gen) pages)
      queue := rest }) (h := h) hl c first pages gen
  rw [hat, committedData_writePage hx _ _ hout] at hnotices
  rw [hat]
  generalize commitPoint (Job.record e h c first pages gen) _ = t at hnotices ⊢
  refine ⟨t, rfl, fun q => ?_⟩
  have hentry : State.entryOf { s with
      store := Memory.writePage s.store first (s.jobPage (.record e h c first pages gen) pages)
      queue := rest } h = x := State.entryOf_eq (s := s) hx
  have hq := hnotices q
  rw [hentry] at hq
  exact hq

/-! ### The end of a job, nothing waiting and no factory clear in progress -/

theorem jobEnd_eq {s : State} (hc : s.clear = none) : reportDrained (startNext s) = { s with engine := engineFor s.queue } := by
  rw [reportDrained_eq_self (by rw [startNext_eq]; exact hc), startNext_eq]
  rfl

/-- The end of a record job with nothing waiting for its entry: the entry is freed and its answer tag answered
(03, R64, R65). -/
theorem endLease_nothing {s : State} {e : EntryNo} {l : Lease} {q : Port} {u : Tag} {serial : Nat} {kind : Byte}
    {body : List Byte} (hans : l.answer = some ⟨q, u, serial⟩) (hw : NoneWaits s l.handle)
    (hslot : (s.port q).slots.get u = .pending serial kind body) (answer : Status × List Byte) :
    endLease e l answer s = completed (freed s e) q u answer.1 answer.2 := by
  obtain ⟨hqueue, hwaiters⟩ := hw
  have hfree : freeLease e s = freed s e := freeLease_eq e s
  rw [endLease, hfree, hans]
  show grantOnward e l.handle (complete ⟨q, u, serial⟩ answer.1 answer.2 (freed s e)) = _
  rw [complete_eq_completed (s := freed s e) hslot]
  exact grantOnward_none e hqueue hwaiters

theorem completed_port (s : State) (q r : Port) (u v : Tag) (code : Status) (body : List Byte) :
    ((completed s q u code body).port r).fifo = (if r = q then (s.port q).fifo ++ [u] else (s.port r).fifo)
      ∧ ((completed s q u code body).port r).slots.get v =
        if r = q ∧ v = u then .done ⟨code, body⟩ else (s.port r).slots.get v := by
  rw [completed, State.setPort_port]
  by_cases hr : q = r
  · subst hr
    rw [if_pos rfl, if_pos rfl, vector_get_set]
    simp only [true_and, eq_comm]
  · rw [if_neg hr, if_neg (Ne.symm hr), if_neg fun h => hr h.1.symm]
    exact ⟨rfl, rfl⟩

/-- The first four bytes of a buffer, through the word they hold (10, R170). -/
theorem be4_counterValue {l : List Byte} (hl : 4 ≤ l.length) : be4 (counterValue l) = l.take 4 := by
  match l, hl with
  | b0 :: b1 :: b2 :: b3 :: rest, _ =>
    have hbyte : ∀ (b : Byte) (k : Nat), (word32 b0 b1 b2 b3).toNat / 2 ^ k % 2 ^ 8 = b.toNat →
        (word32 b0 b1 b2 b3).extractLsb' k 8 = b := fun b k hk => by
      apply BitVec.eq_of_toNat_eq
      rw [BitVec.extractLsb'_toNat, Nat.shiftRight_eq_div_pow, hk]
    have hn := word32_toNat b0 b1 b2 b3
    have h0 := b0.isLt
    have h1 := b1.isLt
    have h2 := b2.isLt
    have h3 := b3.isLt
    rw [counterValue_cons, be4, hbyte b0 24 (by omega), hbyte b1 16 (by omega), hbyte b2 8 (by omega), hbyte b3 0 (by omega)]
    rfl

theorem commitAnswer_eq {l : Lease} {b : Buffer} (hb : b.bytes.length = 240) (gen : Word32) :
    (⟨(commitAnswer l b gen).1, (commitAnswer l b gen).2⟩ : Response) =
      match l.form with
      | .explicit => ⟨.ok, be4 gen⟩
      | .implicit => ⟨if b.clamped then .saturated else .ok, b.bytes.take 4 ++ be4 gen⟩ := by
  rw [commitAnswer]
  cases l.form with
  | explicit => rfl
  | implicit =>
    simp only
    rw [be4_counterValue (by omega)]
    rfl

/-- The header page that a record job programs last (05, R88): the copy header and data bytes 0 to 15. -/
theorem headerPage_programmed {s : State} {e : EntryNo} {h : Handle} {x : RecEntry} {c : Copy} {first pages : Nat}
    {gen : Word32} (hp : 1 ≤ pages) (hfirst : first < 2048) (hwf : StoreCanonical s) (hx : Defined s h x)
    (hlen : (s.buffer e).bytes.length = 240) (hsize : x.size.toNat ≤ 240) :
    let m := Memory.writePage s.store first (s.jobPage (.record e h c first pages gen) pages)
    Memory.readBytes m (32 * first) 16 = copyHeader h x.size x.stamp gen ((s.buffer e).bytes.take x.size.toNat)
      ∧ ∀ i, i < 16 → Memory.read m (32 * first + 16 + i) =
          if i < x.size.toNat then (s.buffer e).bytes.getD i 0x00#8 else 0xFF#8 := by
  intro m
  obtain ⟨hoff, hat⟩ := recordJob_pageAt_last e h c first pages gen
  have hread : ∀ i, i < 32 →
      Memory.read m (32 * first + i) = (s.jobImage (.record e h c first pages gen)).getD i 0xFF#8 := fun i hi => by
    have hprog := read_programmed (s := s) (j := .record e h c first pages gen) hp (by rw [hat]; exact hfirst) hi hwf
    rw [hoff, hat, Nat.mul_zero, Nat.zero_add] at hprog
    exact hprog
  constructor
  · have himage : ∀ i, i < 0 + 16 → Memory.read m (32 * first + i) =
        (copyHeader h x.size x.stamp gen ((s.buffer e).bytes.take x.size.toNat) ++ (s.buffer e).bytes.take x.size.toNat).getD i
          0xFF#8 := fun i hi => by
      rw [hread i (by omega), State.jobImage, State.entryOf_eq hx, copyImage, padTo_getD _ _ (by omega)]
    refine (readBytes_eq_slice ?_ himage).trans (List.take_left' (copyHeader_length ..))
    rw [List.length_append, copyHeader_length]
    omega
  · intro i hi
    rw [Nat.add_assoc, hread (16 + i) (by omega)]
    exact jobImage_record_getD c first gen hx hlen hsize (by omega)

theorem commitPoint_record_nothing {s : State} {e : EntryNo} {l : Lease} {h : Handle} {q : Port} {u : Tag} {serial : Nat}
    {kind : Byte} {body : List Byte} (hl : (s.lease e).lease = some l) (hh : l.handle = h)
    (hans : l.answer = some ⟨q, u, serial⟩) (hw : NoneWaits s h) (hclear : s.clear = none)
    (hslot : (s.port q).slots.get u = .pending serial kind body) (c : Copy) (first pages : Nat) (gen : Word32) :
    ∃ P : PerPort PortState, (∀ r, (P.get r).slots = (s.port r).slots ∧ (P.get r).fifo = (s.port r).fifo)
      ∧ commitPoint (.record e h c first pages gen) s =
        { completed (freed { s.setRecord h { s.record h with active := some c, gen := gen } with ports := P } e) q u
            (commitAnswer l (s.buffer e) gen).1 (commitAnswer l (s.buffer e) gen).2 with engine := engineFor s.queue } := by
  obtain ⟨hqueue, hwaiters⟩ := hw
  have hcommit := recordCommitPoint_leased (h := h) hl c gen
  rw [evaluateWatches_frame] at hcommit
  generalize hrep : CommitReport.mk h l.holder gen (s.committedData h) _ = report at hcommit
  have hports := fun r => evaluateWatches_port report (s.setRecord h { s.record h with active := some c, gen := gen }) r
  generalize evaluateWatches report (s.setRecord h { s.record h with active := some c, gen := gen }) = v at hcommit hports
  have hkept : ∀ r, (v.port r).slots = (s.port r).slots ∧ (v.port r).fifo = (s.port r).fifo := fun r => by
    rw [hports r]
    exact posted_slots _ _
  have hslot' : (v.port q).slots.get u = .pending serial kind body := by rw [(hkept q).1, hslot]
  refine ⟨v.ports, hkept, ?_⟩
  have hwait : NoneWaits { s.setRecord h { s.record h with active := some c, gen := gen } with ports := v.ports } l.handle := by
    refine ⟨hqueue, ?_⟩
    rw [hh]
    refine (congrArg RecState.waiters (State.setRecord_record_same s h _)).trans hwaiters
  rw [endLease_nothing hans hwait hslot'] at hcommit
  show reportDrained (startNext (recordCommitPoint e h c gen s)) = _
  rw [hcommit]
  exact jobEnd_eq (s := completed _ q u _ _) hclear

/-- Settles O46. -/
theorem recordCommitPointTakesEffect : Obligations.RecordCommitPointTakesEffect := by
  unfold Obligations.RecordCommitPointTakesEffect
  intro s e l h x c first pages gen retry rest q u serial kind body he hq hp hfirst hwf hx hlen h1 h240 hl hh hans hw hclear
    hslot
  obtain ⟨hqueue, hwaiters⟩ := hw
  obtain ⟨-, hat⟩ := recordJob_pageAt_last e h c first pages gen
  obtain ⟨hheader, hdata⟩ := headerPage_programmed (c := c) (gen := gen) hp hfirst hwf hx hlen h240
  have houtside := fun a ha => Memory.read_writePage_outside s.store first a
    (s.jobPage (.record e h c first pages gen) pages) ha
  rw [exec_pageMatch_last he hq (by rw [hat]; exact hfirst) (Nat.le_refl pages), hat]
  generalize Memory.writePage s.store first (s.jobPage (.record e h c first pages gen) pages) = m at hheader hdata houtside ⊢
  obtain ⟨P, hP, hend⟩ := commitPoint_record_nothing (s := { s with store := m, queue := rest }) hl hh hans
    ⟨hqueue, hwaiters⟩ hclear hslot c first pages gen
  rw [hend]
  refine ⟨_, rfl, rfl, hheader, hdata, houtside, fun r => ?_, fun r v => ?_⟩
  · refine ((completed_port _ q r u u _ _).1).trans ?_
    show (if r = q then (P.get q).fifo ++ [u] else (P.get r).fifo) = _
    rw [(hP q).2, (hP r).2]
    rfl
  · refine ((completed_port _ q r u v _ _).2).trans ?_
    show (if r = q ∧ v = u then Slot.done ⟨(commitAnswer l (s.buffer e) gen).1, (commitAnswer l (s.buffer e) gen).2⟩
      else (P.get r).slots.get v) = _
    rw [(hP r).1, commitAnswer_eq (l := l) (b := s.buffer e) hlen gen]
    rfl

/-! ### A store fault of a record job -/

theorem postFault_port (j : Job) (failing : Nat) (s : State) (r : Port) :
    (postFault j failing s).port r =
      if s.configPort = some r then posted (s.port r) [.storeFault j.subject failing j.gen] else s.port r := by
  rw [postFault]
  cases s.configPort with
  | none => rfl
  | some p =>
    simp only [postNotice_port, Option.some.injEq]
    by_cases hp : p = r
    · rw [if_pos hp, if_pos hp, hp]
      exact (posted_singleton _ _).symm
    · rw [if_neg hp, if_neg hp]

theorem postFault_slots (j : Job) (failing : Nat) (s : State) (r : Port) :
    ((postFault j failing s).port r).slots = (s.port r).slots := by
  rw [postFault_port]
  split
  · exact (posted_slots _ _).1
  · rfl

/-- The store after the fault erase (02, R27, R36). -/
theorem read_erasePage {m : List Host.Cell} {page : Nat} (hp : page < 2048) (hwf : Memory.wf m = true) (a : Nat) :
    Memory.read (Memory.erasePage m page) a = if a / 32 = page then 0xFF#8 else Memory.read m a := by
  split
  · next h =>
    have hin := Memory.read_erasePage_inside m page (a % 32) hp (Nat.mod_lt a (by omega)) hwf
    rwa [show 32 * page + a % 32 = a by omega] at hin
  · next h => exact Memory.read_writePage_outside m page a _ h

theorem exec_eraseEnd_eq {s : State} {pos failing : Nat} {j : Job} {rest : List Job} (he : s.engine = .erasing pos failing)
    (hq : s.queue = j :: rest) (hpage : j.headerPage < 2048) :
    exec .eraseEnd s =
      .next (jobFault j failing { s with store := Memory.erasePage s.store j.headerPage, queue := rest }) := by
  show execEraseEnd s = _
  simp only [execEraseEnd, he, hq, if_pos hpage]

theorem raiseFaultCount_eq (h : Handle) (s : State) :
    raiseFaultCount h s =
      s.setRecord h
        { s.record h with
          faultCount := if (s.record h).faultCount = 255#8 then 255#8 else (s.record h).faultCount + 1#8 } := by
  have hcount : satInc (s.record h).faultCount =
      if (s.record h).faultCount = 255#8 then 255#8 else (s.record h).faultCount + 1#8 := by
    unfold satInc
    split
    · next hc => exact hc
    · rfl
  rw [raiseFaultCount, hcount]

theorem recordFault_leased {s : State} {e : EntryNo} {l : Lease} (hl : (s.lease e).lease = some l) :
    recordFault e s = endLease e l (.storeFault, []) s := by
  simp only [recordFault, hl]

theorem jobFault_record_nothing {s : State} {e : EntryNo} {l : Lease} {h : Handle} {q : Port} {u : Tag} {serial : Nat}
    {kind : Byte} {body : List Byte} (hl : (s.lease e).lease = some l) (hh : l.handle = h)
    (hans : l.answer = some ⟨q, u, serial⟩) (hw : NoneWaits s h) (hclear : s.clear = none)
    (hslot : (s.port q).slots.get u = .pending serial kind body) (c : Copy) (first pages failing : Nat) (gen : Word32) :
    ∃ P : PerPort PortState,
      (∀ r, P.get r =
        if s.configPort = some r then posted (s.port r) [.storeFault (.record h) failing gen] else s.port r)
      ∧ jobFault (.record e h c first pages gen) failing s =
        { completed (freed { raiseFaultCount h s with ports := P } e) q u .storeFault [] with
            engine := engineFor s.queue } := by
  obtain ⟨hqueue, hwaiters⟩ := hw
  have hports := postFault_port (.record e h c first pages gen) failing (raiseFaultCount h s)
  have hslots := postFault_slots (.record e h c first pages gen) failing (raiseFaultCount h s)
  have hframe := postFault_frame (.record e h c first pages gen) failing (raiseFaultCount h s)
  show ∃ P : PerPort PortState, _ ∧ reportDrained (startNext (recordFault e
    (postFault (.record e h c first pages gen) failing (raiseFaultCount h s)))) = _
  generalize postFault (.record e h c first pages gen) failing (raiseFaultCount h s) = v at hports hslots hframe ⊢
  refine ⟨v.ports, hports, ?_⟩
  have hl' : (v.lease e).lease = some l := by rw [hframe]; exact hl
  have hslot' : (v.port q).slots.get u = .pending serial kind body := by rw [hslots q]; exact hslot
  have hwait : NoneWaits v l.handle := by
    rw [hframe, hh]
    exact ⟨hqueue, (congrArg RecState.waiters (State.setRecord_record_same s h _)).trans hwaiters⟩
  rw [recordFault_leased hl', endLease_nothing hans hwait hslot', ← hframe]
  have hclear' : v.clear = none := by rw [hframe]; exact hclear
  have hqueue' : v.queue = s.queue := by rw [hframe]; rfl
  rw [← hqueue']
  exact jobEnd_eq (s := completed (freed v e) q u .storeFault []) hclear'

/-- Settles O48. -/
theorem recordStoreFaultKeepsOldData : Obligations.RecordStoreFaultKeepsOldData := by
  unfold Obligations.RecordStoreFaultKeepsOldData
  intro s e l h c first pages pos failing gen rest q u serial kind body he hq hfirst hwf hl hh hans hw hclear hslot
  have hread := read_erasePage (m := s.store) hfirst hwf
  rw [exec_eraseEnd_eq he hq hfirst]
  show ∃ t, Host.Outcome.next (jobFault _ failing { s with store := Memory.erasePage s.store first, queue := rest }) = _ ∧ _
  generalize Memory.erasePage s.store first = m at hread ⊢
  obtain ⟨P, hP, hend⟩ := jobFault_record_nothing (s := { s with store := m, queue := rest }) hl hh hans hw hclear hslot c
    first pages failing gen
  rw [hend, raiseFaultCount_eq]
  refine ⟨_, rfl, rfl, hread, fun r => ?_⟩
  show (State.setPort _ q _).port r = _
  rw [State.setPort_port]
  by_cases hr : q = r
  · rw [if_pos hr, ← hr, if_pos rfl]
    show ({ P.get q with slots := (P.get q).slots.set u.val (.done ⟨.storeFault, []⟩) u.isLt
                         fifo := (P.get q).fifo ++ [u] } : PortState) = _
    rw [hP q]
    rfl
  · rw [if_neg hr, if_neg (Ne.symm hr)]
    exact hP r

end Sys2Proof.Machine

/-! PROOF. The end of a directory job (05, R90, R95; 01, R14, R16, R18, R20, R21): the commit points of the four operations
and their store fault. -/

namespace Sys2Proof.Machine

open Sys2Proof.Safety
set_option deprecated.oldSectionVars true

/-! ### Page maps and ports -/

/-- The condition of a page after both copies of a record have been marked. -/
theorem pageCond_markCopies (cond : PageCond) (x : RecEntry) {m : List (Nat × PageCond)}
    (hm : sparseWf .free 0 4096 m = true) (page : Nat) :
    pageCond (markCopies cond x m) page =
      if InRun (pagesPerCopy x.size.toNat) x.pageA.val page ∨ InRun (pagesPerCopy x.size.toNat) x.pageB.val page
      then cond else pageCond m page := by
  have ha := x.pageA.isLt
  have hb := x.pageB.isLt
  have hlen : pagesPerCopy x.size.toNat ≤ 9 := by
    have := x.size.isLt
    rw [pagesPerCopy]
    omega
  rw [markCopies, pageCond_markRun cond _ _ _ (show _ ≤ 4096 by omega) (markRun_wf cond _ _ _ (by omega) hm),
    pageCond_markRun cond _ _ m (show _ ≤ 4096 by omega) hm]
  by_cases hin : InRun (pagesPerCopy x.size.toNat) x.pageB.val page
  · rw [if_pos hin, if_pos (.inr hin)]
  · rw [if_neg hin]
    exact if_congr (by rw [or_iff_left hin]) rfl rfl

/-- A completion depends on the ports alone. -/
theorem complete_of_ports {s t : State} (h : t.ports = s.ports) (tk : Ticket) (code : Status) (body : List Byte) :
    complete tk code body t = { t with ports := (complete tk code body s).ports } := by
  have hport : t.port tk.port = s.port tk.port := by rw [State.port, State.port, h]
  simp only [complete, hport]
  split
  · split
    · show State.setPort t _ _ = _
      rw [State.setPort, h]
      rfl
    · rw [← h]
  · rw [← h]

theorem answeredIf_ports {s t : State} (h : t.ports = s.ports) (tk : Ticket) (code : Status) (body : List Byte) :
    (answeredIf t tk code body).ports = (answeredIf s tk code body).ports := by
  rw [← complete_eq_answeredIf, complete_of_ports h]
  rfl

theorem posted_withSlots (x : PortState) (slots : Vector Slot 4) (fifo : List Tag) (ns : List Notice) :
    posted { x with slots := slots, fifo := fifo } ns = { posted x ns with slots := slots, fifo := fifo } := by
  rw [posted_eq_foldl, posted_eq_foldl]
  induction ns generalizing x with
  | nil => rfl
  | cons n rest ih =>
    rw [List.foldl_cons, List.foldl_cons, ← ih]
    congr 1
    simp only [PortState.post]
    split <;> rfl

/-- Notices posted before a completion are posted after it. -/
theorem complete_posted {s t : State} {ns : Port → List Notice} (h : ∀ q, t.port q = posted (s.port q) (ns q)) (tk : Ticket)
    (code : Status) (body : List Byte) (q : Port) :
    (complete tk code body t).port q = posted ((complete tk code body s).port q) (ns q) := by
  have hslots : (t.port tk.port).slots = (s.port tk.port).slots := by rw [h]; exact (posted_slots _ _).1
  obtain ⟨kind, b, hslot, hs⟩ | ⟨hslot, hs⟩ := complete_cases tk code body s
  · rw [hs, complete_of_pending code body (by rw [hslots]; exact hslot), State.setPort_port, State.setPort_port]
    by_cases hq : tk.port = q
    · subst hq
      rw [if_pos rfl, if_pos rfl, posted_withSlots, ← h, hslots, h, (posted_slots _ _).2]
    · rw [if_neg hq, if_neg hq, h]
  · obtain ⟨kind, b, hslot', -⟩ | ⟨-, ht⟩ := complete_cases tk code body t
    · rw [hslots] at hslot'
      exact absurd hslot' (hslot kind b)
    · rw [hs, ht, h]

/-! ### The watches of a retired record -/

theorem State.watchesOn_iff {s : State} {q : Port} {h : Handle} :
    s.watchesOn q h = true ↔ ∃ n w, s.watchAt n = some w ∧ w.port = q ∧ w.handle = h := by
  simp only [State.watchesOn, List.any_eq_true, allWatches, List.mem_finRange, true_and]
  constructor
  · rintro ⟨n, hn⟩
    split at hn
    · next w hw => exact ⟨n, w, hw, by simpa using hn⟩
    · cases hn
  · rintro ⟨n, w, hw, hq, hh⟩
    refine ⟨n, ?_⟩
    simp [hw, hq, hh]

theorem postIf_port (c : Bool) (p : Port) (n : Notice) (s : State) (q : Port) :
    (postIf c p n s).port q = posted (s.port q) (if p = q ∧ c = true then [n] else []) := by
  rw [postIf]
  cases c with
  | false => simp [posted]
  | true =>
    simp only [if_true, and_true, postNotice_port]
    split
    · next hp => rw [← posted_singleton, hp]
    · rfl

theorem retireWatches_port (h : Handle) (s : State) (q : Port) :
    (retireWatches h s).port q = posted (s.port q) (if s.watchesOn q h = true then [.retired h] else []) := by
  rw [retireWatches, postIf_port, postIf_port, postIf_port]
  cases q <;> simp [posted] <;> rfl

/-! ### The commit points of DEFINE and RETIRE -/

section Commit

variable {s : State} {j : DirJob} {c : Copy} {gen : Word32}

theorem defineCommit_eq {x : RecEntry} (hj : s.dirSlot = some j) (hop : j.op = .define x) :
    dirCommitPoint c gen s =
      { (s.setRecord j.handle { RecState.blank with entry := some { x with stamp := gen } }).markCopies .inUse x with
          activeDir := some c, dirGen := gen, dirSlot := none
          ports := (answeredIf s j.ticket .ok (be4 gen)).ports } := by
  simp only [dirCommitPoint, hj, hop, defineCommitted]
  refine (complete_of_ports (s := s) ?_ _ _ _).trans ?_ <;> rfl

theorem retireCommit_eq {x : RecEntry} (hj : s.dirSlot = some j) (hop : j.op = .retire) (hx : Defined s j.handle x) :
    ∃ P : PerPort PortState,
      (∀ q, P.get q = posted ((answeredIf s j.ticket .ok (be4 gen)).ports.get q)
        (if s.watchesOn q j.handle = true then [.retired j.handle] else []))
      ∧ dirCommitPoint c gen s =
        { (s.markCopies .free x).setRecord j.handle RecState.blank with
            activeDir := some c, dirGen := gen, dirSlot := none, ports := P
            watches := (removeWatches (fun w => w.handle == j.handle) s).watches } := by
  have hcommit : dirCommitPoint c gen s = complete j.ticket .ok (be4 gen) (retireWatches j.handle
      { (s.markCopies .free x).setRecord j.handle RecState.blank with
          activeDir := some c, dirGen := gen, dirSlot := none }) := by
    simp only [dirCommitPoint, hj, hop, retireCommitted]
    rw [State.entryOf_eq (s := { s with activeDir := some c, dirGen := gen, dirSlot := none }) hx]
    rfl
  have hports := complete_posted (s := s) (fun q => retireWatches_port j.handle
    { (s.markCopies .free x).setRecord j.handle RecState.blank with
        activeDir := some c, dirGen := gen, dirSlot := none } q) j.ticket .ok (be4 gen)
  refine ⟨_, hports, ?_⟩
  rw [hcommit, complete_frame, retireWatches_frame]
  rfl

/-- The commit point of a directory job with no factory clear in progress (05, R93, R95). -/
theorem commitPoint_directory_eq (hc : (dirCommitPoint c gen s).clear = none) (k : DirKind) :
    commitPoint (.directory k c gen) s =
      { dirCommitPoint c gen s with engine := engineFor (dirCommitPoint c gen s).queue } := jobEnd_eq hc

end Commit

theorem directoryJob_last (k : DirKind) (c : Copy) (gen : Word32) : (Job.directory k c gen).pageAt 25 < 2048 := by
  rw [(directoryJob_pageAt k c gen (pos := 25) (by omega) (by omega)).2]
  cases c <;> simp only [regionPage] <;> omega

/-- What RETIRE's commit point leaves of the watches (06, R107). -/
theorem retired_watchAt (h : Handle) (s : State) (n : WatchNo) :
    (removeWatches (fun w => w.handle == h) s).watchAt n =
      match s.watchAt n with
      | some w => if w.handle = h then none else some w
      | none => none := by
  rw [removeWatches_watchAt]
  cases s.watchAt n with
  | none => rfl
  | some w => by_cases hw : w.handle = h <;> simp [Option.filter, hw]

theorem answeredIf_done {s : State} {tk : Ticket} {kind : Byte} {body : List Byte}
    (hslot : (s.port tk.port).slots.get tk.tag = .pending tk.serial kind body) (code : Status) (b : List Byte) :
    ((answeredIf s tk code b).port tk.port).slots.get tk.tag = .done ⟨code, b⟩ := by
  rw [← complete_eq_answeredIf, complete_of_pending code b hslot, State.setPort_port_same, vector_get_set, if_pos rfl]

/-- Settles O50. -/
theorem defineAndRetireCommitPoints : Obligations.DefineAndRetireCommitPoints := by
  unfold Obligations.DefineAndRetireCommitPoints
  intro s j k c gen retry rest m x kind body he hq hj hclear hmap hwf hslot hop
  rw [exec_pageMatch_last he hq (directoryJob_last k c gen) (Nat.le_refl 25)]
  generalize Memory.writePage s.store _ _ = store
  have hdone := answeredIf_done hslot .ok (be4 gen)
  obtain hop | ⟨hop, hx⟩ := hop
  · have hne : j.op ≠ .retire := by rw [hop]; simp
    have hcommit := defineCommit_eq (s := { s with store := store, queue := rest }) hj hop (c := c) (gen := gen)
    rw [answeredIf_ports (s := s) (t := { s with store := store, queue := rest }) rfl] at hcommit
    rw [commitPoint_directory_eq (by rw [hcommit]; exact hclear), hcommit]
    refine ⟨_, rfl, rfl, rfl, rfl, rfl, rfl, ?_, fun h hh => ?_, ⟨_, congrArg (Option.map _) hmap, fun page => ?_⟩, hdone,
      fun n => ?_, fun q => ⟨[], fun h => absurd h.1 hne, fun _ => rfl, rfl⟩, rfl, rfl, rfl⟩
    · rw [if_neg hne]
      exact State.setRecord_record_same s j.handle _
    · exact (State.setRecord_record s j.handle h _).trans (if_neg (Ne.symm hh))
    · rw [if_neg hne]
      exact pageCond_markCopies .inUse x hwf page
    · show s.watchAt n = _
      cases s.watchAt n with
      | none => rfl
      | some w => exact (if_neg fun h => hne h.1).symm
  · obtain ⟨P, hP, hcommit⟩ := retireCommit_eq (s := { s with store := store, queue := rest }) hj hop hx (c := c) (gen := gen)
    simp only [answeredIf_ports (s := s) (t := { s with store := store, queue := rest }) rfl] at hP
    rw [commitPoint_directory_eq (by rw [hcommit]; exact hclear), hcommit]
    refine ⟨_, rfl, rfl, rfl, rfl, rfl, rfl, ?_, fun h hh => ?_, ⟨_, congrArg (Option.map _) hmap, fun page => ?_⟩, ?_,
      fun n => ?_, fun q => ⟨_, ?_, ?_, hP q⟩, rfl, rfl, rfl⟩
    · rw [if_pos hop]
      exact State.setRecord_record_same s j.handle _
    · exact (State.setRecord_record s j.handle h _).trans (if_neg (Ne.symm hh))
    · rw [if_pos hop]
      exact pageCond_markCopies .free x hwf page
    · show (PortState.slots (P.get j.ticket.port)).get j.ticket.tag = _
      rw [hP, (posted_slots _ _).1]
      exact hdone
    · refine (retired_watchAt j.handle s n).trans ?_
      cases s.watchAt n with
      | none => rfl
      | some w => simp only [hop, true_and]
    · rintro ⟨-, hw⟩
      exact if_pos (State.watchesOn_iff.mpr hw)
    · intro hw
      exact if_neg fun hon => hw ⟨hop, State.watchesOn_iff.mp hon⟩

/-! ### The commit points of SET-RIGHTS and FREEZE -/

theorem answeredAll_ports {s t : State} (h : t.ports = s.ports) (code : Status) (tks : List Ticket) :
    (answeredAll t code tks).ports = (answeredAll s code tks).ports := by
  induction tks generalizing s t with
  | nil => exact h
  | cons tk rest ih => exact ih (answeredIf_ports h tk code [])

/-- A completion leaves every slot but its own request's. -/
theorem answeredIf_slot_ne {s : State} {tk : Ticket} {p : Port} {u : Tag} (h : ¬ (tk.port = p ∧ tk.tag = u)) (code : Status)
    (body : List Byte) : ((answeredIf s tk code body).port p).slots.get u = (s.port p).slots.get u := by
  rw [← complete_eq_answeredIf]
  obtain ⟨_, _, _, hs⟩ | ⟨_, hs⟩ := complete_cases tk code body s
  · rw [hs, State.setPort_port]
    split
    · next hp => rw [vector_get_set, if_neg fun hu => h ⟨hp, hu⟩, hp]
    · rfl
  · rw [hs]

theorem answeredAll_slot_ne {s : State} {tks : List Ticket} {p : Port} {u : Tag}
    (h : ∀ tk ∈ tks, ¬ (tk.port = p ∧ tk.tag = u)) (code : Status) :
    ((answeredAll s code tks).port p).slots.get u = (s.port p).slots.get u := by
  induction tks generalizing s with
  | nil => rfl
  | cons tk rest ih =>
    refine (ih fun k hk => h k (List.mem_cons_of_mem _ hk)).trans ?_
    exact answeredIf_slot_ne (h tk List.mem_cons_self) code []

section Commit

variable {s : State} {j : DirJob} {c : Copy} {gen : Word32} {x : RecEntry}

/-- What is answered at a directory commit point: the waiters from the head, and then the request (07, R129). -/
theorem complete_answerAll {s t : State} (h : t.ports = s.ports) (code : Status) (ws : List Waiter) (tk : Ticket)
    (body : List Byte) :
    complete tk .ok body (answerAll code ws t) =
      { t with ports := (answeredIf (answeredAll s code (ws.map fun w => w.ticket)) tk .ok body).ports } := by
  have hports := answeredAll_ports h code (ws.map fun w => w.ticket)
  rw [← answerAll_eq_answeredAll code ws t] at hports
  rw [complete_of_ports hports, answerAll_frame]
  rfl

theorem setRightsCommit_eq {r : PerPort Rights} (hj : s.dirSlot = some j) (hop : j.op = .setRights r)
    (hx : Defined s j.handle x) :
    dirCommitPoint c gen s =
      { s.setRecord j.handle
          { s.record j.handle with
            entry := some { x with rights := r }
            waiters := (s.record j.handle).waiters.filter fun w => (r.get w.ticket.port).update } with
          activeDir := some c, dirGen := gen, dirSlot := none
          watches := (removeWatches (fun w => w.handle == j.handle && !(r.get w.port).watch) s).watches
          allocQueue :=
            if (s.record j.handle).waiters.filter (fun w => (r.get w.ticket.port).update) = [] then
              s.allocQueue.filter fun h => h != j.handle
            else s.allocQueue
          ports := (answeredIf (answeredAll s .denied
            (((s.record j.handle).waiters.filter fun w => !(r.get w.ticket.port).update).map fun w => w.ticket))
            j.ticket .ok (be4 gen)).ports } := by
  have hentry : (s.record j.handle).entry = some x := hx
  simp only [dirCommitPoint, hj, hop, setRightsCommitted]
  generalize hs1 : removeWatches _ _ = s1
  have hframe : s1 = { s.setRecord j.handle { s.record j.handle with entry := some { x with rights := r } } with
      activeDir := some c, dirGen := gen, dirSlot := none
      watches := (removeWatches (fun w => w.handle == j.handle && !(r.get w.port).watch) s).watches } := by
    rw [← hs1, removeWatches_frame]
    simp only [State.record, State.setRecord] at hentry ⊢
    rw [hentry]
    rfl
  have hrec : s1.record j.handle = { s.record j.handle with entry := some { x with rights := r } } := by
    rw [hframe]
    exact State.setRecord_record_same s j.handle _
  have hset : s1.setWaiters j.handle ((s1.record j.handle).waiters.filter fun w => (r.get w.ticket.port).update) =
      { s.setRecord j.handle
          { s.record j.handle with
            entry := some { x with rights := r }
            waiters := (s.record j.handle).waiters.filter fun w => (r.get w.ticket.port).update } with
          activeDir := some c, dirGen := gen, dirSlot := none
          watches := (removeWatches (fun w => w.handle == j.handle && !(r.get w.port).watch) s).watches } := by
    rw [State.setWaiters, hrec, hframe]
    simp only [State.setRecord, Vector.set_set]
  rw [hset]
  generalize hkept : ((s.record j.handle).waiters.filter fun w => (r.get w.ticket.port).update) = kept at hset ⊢
  have hleave : leaveAllocIfEmpty j.handle
      { s.setRecord j.handle { s.record j.handle with entry := some { x with rights := r }, waiters := kept } with
          activeDir := some c, dirGen := gen, dirSlot := none
          watches := (removeWatches (fun w => w.handle == j.handle && !(r.get w.port).watch) s).watches } =
      { s.setRecord j.handle { s.record j.handle with entry := some { x with rights := r }, waiters := kept } with
          activeDir := some c, dirGen := gen, dirSlot := none
          watches := (removeWatches (fun w => w.handle == j.handle && !(r.get w.port).watch) s).watches
          allocQueue := if kept = [] then s.allocQueue.filter fun h => h != j.handle else s.allocQueue } := by
    rw [leaveAllocIfEmpty]
    have hwaiters : (State.record { s.setRecord j.handle
        { s.record j.handle with entry := some { x with rights := r }, waiters := kept } with
          activeDir := some c, dirGen := gen, dirSlot := none
          watches := (removeWatches (fun w => w.handle == j.handle && !(r.get w.port).watch) s).watches } j.handle).waiters =
        kept := congrArg RecState.waiters (State.setRecord_record_same s j.handle _)
    rw [hwaiters]
    split <;> rfl
  rw [hleave, hrec]
  exact complete_answerAll (s := s) (by rfl) _ _ _ _

theorem freezeCommit_eq (hj : s.dirSlot = some j) (hop : j.op = .freeze) (hx : Defined s j.handle x) :
    dirCommitPoint c gen s =
      { s.setRecord j.handle
          { s.record j.handle with entry := some { x with frozen := true }, freezePending := false, waiters := [] } with
          activeDir := some c, dirGen := gen, dirSlot := none
          ports := (answeredIf (answeredAll s .frozen ((s.record j.handle).waiters.map fun w => w.ticket))
            j.ticket .ok (be4 gen)).ports } := by
  have hentry : (s.record j.handle).entry = some x := hx
  simp only [dirCommitPoint, hj, hop, freezeCommitted]
  refine (complete_answerAll (s := s) ?_ _ _ _ _).trans ?_
  · rfl
  · show _ = _
    simp only [State.record, State.setRecord] at hentry ⊢
    rw [hentry]
    rfl

end Commit

/-- What SET-RIGHTS' commit point leaves of the watches (06, R108). -/
theorem rightsKept_watchAt (r : PerPort Rights) (h : Handle) (s : State) (n : WatchNo) :
    (removeWatches (fun w => w.handle == h && !(r.get w.port).watch) s).watchAt n =
      match s.watchAt n with
      | some w => if w.handle = h ∧ (r.get w.port).watch = false then none else some w
      | none => none := by
  rw [removeWatches_watchAt]
  cases s.watchAt n with
  | none => rfl
  | some w => by_cases hw : w.handle = h <;> cases hr : (r.get w.port).watch <;> simp [Option.filter, hw, hr]

/-- Settles O51. -/
theorem setRightsAndFreezeCommitPoints : Obligations.SetRightsAndFreezeCommitPoints := by
  unfold Obligations.SetRightsAndFreezeCommitPoints
  intro s j k c gen retry rest x r kind body he hq hj hclear hx hop hslot hother
  rw [exec_pageMatch_last he hq (directoryJob_last k c gen) (Nat.le_refl 25)]
  generalize Memory.writePage s.store _ _ = store
  have hports : ∀ (code : Status) (ws : List Waiter),
      (answeredIf (answeredAll { s with store := store, queue := rest } code (ws.map fun w => w.ticket)) j.ticket .ok
        (be4 gen)).ports =
      (answeredIf (answeredAll s code (ws.map fun w => w.ticket)) j.ticket .ok (be4 gen)).ports := fun code ws =>
    answeredIf_ports (answeredAll_ports (s := s) (t := { s with store := store, queue := rest }) rfl _ _) _ _ _
  have hdone : ∀ (code : Status) (ws : List Waiter), (∀ w ∈ ws, w ∈ (s.record j.handle).waiters) →
      ((answeredIf (answeredAll s code (ws.map fun w => w.ticket)) j.ticket .ok (be4 gen)).port
        j.ticket.port).slots.get j.ticket.tag = .done ⟨.ok, be4 gen⟩ := fun code ws hws => by
    refine answeredIf_done (kind := kind) (body := body) ?_ _ _
    rw [answeredAll_slot_ne ?_, hslot]
    intro tk htk
    obtain ⟨w, hw, rfl⟩ := List.mem_map.mp htk
    exact hother w (hws w hw)
  obtain hop | hop := hop
  · have hne : j.op ≠ .freeze := by rw [hop]; simp
    have hcommit := setRightsCommit_eq (s := { s with store := store, queue := rest }) hj hop hx (c := c) (gen := gen)
    rw [hports] at hcommit
    rw [commitPoint_directory_eq (by rw [hcommit]; exact hclear), hcommit]
    refine ⟨_, rfl, rfl, rfl, rfl, rfl, rfl, ?_, fun h hh => ?_, fun n => ?_, ?_, ?_, ?_, rfl, rfl, rfl⟩
    · rw [if_neg hne]
      exact State.setRecord_record_same s j.handle _
    · exact (State.setRecord_record s j.handle h _).trans (if_neg (Ne.symm hh))
    · refine (rightsKept_watchAt r j.handle s n).trans ?_
      cases s.watchAt n with
      | none => rfl
      | some w => simp only [hop, true_and]
    · exact hdone _ _ fun w hw => List.mem_of_mem_filter hw
    · rw [if_neg hne]
      simp only [hne, decide_false, Bool.false_or]
      rfl
    · refine if_congr ?_ rfl rfl
      rw [List.filter_eq_nil_iff]
      simp only [Bool.not_eq_true]
      exact (and_iff_right hne).symm
  · have hcommit := freezeCommit_eq (s := { s with store := store, queue := rest }) hj hop hx (c := c) (gen := gen)
    rw [hports] at hcommit
    rw [commitPoint_directory_eq (by rw [hcommit]; exact hclear), hcommit]
    refine ⟨_, rfl, rfl, rfl, rfl, rfl, rfl, ?_, fun h hh => ?_, fun n => ?_, ?_, ?_, ?_, rfl, rfl, rfl⟩
    · rw [if_pos hop]
      exact State.setRecord_record_same s j.handle _
    · exact (State.setRecord_record s j.handle h _).trans (if_neg (Ne.symm hh))
    · show s.watchAt n = _
      cases s.watchAt n with
      | none => rfl
      | some w => exact (if_neg fun h => by rw [hop] at h; cases h.1).symm
    · exact hdone _ _ fun w hw => hw
    · rw [if_pos hop]
      simp only [hop, decide_true, Bool.true_or, List.filter_true]
      rfl
    · exact (if_neg fun h => h.1 hop).symm

end Sys2Proof.Machine

/-! PROOF. What a lease entry handed on to waiters can change (03, R53 to R56): the waiters it takes, the answers it
gives, the entry itself and the job it queues. -/

namespace Sys2Proof.Machine

open Sys2Proof.Safety
set_option deprecated.oldSectionVars true

/-! ### The parts of what a grant changes -/

/-- Every record is as it was, but that waiters may have left the head of its wait queue. -/
def WaitersDropped (s t : State) : Prop :=
  ∀ h, ∃ n, t.record h = { s.record h with waiters := (s.record h).waiters.drop n }

/-- A slot is as it was, or it was PENDING with the request of a waiter and holds the answer of its grant or refusal. -/
def SlotAnswered (s t : State) (q : Port) (u : Tag) : Prop :=
  (t.port q).slots.get u = (s.port q).slots.get u
    ∨ ∃ h w kind body code answer, w ∈ (s.record h).waiters ∧ w.ticket.port = q ∧ w.ticket.tag = u
        ∧ (s.port q).slots.get u = .pending w.ticket.serial kind body
        ∧ (code = .ok ∨ code = .genSpent) ∧ (t.port q).slots.get u = .done ⟨code, answer⟩

/-- A port is as it was but for answers to waiters. -/
def PortAnswered (s t : State) (q : Port) : Prop :=
  { t.port q with slots := (s.port q).slots, fifo := (s.port q).fifo } = s.port q
    ∧ (∃ more, (t.port q).fifo = (s.port q).fifo ++ more) ∧ (∀ u, SlotAnswered s t q u)
    ∧ ((∀ h, ∀ w ∈ (s.record h).waiters, w.ticket.port ≠ q) → t.port q = s.port q)

/-- Every port is. -/
def PortsAnswered (s t : State) : Prop := ∀ q, PortAnswered s t q

/-- Lease entry `e` and the commit queue are as they were, or the entry is leased to a waiter of `s`, and the commit
queue has at most the job of that implicit grant more. -/
def EntryGranted (e : EntryNo) (s t : State) : Prop :=
  (t.lease e = s.lease e ∧ t.buffer e = s.buffer e ∧ t.queue = s.queue)
    ∨ ∃ l w, (t.lease e).lease = some l ∧ w ∈ (s.record l.handle).waiters ∧ l.holder = w.ticket.port
      ∧ (t.queue = s.queue
        ∨ (l.form = .implicit ∧ l.phase = .committing
          ∧ ∃ c first pages gen, t.queue = s.queue ++ [.record e l.handle c first pages gen]))

/-- `t` is what becomes of `s` when waiters are refused. -/
def Refusals (s t : State) : Prop :=
  WaitersDropped s t ∧ PortsAnswered s t ∧ t = { s with ports := t.ports, records := t.records, allocQueue := t.allocQueue }

/-- `t` is what becomes of `s` when lease entry `e` is handed to a waiter, or stays. -/
def Handed (e : EntryNo) (s t : State) : Prop :=
  WaitersDropped s t ∧ PortsAnswered s t ∧ EntryGranted e s t
    ∧ (∀ e', e' ≠ e → t.lease e' = s.lease e' ∧ t.buffer e' = s.buffer e') ∧ (s.engine ≠ .idle → t.engine = s.engine)

section

variable {s t u : State} {e : EntryNo} {h : Handle}

theorem WaitersDropped.of_records (hr : t.records = s.records) : WaitersDropped s t := fun h => ⟨0, by
  rw [State.record, State.record, hr]
  rfl⟩

theorem WaitersDropped.trans (hst : WaitersDropped s t) (htu : WaitersDropped t u) : WaitersDropped s u := fun h => by
  obtain ⟨n, hn⟩ := hst h
  obtain ⟨m, hm⟩ := htu h
  refine ⟨n + m, ?_⟩
  rw [hm, hn]
  simp only [List.drop_drop]

theorem WaitersDropped.mem (hst : WaitersDropped s t) {w : Waiter} (hw : w ∈ (t.record h).waiters) :
    w ∈ (s.record h).waiters := by
  obtain ⟨n, hn⟩ := hst h
  rw [hn] at hw
  exact List.mem_of_mem_drop hw

theorem WaitersDropped.setWaiters (s : State) (h : Handle) (n : Nat) :
    WaitersDropped s (s.setWaiters h ((s.record h).waiters.drop n)) := fun k => by
  rw [State.setWaiters, State.setRecord_record]
  split
  · next hk => exact ⟨n, by rw [hk]⟩
  · exact ⟨0, rfl⟩

theorem PortAnswered.of_port {q : Port} (hp : t.port q = s.port q) : PortAnswered s t q := by
  rw [PortAnswered, hp]
  exact ⟨rfl, ⟨[], (List.append_nil _).symm⟩, fun u => .inl (by rw [hp]), fun _ => rfl⟩

theorem PortsAnswered.of_ports (hp : t.ports = s.ports) : PortsAnswered s t := fun q => .of_port (by
  rw [State.port, State.port, hp])

theorem SlotAnswered.trans {q : Port} {v : Tag} (hst : SlotAnswered s t q v) (hw : WaitersDropped s t)
    (htu : SlotAnswered t u q v) : SlotAnswered s u q v := by
  obtain hsame | ⟨h, w, kind, body, code, answer, hmem, hq, hu, hpend, hcode, hdone⟩ := hst
  · obtain hsame' | ⟨h, w, kind, body, code, answer, hmem, hq, hu, hpend, hcode, hdone⟩ := htu
    · exact .inl (hsame'.trans hsame)
    · exact .inr ⟨h, w, kind, body, code, answer, hw.mem hmem, hq, hu, hsame ▸ hpend, hcode, hdone⟩
  · refine .inr ⟨h, w, kind, body, code, answer, hmem, hq, hu, hpend, hcode, ?_⟩
    obtain hsame' | ⟨_, _, _, _, _, _, _, _, _, hpend', -, -⟩ := htu
    · rw [hsame', hdone]
    · rw [hdone] at hpend'
      cases hpend'

theorem PortsAnswered.trans (hst : PortsAnswered s t) (hw : WaitersDropped s t) (htu : PortsAnswered t u) :
    PortsAnswered s u := fun q => by
  obtain ⟨hrest, ⟨more, hmore⟩, hslots, hsame⟩ := hst q
  obtain ⟨hrest', ⟨more', hmore'⟩, hslots', hsame'⟩ := htu q
  refine ⟨?_, ⟨more ++ more', ?_⟩, fun v => (hslots v).trans hw (hslots' v), fun hq => ?_⟩
  · exact (congrArg (fun x : PortState => { x with slots := (s.port q).slots, fifo := (s.port q).fifo }) hrest').trans hrest
  · rw [hmore', hmore, List.append_assoc]
  · rw [hsame' fun h w hmem => hq h w (hw.mem hmem), hsame hq]

/-- The answer to a waiter. -/
theorem portsAnswered_complete {w : Waiter} {code : Status} (ht : t.ports = s.ports) (hw : w ∈ (s.record h).waiters)
    (hcode : code = .ok ∨ code = .genSpent) (body : List Byte) : PortsAnswered s (complete w.ticket code body t) := by
  rw [complete_of_ports ht]
  intro q
  show PortAnswered s (complete w.ticket code body s) q
  obtain ⟨kind, b, hslot, hs⟩ | ⟨-, hs⟩ := complete_cases w.ticket code body s
  · by_cases hq : w.ticket.port = q
    · subst hq
      rw [hs, PortAnswered, State.setPort_port_same]
      refine ⟨rfl, ⟨_, rfl⟩, fun v => ?_, fun hnone => absurd rfl (hnone h w hw)⟩
      rw [SlotAnswered, State.setPort_port_same, vector_get_set]
      split
      · next hv => exact .inr ⟨h, w, kind, b, code, body, hw, rfl, hv, hv ▸ hslot, hcode, rfl⟩
      · exact .inl rfl
    · exact .of_port (by rw [hs, State.setPort_port, if_neg hq])
  · exact .of_port (by rw [hs])

theorem Refusals.handed (hst : Refusals s t) (e : EntryNo) : Handed e s t := by
  obtain ⟨hwaiters, hports, hframe⟩ := hst
  refine ⟨hwaiters, hports, .inl ?_, fun e' _ => ?_, fun _ => ?_⟩
  · rw [hframe]
    exact ⟨rfl, rfl, rfl⟩
  · rw [hframe]
    exact ⟨rfl, rfl⟩
  · rw [hframe]

theorem Refusals.trans_handed (hst : Refusals s t) (htu : Handed e t u) : Handed e s u := by
  obtain ⟨hwaiters, hports, hframe⟩ := hst
  obtain ⟨hwaiters', hports', hentry, hother, hengine⟩ := htu
  have hlease : ∀ e', t.lease e' = s.lease e' := fun e' => by rw [hframe]; rfl
  have hbuffer : ∀ e', t.buffer e' = s.buffer e' := fun e' => by rw [hframe]; rfl
  have hqueue : t.queue = s.queue := by rw [hframe]
  refine ⟨hwaiters.trans hwaiters', hports.trans hwaiters hports', ?_, fun e' he => ?_, fun hne => ?_⟩
  · rw [EntryGranted, hlease, hbuffer, hqueue] at hentry
    obtain hsame | ⟨l, w, hl, hw, hrest⟩ := hentry
    · exact .inl hsame
    · exact .inr ⟨l, w, hl, hwaiters.mem hw, hrest⟩
  · rw [← hlease, ← hbuffer]
    exact hother e' he
  · have hengine' : t.engine = s.engine := by rw [hframe]
    rw [hengine (hengine' ▸ hne), hengine']

theorem Refusals.trans (hst : Refusals s t) (htu : Refusals t u) : Refusals s u := by
  obtain ⟨hwaiters, hports, hframe⟩ := hst
  obtain ⟨hwaiters', hports', hframe'⟩ := htu
  refine ⟨hwaiters.trans hwaiters', hports.trans hwaiters hports', ?_⟩
  rw [hframe', hframe]

theorem refusal_genSpent {w : Waiter} (hw : w ∈ (s.record h).waiters) :
    Refusals s (complete w.ticket .genSpent [] s) := by
  have hframe := complete_frame w.ticket .genSpent [] s
  refine ⟨.of_records (by rw [hframe]), portsAnswered_complete rfl hw (.inr rfl) [], ?_⟩
  rw [hframe]

/-! ### The two forms of grant -/

theorem grantLease_other (s : State) {e e' : EntryNo} (he : e' ≠ e) (h : Handle) (l : Lease) (b : Buffer) :
    (grantLease e h l b s).lease e' = s.lease e' ∧ (grantLease e h l b s).buffer e' = s.buffer e' :=
  ⟨(vector_get_set _ _ _ _).trans (if_neg (Ne.symm he)), (vector_get_set _ _ _ _).trans (if_neg (Ne.symm he))⟩

theorem grantLease_lease (s : State) (e : EntryNo) (h : Handle) (l : Lease) (b : Buffer) :
    ((grantLease e h l b s).lease e).lease = some { l with handle := h, grantRights := s.rightsOf h l.holder } := by
  refine congrArg LeaseEntry.lease ((vector_get_set _ _ _ _).trans (if_pos rfl))

theorem setWaiters_dropped {w : Waiter} {ws : List Waiter} {n : Nat} (hws : w :: ws = (s.record h).waiters.drop n) :
    w ∈ (s.record h).waiters ∧ WaitersDropped s (s.setWaiters h ws) := by
  have hrest : ws = (s.record h).waiters.drop (n + 1) := by rw [← List.drop_drop, ← hws, List.drop_one, List.tail_cons]
  refine ⟨List.mem_of_mem_drop (hws ▸ List.mem_cons_self), ?_⟩
  rw [hrest]
  exact .setWaiters s h (n + 1)

theorem grantExplicit_handed (e : EntryNo) {w : Waiter} {ws : List Waiter} {n : Nat}
    (hws : w :: ws = (s.record h).waiters.drop n) : Handed e s (grantExplicit e h w.ticket (s.setWaiters h ws)) := by
  obtain ⟨hw, hdropped⟩ := setWaiters_dropped hws
  rw [grantExplicit]
  generalize acquireBody _ _ _ = body
  generalize hl : explicitLease _ _ _ = l
  generalize Buffer.mk _ _ = b
  have hports := portsAnswered_complete (s := s) (t := grantLease e h l b (s.setWaiters h ws)) rfl hw (.inl rfl) body
    (code := .ok)
  have hframe := complete_frame w.ticket .ok body (grantLease e h l b (s.setWaiters h ws))
  generalize complete w.ticket .ok body (grantLease e h l b (s.setWaiters h ws)) = t at hports hframe ⊢
  have hlease := grantLease_lease (s.setWaiters h ws) e h l b
  refine ⟨?_, hports, .inr ⟨{ l with handle := h, grantRights := (s.setWaiters h ws).rightsOf h l.holder }, w, ?_, hw, ?_,
    .inl ?_⟩, fun e' he => ?_, fun _ => ?_⟩
  · rw [hframe]
    exact hdropped
  · rw [hframe]
    exact hlease
  · rw [← hl]
    rfl
  · rw [hframe]
    rfl
  · rw [hframe]
    exact grantLease_other (s.setWaiters h ws) he h l b
  · rw [hframe]
    rfl

theorem grantImplicit_handed (e : EntryNo) {w : Waiter} {ws : List Waiter} {n : Nat} (delta : Word32)
    (hws : w :: ws = (s.record h).waiters.drop n) :
    Handed e s (grantImplicit e h w.ticket delta (s.setWaiters h ws)) := by
  obtain ⟨hw, hdropped⟩ := setWaiters_dropped hws
  rw [grantImplicit]
  generalize Buffer.mk _ _ = b
  have hlease := grantLease_lease (s.setWaiters h ws) e h (implicitLease h w.ticket) b
  rw [handJob_eq]
  refine ⟨hdropped, .of_ports rfl, .inr ⟨_, w, hlease, hw, rfl, .inr ⟨rfl, rfl, _, _, _, _, rfl⟩⟩,
    fun e' he => grantLease_other (s.setWaiters h ws) he h _ b, fun hne => if_neg hne⟩

/-! ### A freed entry handed on -/

/-- The waiters of one record tried for an entry. -/
theorem grantFromQueue_handed (e : EntryNo) (ws : List Waiter) {n : Nat} (hws : ws = (s.record h).waiters.drop n) :
    ((grantFromQueue e h ws s).2 = false → Refusals s (grantFromQueue e h ws s).1)
      ∧ Handed e s (grantFromQueue e h ws s).1 := by
  induction ws generalizing s n with
  | nil =>
    have hrefused : Refusals s (s.setWaiters h []) := by
      refine ⟨?_, .of_ports rfl, rfl⟩
      rw [hws]
      exact .setWaiters s h n
    exact ⟨fun _ => hrefused, hrefused.handed e⟩
  | cons w ws ih =>
    have hw : w ∈ (s.record h).waiters := List.mem_of_mem_drop (hws ▸ List.mem_cons_self)
    rw [grantFromQueue]
    split
    · exact ⟨nofun, grantExplicit_handed e hws⟩
    · split
      · have hrefused := refusal_genSpent hw
        have hrecord : ws = ((complete w.ticket .genSpent [] s).record h).waiters.drop (n + 1) := by
          rw [complete_frame]
          show ws = (s.record h).waiters.drop (n + 1)
          rw [← List.drop_drop, ← hws, List.drop_one, List.tail_cons]
        obtain ⟨hno, hyes⟩ := ih hrecord
        exact ⟨fun hf => hrefused.trans (hno hf), hrefused.trans_handed hyes⟩
      · exact ⟨nofun, grantImplicit_handed e _ hws⟩

theorem Handed.withAlloc (hst : Handed e s t) (q : List Handle) : Handed e s { t with allocQueue := q } := hst

theorem Refusals.withAlloc (hst : Refusals s t) (q : List Handle) : Refusals s { t with allocQueue := q } := by
  obtain ⟨hwaiters, hports, hframe⟩ := hst
  refine ⟨hwaiters, hports, ?_⟩
  rw [hframe]

theorem grantFromAlloc_handed (e : EntryNo) (hs : List Handle) (s : State) :
    ((grantFromAlloc e hs s).2 = false → Refusals s (grantFromAlloc e hs s).1) ∧ Handed e s (grantFromAlloc e hs s).1 := by
  induction hs generalizing s with
  | nil =>
    have hrefused : Refusals s { s with allocQueue := [] } := ⟨.of_records rfl, .of_ports rfl, rfl⟩
    exact ⟨fun _ => hrefused, hrefused.handed e⟩
  | cons h hs ih =>
    obtain ⟨hno, hyes⟩ := grantFromQueue_handed (s := s) (h := h) e (s.record h).waiters (n := 0) rfl
    rw [grantFromAlloc]
    split
    · next heq =>
      rw [heq] at hyes
      exact ⟨nofun, hyes.withAlloc hs⟩
    · next heq =>
      rw [heq] at hno
      obtain ⟨hno', hyes'⟩ := ih _
      exact ⟨fun hf => (hno rfl).trans (hno' hf), (hno rfl).trans_handed hyes'⟩

/-- A freed entry is handed on, or stays (03, R56). -/
theorem grantOnward_handed (e : EntryNo) (h : Handle) (s : State) : Handed e s (grantOnward e h s) := by
  obtain ⟨hno, hyes⟩ := grantFromAlloc_handed e s.allocQueue s
  unfold grantOnward
  split
  · next heq =>
    rw [heq] at hyes
    split
    · exact hyes.withAlloc _
    · exact hyes
  · next heq =>
    rw [heq] at hno hyes
    split
    · exact hyes
    · exact (hno rfl).trans_handed (grantFromQueue_handed e _ (n := 0) rfl).2

/-- The waiters of a FREEZE's record eligible again: the lowest-numbered FREE entry is handed on, or nothing is
(01, R21). -/
theorem freezeReturn_handed (j : DirJob) (s : State) :
    (∃ e, (s.lease e).lease = none ∧ Handed e s (freezeReturn j s)) ∨ Refusals s (freezeReturn j s) := by
  have hself : Refusals s s := ⟨.of_records rfl, .of_ports rfl, rfl⟩
  rw [freezeReturn]
  split
  · split
    · exact .inr hself
    · split
      · next e he => exact .inl ⟨e, State.lowestFree_spec he, (grantFromQueue_handed e _ (n := 0) rfl).2⟩
      · exact .inr (hself.withAlloc _)
  · exact .inr hself

end

end Sys2Proof.Machine

/-! PROOF. What the grants do not read (03, R53 to R56): they do the same whatever the watches, the clear slot and the
ports of requests that do not wait hold. -/

namespace Sys2Proof.Machine

open Sys2Proof.Safety
set_option deprecated.oldSectionVars true

/-- `s` with other ports, watches and clear slot. -/
def dressed (π : PerPort PortState → PerPort PortState) (ω : Vector (Option Watch) 16 → Vector (Option Watch) 16)
    (κ : Option ClearSlot → Option ClearSlot) (s : State) : State :=
  { s with ports := π s.ports, watches := ω s.watches, clear := κ s.clear }

section

variable {π : PerPort PortState → PerPort PortState} {ω : Vector (Option Watch) 16 → Vector (Option Watch) 16}
  {κ : Option ClearSlot → Option ClearSlot} {Q : Ticket → Prop}
  (hπ : ∀ tk, Q tk → ∀ code body s, complete tk code body (dressed π ω κ s) = dressed π ω κ (complete tk code body s))

theorem handJob_dressed (j : Job) (s : State) : handJob j (dressed π ω κ s) = dressed π ω κ (handJob j s) := by
  rw [handJob_eq, handJob_eq]
  rfl

theorem grantImplicit_dressed (e : EntryNo) (h : Handle) (tk : Ticket) (delta : Word32) (s : State) :
    grantImplicit e h tk delta (dressed π ω κ s) = dressed π ω κ (grantImplicit e h tk delta s) := by
  rw [grantImplicit, grantImplicit, ← handJob_dressed]
  rfl

theorem grantExplicit_dressed (e : EntryNo) (h : Handle) {tk : Ticket} (htk : Q tk) (s : State) :
    grantExplicit e h tk (dressed π ω κ s) = dressed π ω κ (grantExplicit e h tk s) := by
  rw [grantExplicit, grantExplicit, ← hπ tk htk]
  rfl

theorem grantFromQueue_dressed (e : EntryNo) (h : Handle) {ws : List Waiter} (hws : ∀ w ∈ ws, Q w.ticket) (s : State) :
    grantFromQueue e h ws (dressed π ω κ s) =
      (dressed π ω κ (grantFromQueue e h ws s).1, (grantFromQueue e h ws s).2) := by
  induction ws generalizing s with
  | nil => rfl
  | cons w ws ih =>
    have hrest := ih fun v hv => hws v (List.mem_cons_of_mem _ hv)
    have hw := hws w List.mem_cons_self
    rw [grantFromQueue, grantFromQueue]
    cases w.type with
    | acquire left => exact Prod.ext (grantExplicit_dressed hπ e h hw (s.setWaiters h ws)) rfl
    | add delta =>
      show (if (s.record h).gen = genSpentMark then _ else _) = _
      simp only
      split
      · rw [hπ w.ticket hw, hrest]
      · exact Prod.ext (grantImplicit_dressed e h w.ticket delta (s.setWaiters h ws)) rfl

theorem grantFromAlloc_dressed (e : EntryNo) (hs : List Handle) (s : State) (hw : ∀ h, ∀ w ∈ (s.record h).waiters, Q w.ticket) :
    grantFromAlloc e hs (dressed π ω κ s) = (dressed π ω κ (grantFromAlloc e hs s).1, (grantFromAlloc e hs s).2) := by
  induction hs generalizing s with
  | nil => rfl
  | cons h hs ih =>
    have hq := grantFromQueue_dressed hπ e h (hw h) s
    have hdropped : WaitersDropped s (grantFromQueue e h (s.record h).waiters s).1 :=
      (grantFromQueue_handed e _ (n := 0) rfl).2.1
    rw [grantFromAlloc, grantFromAlloc]
    show (match grantFromQueue e h (s.record h).waiters (dressed π ω κ s) with
      | (s1, true) => _
      | (s1, false) => _) = _
    rw [hq]
    generalize grantFromQueue e h (s.record h).waiters s = r at hdropped ⊢
    obtain ⟨s1, b⟩ := r
    cases b with
    | true => rfl
    | false => exact ih s1 fun k w hk => hw k w (hdropped.mem hk)

theorem grantOnward_dressed (e : EntryNo) (h : Handle) (s : State) (hw : ∀ h, ∀ w ∈ (s.record h).waiters, Q w.ticket) :
    grantOnward e h (dressed π ω κ s) = dressed π ω κ (grantOnward e h s) := by
  have ha := grantFromAlloc_dressed hπ e s.allocQueue s hw
  have hdropped : WaitersDropped s (grantFromAlloc e s.allocQueue s).1 := (grantFromAlloc_handed e _ s).2.1
  unfold grantOnward
  show (match grantFromAlloc e s.allocQueue (dressed π ω κ s) with
      | (s1, true) => _
      | (s1, false) => _) = _
  rw [ha]
  generalize grantFromAlloc e s.allocQueue s = r at hdropped ⊢
  obtain ⟨s1, b⟩ := r
  cases b with
  | true =>
    show (if (s1.record h).waiters ≠ [] ∧ (s1.record h).freezePending = false then _ else _) = _
    simp only
    split <;> rfl
  | false =>
    show (if (s1.record h).freezePending = true then _ else _) = _
    simp only
    split
    · rfl
    · exact congrArg Prod.fst (grantFromQueue_dressed hπ e h (fun w hk => hw h w (hdropped.mem hk)) s1)

theorem undoTaking_dressed (j : DirJob) (s : State) : undoTaking j (dressed π ω κ s) = dressed π ω κ (undoTaking j s) := by
  rw [undoTaking, undoTaking]
  cases j.op <;> rfl

theorem freezeReturn_dressed (j : DirJob) (s : State) (hw : ∀ h, ∀ w ∈ (s.record h).waiters, Q w.ticket) :
    freezeReturn j (dressed π ω κ s) = dressed π ω κ (freezeReturn j s) := by
  rw [freezeReturn, freezeReturn]
  cases j.op with
  | freeze =>
    show (if (s.record j.handle).waiters = [] then _ else match s.lowestFree with | some e => _ | none => _) = _
    simp only
    split
    · rfl
    · cases s.lowestFree with
      | none => rfl
      | some e => exact congrArg Prod.fst (grantFromQueue_dressed hπ e j.handle (hw j.handle) s)
  | _ => rfl

end

end Sys2Proof.Machine

/-! PROOF. PORT-RESET at the Lease Controller and the Directory (07, R136; 03, R67; 05, R96; 01, R12): one entry of the
port after another is freed and handed on, with the port as it stands at the end. -/

namespace Sys2Proof.Machine

open Sys2Proof.Safety
set_option deprecated.oldSectionVars true

/-! ### One entry of a reset port -/

/-- The commit queue without those of its unstarted jobs that `d` names. -/
def dropUnstarted (d : Job → Bool) (l : List Job) : List Job := l.take 1 ++ (l.drop 1).filter fun j => !d j

theorem isRecordOf_iff {e : EntryNo} {j : Job} :
    Job.isRecordOf e j = true ↔ ∃ h c first pages gen, j = .record e h c first pages gen := by
  constructor
  · intro hj
    cases j with
    | record e' h c first pages gen =>
      obtain rfl : e' = e := by simpa [Job.isRecordOf] using hj
      exact ⟨h, c, first, pages, gen, rfl⟩
    | directory k c gen => cases hj
  · rintro ⟨h, c, first, pages, gen, rfl⟩
    simp [Job.isRecordOf]

theorem isRecordOf_eq {e e' : EntryNo} {j : Job} (h : Job.isRecordOf e j = true) (h' : Job.isRecordOf e' j = true) : e = e' := by
  obtain ⟨k, c, first, pages, gen, rfl⟩ := isRecordOf_iff.1 h
  simpa [Job.isRecordOf] using h'

section

variable {s t : State} {p : Port} {e : EntryNo} {h : Handle}

/-- What stands when entry `e` has been freed from the reset port `p`, before it is handed on. -/
def entryFreed (s : State) (e : EntryNo) : State :=
  { freed s e with
    queue :=
      if (s.lease e).lease.any (fun l => l.phase == .held) then s.queue else dropUnstarted (Job.isRecordOf e) s.queue }

theorem resetEntry_frees (hf : ResetFrees s p e h) : resetEntry p s e = grantOnward e h (entryFreed s e) := by
  obtain ⟨l, hl, rfl, rfl, hphase⟩ := hf
  rw [resetEntry]
  simp only [hl, if_true]
  cases hp : l.phase with
  | held =>
    have hany : (s.lease e).lease.any (fun l => l.phase == .held) = true := by rw [hl]; simp [hp]
    have hfreed : freeLease e s = entryFreed s e := by
      rw [entryFreed, if_pos hany]
      exact freeLease_eq e s
    rw [hfreed]
  | committing =>
    have hany : ¬ (s.lease e).lease.any (fun l => l.phase == .held) = true := by rw [hl]; simp [hp]
    have hun : s.unstarted.any (Job.isRecordOf e) = true := hphase.resolve_left (by rw [hp]; nofun)
    have hfreed : freeLease e (removeUnstarted (Job.isRecordOf e) s) = entryFreed s e := by
      rw [entryFreed, if_neg hany]
      exact freeLease_eq e _
    simp only [hun, if_true]
    rw [hfreed]

theorem resetEntry_keeps (hf : ∀ h, ¬ ResetFrees s p e h) : resetEntry p s e = s := by
  rw [resetEntry]
  cases hl : (s.lease e).lease with
  | none => rfl
  | some l =>
    simp only
    split
    · next hp =>
      cases hphase : l.phase with
      | held => exact absurd ⟨l, hl, rfl, hp, .inl hphase⟩ (hf l.handle)
      | committing =>
        have hno : ¬ s.unstarted.any (Job.isRecordOf e) = true := fun hun => hf l.handle ⟨l, hl, rfl, hp, .inr hun⟩
        simp only [if_neg hno]
    · rfl

/-- Either way at a reset entry. -/
theorem resetEntry_cases (s : State) (p : Port) (e : EntryNo) :
    (∃ h, ResetFrees s p e h ∧ resetEntry p s e = grantOnward e h (entryFreed s e))
      ∨ ((∀ h, ¬ ResetFrees s p e h) ∧ resetEntry p s e = s) := by
  by_cases hf : ∃ h, ResetFrees s p e h
  · obtain ⟨h, hf⟩ := hf
    exact .inl ⟨h, hf, resetEntry_frees hf⟩
  · have hf' := not_exists.mp hf
    exact .inr ⟨hf', resetEntry_keeps hf'⟩

theorem entryFreed_dropped (s : State) (e : EntryNo) : WaitersDropped s (entryFreed s e) := .of_records rfl

theorem resetEntry_dropped (s : State) (p : Port) (e : EntryNo) : WaitersDropped s (resetEntry p s e) := by
  obtain ⟨h, -, heq⟩ | ⟨-, heq⟩ := resetEntry_cases s p e
  · rw [heq]
    exact (entryFreed_dropped s e).trans (grantOnward_handed e h _).1
  · rw [heq]
    exact .of_records rfl

theorem resetEntry_answered (s : State) (p : Port) (e : EntryNo) : PortsAnswered s (resetEntry p s e) := by
  obtain ⟨h, -, heq⟩ | ⟨-, heq⟩ := resetEntry_cases s p e
  · rw [heq]
    exact (PortsAnswered.of_ports (t := entryFreed s e) rfl).trans (entryFreed_dropped s e) (grantOnward_handed e h _).2.1
  · rw [heq]
    exact .of_ports rfl

/-- The other entries stay. -/
theorem resetEntry_other (s : State) (p : Port) {e e' : EntryNo} (he : e' ≠ e) :
    (resetEntry p s e).lease e' = s.lease e' ∧ (resetEntry p s e).buffer e' = s.buffer e' := by
  obtain ⟨h, -, heq⟩ | ⟨-, heq⟩ := resetEntry_cases s p e
  · obtain ⟨-, -, -, hother, -⟩ := grantOnward_handed e h (entryFreed s e)
    obtain ⟨hlease, hbuffer⟩ := hother e' he
    rw [heq, hlease, hbuffer]
    exact ⟨(vector_get_set _ _ _ _).trans (if_neg (Ne.symm he)), (vector_get_set _ _ _ _).trans (if_neg (Ne.symm he))⟩
  · rw [heq]
    exact ⟨rfl, rfl⟩

theorem any_unstarted_append (f : Job → Bool) (l g : List Job) (hg : g.length ≤ 1) (hf : ∀ j ∈ g, f j = false) :
    ((l ++ g).drop 1).any f = (l.drop 1).any f := by
  cases l with
  | nil =>
    have hnil : ([] ++ g : List Job).drop 1 = [] := List.drop_eq_nil_of_le (by simpa using hg)
    rw [hnil]
    rfl
  | cons a l =>
    have hnone : g.any f = false := List.any_eq_false.mpr fun j hj => by simp [hf j hj]
    simp only [List.cons_append, List.drop_succ_cons, List.drop_zero, List.any_append, hnone, Bool.or_false]

theorem any_unstarted_drop (f d : Job → Bool) (l : List Job) (hd : ∀ j, d j = true → f j = false) :
    ((dropUnstarted d l).drop 1).any f = (l.drop 1).any f := by
  cases l with
  | nil => rfl
  | cons a l =>
    show (l.filter fun j => !d j).any f = l.any f
    rw [List.any_filter]
    congr 1
    funext j
    cases hdj : d j with
    | true => rw [hd j hdj]; rfl
    | false => rfl

/-- Of the unstarted jobs only the entry's own may go. -/
theorem resetEntry_unstarted (s : State) (p : Port) {e : EntryNo} {f : Job → Bool}
    (hf : ∀ j, Job.isRecordOf e j = true → f j = false) :
    ((resetEntry p s e).queue.drop 1).any f = (s.queue.drop 1).any f := by
  obtain ⟨h, -, heq⟩ | ⟨-, heq⟩ := resetEntry_cases s p e
  · have hfreed : ((entryFreed s e).queue.drop 1).any f = (s.queue.drop 1).any f := by
      simp only [entryFreed]
      split
      · rfl
      · exact any_unstarted_drop _ _ _ hf
    rw [heq, ← hfreed]
    obtain ⟨-, -, hentry, -, -⟩ := grantOnward_handed e h (entryFreed s e)
    obtain ⟨-, -, hqueue⟩ | ⟨l, w, -, -, -, hqueue | ⟨-, -, c, first, pages, gen, hqueue⟩⟩ := hentry
    · rw [hqueue]
    · rw [hqueue]
    · rw [hqueue]
      refine any_unstarted_append _ _ _ (Nat.le_refl 1) fun j hj => hf j ?_
      rw [List.mem_singleton.mp hj]
      exact isRecordOf_iff.2 ⟨_, _, _, _, _, rfl⟩
  · rw [heq]

theorem isRecordOf_ne {e e' : EntryNo} (he : e' ≠ e) (j : Job) (hj : Job.isRecordOf e j = true) :
    Job.isRecordOf e' j = false := by
  rw [← Bool.not_eq_true]
  exact fun hj' => he (isRecordOf_eq hj' hj)

theorem resetEntries_directory (p : Port) (s : State) :
    ((resetEntries p s).queue.drop 1).any Job.isDirectory = (s.queue.drop 1).any Job.isDirectory := by
  rw [resetEntries]
  generalize allEntries = es
  induction es generalizing s with
  | nil => rfl
  | cons e es ih => exact (ih _).trans (resetEntry_unstarted s p fun _ => isDirectory_of_isRecordOf)

/-- The entries that a list does not name stay, and so do their unstarted jobs. -/
theorem resetEntry_fold_other (p : Port) (es : List EntryNo) (s : State) {e : EntryNo} (he : e ∉ es) :
    (es.foldl (resetEntry p) s).lease e = s.lease e ∧ (es.foldl (resetEntry p) s).buffer e = s.buffer e
      ∧ ((es.foldl (resetEntry p) s).queue.drop 1).any (Job.isRecordOf e) = (s.queue.drop 1).any (Job.isRecordOf e) := by
  induction es generalizing s with
  | nil => exact ⟨rfl, rfl, rfl⟩
  | cons d es ih =>
    obtain ⟨hne, hrest⟩ := List.ne_and_not_mem_of_not_mem_cons he
    obtain ⟨hlease, hbuffer, hqueue⟩ := ih (resetEntry p s d) hrest
    obtain ⟨hlease', hbuffer'⟩ := resetEntry_other s p hne
    exact ⟨hlease.trans hlease', hbuffer.trans hbuffer', hqueue.trans (resetEntry_unstarted s p (isRecordOf_ne hne))⟩

theorem resetFrees_congr (hl : t.lease e = s.lease e)
    (hq : (t.queue.drop 1).any (Job.isRecordOf e) = (s.queue.drop 1).any (Job.isRecordOf e)) :
    ResetFrees t p e h ↔ ResetFrees s p e h := by
  rw [ResetFrees, ResetFrees, hl, hq]

end

/-! ### The entries of a reset port, one after another -/

/-- The state once the first `k` entries of the reset port have been freed and handed on. -/
def entriesReset (p : Port) (s : State) (k : Nat) : State := (allEntries.take k).foldl (resetEntry p) s

theorem entriesReset_succ (p : Port) (s : State) (e : EntryNo) :
    entriesReset p s (e.val + 1) = resetEntry p (entriesReset p s e.val) e := by
  have hlt : e.val < allEntries.length := by rw [allEntries, List.length_finRange]; exact e.isLt
  have hget : allEntries[e.val]'hlt = e := by simp [allEntries]
  rw [entriesReset, List.take_succ_eq_append_getElem hlt, List.foldl_append, hget]
  rfl

theorem entriesReset_all (p : Port) (s : State) : entriesReset p s 6 = resetEntries p s := by
  rw [entriesReset, List.take_of_length_le (by simp [allEntries])]
  rfl

theorem not_mem_take_allEntries (e : EntryNo) : e ∉ allEntries.take e.val := by
  intro he
  obtain ⟨i, hi, heq⟩ := List.mem_take_iff_getElem.mp he
  have hval : i = e.val := by simpa [allEntries] using congrArg Fin.val heq
  omega

/-- Each entry of the reset port is freed and handed on, before the next (03, R67 step 2). -/
theorem entriesReset_step (p : Port) (s : State) (e : EntryNo) :
    (∀ h, ResetFrees s p e h →
      GrantedOnward
        { freed (entriesReset p s e.val) e with
            queue :=
              if (s.lease e).lease.any (fun l => l.phase == .held) then (entriesReset p s e.val).queue
              else (entriesReset p s e.val).queue.take 1
                ++ ((entriesReset p s e.val).queue.drop 1).filter fun j => !Job.isRecordOf e j }
        e h (entriesReset p s (e.val + 1)))
    ∧ ((∀ h, ¬ ResetFrees s p e h) → entriesReset p s (e.val + 1) = entriesReset p s e.val) := by
  obtain ⟨hlease, -, hqueue⟩ := resetEntry_fold_other p (allEntries.take e.val) s (not_mem_take_allEntries e)
  have hcongr : ∀ h, ResetFrees (entriesReset p s e.val) p e h ↔ ResetFrees s p e h := fun h => resetFrees_congr hlease hqueue
  have hlease' : (entriesReset p s e.val).lease e = s.lease e := hlease
  rw [entriesReset_succ]
  constructor
  · intro h hf
    rw [resetEntry_frees ((hcongr h).mpr hf), ← hlease']
    exact grantOnward_spec _ e h
  · intro hf
    exact resetEntry_keeps fun h hh => hf h ((hcongr h).mp hh)

/-! ### The port as it stands at the end -/

theorem PerPort.set_comm {α : Type} (x : PerPort α) {p q : Port} (h : p ≠ q) (v w : α) :
    (x.set p v).set q w = (x.set q w).set p v := by
  refine PerPort.eq_of_get fun r => ?_
  simp only [PerPort.get_set]
  by_cases hq : q = r
  · rw [if_pos hq, if_neg fun hp => h (hp.trans hq.symm), if_pos hq]
  · rw [if_neg hq, if_neg hq]

/-- A request of another port is answered alike, whatever port `p` and the watches hold. -/
theorem complete_otherPort {p : Port} (x : PortState) (ω : Vector (Option Watch) 16 → Vector (Option Watch) 16) (tk : Ticket)
    (htk : tk.port ≠ p) (code : Status) (body : List Byte) (s : State) :
    complete tk code body (dressed (fun ports => ports.set p x) ω id s) =
      dressed (fun ports => ports.set p x) ω id (complete tk code body s) := by
  have hport : (dressed (fun ports => ports.set p x) ω id s).port tk.port = s.port tk.port := by
    show (s.ports.set p x).get tk.port = _
    rw [PerPort.get_set, if_neg (Ne.symm htk)]
    rfl
  simp only [complete, hport]
  split
  · split
    · simp only [State.setPort, dressed]
      rw [PerPort.set_comm _ (Ne.symm htk)]
    · rfl
  · rfl

theorem complete_otherWatches (ω : Vector (Option Watch) 16 → Vector (Option Watch) 16)
    (κ : Option ClearSlot → Option ClearSlot) (tk : Ticket) (code : Status) (body : List Byte) (s : State) :
    complete tk code body (dressed id ω κ s) = dressed id ω κ (complete tk code body s) := by
  refine (complete_of_ports (s := s) (t := dressed id ω κ s) rfl tk code body).trans ?_
  have hframe := complete_frame tk code body s
  generalize complete tk code body s = c at hframe ⊢
  rw [hframe]
  rfl

section

variable {π : PerPort PortState → PerPort PortState} {ω : Vector (Option Watch) 16 → Vector (Option Watch) 16}
  {κ : Option ClearSlot → Option ClearSlot} {Q : Ticket → Prop}
  (hπ : ∀ tk, Q tk → ∀ code body s, complete tk code body (dressed π ω κ s) = dressed π ω κ (complete tk code body s))

theorem resetEntry_dressed (p : Port) (e : EntryNo) (s : State) (hw : ∀ h, ∀ w ∈ (s.record h).waiters, Q w.ticket) :
    resetEntry p (dressed π ω κ s) e = dressed π ω κ (resetEntry p s e) := by
  obtain ⟨h, hf, heq⟩ | ⟨hf, heq⟩ := resetEntry_cases s p e
  · rw [heq, ← grantOnward_dressed hπ e h (entryFreed s e) hw]
    exact resetEntry_frees (s := dressed π ω κ s) hf
  · rw [heq]
    exact resetEntry_keeps (s := dressed π ω κ s) hf

theorem resetEntries_dressed (p : Port) (s : State) (hw : ∀ h, ∀ w ∈ (s.record h).waiters, Q w.ticket) :
    resetEntries p (dressed π ω κ s) = dressed π ω κ (resetEntries p s) := by
  rw [resetEntries, resetEntries]
  generalize allEntries = es
  induction es generalizing s with
  | nil => rfl
  | cons e es ih =>
    rw [List.foldl_cons, List.foldl_cons, resetEntry_dressed hπ p e s hw]
    exact ih _ fun h w hmem => hw h w ((resetEntry_dropped s p e).mem hmem)

theorem resetDirJob_dressed (p : Port) (s : State) (hw : ∀ h, ∀ w ∈ (s.record h).waiters, Q w.ticket) :
    resetDirJob p (dressed π ω κ s) = dressed π ω κ (resetDirJob p s) := by
  rw [resetDirJob, resetDirJob]
  show (match s.dirSlot with | none => _ | some j => _) = _
  cases s.dirSlot with
  | none => rfl
  | some j =>
    show (if s.configPort = some p ∧ s.unstarted.any Job.isDirectory = true then _ else _) = _
    simp only
    split
    · refine Eq.trans ?_ (freezeReturn_dressed hπ j _ fun h w hmem => ?_)
      · rw [← undoTaking_dressed]
        rfl
      · rw [undoTaking_record] at hmem
        exact hw h w hmem
    · rfl

end

theorem resetEntry_fold_dropped (p : Port) (es : List EntryNo) (s : State) :
    WaitersDropped s (es.foldl (resetEntry p) s) ∧ PortsAnswered s (es.foldl (resetEntry p) s) := by
  induction es generalizing s with
  | nil => exact ⟨.of_records rfl, .of_ports rfl⟩
  | cons e es ih =>
    obtain ⟨hdropped, hanswered⟩ := ih (resetEntry p s e)
    have hone := resetEntry_dropped s p e
    exact ⟨hone.trans hdropped, (resetEntry_answered s p e).trans hone hanswered⟩

theorem resetEntries_dropped (p : Port) (s : State) :
    WaitersDropped s (resetEntries p s) ∧ PortsAnswered s (resetEntries p s) := resetEntry_fold_dropped p allEntries s

theorem resetEntry_frame (s : State) (p : Port) (e : EntryNo) :
    resetEntry p s e =
      { s with
        ports := (resetEntry p s e).ports, records := (resetEntry p s e).records, leases := (resetEntry p s e).leases
        buffers := (resetEntry p s e).buffers, allocQueue := (resetEntry p s e).allocQueue
        queue := (resetEntry p s e).queue, engine := (resetEntry p s e).engine } := by
  obtain ⟨h, -, heq⟩ | ⟨-, heq⟩ := resetEntry_cases s p e
  · rw [heq, grantOnward_frame]
    rfl
  · rw [heq]

theorem resetEntries_frame (p : Port) (s : State) :
    resetEntries p s =
      { s with
        ports := (resetEntries p s).ports, records := (resetEntries p s).records, leases := (resetEntries p s).leases
        buffers := (resetEntries p s).buffers, allocQueue := (resetEntries p s).allocQueue
        queue := (resetEntries p s).queue, engine := (resetEntries p s).engine } := by
  rw [resetEntries]
  generalize allEntries = es
  induction es generalizing s with
  | nil => rfl
  | cons e es ih =>
    rw [List.foldl_cons, ih, resetEntry_frame]

/-- Nothing of port `p` waits. -/
abbrev NoneWaitsAt (s : State) (p : Port) : Prop := ∀ h, ∀ w ∈ (s.record h).waiters, w.ticket.port ≠ p

theorem resetDirJob_port {s : State} {p : Port} (hw : NoneWaitsAt s p) : (resetDirJob p s).port p = s.port p := by
  rw [resetDirJob]
  cases s.dirSlot with
  | none => rfl
  | some j =>
    simp only
    split
    · generalize hu : undoTaking j (removeUnstarted Job.isDirectory s) = u
      have hports : u.ports = s.ports := by rw [← hu, undoTaking_frame]; rfl
      have hw' : NoneWaitsAt u p := fun h w hmem => by
        rw [← hu, undoTaking_record] at hmem
        exact hw h w hmem
      have hport : (freezeReturn j u).port p = u.port p := by
        obtain ⟨e, -, -, hanswered, -⟩ | ⟨-, hanswered, -⟩ := freezeReturn_handed j u
        · exact (hanswered p).2.2.2 hw'
        · exact (hanswered p).2.2.2 hw'
      rw [hport, State.port, hports]
      rfl
    · rfl

/-- What a PORT-RESET of port `p` in tag `t` has cleared before the first entry is freed: the port, its waiters and its
watches (07, R136; 03, R67 step 1; 06, R109). -/
def portCleared (s : State) (p : Port) (t : Tag) : State :=
  { removePortWaiters p s with
    ports := s.ports.set p (resetPort (s.port p) t)
    watches := (removeWatches (fun w => w.port == p) s).watches }

theorem portCleared_record (s : State) (p : Port) (t : Tag) (h : Handle) :
    (portCleared s p t).record h =
      { s.record h with waiters := (s.record h).waiters.filter fun w => w.ticket.port != p } :=
  removePortWaiters_record p s h

theorem portCleared_noneWaits (s : State) (p : Port) (t : Tag) : NoneWaitsAt (portCleared s p t) p := fun h w hw => by
  rw [portCleared_record] at hw
  simpa using (List.mem_filter.mp hw).2

/-- A PORT-RESET frees the port's entries one after another, and then removes the directory job, with the port as it
stands at the end (07, R136). -/
theorem takePortReset_eq {s : State} {p : Port} {t : Tag} {serial : Nat} {kind : Byte} {body : List Byte}
    (hslot : (s.port p).slots.get t = .pending serial kind body) :
    takePortReset ⟨p, t, serial⟩ (handOver p s) = resetDirJob p (resetEntries p (portCleared s p t)) := by
  have hhanded : ((handOver p s).port p).slots.get t = .pending serial kind body := by
    rw [handOver, State.setPort_port_same]
    exact hslot
  generalize hx : ((handOver p s).port p).reset t = x
  have hy : (handOver p s).setPort p x = s.setPort p x := State.setPort_setPort s p _ x
  have hcleared : portCleared s p t =
      dressed (fun ports => ports.set p (resetPort (s.port p) t))
        (fun _ => (removeWatches (fun w => w.port == p) s).watches) id (removePortWaiters p (s.setPort p x)) := by
    show _ = ({ removePortWaiters p s with
      ports := (s.ports.set p x).set p (resetPort (s.port p) t), watches := _ } : State)
    rw [PerPort.set_set]
    rfl
  have hwaits : NoneWaitsAt (removePortWaiters p (s.setPort p x)) p := fun h w hw =>
    portCleared_noneWaits s p t h w (hcleared ▸ hw)
  obtain ⟨hdropped, hanswered⟩ := resetEntries_dropped p (removePortWaiters p (s.setPort p x))
  have hwatches : (resetEntries p (removePortWaiters p (s.setPort p x))).watches = s.watches := by
    rw [resetEntries_frame]
    rfl
  rw [hcleared, resetEntries_dressed (complete_otherPort _ _) p _ hwaits]
  simp only [takePortReset]
  rw [hx, hy]
  generalize hu : resetEntries p (removePortWaiters p (s.setPort p x)) = u at hdropped hanswered hwatches ⊢
  have hwaits' : NoneWaitsAt u p := fun h w hw => hwaits h w (hdropped.mem hw)
  have hremove : removeWatches (fun w => w.port == p) u =
      dressed id (fun _ => (removeWatches (fun w => w.port == p) s).watches) id u := by
    rw [removeWatches_frame, removeWatches, hwatches]
    rfl
  rw [hremove, resetDirJob_dressed (complete_otherPort _ _) p u hwaits',
    resetDirJob_dressed (Q := fun _ => True) (fun tk _ => complete_otherWatches _ _ tk) p u fun _ _ _ => trivial]
  have hport : (resetDirJob p u).port p = x := by
    rw [resetDirJob_port hwaits', (hanswered p).2.2.2 hwaits]
    exact State.setPort_port_same s p x
  generalize resetDirJob p u = v at hport ⊢
  have hxslot : x.slots.get t = .pending serial kind body := by
    rw [← hx, PortState.reset, vector_get_set, if_pos rfl, hhanded]
  have hvport : (dressed id (fun _ => (removeWatches (fun w => w.port == p) s).watches) id v).port p = x := hport
  rw [complete_of_pending (kind := kind) (b := body) _ _ (by rw [hvport]; exact hxslot), hvport]
  have hdone : ({ x with slots := x.slots.set t.val (.done ⟨.ok, []⟩) t.isLt, fifo := x.fifo ++ [t] } : PortState) =
      resetPort (s.port p) t := by
    rw [← hx, PortState.reset, handOver, State.setPort_port_same]
    simp [resetPort, PortState.start]
  rw [hdone]
  rfl

theorem exec_portReset_eq {s : State} {p : Port} {t : Tag} (hask : Asks s p t 0x42#8 []) :
    exec (.portReset p) s = .next (resetDirJob p (resetEntries p (portCleared s p t))) := by
  obtain ⟨serial, hfirst, hslot⟩ := hask
  have hreq := State.oldestRequest_eq hfirst hslot (show parseReq 0x42#8 [] = some .portReset from rfl)
  obtain ⟨-, -, hkind⟩ := kindAllowed_always s.dev
  refine (exec_taken hreq (admission_passed hkind nofun rfl rfl rfl rfl rfl)).trans ?_
  exact congrArg Host.Outcome.next (takePortReset_eq hslot)

theorem portCleared_allocQueue (s : State) (p : Port) (t : Tag) :
    (portCleared s p t).allocQueue = s.allocQueue.filter fun h => (s.record h).waiters.any fun w => w.ticket.port != p := by
  show s.allocQueue.filter (fun h => !((removePortWaiters p s).record h).waiters.isEmpty) = _
  congr 1
  funext h
  rw [removePortWaiters_record]
  rw [Bool.eq_iff_iff]
  simp

/-- What a PORT-RESET makes of the leases (03, R67). -/
theorem leasesReset_of_cleared (s : State) (p : Port) (t : Tag) :
    LeasesReset s p t (resetEntries p (portCleared s p t)) := by
  refine ⟨entriesReset p (portCleared s p t), ?_, portCleared_record s p t, fun n => ?_, fun e => ?_,
    (entriesReset_all p _).symm⟩
  · show portCleared s p t = { s with
      ports := s.ports.set p (resetPort (s.port p) t), records := (portCleared s p t).records
      watches := (portCleared s p t).watches, allocQueue := _ }
    rw [← portCleared_allocQueue s p t]
    rfl
  · refine (removeWatches_watchAt (fun w => w.port == p) s n).trans ?_
    congr 1
  · exact entriesReset_step p (portCleared s p t) e

theorem resetDirJob_keeps {s : State} {p : Port}
    (h : s.dirSlot = none ∨ ¬ (s.configPort = some p ∧ s.unstarted.any Job.isDirectory = true)) : resetDirJob p s = s := by
  rw [resetDirJob]
  cases hd : s.dirSlot with
  | none => rfl
  | some j => exact if_neg (h.resolve_left (by rw [hd]; nofun))

end Sys2Proof.Machine

/-! PROOF. Every freeing of a lease entry hands it on in the same event (03, R44, R56), and a directory job that ends without
its commit point is undone (01, R12, R21; 05, R90, R96). -/

namespace Sys2Proof.Machine

open Sys2Proof.Safety
set_option deprecated.oldSectionVars true

/-! ### The end of a record job -/

section

variable {s : State} {e : EntryNo} {l : Lease}

theorem endLease_eq (e : EntryNo) (l : Lease) (answer : Status × List Byte) (s : State) :
    endLease e l answer s = grantOnward e l.handle (completeIf l.answer answer.1 answer.2 (freed s e)) := by
  rw [endLease, show freeLease e s = freed s e from freeLease_eq e s]

/-- The commit point of a record job: the notices, the answer, the freed entry and its grant onward (05, R92). -/
theorem recordCommitPoint_freed (hl : (s.lease e).lease = some l) (c : Copy) (gen : Word32) :
    ∃ P : PerPort PortState,
      (∀ r, P.get r = posted (s.port r) (dueNotices s l.handle l.holder gen (counterValue (s.committedData l.handle))
        (counterValue ((s.buffer e).bytes.take (s.entryOf l.handle).size.toNat)) r))
      ∧ recordCommitPoint e l.handle c gen s =
        grantOnward e l.handle (completeIf l.answer (commitAnswer l (s.buffer e) gen).1 (commitAnswer l (s.buffer e) gen).2
          (freed { s.setRecord l.handle { s.record l.handle with active := some c, gen := gen } with ports := P } e)) := by
  have hcommit := recordCommitPoint_leased (h := l.handle) hl c gen
  have hports := fun r => evaluateWatches_port ⟨l.handle, l.holder, gen, s.committedData l.handle,
    (s.buffer e).bytes.take (s.entryOf l.handle).size.toNat⟩
    (s.setRecord l.handle { s.record l.handle with active := some c, gen := gen }) r
  rw [evaluateWatches_frame, endLease_eq] at hcommit
  exact ⟨_, hports, hcommit⟩

/-- The failure of a record job: the notice, the answer, the freed entry and its grant onward (05, R90). -/
theorem recordFault_freed (hl : (s.lease e).lease = some l) (c : Copy) (first pages failing : Nat) (gen : Word32) :
    ∃ P : PerPort PortState,
      (∀ r, P.get r =
        if s.configPort = some r then posted (s.port r) [.storeFault (.record l.handle) failing gen] else s.port r)
      ∧ recordFault e (postFault (.record e l.handle c first pages gen) failing (raiseFaultCount l.handle s)) =
        grantOnward e l.handle (completeIf l.answer .storeFault []
          (freed { raiseFaultCount l.handle s with ports := P } e)) := by
  have hports := postFault_port (.record e l.handle c first pages gen) failing (raiseFaultCount l.handle s)
  have hframe := postFault_frame (.record e l.handle c first pages gen) failing (raiseFaultCount l.handle s)
  generalize postFault (.record e l.handle c first pages gen) failing (raiseFaultCount l.handle s) = v at hports hframe ⊢
  refine ⟨v.ports, hports, ?_⟩
  have hl' : (v.lease e).lease = some l := by rw [hframe]; exact hl
  rw [recordFault_leased hl', endLease_eq, ← hframe]

/-- The answer tag of a lease that ends, if its request still holds its slot. -/
theorem completeIf_answered {tk : Option Ticket} {q : Port} {u : Tag} {serial : Nat} {kind : Byte} {body : List Byte}
    (htk : tk = some ⟨q, u, serial⟩) (hslot : (s.port q).slots.get u = .pending serial kind body) (code : Status)
    (b : List Byte) :
    ((completeIf tk code b s).port q).fifo = (s.port q).fifo ++ [u]
      ∧ ((completeIf tk code b s).port q).slots.get u = .done ⟨code, b⟩ := by
  subst htk
  rw [completeIf, complete_eq_completed hslot]
  obtain ⟨hfifo, hdone⟩ := completed_port s q q u u code b
  rw [hfifo, hdone, if_pos rfl, if_pos ⟨rfl, rfl⟩]
  exact ⟨rfl, rfl⟩

theorem startNext_handed {u : State} (hclear : u.clear = none) (e : EntryNo) (h : Handle) :
    reportDrained (startNext (grantOnward e h u)) =
      { grantOnward e h u with engine := engineFor (grantOnward e h u).queue } := by
  refine jobEnd_eq ?_
  rw [grantOnward_frame]
  exact hclear

/-- The commit point of a record job outside CLEARING, in the order of 03, R64: the answer, and then the grant. -/
theorem commitPoint_record_handed (hl : (s.lease e).lease = some l) (hclear : s.clear = none) (c : Copy)
    (first pages : Nat) (gen : Word32) :
    ∃ s0, s0 = { s.setRecord l.handle { s.record l.handle with active := some c, gen := gen } with
                  ports := s0.ports, leases := (freed s e).leases, buffers := (freed s e).buffers }
      ∧ (∀ q u serial kind body, l.answer = some ⟨q, u, serial⟩ → (s.port q).slots.get u = .pending serial kind body →
          (s0.port q).fifo = (s.port q).fifo ++ [u]
          ∧ (s0.port q).slots.get u = .done ⟨(commitAnswer l (s.buffer e) gen).1, (commitAnswer l (s.buffer e) gen).2⟩)
      ∧ commitPoint (.record e l.handle c first pages gen) s =
        { grantOnward e l.handle s0 with engine := engineFor (grantOnward e l.handle s0).queue } := by
  obtain ⟨P, hP, hcommit⟩ := recordCommitPoint_freed hl c gen
  have hend : commitPoint (.record e l.handle c first pages gen) s =
      reportDrained (startNext (recordCommitPoint e l.handle c gen s)) := rfl
  rw [hend, hcommit]
  generalize commitAnswer l (s.buffer e) gen = answer
  have hframe := completeIf_frame l.answer answer.1 answer.2
    (freed { s.setRecord l.handle { s.record l.handle with active := some c, gen := gen } with ports := P } e)
  refine ⟨_, ?_, fun q u serial kind body hans hslot => ?_, startNext_handed ?_ e l.handle⟩
  · rw [hframe]
    rfl
  · obtain ⟨hslots, hfifo⟩ : (P.get q).slots = (s.port q).slots ∧ (P.get q).fifo = (s.port q).fifo := by
      rw [hP q]
      exact posted_slots _ _
    rw [← hfifo]
    refine completeIf_answered (s := freed { s.setRecord l.handle _ with ports := P } e) (kind := kind) (body := body) hans ?_
      answer.1 answer.2
    rw [← hslot, ← hslots]
    rfl
  · rw [hframe]
    exact hclear

/-- The store fault of a record job outside CLEARING: the answer, and then the grant (03, R65). -/
theorem jobFault_record_handed (hl : (s.lease e).lease = some l) (hclear : s.clear = none) (c : Copy)
    (first pages failing : Nat) (gen : Word32) :
    ∃ s0, s0 = { raiseFaultCount l.handle s with
                  ports := s0.ports, leases := (freed s e).leases, buffers := (freed s e).buffers }
      ∧ (∀ q u serial kind body, l.answer = some ⟨q, u, serial⟩ → (s.port q).slots.get u = .pending serial kind body →
          (s0.port q).fifo = (s.port q).fifo ++ [u] ∧ (s0.port q).slots.get u = .done ⟨.storeFault, []⟩)
      ∧ jobFault (.record e l.handle c first pages gen) failing s =
        { grantOnward e l.handle s0 with engine := engineFor (grantOnward e l.handle s0).queue } := by
  obtain ⟨P, hP, hfault⟩ := recordFault_freed hl c first pages failing gen
  have hend : jobFault (.record e l.handle c first pages gen) failing s =
      reportDrained (startNext (recordFault e (postFault (.record e l.handle c first pages gen) failing
        (raiseFaultCount l.handle s)))) := rfl
  rw [hend, hfault]
  have hframe := completeIf_frame l.answer .storeFault [] (freed { raiseFaultCount l.handle s with ports := P } e)
  refine ⟨_, ?_, fun q u serial kind body hans hslot => ?_, startNext_handed ?_ e l.handle⟩
  · rw [hframe]
    rfl
  · obtain ⟨hslots, hfifo⟩ : (P.get q).slots = (s.port q).slots ∧ (P.get q).fifo = (s.port q).fifo := by
      rw [hP q]
      split
      · exact posted_slots _ _
      · exact ⟨rfl, rfl⟩
    rw [← hfifo]
    refine completeIf_answered (s := freed { raiseFaultCount l.handle s with ports := P } e) (kind := kind) (body := body) hans
      ?_ .storeFault []
    rw [← hslot, ← hslots]
    rfl
  · rw [hframe]
    exact hclear

theorem commitAnswer_response (l : Lease) (b : Buffer) (gen : Word32) :
    (⟨(commitAnswer l b gen).1, (commitAnswer l b gen).2⟩ : Response) =
      match l.form with
      | .explicit => ⟨.ok, be4 gen⟩
      | .implicit => ⟨if b.clamped then .saturated else .ok, be4 (counterValue b.bytes) ++ be4 gen⟩ := by
  rw [commitAnswer]
  cases l.form <;> rfl

end

/-- Settles O24. -/
theorem freedEntryIsGrantedOnward : Obligations.FreedEntryIsGrantedOnward := by
  unfold Obligations.FreedEntryIsGrantedOnward
  intro s e l hl
  refine ⟨?_, ?_, ?_, ?_, ?_⟩
  · intro p t entry count hdev hlive hu hheld
    refine ⟨?_, ?_, ?_⟩
    · rintro ⟨serial, hpl⟩
      exact ⟨_, grantOnward_spec _ e l.handle, by rw [exec_release_live hpl hdev hlive hu, takeRelease_held hpl.2 hheld]⟩
    · rintro ⟨serial, hpl⟩ hm
      exact ⟨_, grantOnward_spec _ e l.handle, by rw [exec_commit_live hpl hdev hlive hu, takeCommit_unmodified hpl.2 hheld hm]⟩
    · rintro ⟨serial, hpl⟩ hm hg
      exact ⟨_, grantOnward_spec _ e l.handle, by rw [exec_commit_live hpl hdev hlive hu, takeCommit_spent hpl.2 hheld hm hg]⟩
  · intro hheld htimer
    refine ⟨_, grantOnward_spec _ e l.handle, ?_⟩
    show execHoldExpiry e s = _
    simp only [execHoldExpiry, hl, hheld, htimer, and_self, if_true]
    rw [posted_singleton]
    rfl
  · intro c first pages gen retry rest he hq hp hfirst hclear
    obtain ⟨-, hat⟩ := recordJob_pageAt_last e l.handle c first pages gen
    have houtside := fun a ha => Memory.read_writePage_outside s.store first a
      (s.jobPage (.record e l.handle c first pages gen) pages) ha
    rw [exec_pageMatch_last he hq (by rw [hat]; exact hfirst) (Nat.le_refl pages), hat]
    generalize Memory.writePage s.store first (s.jobPage (.record e l.handle c first pages gen) pages) = m at houtside ⊢
    obtain ⟨s0, hs0, hanswer, hend⟩ := commitPoint_record_handed (s := { s with store := m, queue := rest }) hl hclear c first
      pages gen
    have hstore : s0.store = m := by rw [hs0]; rfl
    refine ⟨s0, _, ?_, fun a ha => ?_, fun q u serial kind body hans hslot => ?_, grantOnward_spec s0 e l.handle, ?_⟩
    · rw [hstore]
      exact hs0
    · rw [hstore, houtside a ha]
    · obtain ⟨hfifo, hdone⟩ := hanswer q u serial kind body hans hslot
      exact ⟨hfifo, hdone.trans (congrArg Slot.done (commitAnswer_response l (s.buffer e) gen))⟩
    · rw [hend]
  · intro c first pages pos failing gen rest he hq hfirst hclear
    have houtside := fun a ha => Memory.read_writePage_outside s.store first a erasedPage ha
    rw [exec_eraseEnd_eq he hq hfirst]
    show ∃ s0 t', _ ∧ _ ∧ _ ∧ _ ∧ Host.Outcome.next (jobFault _ failing
      { s with store := Memory.writePage s.store first erasedPage, queue := rest }) = _
    generalize Memory.writePage s.store first erasedPage = m at houtside ⊢
    obtain ⟨s0, hs0, hanswer, hend⟩ := jobFault_record_handed (s := { s with store := m, queue := rest }) hl hclear c first
      pages failing gen
    rw [raiseFaultCount_eq] at hs0
    have hstore : s0.store = m := by rw [hs0]; rfl
    refine ⟨s0, _, ?_, fun a ha => ?_, hanswer, grantOnward_spec s0 e l.handle, ?_⟩
    · rw [hstore]
      exact hs0
    · rw [hstore, houtside a ha]
    · rw [hend]
  · intro p t hask hno
    refine ⟨_, leasesReset_of_cleared s p t, ?_⟩
    rw [exec_portReset_eq hask, resetDirJob_keeps (.inr ?_)]
    rintro ⟨hconfig, hdir⟩
    rw [State.unstarted, resetEntries_directory] at hdir
    refine hno ⟨?_, hdir⟩
    rw [← hconfig, resetEntries_frame]
    rfl

/-! ### A directory job without its commit point -/

theorem takingUndone_of {s t : State} {j : DirJob} (hslot : t.dirSlot = none)
    (hflags : ∀ h, (t.record h).freezePending = (undoneRecord j h (s.record h)).freezePending
      ∧ (t.record h).retirePending = (undoneRecord j h (s.record h)).retirePending)
    (hmap : t.pageMap = match j.op with
      | .define x => s.pageMap.map (markCopies .free x)
      | _ => s.pageMap) : TakingUndone s j t where
  slot := hslot
  flags := hflags
  map hop := by
    rw [hmap]
    cases hj : j.op with
    | define x => exact absurd hj (hop x)
    | _ => rfl
  define x m hop hm hwf := by
    rw [hmap, hop, hm]
    exact ⟨_, rfl, fun page => pageCond_markCopies .free x hwf page⟩

theorem undoTaking_undone {s u : State} (j : DirJob) (hrecords : u.records = s.records) (hmap : u.pageMap = s.pageMap) :
    TakingUndone s j (undoTaking j u) := by
  refine takingUndone_of (by rw [undoTaking_frame]) (fun h => ?_) ?_
  · rw [undoTaking_record, State.record, State.record, hrecords]
    exact ⟨rfl, rfl⟩
  · rw [undoTaking_pageMap, hmap] <;> rfl

/-- Settles O49. -/
theorem directoryJobWithoutCommitIsUndone : Obligations.DirectoryJobWithoutCommitIsUndone := by
  unfold Obligations.DirectoryJobWithoutCommitIsUndone
  intro s j hj
  constructor
  · intro k c gen pos failing rest he hq hclear hwf
    have hpage : (Job.directory k c gen).headerPage < 2048 := by cases c <;> simp [Job.headerPage, regionPage]
    have hread := read_erasePage (m := s.store) hpage hwf
    rw [exec_eraseEnd_eq he hq hpage]
    generalize Memory.erasePage s.store _ = m at hread ⊢
    have hports := postFault_port (.directory k c gen) failing { s with store := m, queue := rest }
    have hframe := postFault_frame (.directory k c gen) failing { s with store := m, queue := rest }
    have hend : jobFault (.directory k c gen) failing { s with store := m, queue := rest } =
      reportDrained (startNext (dirFault (postFault (.directory k c gen) failing { s with store := m, queue := rest }))) := rfl
    rw [hend]
    generalize postFault (.directory k c gen) failing { s with store := m, queue := rest } = u at hports hframe ⊢
    have hfault : dirFault u = complete j.ticket .storeFault [] (freezeReturn j (undoTaking j u)) := by
      have hslot : u.dirSlot = some j := by rw [hframe]; exact hj
      simp only [dirFault, hslot]
    have hundo := undoTaking_frame j u
    have hrecord : ∀ h, (undoTaking j u).record h = undoneRecord j h (s.record h) := fun h => by
      rw [undoTaking_record, hframe]
      rfl
    have htaking : TakingUndone s j (undoTaking j u) := undoTaking_undone j (by rw [hframe]) (by rw [hframe])
    have hfinal : reportDrained (startNext (complete j.ticket .storeFault [] (freezeReturn j (undoTaking j u)))) =
        { answeredIf (freezeReturn j (undoTaking j u)) j.ticket .storeFault [] with
            engine := engineFor (freezeReturn j (undoTaking j u)).queue } := by
      refine (jobEnd_eq ?_).trans ?_
      · rw [complete_frame, freezeReturn_frame, hundo, hframe]
        exact hclear
      · rw [complete_frame, ← complete_eq_answeredIf, complete_frame]
    rw [hfault, hfinal]
    refine ⟨undoTaking j u, freezeReturn j (undoTaking j u), ?_, fun a => ?_, fun r => ?_, hrecord, htaking,
      freezeReturn_spec _ j, rfl⟩
    · rw [hundo, hframe]
    · rw [hundo, hframe]
      exact hread a
    · have hr : (undoTaking j u).port r = u.port r := by rw [hundo]; rfl
      rw [hr, hports]
      rfl
  · rintro p t hask ⟨hconfig, hdir⟩
    have hframe := resetEntries_frame p (portCleared s p t)
    have hdirectory := resetEntries_directory p (portCleared s p t)
    have hreset := leasesReset_of_cleared s p t
    rw [exec_portReset_eq hask]
    generalize resetEntries p (portCleared s p t) = s1 at hframe hdirectory hreset ⊢
    have hslot : s1.dirSlot = some j := by rw [hframe]; exact hj
    have hremove : resetDirJob p s1 = freezeReturn j (undoTaking j (removeUnstarted Job.isDirectory s1)) := by
      have hconfig' : s1.configPort = some p := by rw [hframe]; exact hconfig
      have hdir' : s1.unstarted.any Job.isDirectory = true := hdirectory.trans hdir
      simp only [resetDirJob, hslot, hconfig', hdir', and_self, if_true]
    rw [hremove]
    have hundo := undoTaking_frame j (removeUnstarted Job.isDirectory s1)
    refine ⟨s1, undoTaking j (removeUnstarted Job.isDirectory s1), _, hreset, ?_, fun h => undoTaking_record j _ h,
      undoTaking_undone j rfl rfl, freezeReturn_spec _ j, rfl⟩
    rw [hundo]
    rfl

end Sys2Proof.Machine

/-! PROOF. What a PORT-RESET leaves of every block (07, R136 to R138; 03, R67, R68; 05, R96; 01, R12; 06, R109). -/

namespace Sys2Proof.Machine

open Sys2Proof.Safety
set_option deprecated.oldSectionVars true

/-! ### Jobs dropped from the commit queue -/

theorem dropUnstarted_append {d : Job → Bool} (l : List Job) {g : List Job} (hg : ∀ j ∈ g, d j = false) :
    dropUnstarted d (l ++ g) = dropUnstarted d l ++ g := by
  have hkeep : g.filter (fun j => !d j) = g := List.filter_eq_self.mpr fun j hj => by rw [hg j hj]; rfl
  cases l with
  | nil =>
    cases g with
    | nil => rfl
    | cons a g =>
      have hrest : g.filter (fun j => !d j) = g := List.filter_eq_self.mpr fun j hj => by
        rw [hg j (List.mem_cons_of_mem _ hj)]
        rfl
      exact congrArg (a :: ·) hrest
  | cons a l =>
    show [a] ++ (l ++ g).filter (fun j => !d j) = [a] ++ l.filter (fun j => !d j) ++ g
    rw [List.filter_append, hkeep, List.append_assoc]

theorem dropUnstarted_dropUnstarted (d d' : Job → Bool) (l : List Job) :
    dropUnstarted d' (dropUnstarted d l) = dropUnstarted (fun j => d j || d' j) l := by
  cases l with
  | nil => rfl
  | cons a l =>
    show [a] ++ (l.filter fun j => !d j).filter (fun j => !d' j) = [a] ++ l.filter fun j => !(d j || d' j)
    rw [List.filter_filter]
    congr 2
    funext j
    rw [Bool.not_or, Bool.and_comm]

theorem dropUnstarted_congr {d d' : Job → Bool} {l : List Job} (h : ∀ j ∈ l.drop 1, d j = d' j) :
    dropUnstarted d l = dropUnstarted d' l := by
  rw [dropUnstarted, dropUnstarted, List.filter_congr fun j hj => by rw [h j hj]]

theorem dropUnstarted_none {d : Job → Bool} {l : List Job} (h : ∀ j ∈ l.drop 1, d j = false) : dropUnstarted d l = l := by
  rw [dropUnstarted, List.filter_eq_self.mpr fun j hj => by rw [h j hj]; rfl, List.take_append_drop]

/-! ### One entry of a reset port: its lease and its jobs -/

/-- The lease of entry `e` was granted in `t` to a waiter of `s`. -/
def GrantedIn (s t : State) (e : EntryNo) : Prop :=
  ∃ l w, (t.lease e).lease = some l ∧ w ∈ (s.record l.handle).waiters ∧ l.holder = w.ticket.port

/-- The job is that of an implicit grant, whose lease stands in `t`. -/
def GrantJob (s t : State) (j : Job) : Prop :=
  ∃ e l c first pages gen, j = .record e l.handle c first pages gen ∧ (t.lease e).lease = some l
    ∧ l.form = .implicit ∧ l.phase = .committing ∧ ∃ w ∈ (s.record l.handle).waiters, l.holder = w.ticket.port

/-- The unstarted record job of an entry that a PORT-RESET of port `p` removes (05, R96). -/
def removesEntry (s : State) (p : Port) (e : EntryNo) (j : Job) : Bool :=
  Job.isRecordOf e j && (s.lease e).lease.any fun l => l.holder == p && l.phase == .committing

section

variable {s t u : State} {p : Port} {e : EntryNo} {h : Handle}

/-- What waits in `t` waits in `s`. -/
abbrev WaitersWithin (s t : State) : Prop := ∀ h, ∀ w ∈ (t.record h).waiters, w ∈ (s.record h).waiters

theorem WaitersDropped.within (hst : WaitersDropped s t) : WaitersWithin s t := fun _ _ hw => hst.mem hw

theorem GrantedIn.mono (hg : GrantedIn t u e) (hst : WaitersWithin s t) : GrantedIn s u e := by
  obtain ⟨l, w, hl, hw, hholder⟩ := hg
  exact ⟨l, w, hl, hst _ w hw, hholder⟩

theorem GrantJob.mono {j : Job} (hg : GrantJob t u j) (hst : WaitersWithin s t) : GrantJob s u j := by
  obtain ⟨e, l, c, first, pages, gen, hj, hl, hform, hphase, w, hw, hholder⟩ := hg
  exact ⟨e, l, c, first, pages, gen, hj, hl, hform, hphase, w, hst _ w hw, hholder⟩

theorem GrantedIn.holder_ne (hg : GrantedIn s t e) (hw : NoneWaitsAt s p) {l : Lease} (hl : (t.lease e).lease = some l) :
    l.holder ≠ p := by
  obtain ⟨l', w, hl', hmem, hholder⟩ := hg
  cases hl.symm.trans hl'
  rw [hholder]
  exact hw _ w hmem

theorem resetEntry_lease (s : State) (p : Port) (e : EntryNo) :
    ((∀ h, ¬ ResetFrees s p e h) ∧ (resetEntry p s e).lease e = s.lease e ∧ (resetEntry p s e).buffer e = s.buffer e)
      ∨ ((∃ h, ResetFrees s p e h) ∧ (((resetEntry p s e).lease e).lease = none ∨ GrantedIn s (resetEntry p s e) e)) := by
  obtain ⟨h, hf, heq⟩ | ⟨hf, heq⟩ := resetEntry_cases s p e
  · refine .inr ⟨⟨h, hf⟩, ?_⟩
    obtain ⟨-, -, hentry, -, -⟩ := grantOnward_handed e h (entryFreed s e)
    rw [← heq] at hentry
    obtain ⟨hlease, -, -⟩ | ⟨l, w, hl, hw, hholder, -⟩ := hentry
    · refine .inl ?_
      rw [hlease]
      exact congrArg LeaseEntry.lease ((vector_get_set _ _ _ _).trans (if_pos rfl))
    · exact .inr ⟨l, w, hl, hw, hholder⟩
  · rw [heq]
    exact .inl ⟨hf, rfl, rfl⟩

theorem removesEntry_false_of {s : State} {j : Job}
    (h : ∀ l, (s.lease e).lease = some l → l.holder = p → l.phase = .committing → Job.isRecordOf e j = false) :
    removesEntry s p e j = false := by
  rw [removesEntry]
  cases hl : (s.lease e).lease with
  | none => exact Bool.and_false _
  | some l =>
    by_cases hp : l.holder = p ∧ l.phase = .committing
    · rw [h l hl hp.1 hp.2]
      rfl
    · have : (l.holder == p && l.phase == .committing) = false := by
        rw [← Bool.not_eq_true]
        simpa using hp
      rw [Option.any_some, this, Bool.and_false]

theorem entryFreed_queue (hf : ResetFrees s p e h) : (entryFreed s e).queue = dropUnstarted (removesEntry s p e) s.queue := by
  obtain ⟨l, hl, -, hp, -⟩ := hf
  have hqueue : (entryFreed s e).queue =
      if (s.lease e).lease.any (fun l => l.phase == .held) then s.queue else dropUnstarted (Job.isRecordOf e) s.queue := rfl
  rw [hqueue, hl]
  cases hphase : l.phase with
  | held =>
    rw [if_pos (by simp [hphase])]
    refine (dropUnstarted_none fun j _ => removesEntry_false_of fun l' hl' _ hc => ?_).symm
    cases hl.symm.trans hl'
    rw [hphase] at hc
    cases hc
  | committing =>
    rw [if_neg (by simp [hphase])]
    refine dropUnstarted_congr fun j _ => ?_
    rw [removesEntry, hl]
    simp [hp, hphase]

theorem resetEntry_queue (s : State) (p : Port) (e : EntryNo) :
    ∃ granted, (resetEntry p s e).queue = dropUnstarted (removesEntry s p e) s.queue ++ granted
      ∧ ∀ j ∈ granted, Job.isRecordOf e j = true ∧ GrantJob s (resetEntry p s e) j := by
  obtain ⟨h, hf, heq⟩ | ⟨hf, heq⟩ := resetEntry_cases s p e
  · obtain ⟨-, -, hentry, -, -⟩ := grantOnward_handed e h (entryFreed s e)
    rw [← heq, EntryGranted, entryFreed_queue hf] at hentry
    obtain ⟨-, -, hqueue⟩ | ⟨l, w, hl, hw, hholder, hqueue | ⟨hform, hphase, c, first, pages, gen, hqueue⟩⟩ := hentry
    · exact ⟨[], by rw [hqueue, List.append_nil], nofun⟩
    · exact ⟨[], by rw [hqueue, List.append_nil], nofun⟩
    · refine ⟨_, hqueue, fun j hj => ?_⟩
      rw [List.mem_singleton.mp hj]
      exact ⟨isRecordOf_iff.2 ⟨_, _, _, _, _, rfl⟩, e, l, c, first, pages, gen, rfl, hl, hform, hphase, w, hw, hholder⟩
  · refine ⟨[], ?_, nofun⟩
    rw [heq, List.append_nil, dropUnstarted_none fun j hj => removesEntry_false_of fun l hl hp hphase => ?_]
    rw [← Bool.not_eq_true]
    exact fun hj' => hf l.handle ⟨l, hl, rfl, hp, .inr (List.any_eq_true.mpr ⟨j, hj, hj'⟩)⟩

theorem removesEntry_congr (hl : t.lease e = s.lease e) (j : Job) : removesEntry t p e j = removesEntry s p e j := by
  rw [removesEntry, removesEntry, hl]

theorem resetEntry_fold_queue (p : Port) {es : List EntryNo} (hes : es.Nodup) (s : State) :
    ∃ granted, (es.foldl (resetEntry p) s).queue =
        dropUnstarted (fun j => es.any fun e => removesEntry s p e j) s.queue ++ granted
      ∧ ∀ j ∈ granted, (∃ e ∈ es, Job.isRecordOf e j = true) ∧ GrantJob s (es.foldl (resetEntry p) s) j := by
  induction es generalizing s with
  | nil =>
    refine ⟨[], ?_, nofun⟩
    rw [List.append_nil]
    exact (dropUnstarted_none fun _ _ => rfl).symm
  | cons e es ih =>
    obtain ⟨hnot, hes'⟩ := List.nodup_cons.mp hes
    obtain ⟨g1, hq1, hg1⟩ := resetEntry_queue s p e
    obtain ⟨g2, hq2, hg2⟩ := ih hes' (resetEntry p s e)
    have hdropped := resetEntry_dropped s p e
    have hsame : ∀ e' ∈ es, ∀ j, removesEntry (resetEntry p s e) p e' j = removesEntry s p e' j := fun e' he' j =>
      removesEntry_congr (resetEntry_other s p fun heq : e' = e => hnot (heq ▸ he')).1 j
    have hcongr : (fun j => es.any fun e' => removesEntry (resetEntry p s e) p e' j) =
        fun j => es.any fun e' => removesEntry s p e' j := by
      funext j
      rw [Bool.eq_iff_iff, List.any_eq_true, List.any_eq_true]
      exact exists_congr fun e' => and_congr_right fun he' => by rw [hsame e' he' j]
    have hkept : ∀ j ∈ g1, (es.any fun e' => removesEntry s p e' j) = false := fun j hj => by
      rw [List.any_eq_false]
      intro e' he'
      have hne : e' ≠ e := fun heq => hnot (heq ▸ he')
      rw [removesEntry, isRecordOf_ne hne j (hg1 j hj).1]
      simp
    refine ⟨g1 ++ g2, ?_, fun j hj => ?_⟩
    · rw [List.foldl_cons, hq2, hcongr, hq1, dropUnstarted_append _ hkept, dropUnstarted_dropUnstarted, List.append_assoc]
      simp only [List.any_cons]
    · rw [List.foldl_cons]
      obtain hj | hj := List.mem_append.mp hj
      · obtain ⟨hrec, e', l, c, first, pages, gen, rfl, hl, hrest⟩ := hg1 j hj
        obtain rfl : e' = e := by simpa [Job.isRecordOf] using hrec
        obtain ⟨hlease, -, -⟩ := resetEntry_fold_other p es (resetEntry p s e') hnot
        exact ⟨⟨e', List.mem_cons_self, hrec⟩, e', l, c, first, pages, gen, rfl, by rw [hlease]; exact hl, hrest⟩
      · obtain ⟨⟨e', he', hrec⟩, hgrant⟩ := hg2 j hj
        exact ⟨⟨e', List.mem_cons_of_mem _ he', hrec⟩, hgrant.mono hdropped.within⟩

/-- The leases that a PORT-RESET's entries leave. -/
theorem resetEntries_lease (p : Port) (s : State) (e : EntryNo) :
    ((∀ h, ¬ ResetFrees s p e h) ∧ (resetEntries p s).lease e = s.lease e ∧ (resetEntries p s).buffer e = s.buffer e)
      ∨ ((∃ h, ResetFrees s p e h) ∧ (((resetEntries p s).lease e).lease = none ∨ GrantedIn s (resetEntries p s) e)) := by
  obtain ⟨before, after, hsplit⟩ := List.append_of_mem (List.mem_finRange e)
  have hnodup := List.nodup_finRange 6
  rw [hsplit] at hnodup
  obtain ⟨-, hafter, hdisj⟩ := List.nodup_append.mp hnodup
  have hb : e ∉ before := fun he => hdisj e he e List.mem_cons_self rfl
  have ha : e ∉ after := (List.nodup_cons.mp hafter).1
  have hreset : resetEntries p s = after.foldl (resetEntry p) (resetEntry p (before.foldl (resetEntry p) s) e) := by
    rw [resetEntries, allEntries, hsplit, List.foldl_append, List.foldl_cons]
  obtain ⟨hlease, hbuffer, hqueue⟩ := resetEntry_fold_other p before s hb
  obtain ⟨hlease', hbuffer', -⟩ := resetEntry_fold_other p after (resetEntry p (before.foldl (resetEntry p) s) e) ha
  have hdropped : WaitersDropped s (before.foldl (resetEntry p) s) := (resetEntry_fold_dropped p before s).1
  have hfrees : ∀ h, ResetFrees (before.foldl (resetEntry p) s) p e h ↔ ResetFrees s p e h := fun h =>
    resetFrees_congr hlease hqueue
  simp only [← hfrees]
  rw [hreset, hlease', hbuffer']
  obtain ⟨hf, hl, hbuf⟩ | ⟨hf, hl⟩ := resetEntry_lease (before.foldl (resetEntry p) s) p e
  · exact .inl ⟨hf, hl.trans hlease, hbuf.trans hbuffer⟩
  · refine .inr ⟨hf, hl.imp id fun hg => ?_⟩
    obtain ⟨l, w, hl', hw, hholder⟩ := hg
    exact ⟨l, w, by rw [hlease']; exact hl', hdropped.mem hw, hholder⟩

/-- The record jobs that a PORT-RESET removes. -/
theorem resetRemoves_record (s : State) (p : Port) (j : Job) :
    (allEntries.any fun e => removesEntry s p e j) = (resetRemoves s p j && !Job.isDirectory j) := by
  cases j with
  | directory k c gen =>
    rw [show Job.isDirectory (.directory k c gen) = true from rfl, Bool.not_true, Bool.and_false, List.any_eq_false]
    intro e _
    simp [removesEntry, Job.isRecordOf]
  | record e h c first pages gen =>
    rw [show Job.isDirectory (.record e h c first pages gen) = false from rfl, Bool.not_false, Bool.and_true, Bool.eq_iff_iff,
      List.any_eq_true]
    constructor
    · rintro ⟨e', -, he'⟩
      rw [removesEntry, Bool.and_eq_true] at he'
      obtain ⟨hrec, hl⟩ := he'
      obtain rfl : e = e' := by simpa [Job.isRecordOf] using hrec
      rw [resetRemoves]
      cases hlease : (s.lease e).lease with
      | none => rw [hlease] at hl; cases hl
      | some l => rw [hlease] at hl; exact hl
    · intro hr
      refine ⟨e, by simp [allEntries], ?_⟩
      rw [resetRemoves] at hr
      rw [removesEntry, show Job.isRecordOf e (.record e h c first pages gen) = true from beq_self_eq_true e, Bool.true_and]
      cases hlease : (s.lease e).lease with
      | none => rw [hlease] at hr; cases hr
      | some l => rw [hlease] at hr; exact hr

theorem resetEntries_queue (p : Port) (s : State) :
    ∃ granted, (resetEntries p s).queue =
        dropUnstarted (fun j => resetRemoves s p j && !Job.isDirectory j) s.queue ++ granted
      ∧ ∀ j ∈ granted, GrantJob s (resetEntries p s) j := by
  obtain ⟨g, hq, hg⟩ := resetEntry_fold_queue p (List.nodup_finRange 6) s
  refine ⟨g, hq.trans ?_, fun j hj => (hg j hj).2⟩
  congr 2
  funext j
  exact resetRemoves_record s p j

theorem resetEntry_engine (s : State) (p : Port) (e : EntryNo) (hne : s.engine ≠ .idle) :
    (resetEntry p s e).engine = s.engine := by
  obtain ⟨h, -, heq⟩ | ⟨-, heq⟩ := resetEntry_cases s p e
  · obtain ⟨-, -, -, -, hengine⟩ := grantOnward_handed e h (entryFreed s e)
    rw [heq]
    exact hengine hne
  · rw [heq]

theorem resetEntries_engine (p : Port) (s : State) (hne : s.engine ≠ .idle) : (resetEntries p s).engine = s.engine := by
  rw [resetEntries]
  generalize allEntries = es
  induction es generalizing s with
  | nil => rfl
  | cons e es ih =>
    have hone := resetEntry_engine s p e hne
    exact (ih _ (hone ▸ hne)).trans hone

/-! ### The directory job of a reset port -/

/-- `t` is what becomes of `s` when FREE lease entries are handed to waiters. -/
def HandedOn (s t : State) : Prop :=
  WaitersDropped s t ∧ PortsAnswered s t
    ∧ (∀ e, (t.lease e = s.lease e ∧ t.buffer e = s.buffer e) ∨ ((s.lease e).lease = none ∧ GrantedIn s t e))
    ∧ (∃ granted, t.queue = s.queue ++ granted ∧ ∀ j ∈ granted, GrantJob s t j)
    ∧ (s.engine ≠ .idle → t.engine = s.engine)

theorem Handed.on (hst : Handed e s t) (hfree : (s.lease e).lease = none) : HandedOn s t := by
  obtain ⟨hdropped, hanswered, hentry, hother, hengine⟩ := hst
  refine ⟨hdropped, hanswered, fun e' => ?_, ?_, hengine⟩
  · by_cases he : e' = e
    · subst he
      obtain ⟨hlease, hbuffer, -⟩ | ⟨l, w, hl, hw, hholder, -⟩ := hentry
      · exact .inl ⟨hlease, hbuffer⟩
      · exact .inr ⟨hfree, l, w, hl, hw, hholder⟩
    · exact .inl (hother e' he)
  · obtain ⟨-, -, hqueue⟩ | ⟨l, w, hl, hw, hholder, hqueue | ⟨hform, hphase, c, first, pages, gen, hqueue⟩⟩ := hentry
    · exact ⟨[], by rw [hqueue, List.append_nil], nofun⟩
    · exact ⟨[], by rw [hqueue, List.append_nil], nofun⟩
    · refine ⟨_, hqueue, fun j hj => ?_⟩
      rw [List.mem_singleton.mp hj]
      exact ⟨e, l, c, first, pages, gen, rfl, hl, hform, hphase, w, hw, hholder⟩

theorem Refusals.on (hst : Refusals s t) : HandedOn s t := by
  obtain ⟨hdropped, hanswered, hframe⟩ := hst
  refine ⟨hdropped, hanswered, fun e => .inl ?_, ⟨[], ?_, nofun⟩, fun _ => ?_⟩
  · rw [hframe]
    exact ⟨rfl, rfl⟩
  · rw [hframe, List.append_nil]
  · rw [hframe]

theorem freezeReturn_on (j : DirJob) (s : State) : HandedOn s (freezeReturn j s) := by
  obtain ⟨e, hfree, hhanded⟩ | hrefused := freezeReturn_handed j s
  · exact hhanded.on hfree
  · exact hrefused.on

theorem HandedOn.refl (s : State) : HandedOn s s := Refusals.on ⟨.of_records rfl, .of_ports rfl, rfl⟩

theorem resetDirJob_removes {j : DirJob} (hj : s.dirSlot = some j) (hr : ResetRemovesDirectory s p) :
    resetDirJob p s = freezeReturn j (undoTaking j (removeUnstarted Job.isDirectory s)) := by
  have hdir : s.unstarted.any Job.isDirectory = true := hr.2
  simp only [resetDirJob, hj, hr.1, hdir, and_self, if_true]

end

end Sys2Proof.Machine

/-! PROOF. PORT-RESET in every block (07, R136 to R138; 03, R67, R68; 05, R96; 01, R12; 06, R109). -/

namespace Sys2Proof.Machine

open Sys2Proof.Safety
set_option deprecated.oldSectionVars true

section

variable {s t u v w : State} {p : Port}

/-! ### From the entries to the directory job -/

theorem resetRemovesDirectory_entries (p : Port) (s : State) :
    ResetRemovesDirectory (resetEntries p s) p ↔ ResetRemovesDirectory s p := by
  have hconfig : (resetEntries p s).configPort = s.configPort := by
    rw [resetEntries_frame]
    rfl
  rw [ResetRemovesDirectory, ResetRemovesDirectory, hconfig, resetEntries_directory]

/-- The two ways of the directory job at a PORT-RESET: its taking is undone and the waiters of a FREEZE are eligible
again, or nothing happens. -/
theorem resetDirJob_stages (p : Port) (u : State) :
    ∃ w, HandedOn w (resetDirJob p u)
      ∧ resetDirJob p u = { w with
          ports := (resetDirJob p u).ports, records := (resetDirJob p u).records, leases := (resetDirJob p u).leases
          buffers := (resetDirJob p u).buffers, allocQueue := (resetDirJob p u).allocQueue
          queue := (resetDirJob p u).queue, engine := (resetDirJob p u).engine }
      ∧ ((∃ j, u.dirSlot = some j ∧ ResetRemovesDirectory u p ∧ w = undoTaking j (removeUnstarted Job.isDirectory u))
        ∨ ((¬ ResetRemovesDirectory u p ∨ u.dirSlot = none) ∧ w = u ∧ resetDirJob p u = u)) := by
  by_cases hr : ResetRemovesDirectory u p
  · cases hj : u.dirSlot with
    | none =>
      have hkeep := resetDirJob_keeps (p := p) (.inl hj)
      exact ⟨u, by rw [hkeep]; exact .refl u, by rw [hkeep], .inr ⟨.inr rfl, rfl, hkeep⟩⟩
    | some j =>
      rw [resetDirJob_removes hj hr]
      exact ⟨_, freezeReturn_on j _, freezeReturn_frame j _, .inl ⟨j, rfl, hr, rfl⟩⟩
  · have hkeep := resetDirJob_keeps (s := u) (p := p) (.inr hr)
    exact ⟨u, by rw [hkeep]; exact .refl u, by rw [hkeep], .inr ⟨.inl hr, rfl, hkeep⟩⟩

/-- What the undoing of the taking leaves alone. -/
def SameButTaking (u w : State) : Prop :=
  w.ports = u.ports ∧ w.leases = u.leases ∧ w.buffers = u.buffers ∧ w.engine = u.engine
    ∧ ∀ h, { w.record h with
              freezePending := (u.record h).freezePending, retirePending := (u.record h).retirePending } = u.record h

theorem undoTaking_same (j : DirJob) (u : State) : SameButTaking u (undoTaking j (removeUnstarted Job.isDirectory u)) := by
  have hframe := undoTaking_frame j (removeUnstarted Job.isDirectory u)
  refine ⟨by rw [hframe]; rfl, by rw [hframe]; rfl, by rw [hframe]; rfl, by rw [hframe]; rfl, fun h => ?_⟩
  rw [undoTaking_record]
  rfl

theorem SameButTaking.refl (u : State) : SameButTaking u u := ⟨rfl, rfl, rfl, rfl, fun _ => rfl⟩

theorem SameButTaking.waiters (h : SameButTaking u w) (k : Handle) : (w.record k).waiters = (u.record k).waiters := by
  obtain ⟨-, -, -, -, hrecord⟩ := h
  exact (congrArg RecState.waiters (hrecord k) :)

theorem PortsAnswered.of_same (hw : SameButTaking u w) (hv : PortsAnswered w v) : PortsAnswered u v := fun q => by
  have hport : w.port q = u.port q := by rw [State.port, State.port, hw.1]
  have hq := hv q
  simp only [PortAnswered, SlotAnswered, hport, hw.waiters] at hq
  exact hq

theorem resetEntries_keeps (hf : ∀ e h, ¬ ResetFrees s p e h) : resetEntries p s = s := by
  rw [resetEntries]
  generalize allEntries = es
  induction es with
  | nil => rfl
  | cons e es ih => rw [List.foldl_cons, resetEntry_keeps (hf e), ih]

/-! ### The parts of the statement -/

/-- The states of a PORT-RESET: `s` before, `u` once the entries have been handed on, `w` once the taking of a
directory job has been undone, and `v` at the end. -/
def ResetStages (s : State) (p : Port) (t : Tag) (u w v : State) : Prop :=
  u = resetEntries p (portCleared s p t) ∧ HandedOn w v ∧ SameButTaking u w

theorem ResetStages.dropped {t : Tag} (h : ResetStages s p t u w v) (k : Handle) :
    (∃ n, (v.record k).waiters = ((s.record k).waiters.filter fun w => w.ticket.port != p).drop n)
      ∧ { v.record k with
            waiters := (s.record k).waiters, freezePending := (s.record k).freezePending,
            retirePending := (s.record k).retirePending } = s.record k := by
  obtain ⟨rfl, ⟨hwv, -⟩, hsame⟩ := h
  obtain ⟨hcu, -⟩ := resetEntries_dropped p (portCleared s p t)
  obtain ⟨n, hn⟩ := hcu k
  obtain ⟨m, hm⟩ := hwv k
  rw [portCleared_record] at hn
  have hw := hsame.waiters k
  obtain ⟨-, -, -, -, hrecord⟩ := hsame
  have hk := hrecord k
  rw [hn] at hk hw
  constructor
  · refine ⟨n + m, ?_⟩
    rw [hm]
    show (State.record w k).waiters.drop m = _
    rw [hw, List.drop_drop]
  · rw [hm]
    exact congrArg (fun r : RecState => { r with
      waiters := (s.record k).waiters, freezePending := (s.record k).freezePending
      retirePending := (s.record k).retirePending }) hk

theorem ResetStages.noneWaits {t : Tag} (h : ResetStages s p t u w v) : NoneWaitsAt u p ∧ NoneWaitsAt w p := by
  obtain ⟨rfl, -, hsame⟩ := h
  obtain ⟨hcu, -⟩ := resetEntries_dropped p (portCleared s p t)
  have hu : NoneWaitsAt (resetEntries p (portCleared s p t)) p := fun h x hx =>
    portCleared_noneWaits s p t h x (hcu.mem hx)
  exact ⟨hu, fun h x hx => hu h x (hsame.waiters h ▸ hx)⟩

theorem ResetStages.answered {t : Tag} (h : ResetStages s p t u w v) : PortsAnswered (portCleared s p t) v := by
  obtain ⟨rfl, ⟨-, hwv, -⟩, hsame⟩ := h
  obtain ⟨hcu, hanswered⟩ := resetEntries_dropped p (portCleared s p t)
  exact hanswered.trans hcu (hwv.of_same hsame)

theorem ResetStages.port_same {t : Tag} (h : ResetStages s p t u w v) : v.port p = resetPort (s.port p) t := by
  have hport := (h.answered p).2.2.2 (portCleared_noneWaits s p t)
  rw [hport]
  exact PerPort.get_set_same _ p _

theorem portCleared_port_ne {q : Port} (hq : q ≠ p) (t : Tag) : (portCleared s p t).port q = s.port q :=
  (PerPort.get_set _ _ _ _).trans (if_neg (Ne.symm hq))

theorem ResetStages.port_other {t : Tag} (h : ResetStages s p t u w v) {q : Port} (hq : q ≠ p) :
    { v.port q with slots := (s.port q).slots, fifo := (s.port q).fifo } = s.port q
      ∧ (∃ more, (v.port q).fifo = (s.port q).fifo ++ more) ∧ ∀ u, SlotAnswered s v q u := by
  obtain ⟨hrest, hfifo, hslots, -⟩ := h.answered q
  rw [portCleared_port_ne hq] at hrest hfifo
  refine ⟨hrest, hfifo, fun u => ?_⟩
  have hslot := hslots u
  rw [SlotAnswered, portCleared_port_ne hq] at hslot
  refine hslot.imp id ?_
  rintro ⟨k, x, kind, body, code, answer, hx, hanswer⟩
  rw [portCleared_record] at hx
  exact ⟨k, x, kind, body, code, answer, List.mem_of_mem_filter hx, hanswer⟩

/-- What becomes of a lease entry. -/
theorem ResetStages.lease {t : Tag} (h : ResetStages s p t u w v) (e : EntryNo) :
    ((∀ h, ¬ ResetFrees s p e h) ∧ (s.lease e).lease ≠ none → v.lease e = s.lease e ∧ v.buffer e = s.buffer e)
      ∧ ((∃ h, ResetFrees s p e h) → ∀ l, (v.lease e).lease = some l → l.holder ≠ p)
      ∧ ((s.lease e).lease = none → ∀ l, (v.lease e).lease = some l → l.holder ≠ p) := by
  obtain ⟨hnu, hnw⟩ := h.noneWaits
  obtain ⟨rfl, ⟨-, -, hlease, -⟩, -, hleases, hbuffers, -⟩ := h
  have hwl : w.lease e = (resetEntries p (portCleared s p t)).lease e := by rw [State.lease, State.lease, hleases]
  have hwb : w.buffer e = (resetEntries p (portCleared s p t)).buffer e := by rw [State.buffer, State.buffer, hbuffers]
  have hv := hlease e
  rw [hwl, hwb] at hv
  have hu := resetEntries_lease p (portCleared s p t) e
  refine ⟨fun ⟨hf, hne⟩ => ?_, fun hf l hl hp => ?_, fun hnone l hl hp => ?_⟩
  · obtain ⟨-, hul, hub⟩ | ⟨⟨k, hk⟩, -⟩ := hu
    · rw [hul, hub] at hv
      obtain hv | ⟨hn, -⟩ := hv
      · exact hv
      · exact absurd hn hne
    · exact absurd hk (hf k)
  · obtain ⟨hvl, -⟩ | ⟨-, hg⟩ := hv
    · obtain ⟨hn, -⟩ | ⟨-, hn | hg⟩ := hu
      · obtain ⟨k, hk⟩ := hf
        exact hn k hk
      · rw [hvl, hn] at hl
        cases hl
      · rw [hvl] at hl
        exact hg.holder_ne (portCleared_noneWaits s p t) hl hp
    · exact hg.holder_ne hnw hl hp
  · obtain ⟨hvl, -⟩ | ⟨-, hg⟩ := hv
    · obtain ⟨-, hul, -⟩ | ⟨⟨k, l', hl', -⟩, -⟩ := hu
      · rw [hvl, hul] at hl
        exact absurd (hnone.symm.trans hl) nofun
      · exact absurd (hnone.symm.trans hl') nofun
    · exact hg.holder_ne hnw hl hp

theorem ResetStages.engine {t : Tag} (h : ResetStages s p t u w v) (hne : s.engine ≠ .idle) : v.engine = s.engine := by
  obtain ⟨rfl, ⟨-, -, -, -, hengine⟩, -, -, -, hw, -⟩ := h
  have hu := resetEntries_engine p (portCleared s p t) hne
  rw [hengine (by rw [hw, hu]; exact hne), hw, hu]
  rfl

/-! ### The commit queue -/

theorem resetRemoves_directory {j : Job} (hj : Job.isDirectory j = true) (s : State) (p : Port) :
    resetRemoves s p j = (s.configPort == some p && s.dirSlot.isSome) := by
  cases j with
  | record => cases hj
  | directory => rfl

theorem isDirectory_of_grantJob {j : Job} (hj : GrantJob s t j) : Job.isDirectory j = false := by
  obtain ⟨e, l, c, first, pages, gen, rfl, -⟩ := hj
  rfl

/-- With the unstarted directory job removed. -/
theorem dropUnstarted_removes (hconfig : s.configPort = some p) (hslot : s.dirSlot.isSome = true) (l : List Job) :
    dropUnstarted Job.isDirectory (dropUnstarted (fun j => resetRemoves s p j && !Job.isDirectory j) l) =
      dropUnstarted (resetRemoves s p) l := by
  rw [dropUnstarted_dropUnstarted]
  refine dropUnstarted_congr fun j _ => ?_
  cases hj : Job.isDirectory j with
  | true => simp [resetRemoves_directory hj, hconfig, hslot]
  | false => simp

/-- Without. -/
theorem dropUnstarted_removes_keep (h : ¬ ResetRemovesDirectory s p ∨ s.dirSlot = none) :
    dropUnstarted (fun j => resetRemoves s p j && !Job.isDirectory j) s.queue = dropUnstarted (resetRemoves s p) s.queue := by
  refine dropUnstarted_congr fun j hmem => ?_
  cases hj : Job.isDirectory j with
  | false => simp
  | true =>
    have hnot : (s.configPort == some p && s.dirSlot.isSome) = false := by
      rw [← Bool.not_eq_true, Bool.and_eq_true, beq_iff_eq]
      rintro ⟨hconfig, hslot⟩
      obtain h | h := h
      · exact h ⟨hconfig, List.any_eq_true.mpr ⟨j, hmem, hj⟩⟩
      · rw [h] at hslot
        cases hslot
    rw [resetRemoves_directory hj, hnot]
    rfl

theorem ResetStages.queue {t : Tag} (h : ResetStages s p t u w v)
    (hw : ∀ g, u.queue = dropUnstarted (fun j => resetRemoves s p j && !Job.isDirectory j) s.queue ++ g →
      (∀ j ∈ g, Job.isDirectory j = false) → w.queue = dropUnstarted (resetRemoves s p) s.queue ++ g) :
    ∃ granted, v.queue = s.queue.take 1 ++ (s.queue.drop 1).filter (fun j => !resetRemoves s p j) ++ granted
      ∧ ∀ j ∈ granted, ∃ e l h c first pages gen, j = .record e h c first pages gen
          ∧ (v.lease e).lease = some l ∧ l.handle = h ∧ l.form = .implicit ∧ l.phase = .committing ∧ l.holder ≠ p := by
  obtain ⟨-, hnw⟩ := h.noneWaits
  obtain ⟨rfl, ⟨-, -, hlease, ⟨g2, hq2, hg2⟩, -⟩, -, hleases, -⟩ := h
  obtain ⟨g1, hq1, hg1⟩ := resetEntries_queue p (portCleared s p t)
  have hwq := hw g1 hq1 fun j hj => isDirectory_of_grantJob (hg1 j hj)
  refine ⟨g1 ++ g2, ?_, fun j hj => ?_⟩
  · rw [hq2, hwq, List.append_assoc]
    rfl
  · obtain hj | hj := List.mem_append.mp hj
    · obtain ⟨e, l, c, first, pages, gen, rfl, hl, hform, hphase, x, hx, hholder⟩ := hg1 j hj
      have hwl : (w.lease e).lease = some l := by rw [State.lease, hleases]; exact hl
      have hvl : (v.lease e).lease = some l := by
        obtain ⟨hkeep, -⟩ | ⟨hnone, -⟩ := hlease e
        · rw [hkeep, hwl]
        · rw [hwl] at hnone
          cases hnone
      exact ⟨e, l, l.handle, c, first, pages, gen, rfl, hvl, rfl, hform, hphase,
        hholder ▸ portCleared_noneWaits s p t _ x hx⟩
    · obtain ⟨e, l, c, first, pages, gen, rfl, hl, hform, hphase, x, hx, hholder⟩ := hg2 j hj
      exact ⟨e, l, l.handle, c, first, pages, gen, rfl, hl, rfl, hform, hphase, hholder ▸ hnw _ x hx⟩

end

/-- What a PORT-RESET leaves of the watches (06, R109). -/
theorem portCleared_watchAt (s : State) (p : Port) (t : Tag) (n : WatchNo) :
    (portCleared s p t).watchAt n =
      match s.watchAt n with
      | some w => if w.port = p then none else some w
      | none => none := by
  refine (removeWatches_watchAt (fun w => w.port == p) s n).trans ?_
  cases s.watchAt n with
  | none => rfl
  | some w => by_cases hw : w.port = p <;> simp [Option.filter, hw]

/-- Settles O35. -/
theorem portResetClearsThePort : Obligations.PortResetClearsThePort := by
  unfold Obligations.PortResetClearsThePort
  intro s p t hask
  rw [exec_portReset_eq hask]
  have huframe := resetEntries_frame p (portCleared s p t)
  have hconfig : ResetRemovesDirectory (resetEntries p (portCleared s p t)) p ↔ ResetRemovesDirectory s p :=
    resetRemovesDirectory_entries p (portCleared s p t)
  obtain ⟨w, hon, hvframe, hcase⟩ := resetDirJob_stages p (resetEntries p (portCleared s p t))
  generalize hu : resetEntries p (portCleared s p t) = u at huframe hconfig hon hvframe hcase
  have hsame : SameButTaking u w := by
    obtain ⟨j, -, -, rfl⟩ | ⟨-, rfl, -⟩ := hcase
    · exact undoTaking_same j u
    · exact .refl w
  have hstages : ResetStages s p t u w (resetDirJob p u) := ⟨hu.symm, hon, hsame⟩
  have hslot : u.dirSlot = s.dirSlot := by rw [huframe]; rfl
  have hmap : u.pageMap = s.pageMap := by rw [huframe]; rfl
  have hwframe : w = { s with
      ports := w.ports, records := w.records, leases := w.leases, buffers := w.buffers, allocQueue := w.allocQueue
      queue := w.queue, engine := w.engine, dirSlot := w.dirSlot, pageMap := w.pageMap
      watches := (portCleared s p t).watches } := by
    obtain ⟨j, -, -, rfl⟩ | ⟨-, rfl, -⟩ := hcase
    · rw [undoTaking_frame, huframe]
      rfl
    · rw [huframe]
      rfl
  generalize hv : resetDirJob p u = v at hon hvframe hcase hstages ⊢
  have hvframe' : v = { s with
      ports := v.ports, records := v.records, leases := v.leases, buffers := v.buffers, allocQueue := v.allocQueue
      queue := v.queue, engine := v.engine, dirSlot := w.dirSlot, pageMap := w.pageMap
      watches := (portCleared s p t).watches } := by rw [hvframe, hwframe]
  have hvslot : v.dirSlot = w.dirSlot := by rw [hvframe']
  have hvmap : v.pageMap = w.pageMap := by rw [hvframe']
  have hvwatches : v.watches = (portCleared s p t).watches := by rw [hvframe']
  have hflags : ∀ k, (v.record k).freezePending = (w.record k).freezePending
      ∧ (v.record k).retirePending = (w.record k).retirePending := fun k => by
    obtain ⟨n, hn⟩ := hon.1 k
    rw [hn]
    exact ⟨rfl, rfl⟩
  have huflags : ∀ k, (u.record k).freezePending = (s.record k).freezePending
      ∧ (u.record k).retirePending = (s.record k).retirePending := fun k => by
    obtain ⟨n, hn⟩ := (resetEntries_dropped p (portCleared s p t)).1 k
    rw [← hu, hn, portCleared_record]
    exact ⟨rfl, rfl⟩
  refine ⟨v, rfl, hstages.port_same, fun n => ?_, fun h => (hstages.dropped h).1, fun q hq => hstages.port_other hq,
    fun e l hl hp => ?_, fun e l hl hp => ?_, fun h => (hstages.dropped h).2, hstages.engine, ?_, fun hno => ?_,
    fun j hr hj => ?_, fun hfree hno => ?_, ?_⟩
  · rw [State.watchAt, hvwatches]
    exact portCleared_watchAt s p t n
  · obtain ⟨hkeep, hfrees, hnone⟩ := hstages.lease e
    have hf : ∀ h, ¬ ResetFrees s p e h := fun h hf => hfrees ⟨h, hf⟩ l hl hp
    have hne : (s.lease e).lease ≠ none := fun hn => hnone hn l hl hp
    obtain ⟨hlease, hbuffer⟩ := hkeep ⟨hf, hne⟩
    rw [hlease] at hl
    refine ⟨?_, hlease, hbuffer, ?_⟩
    · cases hphase : l.phase with
      | held => exact absurd ⟨l, hl, rfl, hp, .inl hphase⟩ (hf l.handle)
      | committing => rfl
    · rw [← Bool.not_eq_true]
      exact fun hany => hf l.handle ⟨l, hl, rfl, hp, .inr hany⟩
  · refine (hstages.lease e).1 ⟨fun h hf => ?_, by rw [hl]; nofun⟩
    obtain ⟨l', hl', -, hp', -⟩ := hf
    cases hl.symm.trans hl'
    exact hp hp'
  · refine hstages.queue fun g hg hdir => ?_
    obtain ⟨j, hj, hr, rfl⟩ | ⟨hno, rfl, -⟩ := hcase
    · have hwq : (undoTaking j (removeUnstarted Job.isDirectory u)).queue = dropUnstarted Job.isDirectory u.queue := by
        rw [undoTaking_frame]
        rfl
      rw [hwq, hg, dropUnstarted_append _ hdir, dropUnstarted_removes (hconfig.mp hr).1 (by rw [← hslot, hj]; rfl)]
    · rw [hg, dropUnstarted_removes_keep]
      rw [hslot, hconfig] at hno
      exact hno
  · obtain ⟨j, hj, hr, -⟩ | ⟨-, hwu, -⟩ := hcase
    · obtain hno | hno := hno
      · exact absurd (hconfig.mp hr) hno
      · rw [hslot, hno] at hj
        cases hj
    · rw [hvslot, hvmap, hwu, hslot, hmap]
      refine ⟨rfl, rfl, fun h => ?_⟩
      rw [(hflags h).1, (hflags h).2, hwu]
      exact huflags h
  · obtain ⟨j', hj', -, hwu⟩ | ⟨hno, -⟩ := hcase
    · obtain rfl : j = j' := by
        rw [hslot, hj] at hj'
        exact Option.some.inj hj'
      refine takingUndone_of ?_ (fun h => ?_) ?_
      · rw [hvslot, hwu, undoTaking_frame]
      · rw [(hflags h).1, (hflags h).2, hwu, undoTaking_record]
        have hrec : (removeUnstarted Job.isDirectory u).record h = u.record h := rfl
        simp only [undoneRecord, hrec, (huflags h).1, (huflags h).2, and_self]
      · rw [hvmap, hwu, undoTaking_pageMap, ← hmap] <;> rfl
    · rw [hslot, hconfig] at hno
      obtain hno | hno := hno
      · exact absurd hr hno
      · rw [hno] at hj
        cases hj
  · have hkeep : u = portCleared s p t := by
      rw [← hu]
      refine resetEntries_keeps fun e h hf => ?_
      obtain ⟨l, hl, -, hp, -⟩ := hf
      exact hfree e l hl hp
    obtain ⟨j, hj, hr, -⟩ | ⟨-, -, hvu⟩ := hcase
    · obtain hno | hno := hno
      · exact absurd (hconfig.mp hr) hno
      · rw [hslot, hno] at hj
        cases hj
    · have hvc : v = portCleared s p t := hvu.trans hkeep
      rw [hvc]
      refine ⟨fun q hq => portCleared_port_ne hq t, portCleared_record s p t, ?_⟩
      rw [← portCleared_allocQueue s p t]
      rfl
  · rw [← hvslot, ← hvmap, ← hvwatches] at hvframe'
    exact hvframe'

end Sys2Proof.Machine

/-! PROOF. The end of a job in CLEARING (09, R166; 03, R69; 05, R90 to R92, R97): it is the same as outside CLEARING, and the
drained report follows when it leaves the commit queue empty. -/

namespace Sys2Proof.Machine

open Sys2Proof.Safety
set_option deprecated.oldSectionVars true

/-! ### What the end of a job does not read -/

/-- `s` with another clear slot. -/
abbrev withClear (k : Option ClearSlot) (s : State) : State := dressed id id (fun _ => k) s

section

variable (k : Option ClearSlot)

theorem complete_withClear (tk : Ticket) (_ : True) (code : Status) (body : List Byte) (s : State) :
    complete tk code body (withClear k s) = withClear k (complete tk code body s) := complete_otherWatches _ _ tk code body s

theorem completeIf_withClear (tk : Option Ticket) (code : Status) (body : List Byte) (s : State) :
    completeIf tk code body (withClear k s) = withClear k (completeIf tk code body s) := by
  cases tk with
  | none => rfl
  | some tk => exact complete_withClear k tk trivial code body s

theorem grantOnward_withClear (e : EntryNo) (h : Handle) (s : State) :
    grantOnward e h (withClear k s) = withClear k (grantOnward e h s) :=
  grantOnward_dressed (Q := fun _ => True) (complete_withClear k) e h s fun _ _ _ => trivial

theorem endLease_withClear (e : EntryNo) (l : Lease) (answer : Status × List Byte) (s : State) :
    endLease e l answer (withClear k s) = withClear k (endLease e l answer s) := by
  rw [endLease_eq, endLease_eq, ← grantOnward_withClear, ← completeIf_withClear]
  rfl

theorem evaluateWatch_withClear (c : CommitReport) (s : State) (n : WatchNo) :
    evaluateWatch c (withClear k s) n = withClear k (evaluateWatch c s n) := by
  rw [evaluateWatch, evaluateWatch]
  show (match s.watchAt n with | none => _ | some w => _) = _
  cases s.watchAt n with
  | none => rfl
  | some w =>
    simp only
    cases watchNotice c n w <;> rfl

theorem evaluateWatches_withClear (c : CommitReport) (s : State) :
    evaluateWatches c (withClear k s) = withClear k (evaluateWatches c s) := by
  rw [evaluateWatches, evaluateWatches]
  generalize allWatches = l
  induction l generalizing s with
  | nil => rfl
  | cons n l ih => rw [List.foldl_cons, List.foldl_cons, evaluateWatch_withClear, ih]

theorem recordCommitPoint_withClear (e : EntryNo) (h : Handle) (c : Copy) (gen : Word32) (s : State) :
    recordCommitPoint e h c gen (withClear k s) = withClear k (recordCommitPoint e h c gen s) := by
  cases hl : (s.lease e).lease with
  | none =>
    have hl' : ((withClear k s).lease e).lease = none := hl
    simp only [recordCommitPoint, hl, hl']
    rfl
  | some l =>
    rw [recordCommitPoint_leased (s := withClear k s) hl, recordCommitPoint_leased hl, ← endLease_withClear,
      ← evaluateWatches_withClear]
    rfl

theorem answerAll_withClear (code : Status) (ws : List Waiter) (s : State) :
    answerAll code ws (withClear k s) = withClear k (answerAll code ws s) := by
  rw [answerAll, answerAll]
  induction ws generalizing s with
  | nil => rfl
  | cons w ws ih => rw [List.foldl_cons, List.foldl_cons, complete_withClear k _ trivial, ih]

theorem postIf_withClear (c : Bool) (p : Port) (n : Notice) (s : State) :
    postIf c p n (withClear k s) = withClear k (postIf c p n s) := by
  cases c <;> rfl

theorem retireWatches_withClear (h : Handle) (s : State) :
    retireWatches h (withClear k s) = withClear k (retireWatches h s) := by
  rw [retireWatches, retireWatches, ← postIf_withClear, ← postIf_withClear, ← postIf_withClear]
  rfl

theorem leaveAllocIfEmpty_withClear (h : Handle) (s : State) :
    leaveAllocIfEmpty h (withClear k s) = withClear k (leaveAllocIfEmpty h s) := by
  rw [leaveAllocIfEmpty, leaveAllocIfEmpty]
  show (if (s.record h).waiters = [] then _ else _) = _
  split <;> rfl

theorem dirCommitPoint_withClear (c : Copy) (gen : Word32) (s : State) :
    dirCommitPoint c gen (withClear k s) = withClear k (dirCommitPoint c gen s) := by
  cases hj : s.dirSlot with
  | none =>
    have hj' : (withClear k s).dirSlot = none := hj
    simp only [dirCommitPoint, hj, hj']
    rfl
  | some j =>
    have hj' : (withClear k s).dirSlot = some j := hj
    simp only [dirCommitPoint, hj, hj']
    cases j.op with
    | define x =>
      simp only [defineCommitted]
      rw [← complete_withClear k _ trivial]
      rfl
    | retire =>
      simp only [retireCommitted]
      rw [← complete_withClear k _ trivial, ← retireWatches_withClear]
      rfl
    | setRights r =>
      simp only [setRightsCommitted]
      rw [← complete_withClear k _ trivial, ← answerAll_withClear, ← leaveAllocIfEmpty_withClear]
      rfl
    | freeze =>
      simp only [freezeCommitted]
      rw [← complete_withClear k _ trivial, ← answerAll_withClear]
      rfl

theorem postFault_withClear (j : Job) (failing : Nat) (s : State) :
    postFault j failing (withClear k s) = withClear k (postFault j failing s) := by
  rw [postFault, postFault]
  show (match s.configPort with | some p => _ | none => _) = _
  cases s.configPort <;> rfl

theorem recordFault_withClear (e : EntryNo) (s : State) : recordFault e (withClear k s) = withClear k (recordFault e s) := by
  cases hl : (s.lease e).lease with
  | none =>
    have hl' : ((withClear k s).lease e).lease = none := hl
    simp only [recordFault, hl, hl']
  | some l => rw [recordFault_leased (s := withClear k s) hl, recordFault_leased hl, endLease_withClear]

theorem dirFault_withClear (s : State) : dirFault (withClear k s) = withClear k (dirFault s) := by
  cases hj : s.dirSlot with
  | none =>
    have hj' : (withClear k s).dirSlot = none := hj
    simp only [dirFault, hj, hj']
  | some j =>
    have hj' : (withClear k s).dirSlot = some j := hj
    simp only [dirFault, hj, hj']
    rw [undoTaking_dressed, freezeReturn_dressed (Q := fun _ => True) (complete_withClear k) j _ fun _ _ _ => trivial,
      complete_withClear k _ trivial]

end

/-- What the end of a job changes before the next one starts: at its commit point, and when it has failed. -/
def jobCommitted (j : Job) (s : State) : State :=
  match j with
  | .record e h target _ _ gen => recordCommitPoint e h target gen s
  | .directory _ target gen => dirCommitPoint target gen s

def jobFailed (j : Job) (failing : Nat) (s : State) : State :=
  match j with
  | .record e h _ _ _ _ => recordFault e (postFault j failing (raiseFaultCount h s))
  | .directory .. => dirFault (postFault j failing s)

theorem commitPoint_eq (j : Job) (s : State) : commitPoint j s = reportDrained (startNext (jobCommitted j s)) := by
  cases j <;> rfl

theorem jobFault_eq (j : Job) (failing : Nat) (s : State) :
    jobFault j failing s = reportDrained (startNext (jobFailed j failing s)) := by
  cases j <;> rfl

theorem jobCommitted_withClear (k : Option ClearSlot) (j : Job) (s : State) :
    jobCommitted j (withClear k s) = withClear k (jobCommitted j s) := by
  cases j with
  | record e h c first pages gen => exact recordCommitPoint_withClear k e h c gen s
  | directory _ c gen => exact dirCommitPoint_withClear k c gen s

theorem jobFailed_withClear (k : Option ClearSlot) (j : Job) (failing : Nat) (s : State) :
    jobFailed j failing (withClear k s) = withClear k (jobFailed j failing s) := by
  cases j with
  | record e h c first pages gen =>
    simp only [jobFailed]
    rw [← recordFault_withClear, ← postFault_withClear]
    rfl
  | directory d c gen =>
    simp only [jobFailed]
    rw [← dirFault_withClear, ← postFault_withClear]

/-- An effect that does not read the clear slot leaves it. -/
theorem clear_of_withClear {f : State → State} (hf : ∀ k s, f (withClear k s) = withClear k (f s)) (s : State) :
    (f s).clear = s.clear := by
  have h : (f (withClear s.clear s)).clear = s.clear := by
    rw [hf]
    rfl
  exact h

/-- The drained report at the end of a job in CLEARING, against the same end outside CLEARING. -/
theorem drained_of_end {f : State → State} (hf : ∀ k s, f (withClear k s) = withClear k (f s)) {s t : State} {tk : Ticket}
    (hclear : s.clear = some ⟨tk, .draining⟩) (ht : reportDrained (startNext (f (withClear none s))) = t)
    (hqueue : t.queue = []) :
    reportDrained (startNext (f s)) =
      { t with
        clear := some ⟨tk, .erasing⟩, watches := Vector.replicate 16 none
        records := Vector.replicate 48 RecState.blank, dirGen := 0#32, pageMap := some [] } := by
  have hc : (f s).clear = some ⟨tk, .draining⟩ := (clear_of_withClear hf s).trans hclear
  rw [hf, jobEnd_eq (s := withClear none (f s)) rfl] at ht
  subst ht
  have hq : (f s).queue = [] := hqueue
  rw [startNext_eq]
  simp only [reportDrained, hc, hq, if_true, drained]
  rw [show (withClear none (f s)).queue = [] from hq]
  rfl

/-! ### The two commands that end a job -/

theorem pageMatch_in_clearing {s t : State} {tk : Ticket} (hclear : s.clear = some ⟨tk, .draining⟩) (hne : s.queue ≠ [])
    (ht : exec .pageMatch { s with clear := none } = .next t) (hqueue : t.queue = []) :
    exec .pageMatch s = .next
      { t with
        clear := some ⟨tk, .erasing⟩, watches := Vector.replicate 16 none
        records := Vector.replicate 48 RecState.blank, dirGen := 0#32, pageMap := some [] } := by
  cases hq : s.queue with
  | nil => exact absurd hq hne
  | cons j rest =>
    have hkeep : ∀ x, s.engine = x → (∀ pos retry, x ≠ .programming pos retry) → False := fun x hx hno => by
      have hsame : exec .pageMatch { s with clear := none } = .next { s with clear := none } := by
        show execPageMatch { s with clear := none } = _
        cases x with
        | programming pos retry => exact absurd rfl (hno pos retry)
        | idle => simp only [execPageMatch, hx]
        | erasing a b => simp only [execPageMatch, hx]
      rw [hsame] at ht
      cases ht
      exact hne hqueue
    cases he : s.engine with
    | idle => exact (hkeep _ he nofun).elim
    | erasing a b => exact (hkeep _ he nofun).elim
    | programming pos retry =>
      by_cases hpage : j.pageAt pos < 2048
      · by_cases hpos : pos < j.pages
        · rw [exec_pageMatch_next (s := { s with clear := none }) he hq hpage hpos] at ht
          cases ht
          exact absurd hqueue hne
        · rw [exec_pageMatch_last (s := { s with clear := none }) he hq hpage (Nat.not_lt.mp hpos)] at ht
          rw [exec_pageMatch_last he hq hpage (Nat.not_lt.mp hpos), commitPoint_eq]
          cases ht
          rw [commitPoint_eq] at hqueue ⊢
          exact congrArg Host.Outcome.next (drained_of_end (s := { s with
            store := Memory.writePage s.store (j.pageAt pos) (s.jobPage j pos), queue := rest })
            (fun k s => jobCommitted_withClear k j s) hclear rfl hqueue)
      · have hfault : exec .pageMatch { s with clear := none } = .fault (.noSuchPage (j.pageAt pos)) := by
          show execPageMatch { s with clear := none } = _
          simp only [execPageMatch, he, hq, if_neg hpage]
        rw [hfault] at ht
        cases ht

theorem eraseEnd_in_clearing {s t : State} {tk : Ticket} (hclear : s.clear = some ⟨tk, .draining⟩) (hne : s.queue ≠ [])
    (ht : exec .eraseEnd { s with clear := none } = .next t) (hqueue : t.queue = []) :
    exec .eraseEnd s = .next
      { t with
        clear := some ⟨tk, .erasing⟩, watches := Vector.replicate 16 none
        records := Vector.replicate 48 RecState.blank, dirGen := 0#32, pageMap := some [] } := by
  cases hq : s.queue with
  | nil => exact absurd hq hne
  | cons j rest =>
    have hkeep : ∀ x, s.engine = x → (∀ pos failing, x ≠ .erasing pos failing) → False := fun x hx hno => by
      have hsame : exec .eraseEnd { s with clear := none } = .next { s with clear := none } := by
        show execEraseEnd { s with clear := none } = _
        cases x with
        | programming a b => simp only [execEraseEnd, hx]
        | idle => simp only [execEraseEnd, hx]
        | erasing pos failing => exact absurd rfl (hno pos failing)
      rw [hsame] at ht
      cases ht
      exact hne hqueue
    cases he : s.engine with
    | idle => exact (hkeep _ he nofun).elim
    | programming a b => exact (hkeep _ he nofun).elim
    | erasing pos failing =>
      by_cases hpage : j.headerPage < 2048
      · rw [exec_eraseEnd_eq (s := { s with clear := none }) he hq hpage] at ht
        rw [exec_eraseEnd_eq he hq hpage, jobFault_eq]
        cases ht
        rw [jobFault_eq] at hqueue ⊢
        exact congrArg Host.Outcome.next (drained_of_end (s := { s with
          store := Memory.erasePage s.store j.headerPage, queue := rest })
          (fun k s => jobFailed_withClear k j failing s) hclear rfl hqueue)
      · have hfault : exec .eraseEnd { s with clear := none } = .fault (.noSuchPage j.headerPage) := by
          show execEraseEnd { s with clear := none } = _
          simp only [execEraseEnd, he, hq, if_neg hpage]
        rw [hfault] at ht
        cases ht

/-! ### The last record job -/

theorem drained_eq {s : State} {tk : Ticket} (hclear : s.clear = some ⟨tk, .draining⟩) (hqueue : s.queue = []) :
    reportDrained (startNext s) = { s with
      engine := .idle, clear := some ⟨tk, .erasing⟩, watches := Vector.replicate 16 none
      records := Vector.replicate 48 RecState.blank, dirGen := 0#32, pageMap := some [] } := by
  rw [startNext_eq]
  simp only [reportDrained, hclear, hqueue, if_true, drained]

/-- A lease that ends with nothing waiting: its answer tag is answered and the entry stays FREE. -/
theorem grantOnward_answered {s : State} {e : EntryNo} {l : Lease} {q : Port} {u : Tag} {serial : Nat} {kind : Byte}
    {body : List Byte} (hans : l.answer = some ⟨q, u, serial⟩) (hw : NoneWaits s l.handle)
    (hslot : (s.port q).slots.get u = .pending serial kind body) (code : Status) (b : List Byte) :
    grantOnward e l.handle (completeIf l.answer code b (freed s e)) = completed (freed s e) q u code b := by
  rw [hans]
  show grantOnward e l.handle (complete ⟨q, u, serial⟩ code b (freed s e)) = _
  rw [complete_eq_completed (s := freed s e) hslot]
  exact grantOnward_none e hw.1 hw.2

/-- The port that a completion leaves. -/
theorem completed_port_eq (s : State) (q r : Port) (u : Tag) (code : Status) (body : List Byte) :
    (completed s q u code body).port r =
      if r = q then
        { s.port r with
          slots := (s.port r).slots.set u.val (.done ⟨code, body⟩) u.isLt
          fifo := (s.port r).fifo ++ [u] }
      else s.port r := by
  rw [completed, State.setPort_port]
  by_cases hr : q = r
  · rw [if_pos hr, if_pos hr.symm, hr]
  · rw [if_neg hr, if_neg (Ne.symm hr)]

theorem setRecord_waiters {s : State} {h : Handle} {x : RecState} (hx : x.waiters = (s.record h).waiters) :
    ((s.setRecord h x).record h).waiters = (s.record h).waiters := by rw [State.setRecord_record_same, hx]

/-- Settles O38. -/
theorem jobEndInClearingReportsDrained : Obligations.JobEndInClearingReportsDrained := by
  unfold Obligations.JobEndInClearingReportsDrained
  constructor
  · rintro c s t tk (rfl | rfl) hclear hne ht hqueue
    · exact pageMatch_in_clearing hclear hne ht hqueue
    · exact eraseEnd_in_clearing hclear hne ht hqueue
  · intro s tk e l h x c first pages gen q u serial kind body hclear hq hfirst hx hl hh hans hw hslot
    subst hh
    obtain ⟨hqueue, hwaiters⟩ := hw
    constructor
    · intro retry he hp hout
      obtain ⟨-, hat⟩ := recordJob_pageAt_last e l.handle c first pages gen
      rw [exec_pageMatch_last he hq (by rw [hat]; exact hfirst) (Nat.le_refl pages), hat]
      have hdata := committedData_writePage hx (s.jobPage (.record e l.handle c first pages gen) pages) [] hout
      generalize Memory.writePage s.store first _ = m at hdata ⊢
      obtain ⟨P, hP, hcommit⟩ := recordCommitPoint_freed (s := { s with store := m, queue := [] }) hl c gen
      have hentry : State.entryOf { s with store := m, queue := [] } l.handle = x := State.entryOf_eq (s := s) hx
      rw [hdata, hentry] at hP
      have hPslot : (P.get q).slots.get u = .pending serial kind body := by
        rw [hP q, (posted_slots _ _).1]
        exact hslot
      have hwait : NoneWaits { State.setRecord { s with store := m, queue := [] } l.handle
          { s.record l.handle with active := some c, gen := gen } with ports := P } l.handle :=
        ⟨hqueue, (setRecord_waiters (s := s)
          (x := { s.record l.handle with active := some c, gen := gen }) rfl).trans hwaiters⟩
      replace hcommit := hcommit.trans (grantOnward_answered hans hwait hPslot _ _)
      rw [commitPoint_eq]
      show ∃ t, Host.Outcome.next (reportDrained (startNext (recordCommitPoint e l.handle c gen _))) = _ ∧ _
      rw [hcommit]
      refine ⟨_, congrArg Host.Outcome.next (drained_eq hclear rfl), rfl, fun r => ?_⟩
      refine (completed_port_eq _ q r u _ _).trans ?_
      show (if r = q then ({ P.get r with
        slots := (P.get r).slots.set u.val (.done ⟨(commitAnswer l (s.buffer e) gen).1, (commitAnswer l (s.buffer e) gen).2⟩)
          u.isLt
        fifo := (P.get r).fifo ++ [u] } : PortState) else P.get r) = _
      rw [commitAnswer_response, hP r]
      rfl
    · intro pos failing he
      rw [exec_eraseEnd_eq he hq hfirst]
      generalize Memory.erasePage s.store _ = m
      obtain ⟨P, hP, hfault⟩ := recordFault_freed (s := { s with store := m, queue := [] }) hl c first pages failing gen
      have hPslot : (P.get q).slots.get u = .pending serial kind body := by
        rw [hP q]
        split
        · rw [(posted_slots _ _).1]
          exact hslot
        · exact hslot
      have hwait : NoneWaits { raiseFaultCount l.handle { s with store := m, queue := [] } with ports := P } l.handle :=
        ⟨hqueue, (setRecord_waiters (s := s)
          (x := { s.record l.handle with faultCount := satInc (s.record l.handle).faultCount }) rfl).trans hwaiters⟩
      rw [grantOnward_answered hans hwait hPslot] at hfault
      rw [jobFault_eq]
      show ∃ t, Host.Outcome.next (reportDrained (startNext (recordFault e (postFault _ failing
        (raiseFaultCount l.handle _))))) = _ ∧ _
      rw [hfault, drained_eq (s := completed
        (freed { raiseFaultCount l.handle { s with store := m, queue := [] } with ports := P } e) q u .storeFault []) hclear rfl]
      refine ⟨_, rfl, rfl, fun r => ?_⟩
      refine (completed_port_eq _ q r u _ _).trans ?_
      show (if r = q then ({ P.get r with
        slots := (P.get r).slots.set u.val (.done ⟨.storeFault, []⟩) u.isLt
        fifo := (P.get r).fifo ++ [u] } : PortState) else P.get r) = _
      rw [hP r]
      rfl

end Sys2Proof.Machine

/-! PROOF. FACTORY-CLEAR (09, R165, R166; 03, R69; 05, R97): what each stage of the taking leaves of the ports and tables. -/

namespace Sys2Proof.Machine

open Sys2Proof.Safety
set_option deprecated.oldSectionVars true

/-! ### Answers in a row -/

section

variable {s t : State}

theorem answeredAll_append (s : State) (code : Status) (tks uks : List Ticket) :
    answeredAll s code (tks ++ uks) = answeredAll (answeredAll s code tks) code uks := by
  rw [answeredAll, answeredAll, answeredAll, List.foldl_append]

/-- An answer changes of a port the slots and the completion FIFO alone. -/
theorem answeredIf_port (s : State) (tk : Ticket) (code : Status) (body : List Byte) (q : Port) :
    (answeredIf s tk code body).port q =
      { s.port q with
        slots := ((answeredIf s tk code body).port q).slots, fifo := ((answeredIf s tk code body).port q).fifo } := by
  rw [← complete_eq_answeredIf]
  obtain ⟨kind, b, -, hs⟩ | ⟨-, hs⟩ := complete_cases tk code body s
  · rw [hs, State.setPort_port]
    split
    · next hq => rw [hq]
    · rfl
  · rw [hs]

theorem answeredAll_port (s : State) (code : Status) (tks : List Ticket) (q : Port) :
    (answeredAll s code tks).port q =
      { s.port q with
        slots := ((answeredAll s code tks).port q).slots, fifo := ((answeredAll s code tks).port q).fifo } := by
  induction tks generalizing s with
  | nil => rfl
  | cons tk rest ih =>
    show (answeredAll (answeredIf s tk code []) code rest).port q = _
    rw [ih, answeredIf_port]
    rfl

/-- The request of a ticket does not hold its slot, so that an answer to it is dropped (07, R128). -/
def Settled (s : State) (tk : Ticket) : Prop := ∀ code, answeredIf s tk code [] = s

theorem settled_iff {tk : Ticket} :
    Settled s tk ↔ ∀ kind body, (s.port tk.port).slots.get tk.tag ≠ .pending tk.serial kind body := by
  constructor
  · intro hs kind body hslot
    have hdone := answeredIf_done hslot .cleared []
    rw [hs .cleared, hslot] at hdone
    cases hdone
  · intro hs code
    rw [← complete_eq_answeredIf]
    obtain ⟨kind, b, hslot, -⟩ | ⟨-, hs'⟩ := complete_cases tk code [] s
    · exact absurd hslot (hs kind b)
    · exact hs'

theorem settled_answered (s : State) (tk : Ticket) (code : Status) (body : List Byte) :
    Settled (answeredIf s tk code body) tk := by
  rw [settled_iff]
  intro kind b
  rw [← complete_eq_answeredIf]
  obtain ⟨k, c, -, hs⟩ | ⟨hs, hs'⟩ := complete_cases tk code body s
  · rw [hs, State.setPort_port, if_pos rfl, vector_get_set, if_pos rfl]
    exact nofun
  · rw [hs']
    exact hs kind b

theorem Settled.after_answer {tk : Ticket} (hs : Settled s tk) (uk : Ticket) (code : Status) (body : List Byte) :
    Settled (answeredIf s uk code body) tk := by
  rw [settled_iff] at hs ⊢
  intro kind b
  rw [← complete_eq_answeredIf]
  obtain ⟨k, c, -, hs'⟩ | ⟨-, hs'⟩ := complete_cases uk code body s
  · rw [hs', State.setPort_port]
    split
    · next hp =>
      rw [vector_get_set]
      split
      · exact nofun
      · rw [hp]; exact hs kind b
    · exact hs kind b
  · rw [hs']; exact hs kind b

/-- Tickets that are settled can be left out of a row of answers. -/
theorem answeredAll_without_settled {α : Type} {f g : α → Option Ticket} (l : List α) (code : Status)
    (h : ∀ j, g j = f j ∨ (g j = none ∧ ∀ tk, f j = some tk → Settled s tk)) :
    answeredAll s code (l.filterMap g) = answeredAll s code (l.filterMap f) := by
  induction l generalizing s with
  | nil => rfl
  | cons j rest ih =>
    obtain hj | ⟨hg, hf⟩ := h j
    · cases hfj : f j with
      | none => rw [List.filterMap_cons_none (hj.trans hfj), List.filterMap_cons_none hfj]; exact ih h
      | some tk =>
        rw [List.filterMap_cons_some (hj.trans hfj), List.filterMap_cons_some hfj]
        exact ih fun i => (h i).imp id fun ⟨hi, hset⟩ => ⟨hi, fun k hk => (hset k hk).after_answer tk code []⟩
    · rw [List.filterMap_cons_none hg]
      cases hfj : f j with
      | none => rw [List.filterMap_cons_none hfj]; exact ih h
      | some tk =>
        rw [List.filterMap_cons_some hfj]
        show _ = answeredAll (answeredIf s tk code []) code _
        rw [hf tk hfj code]
        exact ih h

end

/-! ### The waiters -/

/-- The requests that wait for a record, from the head. -/
def waiterTickets (s : State) (h : Handle) : List Ticket := (s.record h).waiters.map fun w => w.ticket

theorem clearWaiters_answered (s : State) (h : Handle) :
    clearWaiters s h = answeredAll (s.setWaiters h []) .cleared (waiterTickets s h) :=
  answerAll_eq_answeredAll .cleared _ _

theorem clearWaiters_record (s : State) (h k : Handle) :
    (clearWaiters s h).record k = if k = h then { s.record k with waiters := [] } else s.record k := by
  rw [clearWaiters_answered, answeredAll_record, State.setWaiters_record]
  by_cases hk : h = k
  · rw [if_pos hk, if_pos hk.symm, hk]
  · rw [if_neg hk, if_neg (Ne.symm hk)]

theorem clearWaiters_fold_record (hs : List Handle) (s : State) (k : Handle) :
    (hs.foldl clearWaiters s).record k =
      { s.record k with waiters := if k ∈ hs then [] else (s.record k).waiters } := by
  induction hs generalizing s with
  | nil => rw [if_neg List.not_mem_nil]; rfl
  | cons h rest ih =>
    rw [List.foldl_cons, ih, clearWaiters_record]
    by_cases hk : k = h
    · subst hk
      rw [if_pos rfl, if_pos List.mem_cons_self]
      simp only [ite_self]
    · rw [if_neg hk]
      simp only [List.mem_cons, hk, false_or]

theorem clearWaiters_fold_frame (hs : List Handle) (s : State) :
    hs.foldl clearWaiters s =
      { s with ports := (hs.foldl clearWaiters s).ports, records := (hs.foldl clearWaiters s).records } := by
  induction hs generalizing s with
  | nil => rfl
  | cons h rest ih =>
    rw [List.foldl_cons, ih, clearWaiters_answered, answeredAll_frame]
    rfl

theorem clearWaiters_fold_ports {hs : List Handle} (hnd : hs.Nodup) (s : State) :
    (hs.foldl clearWaiters s).ports = (answeredAll s .cleared (hs.flatMap (waiterTickets s))).ports := by
  induction hs generalizing s with
  | nil => rfl
  | cons h rest ih =>
    obtain ⟨hnot, hrest⟩ := List.nodup_cons.1 hnd
    have hports : (clearWaiters s h).ports = (answeredAll s .cleared (waiterTickets s h)).ports := by
      rw [clearWaiters_answered]
      exact answeredAll_ports (s := s) (t := s.setWaiters h []) rfl _ _
    have hsame : rest.flatMap (waiterTickets (clearWaiters s h)) = rest.flatMap (waiterTickets s) :=
      List.flatMap_congr fun k hk => by
        rw [waiterTickets, clearWaiters_record, if_neg fun heq : k = h => hnot (heq ▸ hk)]
        rfl
    rw [List.foldl_cons, ih hrest, List.flatMap_cons, answeredAll_append, hsame]
    exact answeredAll_ports hports _ _

/-- Every wait queue is emptied, its requests answered CLEARED (03, R69 step 1). -/
theorem clearAllWaiters_spec (s : State) :
    clearAllWaiters s = { s with
        ports := (answeredAll s .cleared (allHandles.flatMap (waiterTickets s))).ports
        records := (clearAllWaiters s).records, allocQueue := [] }
      ∧ ∀ k, (clearAllWaiters s).record k = { s.record k with waiters := [] } := by
  constructor
  · rw [← clearWaiters_fold_ports (hs := allHandles) (List.nodup_finRange 48), clearAllWaiters]
    generalize allHandles = hs
    exact congrArg (fun t : State => { t with allocQueue := [] }) (clearWaiters_fold_frame hs s)
  · intro k
    have hmem : k ∈ allHandles := List.mem_finRange k
    rw [clearAllWaiters]
    generalize allHandles = hs at hmem ⊢
    refine (clearWaiters_fold_record hs s k).trans ?_
    rw [if_pos hmem]

/-! ### The HELD leases -/

/-- The LEASE_REVOKED notice of an entry to port `q`. -/
def revocationTo (s : State) (q : Port) (e : EntryNo) : Option Notice :=
  match (s.lease e).lease with
  | none => none
  | some l => if l.phase = .held ∧ l.holder = q then some (.leaseRevoked (tokenOf e (s.lease e)) l.handle) else none

theorem revocations_eq (s : State) (q : Port) : revocations s q = allEntries.filterMap (revocationTo s q) := rfl

theorem revokeEntry_port (s : State) (e : EntryNo) (q : Port) :
    (revokeEntry s e).port q = posted (s.port q) (revocationTo s q e).toList := by
  rw [revokeEntry, revocationTo]
  cases (s.lease e).lease with
  | none => rfl
  | some l =>
    obtain ⟨phase, handle, holder⟩ := l
    cases phase with
    | committing => rfl
    | held =>
      simp only [postNotice_port]
      by_cases hq : holder = q
      · rw [if_pos hq, if_pos ⟨trivial, hq⟩, hq]
        exact (posted_singleton _ _).symm
      · rw [if_neg hq, if_neg fun h => hq h.2]
        rfl

theorem revocationTo_congr {s t : State} {e : EntryNo} (h : t.lease e = s.lease e) (q : Port) :
    revocationTo t q e = revocationTo s q e := by
  rw [revocationTo, revocationTo, h]

theorem revokeEntry_lease_ne {s : State} {e d : EntryNo} (h : d ≠ e) : (revokeEntry s e).lease d = s.lease d := by
  rw [revokeEntry_lease, if_neg fun hd => h hd.1]

theorem revokeEntries_port {es : List EntryNo} (hnd : es.Nodup) (s : State) (q : Port) :
    (es.foldl revokeEntry s).port q = posted (s.port q) (es.filterMap (revocationTo s q)) := by
  induction es generalizing s with
  | nil => rfl
  | cons e rest ih =>
    obtain ⟨hnot, hrest⟩ := List.nodup_cons.1 hnd
    have hsame : ∀ d ∈ rest, revocationTo (revokeEntry s e) q d = revocationTo s q d := fun d hd =>
      revocationTo_congr (revokeEntry_lease_ne fun heq : d = e => hnot (heq ▸ hd)) q
    rw [List.foldl_cons, ih hrest, revokeEntry_port, ← posted_append, List.filterMap_congr hsame]
    cases hn : revocationTo s q e with
    | none => rw [List.filterMap_cons_none hn]; rfl
    | some n => rw [List.filterMap_cons_some hn]; rfl

theorem revokeEntry_frame (s : State) (e : EntryNo) :
    revokeEntry s e = { s with
      ports := (revokeEntry s e).ports, leases := (revokeEntry s e).leases, buffers := (revokeEntry s e).buffers } := by
  rw [revokeEntry_eq]
  split <;> rfl

theorem revokeEntries_frame (es : List EntryNo) (s : State) :
    es.foldl revokeEntry s = { s with
      ports := (es.foldl revokeEntry s).ports, leases := (es.foldl revokeEntry s).leases
      buffers := (es.foldl revokeEntry s).buffers } := by
  induction es generalizing s with
  | nil => rfl
  | cons e rest ih => rw [List.foldl_cons, ih, revokeEntry_frame]

theorem revokeEntry_buffer (s : State) (e d : EntryNo) :
    (revokeEntry s e).buffer d = if d = e ∧ isHeld (s.lease e) = true then Buffer.empty else s.buffer d := by
  rw [revokeEntry_eq]
  by_cases hheld : isHeld (s.lease e) = true
  · rw [if_pos hheld]
    show (State.setBuffer _ e Buffer.empty).buffer d = _
    rw [State.setBuffer_buffer]
    by_cases hd : e = d
    · rw [if_pos hd, if_pos ⟨hd.symm, hheld⟩]
    · rw [if_neg hd, if_neg fun h => hd h.1.symm]
      rfl
  · rw [if_neg hheld, if_neg fun h => hheld h.2]

theorem revokeEntries_buffer {es : List EntryNo} (hnd : es.Nodup) (s : State) (d : EntryNo) :
    (es.foldl revokeEntry s).buffer d = if d ∈ es ∧ isHeld (s.lease d) = true then Buffer.empty else s.buffer d := by
  induction es generalizing s with
  | nil => rw [if_neg fun h => List.not_mem_nil h.1]; rfl
  | cons e rest ih =>
    obtain ⟨hnot, hrest⟩ := List.nodup_cons.1 hnd
    rw [List.foldl_cons, ih hrest, revokeEntry_buffer]
    by_cases hd : d = e
    · subst hd
      rw [if_neg fun h => hnot h.1]
      simp only [true_and, List.mem_cons_self]
    · rw [revokeEntry_lease_ne hd, if_neg (c := d = e ∧ _) fun h => hd h.1]
      simp only [List.mem_cons, hd, false_or]

/-! ### The jobs that have not started -/

/-- The request that a job behind the head of the commit queue is answered by (03, R69; 01, R12). -/
def jobTicket (s : State) : Job → Option Ticket
  | .record e _ _ _ _ _ =>
    match (s.lease e).lease with
    | none => none
    | some l => if l.phase = .committing then l.answer else none
  | .directory .. => s.dirSlot.map fun d => d.ticket

theorem clearedTickets_eq (s : State) :
    clearedTickets s = allHandles.flatMap (waiterTickets s) ++ s.unstarted.filterMap (jobTicket s) := rfl

theorem clearJob_record {s : State} {e : EntryNo} {l : Lease} (hl : (s.lease e).lease = some l) (h : Handle) (c : Copy)
    (first pages : Nat) (gen : Word32) :
    clearJob s (.record e h c first pages gen) = completeIf l.answer .cleared [] (freed s e) := by
  simp only [clearJob, hl, freeLease_eq]
  rfl

theorem clearJob_record_free {s : State} {e : EntryNo} (hl : (s.lease e).lease = none) (h : Handle) (c : Copy)
    (first pages : Nat) (gen : Word32) : clearJob s (.record e h c first pages gen) = s := by
  simp only [clearJob, hl]

theorem clearJob_directory {s : State} {d : DirJob} (hd : s.dirSlot = some d) (k : DirKind) (c : Copy) (gen : Word32) :
    clearJob s (.directory k c gen) = complete d.ticket .cleared [] (undoTaking d s) := by
  simp only [clearJob, hd]

theorem clearJob_directory_empty {s : State} (hd : s.dirSlot = none) (k : DirKind) (c : Copy) (gen : Word32) :
    clearJob s (.directory k c gen) = s := by
  simp only [clearJob, hd]

theorem freed_lease (s : State) (e d : EntryNo) :
    (freed s e).lease d = if d = e then { s.lease d with lease := none } else s.lease d := by
  show (s.setLease e _).lease d = _
  rw [State.setLease_lease]
  by_cases hd : e = d
  · rw [if_pos hd, if_pos hd.symm, hd]
  · rw [if_neg hd, if_neg (Ne.symm hd)]

theorem freed_buffer (s : State) (e d : EntryNo) :
    (freed s e).buffer d = if d = e then ⟨List.replicate 240 0x00#8, false⟩ else s.buffer d := by
  show (State.setBuffer _ e _).buffer d = _
  rw [State.setBuffer_buffer]
  by_cases hd : e = d
  · rw [if_pos hd, if_pos hd.symm]
  · rw [if_neg hd, if_neg (Ne.symm hd)]
    rfl

/-- What the removal of one job leaves. -/
theorem clearJob_frame (s : State) (j : Job) :
    clearJob s j = { s with
      ports := (clearJob s j).ports, records := (clearJob s j).records, leases := (clearJob s j).leases
      buffers := (clearJob s j).buffers, dirSlot := (clearJob s j).dirSlot, pageMap := (clearJob s j).pageMap } := by
  cases j with
  | record e h c first pages gen =>
    cases hl : (s.lease e).lease with
    | none => rw [clearJob_record_free hl]
    | some l => rw [clearJob_record hl, completeIf_frame]; rfl
  | directory k c gen =>
    cases hd : s.dirSlot with
    | none => rw [clearJob_directory_empty hd]
    | some d => rw [clearJob_directory hd, complete_frame, undoTaking_frame]

theorem clearJobs_fold_frame (js : List Job) (s : State) :
    js.foldl clearJob s = { s with
      ports := (js.foldl clearJob s).ports, records := (js.foldl clearJob s).records
      leases := (js.foldl clearJob s).leases, buffers := (js.foldl clearJob s).buffers
      dirSlot := (js.foldl clearJob s).dirSlot, pageMap := (js.foldl clearJob s).pageMap } := by
  induction js generalizing s with
  | nil => rfl
  | cons j rest ih =>
    rw [List.foldl_cons, ih, clearJob_frame]

theorem clearJob_lease (s : State) (j : Job) (d : EntryNo) :
    (clearJob s j).lease d = if j.isRecordOf d = true then { s.lease d with lease := none } else s.lease d := by
  cases j with
  | record e h c first pages gen =>
    rw [show (Job.record e h c first pages gen).isRecordOf d = (e == d) from rfl]
    cases hl : (s.lease e).lease with
    | none =>
      rw [clearJob_record_free hl]
      split
      · next hd => rw [← eq_of_beq hd, ← hl]
      · rfl
    | some l =>
      rw [clearJob_record hl, completeIf_frame]
      refine (freed_lease s e d).trans ?_
      simp only [beq_iff_eq, eq_comm (a := d)]
  | directory k c gen =>
    rw [if_neg nofun]
    cases hd : s.dirSlot with
    | none => rw [clearJob_directory_empty hd]
    | some d => rw [clearJob_directory hd, complete_frame, undoTaking_frame]; rfl

theorem clearJob_buffer (s : State) (j : Job) (d : EntryNo) :
    (clearJob s j).buffer d =
      if j.isRecordOf d = true ∧ (s.lease d).lease ≠ none then ⟨List.replicate 240 0x00#8, false⟩ else s.buffer d := by
  cases j with
  | record e h c first pages gen =>
    rw [show (Job.record e h c first pages gen).isRecordOf d = (e == d) from rfl]
    cases hl : (s.lease e).lease with
    | none =>
      rw [clearJob_record_free hl, if_neg fun hd => hd.2 (eq_of_beq hd.1 ▸ hl)]
    | some l =>
      rw [clearJob_record hl, completeIf_frame]
      refine (freed_buffer s e d).trans ?_
      by_cases hd : d = e
      · subst hd
        rw [if_pos rfl, if_pos ⟨beq_self_eq_true d, by rw [hl]; exact nofun⟩]
      · rw [if_neg hd, if_neg fun h => hd (eq_of_beq h.1).symm]
  | directory k c gen =>
    rw [if_neg fun h => absurd h.1 nofun]
    cases hd : s.dirSlot with
    | none => rw [clearJob_directory_empty hd]
    | some d => rw [clearJob_directory hd, complete_frame, undoTaking_frame]; rfl

/-- The removed record jobs free their entries. -/
theorem clearJobs_fold_lease (js : List Job) (s : State) (d : EntryNo) :
    (js.foldl clearJob s).lease d = if js.any (Job.isRecordOf d) = true then { s.lease d with lease := none } else s.lease d := by
  induction js generalizing s with
  | nil => rw [if_neg nofun]; rfl
  | cons j rest ih =>
    rw [List.foldl_cons, ih, clearJob_lease, List.any_cons]
    cases j.isRecordOf d <;> simp

theorem clearJobs_fold_buffer (js : List Job) (s : State) (d : EntryNo) :
    (js.foldl clearJob s).buffer d =
      if js.any (Job.isRecordOf d) = true ∧ (s.lease d).lease ≠ none then ⟨List.replicate 240 0x00#8, false⟩
      else s.buffer d := by
  induction js generalizing s with
  | nil => rw [if_neg fun h => absurd h.1 nofun]; rfl
  | cons j rest ih =>
    rw [List.foldl_cons, ih, clearJob_buffer, clearJob_lease, List.any_cons]
    cases j.isRecordOf d <;> simp

/-- The tables of the directory that a removal can change. -/
def dirTables (s : State) : Vector RecState 48 × Option DirJob × Option (List (Nat × PageCond)) :=
  (s.records, s.dirSlot, s.pageMap)

theorem clearJob_dirTables_record {s : State} {j : Job} (hj : j.isDirectory = false ∨ s.dirSlot = none) :
    dirTables (clearJob s j) = dirTables s := by
  cases j with
  | record e h c first pages gen =>
    cases hl : (s.lease e).lease with
    | none => rw [clearJob_record_free hl]
    | some l => rw [clearJob_record hl, completeIf_frame]; rfl
  | directory k c gen =>
    obtain hno | hd := hj
    · cases hno
    · rw [clearJob_directory_empty hd]

theorem clearJobs_fold_dirTables {js : List Job} {s : State} (h : js.any Job.isDirectory = false ∨ s.dirSlot = none) :
    dirTables (js.foldl clearJob s) = dirTables s := by
  induction js generalizing s with
  | nil => rfl
  | cons j rest ih =>
    rw [List.any_cons, Bool.or_eq_false_iff] at h
    have hj := clearJob_dirTables_record (s := s) (j := j) (h.imp_left And.left)
    have hslot : (clearJob s j).dirSlot = s.dirSlot := congrArg (fun x => x.2.1) hj
    exact (ih (h.imp And.right hslot.trans)).trans hj

theorem dirTables_undoTaking {s t : State} (d : DirJob) (h : dirTables t = dirTables s) :
    dirTables (undoTaking d t) = dirTables (undoTaking d s) := by
  simp only [dirTables, Prod.mk.injEq] at h
  obtain ⟨hrec, -, hmap⟩ := h
  simp only [dirTables, undoTaking]
  cases d.op with
  | define x => simp only [State.markCopies, hrec, hmap]
  | retire => simp only [State.setRecord, State.record, hrec, hmap]
  | setRights r => simp only [hrec, hmap]
  | freeze => simp only [State.setRecord, State.record, hrec, hmap]

/-- The first directory job that is removed undoes the taking in the slot; the slot is then empty. -/
theorem clearJobs_fold_undone {js : List Job} {s : State} {d : DirJob} (h : js.any Job.isDirectory = true)
    (hd : s.dirSlot = some d) : dirTables (js.foldl clearJob s) = dirTables (undoTaking d s) := by
  induction js generalizing s with
  | nil => cases h
  | cons j rest ih =>
    cases hj : j.isDirectory with
    | false =>
      have hsame := clearJob_dirTables_record (s := s) (j := j) (.inl hj)
      rw [List.any_cons, hj, Bool.false_or] at h
      refine (ih h ((congrArg (fun x => x.2.1) hsame).trans hd)).trans ?_
      exact dirTables_undoTaking d hsame
    | true =>
      cases j with
      | record e h c first pages gen => cases hj
      | directory k c gen =>
        have hone : dirTables (clearJob s (.directory k c gen)) = dirTables (undoTaking d s) := by
          rw [clearJob_directory hd, complete_frame]
          rfl
        have hslot : (undoTaking d s).dirSlot = none := by rw [undoTaking_frame]
        have hempty : (clearJob s (.directory k c gen)).dirSlot = none := (congrArg (fun x => x.2.1) hone).trans hslot
        exact (clearJobs_fold_dirTables (.inr hempty)).trans hone

/-! ### The answers of a factory clear -/

/-- The removal of a job leaves the requests of the other jobs to be answered. -/
theorem jobTicket_after (s : State) (j i : Job) :
    jobTicket (clearJob s j) i = jobTicket s i
      ∨ (jobTicket (clearJob s j) i = none ∧ jobTicket s i = jobTicket s j) := by
  cases i with
  | record e h c first pages gen =>
    simp only [jobTicket, clearJob_lease]
    cases j with
    | record d k c' first' pages' gen' =>
      rw [show (Job.record d k c' first' pages' gen').isRecordOf e = (d == e) from rfl]
      by_cases hd : d = e
      · subst hd
        rw [if_pos (beq_self_eq_true d)]
        exact .inr ⟨rfl, rfl⟩
      · rw [if_neg fun h => hd (eq_of_beq h)]
        exact .inl rfl
    | directory k c' gen' => exact .inl rfl
  | directory k c gen =>
    simp only [jobTicket]
    cases j with
    | record d k' c' first' pages' gen' =>
      have hsame := clearJob_dirTables_record (s := s) (j := .record d k' c' first' pages' gen') (.inl rfl)
      rw [show (clearJob s _).dirSlot = s.dirSlot from congrArg (fun x => x.2.1) hsame]
      exact .inl rfl
    | directory k' c' gen' =>
      cases hd : s.dirSlot with
      | none => rw [clearJob_directory_empty hd, hd]; exact .inl rfl
      | some d =>
        rw [clearJob_directory hd, complete_frame, undoTaking_frame]
        exact .inr ⟨rfl, rfl⟩

/-- The removal of a job answers its request. -/
theorem clearJob_port {s v : State} {ns : Port → List Notice} (hphase : ∀ e l, (s.lease e).lease = some l → l.phase = .committing)
    (h : ∀ q, s.port q = posted (v.port q) (ns q)) (j : Job) (q : Port) :
    (clearJob s j).port q = posted ((completeIf (jobTicket s j) .cleared [] v).port q) (ns q) := by
  cases j with
  | record e k c first pages gen =>
    cases hl : (s.lease e).lease with
    | none =>
      rw [clearJob_record_free hl, jobTicket, hl]
      exact h q
    | some l =>
      rw [clearJob_record hl, jobTicket, hl]
      simp only [hphase e l hl, if_true]
      cases l.answer with
      | none => exact h q
      | some tk => exact complete_posted (t := freed s e) h tk .cleared [] q
  | directory k c gen =>
    cases hd : s.dirSlot with
    | none =>
      rw [clearJob_directory_empty hd, jobTicket, hd]
      exact h q
    | some d =>
      rw [clearJob_directory hd, jobTicket, hd]
      exact complete_posted (t := undoTaking d s) (by rw [undoTaking_frame]; exact h) d.ticket .cleared [] q

theorem clearJobs_fold_port {js : List Job} {s v : State} {ns : Port → List Notice}
    (hphase : ∀ e l, (s.lease e).lease = some l → l.phase = .committing)
    (h : ∀ q, s.port q = posted (v.port q) (ns q)) (q : Port) :
    (js.foldl clearJob s).port q = posted ((answeredAll v .cleared (js.filterMap (jobTicket s))).port q) (ns q) := by
  induction js generalizing s v with
  | nil => exact h q
  | cons j rest ih =>
    obtain ⟨-, -, -, hkeep⟩ := clearJob_rest s j
    rw [List.foldl_cons, ih (fun e l hl => hphase e l (hkeep e l hl)) (clearJob_port hphase h j)]
    rw [answeredAll_without_settled (f := jobTicket s) rest .cleared fun i => (jobTicket_after s j i).imp id fun ⟨hnone, hi⟩ =>
      ⟨hnone, fun tk htk => by
        rw [← hi, htk]
        exact settled_answered v tk .cleared []⟩]
    cases hj : jobTicket s j with
    | none => rw [List.filterMap_cons_none hj]; rfl
    | some tk => rw [List.filterMap_cons_some hj]; rfl

/-! ### The taking of a FACTORY-CLEAR -/

/-- `u` is `s` in CLEARING with every wait queue and every HELD lease gone, their requests and holders told so. -/
def TablesCleared (tk : Ticket) (s u : State) : Prop :=
  u = { s with
      dev := .clearing, clear := some ⟨tk, .draining⟩, ports := u.ports, records := u.records, leases := u.leases
      buffers := u.buffers, allocQueue := [] }
    ∧ (∀ k, u.record k = { s.record k with waiters := [] })
    ∧ (∀ e, u.lease e = if isHeld (s.lease e) = true then { s.lease e with lease := none } else s.lease e)
    ∧ (∀ e, u.buffer e = if isHeld (s.lease e) = true then Buffer.empty else s.buffer e)
    ∧ ∀ q, u.port q =
        posted ((answeredAll s .cleared (allHandles.flatMap (waiterTickets s))).port q) (revocations s q)

theorem tablesCleared (tk : Ticket) (s : State) :
    TablesCleared tk s
      (allEntries.foldl revokeEntry (clearAllWaiters { s with dev := .clearing, clear := some ⟨tk, .draining⟩ })) := by
  obtain ⟨hframe, hrecord⟩ := clearAllWaiters_spec { s with dev := .clearing, clear := some ⟨tk, .draining⟩ }
  have hports : (clearAllWaiters { s with dev := .clearing, clear := some ⟨tk, .draining⟩ }).ports =
      (answeredAll s .cleared (allHandles.flatMap (waiterTickets s))).ports := by
    refine (congrArg State.ports hframe).trans ?_
    exact answeredAll_ports (s := s) (t := { s with dev := .clearing, clear := some ⟨tk, .draining⟩ }) rfl _ _
  generalize clearAllWaiters _ = u at hframe hports hrecord ⊢
  have hlease : ∀ e, u.lease e = s.lease e := fun e => by rw [hframe]; rfl
  have hbuffer : ∀ e, u.buffer e = s.buffer e := fun e => by rw [hframe]; rfl
  refine ⟨?_, fun k => ?_, fun e => ?_, fun e => ?_, fun q => ?_⟩
  · rw [revokeEntries_frame, hframe]
  · rw [revokeEntries_frame]
    exact hrecord k
  · rw [revokeEntry_fold, hlease]
    simp only [show e ∈ allEntries from List.mem_finRange e, true_and]
  · rw [revokeEntries_buffer (es := allEntries) (List.nodup_finRange 6), hlease, hbuffer]
    simp only [show e ∈ allEntries from List.mem_finRange e, true_and]
  · rw [revokeEntries_port (es := allEntries) (List.nodup_finRange 6),
      List.filterMap_congr fun e _ => revocationTo_congr (hlease e) q, revocations_eq, State.port, hports]
    rfl

section

variable {s u : State} {tk : Ticket}

/-- The requests of the jobs are those that the clear finds. -/
theorem TablesCleared.jobTicket (hu : TablesCleared tk s u) (j : Job) : jobTicket u j = jobTicket s j := by
  obtain ⟨hframe, -, hlease, -, -⟩ := hu
  cases j with
  | record e h c first pages gen =>
    rw [Machine.jobTicket, Machine.jobTicket, hlease]
    obtain ⟨issue, lease⟩ := s.lease e
    obtain _ | ⟨_ | _⟩ := lease <;> rfl
  | directory k c gen => rw [Machine.jobTicket, Machine.jobTicket, hframe]

theorem TablesCleared.committing (hu : TablesCleared tk s u) (e : EntryNo) (l : Lease) (hl : (u.lease e).lease = some l) :
    l.phase = .committing := by
  obtain ⟨-, -, hlease, -, -⟩ := hu
  rw [hlease, isHeld] at hl
  split at hl
  · cases hl
  · next hno =>
    cases hp : l.phase with
    | committing => rfl
    | held => rw [hl, Option.any_some, hp] at hno; exact absurd rfl hno

theorem clearJobs_eq_fold (hu : TablesCleared tk s u) :
    clearJobs u = s.unstarted.foldl clearJob { u with queue := s.queue.take 1 } := by
  have hqueue : u.queue = s.queue := by rw [hu.1]
  rw [clearJobs, State.unstarted, State.unstarted, hqueue]

theorem clearJobs_frame (hu : TablesCleared tk s u) :
    clearJobs u = { s with
      dev := .clearing, clear := some ⟨tk, .draining⟩, ports := (clearJobs u).ports
      records := (clearJobs u).records, leases := (clearJobs u).leases
      buffers := (clearJobs u).buffers, allocQueue := [], queue := s.queue.take 1
      dirSlot := (clearJobs u).dirSlot, pageMap := (clearJobs u).pageMap } := by
  rw [clearJobs_eq_fold hu, clearJobs_fold_frame, hu.1]

theorem clearJobs_waiters (hu : TablesCleared tk s u) (k : Handle) : ((clearJobs u).record k).waiters = [] := by
  have hfold : ∀ (js : List Job) (v : State), ((js.foldl clearJob v).record k).waiters = (v.record k).waiters := by
    intro js
    induction js with
    | nil => exact fun _ => rfl
    | cons j rest ih => exact fun v => (ih _).trans ((clearJob_rest v j).1 k)
  obtain ⟨-, hrecord, -, -, -⟩ := id hu
  rw [clearJobs_eq_fold hu, hfold]
  exact congrArg RecState.waiters (hrecord k)

theorem clearJobs_port (hu : TablesCleared tk s u) (q : Port) :
    (clearJobs u).port q = posted ((answeredAll s .cleared (clearedTickets s)).port q) (revocations s q) := by
  have hticket : ∀ j ∈ s.unstarted, Machine.jobTicket { u with queue := s.queue.take 1 } j = Machine.jobTicket s j :=
    fun j _ => hu.jobTicket j
  obtain ⟨-, -, -, -, hport⟩ := id hu
  rw [clearJobs_eq_fold hu, clearJobs_fold_port (s := { u with queue := s.queue.take 1 }) hu.committing hport,
    List.filterMap_congr hticket, clearedTickets_eq, answeredAll_append]

theorem clearJobs_lease (hu : TablesCleared tk s u) (e : EntryNo) :
    (clearJobs u).lease e =
      if isHeld (s.lease e) = true ∨ s.unstarted.any (Job.isRecordOf e) = true then { s.lease e with lease := none }
      else s.lease e := by
  obtain ⟨-, -, hlease, -, -⟩ := id hu
  have hsame : State.lease { u with queue := s.queue.take 1 } e = u.lease e := rfl
  rw [clearJobs_eq_fold hu, clearJobs_fold_lease, hsame, hlease]
  by_cases hheld : isHeld (s.lease e) = true
  · rw [if_pos hheld, if_pos (c := _ ∨ _) (.inl hheld)]
    simp only [ite_self]
  · rw [if_neg hheld]
    simp only [hheld, Bool.false_eq_true, false_or]

theorem clearJobs_buffer (hu : TablesCleared tk s u) (e : EntryNo) :
    (clearJobs u).buffer e =
      if isHeld (s.lease e) = true ∨ (s.unstarted.any (Job.isRecordOf e) = true ∧ (s.lease e).lease ≠ none) then
        ⟨List.replicate 240 0x00#8, false⟩
      else s.buffer e := by
  obtain ⟨-, -, hlease, hbuffer, -⟩ := id hu
  have hsame : State.lease { u with queue := s.queue.take 1 } e = u.lease e := rfl
  have hsame' : State.buffer { u with queue := s.queue.take 1 } e = u.buffer e := rfl
  rw [clearJobs_eq_fold hu, clearJobs_fold_buffer, hsame, hsame', hlease, hbuffer]
  by_cases hheld : isHeld (s.lease e) = true
  · rw [if_pos hheld, if_pos hheld, if_pos (c := _ ∨ _) (.inl hheld), if_neg fun h => h.2 rfl]
    rfl
  · rw [if_neg hheld, if_neg hheld]
    simp only [hheld, Bool.false_eq_true, false_or]

theorem clearJobs_dirTables (hu : TablesCleared tk s u) :
    (s.unstarted.any Job.isDirectory = false ∨ s.dirSlot = none → dirTables (clearJobs u) = dirTables u)
    ∧ ∀ d, s.unstarted.any Job.isDirectory = true → s.dirSlot = some d →
      dirTables (clearJobs u) = dirTables (undoTaking d u) := by
  have hslot : u.dirSlot = s.dirSlot := by rw [hu.1]
  rw [clearJobs_eq_fold hu]
  constructor
  · intro h
    exact clearJobs_fold_dirTables (s := { u with queue := s.queue.take 1 }) (h.imp id hslot.trans)
  · intro d h hd
    refine (clearJobs_fold_undone (s := { u with queue := s.queue.take 1 }) h (hslot.trans hd)).trans ?_
    exact dirTables_undoTaking (s := u) (t := { u with queue := s.queue.take 1 }) d rfl

theorem record_of_dirTables {s t : State} (h : dirTables t = dirTables s) (k : Handle) : t.record k = s.record k := by
  simp only [dirTables, Prod.mk.injEq] at h
  rw [State.record, State.record, h.1]

/-- Of the records the clear changes the waiters and the pending flags alone. -/
theorem clearJobs_record (hu : TablesCleared tk s u) (k : Handle) :
    { (clearJobs u).record k with
      waiters := (s.record k).waiters, freezePending := (s.record k).freezePending
      retirePending := (s.record k).retirePending } = s.record k := by
  obtain ⟨hkept, hundone⟩ := clearJobs_dirTables hu
  obtain ⟨-, hrecord, -, -, -⟩ := hu
  by_cases hdir : s.unstarted.any Job.isDirectory = false ∨ s.dirSlot = none
  · rw [record_of_dirTables (hkept hdir), hrecord]
  · rw [not_or, Bool.not_eq_false] at hdir
    obtain ⟨hany, hslot⟩ := hdir
    obtain ⟨d, hd⟩ := Option.ne_none_iff_exists'.1 hslot
    rw [record_of_dirTables (hundone d hany hd), undoTaking_record, hrecord]
    rfl

theorem clearJobs_flags (hu : TablesCleared tk s u) (h : s.unstarted.any Job.isDirectory = false ∨ s.dirSlot = none) :
    (clearJobs u).dirSlot = s.dirSlot ∧ (clearJobs u).pageMap = s.pageMap
      ∧ ∀ k, ((clearJobs u).record k).freezePending = (s.record k).freezePending
        ∧ ((clearJobs u).record k).retirePending = (s.record k).retirePending := by
  have hkept := (clearJobs_dirTables hu).1 h
  have hrec := record_of_dirTables hkept
  obtain ⟨hframe, hrecord, -, -, -⟩ := hu
  simp only [dirTables, Prod.mk.injEq] at hkept
  obtain ⟨-, hslot, hmap⟩ := hkept
  refine ⟨hslot.trans (by rw [hframe]), hmap.trans (by rw [hframe]), fun k => ?_⟩
  rw [hrec, hrecord]
  exact ⟨rfl, rfl⟩

theorem clearJobs_undone (hu : TablesCleared tk s u) {d : DirJob} (h : s.unstarted.any Job.isDirectory = true)
    (hd : s.dirSlot = some d) : TakingUndone s d (clearJobs u) := by
  have hundone := (clearJobs_dirTables hu).2 d h hd
  have hrec := record_of_dirTables hundone
  obtain ⟨hframe, hrecord, -, -, -⟩ := hu
  simp only [dirTables, Prod.mk.injEq] at hundone
  obtain ⟨-, hslot, hmap⟩ := hundone
  refine takingUndone_of (hslot.trans (by rw [undoTaking_frame])) (fun k => ?_) ?_
  · rw [hrec, undoTaking_record, hrecord]
    exact ⟨rfl, rfl⟩
  · have hsame : u.pageMap = s.pageMap := by rw [hframe]
    rw [hmap, undoTaking_pageMap, hsame] <;> rfl

end

theorem isHeld_iff {x : LeaseEntry} {l : Lease} (hl : x.lease = some l) : isHeld x = true ↔ l.phase = .held := by
  rw [isHeld, hl, Option.any_some, beq_iff_eq]

section

variable {s u : State} {tk : Ticket}

/-- FREE entries, and those of the job in programming, are kept. -/
theorem clearJobs_kept (hu : TablesCleared tk s u) {e : EntryNo}
    (h : ∀ l, (s.lease e).lease = some l → l.phase = .committing ∧ s.unstarted.any (Job.isRecordOf e) = false) :
    (clearJobs u).lease e = s.lease e ∧ (clearJobs u).buffer e = s.buffer e := by
  rw [clearJobs_lease hu, clearJobs_buffer hu]
  cases hl : (s.lease e).lease with
  | none =>
    have hno : isHeld (s.lease e) = false := by rw [isHeld, hl]; rfl
    have heta : { s.lease e with lease := none } = s.lease e := by rw [← hl]
    rw [heta, ite_self, if_neg fun h => h.elim (fun h' => nomatch hno.symm.trans h') fun h' => h'.2 rfl]
    exact ⟨rfl, rfl⟩
  | some l =>
    obtain ⟨hphase, hany⟩ := h l hl
    have hno : ¬ isHeld (s.lease e) = true := by rw [isHeld_iff hl, hphase]; exact nofun
    rw [hany, if_neg (by simpa using hno), if_neg (by simpa using hno)]
    exact ⟨rfl, rfl⟩

/-- HELD entries, and those of jobs that have not started, are freed. -/
theorem clearJobs_freed (hu : TablesCleared tk s u) {e : EntryNo} {l : Lease} (hl : (s.lease e).lease = some l)
    (h : l.phase = .held ∨ s.unstarted.any (Job.isRecordOf e) = true) :
    ((clearJobs u).lease e).lease = none ∧ (clearJobs u).buffer e = ⟨List.replicate 240 0x00#8, false⟩ := by
  rw [← isHeld_iff hl] at h
  rw [clearJobs_lease hu, clearJobs_buffer hu, if_pos h, if_pos (h.imp id fun hany => ⟨hany, by rw [hl]; exact nofun⟩)]
  exact ⟨rfl, rfl⟩

theorem clearJobs_issue (hu : TablesCleared tk s u) (e : EntryNo) : ((clearJobs u).lease e).issue = (s.lease e).issue := by
  rw [clearJobs_lease hu]
  split <;> rfl

end

theorem reportDrained_waiting {w : State} (h : w.queue ≠ []) : reportDrained w = w := by
  rw [reportDrained]
  split
  · rw [if_neg h]
  · rfl

theorem reportDrained_empty {w : State} {tk : Ticket} (hclear : w.clear = some ⟨tk, .draining⟩) (h : w.queue = []) :
    reportDrained w = drained tk w := by
  simp only [reportDrained, hclear, h, if_true]

/-- Settles O37. -/
theorem factoryClearEmptiesTheTables : Obligations.FactoryClearEmptiesTheTables := by
  unfold Obligations.FactoryClearEmptiesTheTables
  intro s p t serial hplaced hconfig hdev
  have hreq := State.oldestRequest_eq hplaced.1 hplaced.2 (show parseReq 0x43#8 [] = some .factoryClear from rfl)
  have hkind : kindAllowed s.dev (some .factoryClear) = true := by
    obtain hd | hd := hdev <;> rw [hd] <;> rfl
  have howner : ∀ v, ownerOf p ⟨p, t, serial⟩ .factoryClear v = takeFactoryClear ⟨p, t, serial⟩ v := fun _ => rfl
  have hexec := exec_taken hreq (admission_passed hkind (fun _ => hconfig) rfl rfl rfl rfl rfl)
  rw [howner, handOver_eq_handed] at hexec
  have hu := tablesCleared ⟨p, t, serial⟩ (handed s p)
  rw [show exec (.factoryClear p) s = _ from hexec, takeFactoryClear]
  generalize allEntries.foldl revokeEntry _ = u at hu ⊢
  have hframe := clearJobs_frame hu
  have hport : ∀ q, (clearJobs u).port q =
      { posted ((handed s p).port q) (revocations s q) with
        slots := ((answeredAll (handed s p) .cleared (clearedTickets s)).port q).slots
        fifo := ((answeredAll (handed s p) .cleared (clearedTickets s)).port q).fifo } := fun q => by
    rw [clearJobs_port hu]
    show posted ((answeredAll (handed s p) .cleared (clearedTickets s)).port q) (revocations s q) = _
    rw [answeredAll_port, posted_withSlots]
  have hwaiters := clearJobs_waiters hu
  have hrecord := clearJobs_record hu
  have hflags := clearJobs_flags hu
  have hundone := fun d => clearJobs_undone hu (d := d)
  have hissue := clearJobs_issue hu
  have hkept : ∀ e, (s.lease e).lease = none → (clearJobs u).lease e = s.lease e ∧ (clearJobs u).buffer e = s.buffer e :=
    fun e hl => clearJobs_kept hu fun l hl' => nomatch hl.symm.trans hl'
  have hended : ∀ e l, (s.lease e).lease = some l →
      (l.phase = .committing ∧ (s.queue.drop 1).any (Job.isRecordOf e) = false →
        (clearJobs u).lease e = s.lease e ∧ (clearJobs u).buffer e = s.buffer e)
      ∧ (l.phase = .held ∨ (s.queue.drop 1).any (Job.isRecordOf e) = true →
        ((clearJobs u).lease e).lease = none ∧ (clearJobs u).buffer e = ⟨List.replicate 240 0x00#8, false⟩) :=
    fun e l hl => ⟨fun h => clearJobs_kept hu fun l' hl' => Option.some.inj (hl.symm.trans hl') ▸ h, clearJobs_freed hu hl⟩
  generalize clearJobs u = w at *
  have hqueue : w.queue = s.queue.take 1 := by rw [hframe]; rfl
  have halloc : w.allocQueue = [] := by rw [hframe]
  by_cases hq : s.queue = []
  · rw [hq] at hqueue
    rw [reportDrained_empty (by rw [hframe]) hqueue]
    obtain ⟨hslot, -, -⟩ := hflags (.inl (by rw [State.unstarted, show (handed s p).queue = [] from hq]; rfl))
    refine ⟨_, rfl, by rw [hframe]; rfl, hport, fun h => ?_, halloc, hissue, hkept, hended, hqueue.trans (by rw [hq]), ?_,
      fun hne => absurd hq hne, fun _ => ⟨rfl, fun n => ?_, fun h => ?_, rfl, rfl, hslot⟩⟩
    · exact congrArg RecState.waiters (vector_get_replicate _ h)
    · rw [hframe]
      rfl
    · exact vector_get_replicate _ n
    · exact vector_get_replicate _ h
  · have hne : w.queue ≠ [] := by
      rw [hqueue]
      exact fun h => hq (by simpa using h)
    rw [reportDrained_waiting hne]
    refine ⟨w, rfl, by rw [hframe], hport, hwaiters, halloc, hissue, hkept, hended, hqueue, ?_, fun _ => ⟨by rw [hframe],
      by rw [hframe]; rfl, by rw [hframe]; rfl, hrecord, fun j hany hj => ?_, hflags⟩, fun h => absurd h hq⟩
    · rw [hframe]
      rfl
    · obtain ⟨hslot, hflag, hmap, hdefine⟩ := hundone j hany hj
      exact ⟨hslot, hflag, hmap, hdefine⟩

end Sys2Proof.Machine

/-! PROOF. A device reset during a job (02, R26, R35, R36, R38, R41; 09, R159, R169): what the interrupted page operation
leaves, and what the scan then finds. -/

namespace Sys2Proof.Machine

open Sys2Proof.Safety
set_option deprecated.oldSectionVars true

/-! ### Bytes that two stores have in common -/

section

variable {m m' : List Host.Cell}

theorem readBytes_congr {a n : Nat} (h : ∀ i, i < n → Memory.read m' (a + i) = Memory.read m (a + i)) :
    Memory.readBytes m' a n = Memory.readBytes m a n :=
  List.map_congr_left fun i hi => h i (List.mem_range.1 hi)

theorem readBytes_slice (m : List Host.Cell) {a n : Nat} (off len : Nat) (h : off + len ≤ n) :
    Memory.readBytes m (a + off) len = slice (Memory.readBytes m a n) off len := by
  refine readBytes_eq_slice (d := 0x00#8) (by simpa [Memory.readBytes] using h) fun i hi => ?_
  simp [Memory.readBytes, show i < n by omega]

/-- A region's condition, generation and entries rest on its 784 bytes. -/
theorem region_congr {c : Copy} (h : regionBytes m' c = regionBytes m c) :
    regionErased m' c = regionErased m c ∧ regionValid m' c = regionValid m c ∧ regionGen m' c = regionGen m c
      ∧ regionCond m' c = regionCond m c := by
  have hpage : Memory.readPage m' (regionPage c) = Memory.readPage m (regionPage c) := by
    have hfirst := fun m => readBytes_slice m (a := pageAddress (regionPage c)) 0 32 (n := 784) (by omega)
    exact (hfirst m').trans ((congrArg (slice · 0 32) h).trans (hfirst m).symm)
  have herased : regionErased m' c = regionErased m c := by rw [regionErased, regionErased, hpage]
  have hvalid : regionValid m' c = regionValid m c := by rw [regionValid, regionValid, herased, h]
  refine ⟨herased, hvalid, by rw [regionGen, regionGen, h], ?_⟩
  rw [regionCond, regionCond, herased, hvalid]

/-- A copy's validity, generation and data rest on its header and data bytes. -/
theorem copy_congr {first : Nat} {x : RecEntry} (h : coveredBytes m' first x.size.toNat = coveredBytes m first x.size.toNat)
    (k : Handle) :
    copyValid m' k x first = copyValid m k x first ∧ copyGen m' first = copyGen m first
      ∧ copyData m' first x.size.toNat = copyData m first x.size.toNat := by
  have hheader : Memory.readBytes m' (pageAddress first) 16 = Memory.readBytes m (pageAddress first) 16 := by
    have hpart := fun m => readBytes_slice m (a := pageAddress first) 0 16 (n := 16 + x.size.toNat) (by omega)
    exact (hpart m').trans ((congrArg (slice · 0 16) h).trans (hpart m).symm)
  have hdata : copyData m' first x.size.toNat = copyData m first x.size.toNat := by
    have hpart := fun m => readBytes_slice m (a := pageAddress first) 16 x.size.toNat (n := 16 + x.size.toNat) (Nat.le_refl _)
    exact (hpart m').trans ((congrArg (slice · 16 x.size.toNat) h).trans (hpart m).symm)
  refine ⟨?_, by rw [copyGen, copyGen, hheader], hdata⟩
  rw [copyValid, copyValid, hheader, hdata]

end

/-! ### What the interrupted page operation leaves -/

section

variable {s : State} {page : Nat} {whole : List Byte} {m' : List Host.Cell}

/-- `m'` is what the abandoned page operation leaves of the store of `s`. -/
def Interrupted (s : State) (page : Nat) (whole : List Byte) (m' : List Host.Cell) : Prop :=
  m' = (spoilPage page whole s).store

/-- `m` is the store before the operation or with it finished. -/
abbrev OldOrWhole (s : State) (page : Nat) (whole : List Byte) (m : List Host.Cell) : Prop :=
  m = s.store ∨ m = Memory.writePage s.store page whole

theorem deviceReset_interrupted {c : Instr} (hc : isDeviceReset c = true) (hclear : ∀ y, s.clear = some y → y.phase = .draining)
    (hp : s.pageInProgress = some (page, whole)) : ∃ t, exec c s = .next t ∧ Interrupted s page whole t.store := by
  obtain ⟨t, hexec, -, hstore⟩ := exec_deviceReset_afresh c s hc
  rw [abandonErase_eq_self (by rwa [abandonPage_clear])] at hstore
  refine ⟨t, hexec, hstore.trans ?_⟩
  simp only [abandonPage, hp]

/-- A region away from the page stands. -/
theorem Interrupted.region_outside (hm : Interrupted s page whole m') {c : Copy} (hout : ¬ InRun 25 (regionPage c) page) :
    regionBytes m' c = regionBytes s.store c := by
  refine readBytes_congr fun i hi => ?_
  rw [hm]
  refine spoilPage_read page whole s ?_
  rw [pageAddress]
  rintro rfl
  exact hout ⟨by omega, by omega⟩

/-- A copy away from the page stands. -/
theorem Interrupted.copy_outside (hm : Interrupted s page whole m') {first size : Nat}
    (hout : ¬ InRun ((size + 16 + 31) / 32) first page) : coveredBytes m' first size = coveredBytes s.store first size := by
  refine readBytes_congr fun i hi => ?_
  rw [hm]
  refine spoilPage_read page whole s ?_
  rw [pageAddress]
  rintro rfl
  exact hout ⟨by omega, by omega⟩

/-- A region that the scan finds valid is the old one or the finished one (02, R41). -/
theorem Interrupted.region (hm : Interrupted s page whole m') {c : Copy} (hv : regionValid m' c = true) :
    ∃ m, OldOrWhole s page whole m ∧ regionBytes m' c = regionBytes m c := by
  rw [hm] at hv ⊢
  exact spoilPage_region page whole s hv

/-- A copy of a record that the scan finds valid is the old one or the finished one (02, R35, R36, R38). -/
theorem Interrupted.copy (hm : Interrupted s page whole m') {h : Handle} {x : RecEntry}
    (hx : (scannedEntries m').getD h.val none = some x) {c : Copy} (hv : copyValid m' h x (x.firstPage c) = true) :
    ∃ m, OldOrWhole s page whole m
      ∧ coveredBytes m' (x.firstPage c) x.size.toNat = coveredBytes m (x.firstPage c) x.size.toNat := by
  obtain ⟨m, hspoil, hcase⟩ := spoilPage_cases page whole s
  have hm : m' = m := by rw [hm, hspoil]
  subst hm
  obtain hold | ⟨-, hallowed⟩ := hcase
  · exact ⟨s.store, .inl rfl, by rw [hold]⟩
  · simp only [outcomeAllowed, Bool.and_eq_true, List.all_eq_true] at hallowed
    obtain ⟨-, hcopies⟩ := hallowed
    have hboth := hcopies h (List.mem_finRange h)
    rw [hx, Option.all_some, Bool.and_eq_true] at hboth
    have hcopy : copyAllowed s.store (Memory.writePage s.store page whole) m' h x c = true := by
      obtain ⟨ha, hb⟩ := hboth
      cases c
      · exact ha
      · exact hb
    simp only [copyAllowed, hv, Bool.not_true, Bool.false_or, Bool.or_eq_true, beq_iff_eq] at hcopy
    obtain hcopy | hcopy := hcopy
    · exact ⟨_, .inl rfl, hcopy⟩
    · exact ⟨_, .inr rfl, hcopy⟩

end

theorem other_other (c : Copy) : other (other c) = c := by cases c <;> rfl

/-! ### The scan -/

section

variable {u : State} (hact : u.active = true) (hdev : u.dev = .starting)
include hact hdev

/-- What the scan of a store with a chosen region leaves (09, R158, R160, R161). -/
theorem scan_region {c : Copy} (hc : chooseDirectory u.store = .region c) :
    ∃ v, exec .scanEnd u = .next v ∧ v.dev = .ready ∧ v.activeDir = some c ∧ v.dirGen = regionGen u.store c
      ∧ v.store = u.store ∧ EntriesRead v u.store c
      ∧ ∀ h x, Defined v h x → v.record h = scanRecord u.store h (some x) := by
  refine ⟨_, exec_scanEnd_region hact hdev hc, rfl, rfl, rfl, rfl, takeRegion_entriesRead c u, fun h x hx => ?_⟩
  exact (takeRegion_record c u h).trans (congrArg (scanRecord u.store h) hx)

theorem scan_nothing (hc : chooseDirectory u.store = .nothing) :
    ∃ v, exec .scanEnd u = .next v ∧ v.dev = .ready ∧ v.activeDir = none ∧ v.dirGen = 0#32
      ∧ ∀ h, (v.record h).entry = none :=
  ⟨_, exec_scanEnd_nothing hact hdev hc, rfl, rfl, rfl, fun h => congrArg RecState.entry (takeEmpty_record u h)⟩

end

/-- The committed data of a record that the scan has brought up. -/
theorem committedData_scanned {v : State} {h : Handle} {x : RecEntry} (hx : v.record h = scanRecord v.store h (some x)) :
    v.committedData h =
      match chooseCopy v.store h x with
      | none => List.replicate x.size.toNat 0x00#8
      | some c => copyData v.store (x.firstPage c) x.size.toNat := by
  have hactive : (v.record h).active = chooseCopy v.store h x := by rw [hx]; rfl
  have hentry : v.entryOf h = x := by rw [State.entryOf, hx]; rfl
  rw [State.committedData, hactive, hentry] <;> rfl

/-! ### A record job -/

section

variable {m : List Host.Cell} {h : Handle} {x : RecEntry} {k : Copy} {g gen : Word32}

/-- With one copy at generation `g`, or none and `g` 0, the scan chooses the other when it is valid at a later one. -/
theorem chooseCopy_later (hk : copyValid m h x (x.firstPage k) = true) (hgen : g < copyGen m (x.firstPage k))
    (ho : copyValid m h x (x.firstPage (other k)) = true → copyGen m (x.firstPage (other k)) = g) :
    chooseCopy m h x = some k := by
  refine chooseCopy_some hk ?_
  cases hv : copyValid m h x (x.firstPage (other k)) with
  | false => exact .inl rfl
  | true => exact .inr (.inl (by rwa [ho hv]))

theorem chooseCopy_kept (hk : copyValid m h x (x.firstPage k) = true → copyGen m (x.firstPage k) < g)
    (ho : (copyValid m h x (x.firstPage (other k)) = true ∧ copyGen m (x.firstPage (other k)) = g)
      ∨ (copyValid m h x (x.firstPage (other k)) = false ∧ g = 0#32)) :
    chooseCopy m h x = if copyValid m h x (x.firstPage (other k)) = true then some (other k) else none := by
  obtain ⟨hv, hg⟩ | ⟨hv, hg⟩ := ho
  · rw [if_pos hv]
    refine chooseCopy_some hv ?_
    rw [other_other]
    cases hk' : copyValid m h x (x.firstPage k) with
    | false => exact .inl rfl
    | true => exact .inr (.inl (by rw [hg]; exact hk hk'))
  · have hnone : copyValid m h x (x.firstPage k) = false := by
      by_contra hne
      have hlt := hk (by simpa using hne)
      rw [hg, BitVec.lt_def] at hlt
      exact Nat.not_lt_zero _ hlt
    rw [hv, if_neg nofun]
    refine chooseCopy_none fun c => ?_
    cases c <;> cases k <;> assumption

end

section

variable {s : State} {page : Nat} {whole : List Byte} {m' : List Host.Cell} {h : Handle} {x : RecEntry} {k : Copy}
  {g gen : Word32}

/-- After the interrupted operation the scan chooses the copy that was in force, or the target copy with its job's
generation (02, R35, R36, R38). -/
theorem Interrupted.chooseCopy (hm : Interrupted s page whole m') (hx : (scannedEntries m').getD h.val none = some x)
    (hout : ¬ InRun ((x.size.toNat + 16 + 31) / 32) (x.firstPage (other k)) page) (hlt : g < gen)
    (hold : (copyValid s.store h x (x.firstPage (other k)) = true ∧ copyGen s.store (x.firstPage (other k)) = g)
      ∨ (copyValid s.store h x (x.firstPage (other k)) = false ∧ g = 0#32))
    (hgens : ∀ m, OldOrWhole s page whole m → copyValid m h x (x.firstPage k) = true →
      copyGen m (x.firstPage k) < g ∨ copyGen m (x.firstPage k) = gen) :
    Machine.chooseCopy m' h x = (if copyValid s.store h x (x.firstPage (other k)) = true then some (other k) else none)
      ∨ (Machine.chooseCopy m' h x = some k ∧ copyGen m' (x.firstPage k) = gen
        ∧ ∃ m, OldOrWhole s page whole m
          ∧ copyData m' (x.firstPage k) x.size.toNat = copyData m (x.firstPage k) x.size.toNat) := by
  obtain ⟨hov, hog, -⟩ := copy_congr (hm.copy_outside hout) h
  rw [← hov, ← hog] at hold
  rw [← hov]
  by_cases hv : copyValid m' h x (x.firstPage k) = true
  · obtain ⟨m, hmo, hbytes⟩ := hm.copy hx hv
    obtain ⟨hmv, hmg, hmd⟩ := copy_congr hbytes h
    obtain hless | hgen := hgens m hmo (hmv ▸ hv)
    · exact .inl (chooseCopy_kept (fun _ => by rwa [hmg]) hold)
    · rw [← hmg] at hgen
      refine .inr ⟨chooseCopy_later hv (by rwa [hgen]) fun hov' => ?_, hgen, m, hmo, hmd⟩
      obtain ⟨-, hg⟩ | ⟨hno, -⟩ := hold
      · exact hg
      · exact nomatch hno.symm.trans hov'
  · exact .inl (chooseCopy_kept (fun hv' => absurd hv' hv) hold)

/-! ### A directory job -/

/-- After the interrupted operation the scan takes the region that was in force, or the target region with its job's
generation (02, R41). -/
theorem Interrupted.chooseRegion (hm : Interrupted s page whole m')
    (hout : ¬ InRun 25 (regionPage (other k)) page) (hlt : g < gen) (hvalid : regionCond s.store (other k) = .valid)
    (hold : regionGen s.store (other k) = g)
    (hgens : ∀ m, OldOrWhole s page whole m → regionCond m k = .valid → regionGen m k < g ∨ regionGen m k = gen) :
    chooseDirectory m' = .region (other k)
      ∨ (chooseDirectory m' = .region k ∧ regionGen m' k = gen
        ∧ ∃ m, OldOrWhole s page whole m ∧ regionBytes m' k = regionBytes m k) := by
  obtain ⟨-, -, hog, hoc⟩ := region_congr (hm.region_outside hout)
  rw [← hoc] at hvalid
  rw [← hog] at hold
  by_cases hv : regionCond m' k = .valid
  · obtain ⟨m, hmo, hbytes⟩ := hm.region (regionCond_valid_iff.1 hv)
    obtain ⟨-, -, hmg, hmc⟩ := region_congr hbytes
    obtain hless | hgen := hgens m hmo (hmc ▸ hv)
    · exact .inl (chooseDirectory_region hvalid (.inr (.inl (by rwa [other_other, hold, hmg]))))
    · rw [← hmg] at hgen
      exact .inr ⟨chooseDirectory_region hv (.inr (.inl (by rwa [hold, hgen]))), hgen, m, hmo, hbytes⟩
  · exact .inl (chooseDirectory_region hvalid (.inl (by rwa [other_other])))

/-- With no directory before the job, the scan finds the empty directory, the job's, or DAMAGED. -/
theorem Interrupted.chooseFirstRegion (hm : Interrupted s page whole m')
    (hout : ¬ InRun 25 (regionPage (other k)) page) (herased : regionCond s.store (other k) = .erased)
    (hgens : ∀ m, OldOrWhole s page whole m → regionCond m k = .valid → regionGen m k < 0#32 ∨ regionGen m k = gen) :
    chooseDirectory m' = .nothing ∨ chooseDirectory m' = .damaged
      ∨ (chooseDirectory m' = .region k ∧ regionGen m' k = gen
        ∧ ∃ m, OldOrWhole s page whole m ∧ regionBytes m' k = regionBytes m k) := by
  obtain ⟨-, -, -, hoc⟩ := region_congr (hm.region_outside hout)
  rw [← hoc] at herased
  have hboth : ∀ {P : Copy → Prop}, P k → P (other k) → ∀ c, P c := fun hk ho c => by
    cases c <;> cases k <;> assumption
  have hno : regionCond m' (other k) ≠ .valid := by rw [herased]; exact nofun
  cases hv : regionCond m' k with
  | erased => exact .inl (chooseDirectory_nothing (hboth hv herased))
  | spoiled =>
    exact .inr (.inl (chooseDirectory_damaged (hboth (by rw [hv]; exact nofun) hno) ⟨k, hv⟩))
  | valid =>
    obtain ⟨m, hmo, hbytes⟩ := hm.region (regionCond_valid_iff.1 hv)
    obtain ⟨-, -, hmg, hmc⟩ := region_congr hbytes
    obtain hless | hgen := hgens m hmo (hmc ▸ hv)
    · rw [BitVec.lt_def] at hless
      exact absurd hless (Nat.not_lt_zero _)
    · exact .inr (.inr ⟨chooseDirectory_region hv (.inl hno), hmg.trans hgen, m, hmo, hbytes⟩)

end

theorem entriesRead_congr {v : State} {m m' : List Host.Cell} {c : Copy} (h : regionBytes m' c = regionBytes m c)
    (hread : EntriesRead v m' c) : EntriesRead v m c := fun k => by rw [← h]; exact hread k

/-- Settles O45. -/
theorem interruptedJobLeavesOldOrNew : Obligations.InterruptedJobLeavesOldOrNew := by
  unfold Obligations.InterruptedJobLeavesOldOrNew
  constructor
  · intro c s e h x k r pages g gen rest page whole hc hclear hq hp hpage hin hpages hout hlt hr hor hx hold hgens
    obtain ⟨t, hexec, hm⟩ := deviceReset_interrupted hc hclear hp
    refine ⟨t, hexec, fun u hstore hact hdev => ?_⟩
    generalize t.store = m' at hm hstore
    subst hstore
    have hregion : ∀ c, regionBytes u.store c = regionBytes s.store c := fun c =>
      hm.region_outside (by cases c <;> simp only [regionPage] <;> omega)
    have hchoice : chooseDirectory u.store = .region r := by
      obtain ⟨-, -, hrg, hrc⟩ := region_congr (hregion r)
      obtain ⟨-, -, hog, hoc⟩ := region_congr (hregion (other r))
      exact chooseDirectory_region (hrc.trans hr) (by rwa [hoc, hog, hrg])
    obtain ⟨v, hscan, hready, -, -, hvstore, hread, hrecord⟩ := scan_region hact hdev hchoice
    have hdefined : Defined v h x := (hread h).trans (by rw [hregion]; exact hx)
    have hscanned : (scannedEntries u.store).getD h.val none = some x := by
      rw [scannedEntries, hchoice]
      exact (readEntries_getD _ h).trans (by rw [hregion]; exact hx)
    have hrec := hrecord h x hdefined
    have hdata := committedData_scanned (v := v) (by rw [hvstore]; exact hrec)
    rw [hvstore] at hdata
    rw [hpages] at hout
    refine ⟨v, hscan, hready, hdefined, ?_⟩
    have hvgen : (v.record h).gen = (chooseCopy u.store h x).elim 0#32 fun c => copyGen u.store (x.firstPage c) := by
      rw [hrec]
      exact scanRecord_gen _ _ _
    have hvactive : (v.record h).active = chooseCopy u.store h x := by rw [hrec]; rfl
    rw [hvgen, hvactive, hdata]
    obtain hkept | ⟨hnew, hgen, m, hmo, hbytes⟩ := hm.chooseCopy hscanned hout hlt hold hgens
    · obtain ⟨-, hog, hod⟩ := copy_congr (hm.copy_outside hout) h
      rw [hkept]
      refine .inl ?_
      obtain ⟨hv, hg⟩ | ⟨hv, hg⟩ := hold
      · rw [if_pos hv, if_pos hv]
        exact ⟨hog.trans hg, rfl, hod⟩
      · rw [hv]
        exact ⟨hg.symm, rfl, rfl⟩
    · rw [hnew]
      exact .inr ⟨hgen, rfl, m, hmo, hbytes⟩
  · intro c s d k g gen rest page whole hc hclear hq hp hin hlt hgens
    obtain ⟨t, hexec, hm⟩ := deviceReset_interrupted hc hclear hp
    have hout : ¬ InRun 25 (regionPage (other k)) page := by
      cases k <;> simp only [other, regionPage, InRun] at hin ⊢ <;> omega
    constructor
    · intro hvalid hold
      refine ⟨t, hexec, fun u hstore hact hdev => ?_⟩
      generalize t.store = m' at hm hstore
      subst hstore
      obtain hkept | ⟨hnew, hgen, m, hmo, hbytes⟩ := hm.chooseRegion hout hlt hvalid hold hgens
      · obtain ⟨v, hscan, hready, hdir, hvgen, -, hread, -⟩ := scan_region hact hdev hkept
        have hsame := hm.region_outside hout
        exact ⟨v, hscan, hready, .inl ⟨hdir, hvgen.trans ((region_congr hsame).2.2.1.trans hold),
          entriesRead_congr hsame hread⟩⟩
      · obtain ⟨v, hscan, hready, hdir, hvgen, -, hread, -⟩ := scan_region hact hdev hnew
        exact ⟨v, hscan, hready, .inr ⟨hdir, hvgen.trans hgen, m, hmo, entriesRead_congr hbytes hread⟩⟩
    · intro herased hzero
      subst hzero
      refine ⟨t, hexec, fun u hstore hact hdev => ?_⟩
      generalize t.store = m' at hm hstore
      subst hstore
      obtain hempty | hdamaged | ⟨hnew, hgen, m, hmo, hbytes⟩ := hm.chooseFirstRegion hout herased hgens
      · obtain ⟨v, hscan, hready, hdir, hvgen, hentries⟩ := scan_nothing hact hdev hempty
        exact ⟨v, hscan, .inl ⟨hready, hdir, hvgen, hentries⟩⟩
      · exact ⟨_, exec_scanEnd_damaged hact hdev hdamaged, .inr (.inr rfl)⟩
      · obtain ⟨v, hscan, hready, hdir, hvgen, -, hread, -⟩ := scan_region hact hdev hnew
        exact ⟨v, hscan, .inr (.inl ⟨hready, hdir, hvgen.trans hgen, m, hmo, entriesRead_congr hbytes hread⟩)⟩

end Sys2Proof.Machine
